-- ==== Sys2Proof/Word.lean ====
section
/-!
DEFINITION. The words of the hardware: 8-bit bytes and 32-bit operands, results, sizes and addresses
(00_scope.md R7, R9; 10_state.md R36). Sums and comparisons of the rules are written in `Nat`, as R9 asks.
-/

namespace Sys2Proof

/-- A byte of memory, of a payload, or an 8-bit register (R7). -/
abbrev Byte := BitVec 8

/-- A 32-bit register, operand, size or address (R36). -/
abbrev Word := BitVec 32

end Sys2Proof
end

