-- ==== Sys2Proof/Syntax.lean ====
section
/-!
DEFINITION. The instructions: one constructor per row of spec/opcode_table.json, with every field the row's
encoding gives it. Three layers share the type, as the spec says (30_encoding.md R90): the host's commands,
the block header, and the payload tokens (with the packed element).
-/

namespace Sys2Proof

/-- The instructions, in the order of spec/opcode_table.json. -/
inductive Instr where
  -- Format CMD (R91, R92): an 8-bit code; the operands are in `ARG[0..5]`.
  /-- 0x01, R152. -/
  | getType
  /-- 0x02, R153. -/
  | getSize
  /-- 0x03, R326. -/
  | uncompressAny
  /-- 0x10, R328. -/
  | ctxInit
  /-- 0x11, R331. -/
  | ctxRead
  /-- 0x12, R334. -/
  | ctxFinished
  /-- 0x13, R335. -/
  | ctxDiscard
  /-- 0x14, R336. -/
  | ctxQuery
  /-- 0x20, R132. -/
  | packGet
  /-- 0x21, R134. -/
  | packSet
  /-- 0x30, R194. -/
  | lzFind
  /-- 0x31, R200. -/
  | lzCompress
  /-- 0x40, R262. -/
  | hufBuild
  /-- 0x41, R268. -/
  | hufLoad
  /-- Every 8-bit code R92 does not list (R91). -/
  | cmdUnknown (code : Byte)
  -- Format HDR (R93 to R97): byte 0 is tag and flags, bytes 1..4 the size, little-endian.
  /-- Byte 0 = 0x00, store. -/
  | hdrNone (size : Word)
  /-- Byte 0 = 0x10, plain LZ. -/
  | hdrLz (size : Word)
  /-- Byte 0 = 0x11, extended LZ. -/
  | hdrLzx (size : Word)
  /-- Byte 0 = 0x24, Huffman with 4-bit symbols. -/
  | hdrHuf4 (size : Word)
  /-- Byte 0 = 0x28, Huffman with 8-bit symbols. -/
  | hdrHuf8 (size : Word)
  /-- Byte 0 = 0x30, run-length. -/
  | hdrRl (size : Word)
  /-- Byte 0 = 0x40, FastLZ. -/
  | hdrFlz (size : Word)
  /-- The Dif bit set over a base type 0..4 (R324). -/
  | hdrDif (base : BitVec 3) (flags : BitVec 4) (size : Word)
  /-- Base type 5, 6 or 7, whatever the Dif bit (R97). -/
  | hdrUnrecognised (tag : BitVec 4) (flags : BitVec 4) (size : Word)
  /-- A recognised base type without Dif whose flags nibble is not legal for it (R95, R323). -/
  | hdrBadFlags (base : BitVec 3) (flags : BitVec 4) (size : Word)
  -- Payload tokens.
  /-- The payload of a store block: the data itself (R156). -/
  | bytes (data : List Byte)
  /-- RLE literal run: a control byte `0nnnnnnn` and the run's n+1 bytes (R98). -/
  | rltLits (data : List Byte)
  /-- RLE repeat run `1nnnnnnn vvvvvvvv`: n+3 copies of v (R98). -/
  | rltRun (n : BitVec 7) (v : Byte)
  /-- LZ flag byte: bit 7-i is the kind of token i (R99). -/
  | lztFlags (f : Byte)
  /-- LZ literal (R100). -/
  | lztLit (b : Byte)
  /-- Plain back-reference: l = len - 3, o = off - 1 (R101). -/
  | lztRef (l : BitVec 4) (o : BitVec 12)
  /-- Extended back-reference: l = len - 3, o = off - 1 (R102). -/
  | lzxtRef (l : Byte) (o : BitVec 16)
  /-- FastLZ literal run: an operation byte `000nnnnn` and the run's n+1 bytes (R104). -/
  | fltLits (data : List Byte)
  /-- FastLZ short match: k in 1..6, len = k + 2, o = off - 1 (R105). -/
  | fltMatchShort (k : BitVec 3) (o : BitVec 13)
  /-- FastLZ long match: len = 9 + e, o = off - 1 (R106). -/
  | fltMatchLong (e : Byte) (o : BitVec 13)
  /-- Huffman table byte j: l = len[2j], h = len[2j+1] (R107). -/
  | hftByte (l h : BitVec 4)
  /-- One byte of the Huffman code stream, bit 0 first (R108, R293). -/
  | hfcCode (x : Byte)
  /-- A packed element: `bits` wide, number `index` (R110, R131). -/
  | pkvElement (bits index : Word)
  deriving DecidableEq, Repr

/-- Which format the next bytes are read in (R114): what the command interface, the header and the decoder's
place in the payload select. -/
inductive Format where
  /-- A command code written to `CMD` (R91). -/
  | cmd
  /-- A block header (R93). -/
  | hdr
  /-- The payload of a store block of `size` bytes (R156). -/
  | store (size : Nat)
  /-- An RLE control byte comes next (R98). -/
  | rlt
  /-- An LZ flag byte comes next (R99). -/
  | lzFlag
  /-- An LZ literal comes next: the flag bit is 0 (R100). -/
  | lzLit
  /-- A plain back-reference comes next: the flag bit is 1 (R101). -/
  | lzRef
  /-- An extended back-reference comes next: the flag bit is 1 (R102). -/
  | lzxRef
  /-- A FastLZ operation byte comes next (R103). -/
  | flt
  /-- A byte of the code-length table comes next (R107). -/
  | hft
  /-- A byte of the code stream comes next (R108). -/
  | hfc
  /-- Element `index` of an array of `bits`-wide elements: the caller supplies both (R110). -/
  | pkv (bits index : Word)
  deriving DecidableEq, Repr

/-- The five header bytes as fields (R93, R151). -/
structure Header where
  /-- Byte 0: tag in bits 7:4, flags in bits 3:0. -/
  b0   : Byte
  /-- Bytes 1..4, little-endian. -/
  size : Word
  deriving DecidableEq, Repr

/-- `kind` of a context (R23). -/
inductive Kind where
  | rl | lz | huff
  deriving DecidableEq, Repr

/-- `phase` of a context (R27). -/
inductive Phase where
  | rlCtrl | rlLit | rlVal | lzFlag | lzToken | lzRef1 | lzRef2
  | flOp | flLit | flExt | flOff | hfTable | hfData
  deriving DecidableEq, Repr

end Sys2Proof
end

