-- ==== Sys2Proof/Config.lean ====
section
/-!
DEFINITION. The implementation parameters of 00_scope.md R6, the two defaults the spec gives for parameters it
leaves open, what an unlisted byte of memory reads as, and the free values.
-/

namespace Sys2Proof

/-- `BITS_MIN`, R6. -/
def Config.bitsMin : Nat := 1
/-- `BITS_MAX`, R6. -/
def Config.bitsMax : Nat := 32
/-- `LZ_MIN`, R6: the shortest back-reference. -/
def Config.lzMin : Nat := 3
/-- `LZ_MAXLEN`, R6. -/
def Config.lzMaxLen : Nat := 18
/-- `LZ_WIN`, R6. -/
def Config.lzWin : Nat := 4096
/-- `LZX_MAXLEN`, R6. -/
def Config.lzxMaxLen : Nat := 258
/-- `LZX_WIN`, R6. -/
def Config.lzxWin : Nat := 65536
/-- `HUF_MAXLEN`, R6. -/
def Config.hufMaxLen : Nat := 15
/-- `HUF_N4`, R6. -/
def Config.hufN4 : Nat := 16
/-- `HUF_N8`, R6. -/
def Config.hufN8 : Nat := 256
/-- The halving rounds R265 and R420 bound: every weight is 1 after 32. -/
def Config.maxRounds : Nat := 32

/-- Default of the open parameter `NCTX` (R6). DESIGN CHOICE (log 6), unsafe where a claim is about reset only: a
machine's slots are those of its State, and reset gives it the spec's default number. -/
def Config.nctxDefault : Nat := 4
/-- Default of the open parameter `D_FAST` (R6). DESIGN CHOICE (log 7), unsafe where a claim is about reset only:
the step reads the field `dFast` of State. -/
def Config.dFastDefault : Nat := 256

/-- What a byte of memory that is not listed reads as. DESIGN CHOICE (log 1), unsafe: the spec gives no contents. -/
def Config.fillByte : Byte := 0

/-- FREE VALUE (log 4), safe: byte `i` of the destination after an `LZ_COMPRESS` that returned 0 or raised
`E_DST_TOO_SMALL` (R200, U5); `n` is the counter of State. -/
opaque Config.freeByte (n i : Nat) : Byte

/-- FREE VALUE (log 3), safe: the bits of field number `f` of a slot after `CTX_DISCARD` (R335, U12). -/
opaque Config.freeBits (n f : Nat) : BitVec 64

/-- FREE VALUE (log 3), safe: `kind` of a slot after `CTX_DISCARD`; all that is said of it is that it is a `Kind`. -/
def Config.freeKind (n : Nat) : Kind :=
  if Config.freeBits n 0 = 0 then .rl else if Config.freeBits n 0 = 1 then .lz else .huff

/-- FREE VALUE (log 3), safe: `phase` of a slot after `CTX_DISCARD`. -/
def Config.freePhase (n : Nat) : Phase :=
  match (Config.freeBits n 1).toNat % 13 with
  | 0 => .rlCtrl | 1 => .rlLit | 2 => .rlVal | 3 => .lzFlag | 4 => .lzToken | 5 => .lzRef1 | 6 => .lzRef2
  | 7 => .flOp | 8 => .flLit | 9 => .flExt | 10 => .flOff | 11 => .hfTable | _ => .hfData

end Sys2Proof
end

