-- ==== Sys2Proof/Decode.lean ====
section
/-!
DEFINITION. The decoder and, after it, the encoder: 30_encoding.md R91 to R110, bit by bit. Both are total. The
decoder is given the format the next bytes are read in (R111, R114): the spec's encodings are not
self-describing, the command interface, the header and the decoder's phase select among them.
-/

namespace Sys2Proof

/-! ### Fields -/

/-- Bytes 1..4 of a header as a number, byte 1 lowest (R61, R93). -/
def wordOfBytes (b0 b1 b2 b3 : Byte) : Word := b3 ++ b2 ++ b1 ++ b0

/-- Byte `i` of a 32-bit value, `i = 0` lowest (R61). -/
def byteOfWord (w : Word) (i : Nat) : Byte := w.extractLsb' (8 * i) 8

/-- `tag`, byte 0 bits 7:4 (R93). -/
def Header.tag (h : Header) : BitVec 4 := h.b0.extractLsb' 4 4
/-- `flags`, byte 0 bits 3:0 (R93). -/
def Header.flags (h : Header) : BitVec 4 := h.b0.extractLsb' 0 4
/-- Base type, `tag[2:0]` (R94, R151). -/
def Header.base (h : Header) : BitVec 3 := h.b0.extractLsb' 4 3
/-- The Dif flag bit, `tag[3]` (R94, R151). -/
def Header.dif (h : Header) : Bool := h.b0.getLsbD 7
/-- A header is recognised when its base type is at most 4 (R94, R151). -/
def Header.recognised (h : Header) : Bool := decide (h.base.toNat ≤ 4)

/-- Byte 0 from its two nibbles (R93). -/
def headerByte (tag flags : BitVec 4) : Byte := tag ++ flags

/-- The table of legal flags values (R95, R323). -/
def legalFlags (base : BitVec 3) (flags : BitVec 4) : Bool :=
  if base = 1 then decide (flags = 0 ∨ flags = 1)
  else if base = 2 then decide (flags = 4 ∨ flags = 8)
  else decide (base.toNat ≤ 4 ∧ flags = 0)

/-- The command codes of R92, in the table's order. -/
def commandCodes : List Byte :=
  [0x01, 0x02, 0x03, 0x10, 0x11, 0x12, 0x13, 0x14, 0x20, 0x21, 0x30, 0x31, 0x40, 0x41]

/-- Length field of a plain back-reference, `B0[7:4]` (R101). -/
def plainLenField (b0 : Byte) : BitVec 4 := b0.extractLsb' 4 4
/-- Offset field of a plain back-reference, `(B0[3:0] << 8) | B1` (R101). -/
def plainOffField (b0 b1 : Byte) : BitVec 12 := b0.extractLsb' 0 4 ++ b1
/-- Offset field of an extended back-reference, `(B1 << 8) | B2` (R102). -/
def extOffField (b1 b2 : Byte) : BitVec 16 := b1 ++ b2
/-- Kind bits of a FastLZ operation byte, `C[7:5]` (R103). -/
def fastKind (c : Byte) : BitVec 3 := c.extractLsb' 5 3
/-- Offset field of a FastLZ match, `(C[4:0] << 8) | B1` (R105, R106). -/
def fastOffField (c b1 : Byte) : BitVec 13 := c.extractLsb' 0 5 ++ b1

/-! ### The decoder -/

/-- Why bytes are not an instruction. -/
inductive DecodeError where
  /-- Fewer bytes than the instruction has. -/
  | truncated
  /-- A packed element of a width outside 1..32 (R110). -/
  | badWidth
  deriving DecidableEq, Repr

/-- The command a code stands for (R92); every other code is `CMD.unknown` (R91). -/
def decodeCommand (c : Byte) : Instr :=
  if c = 0x01 then .getType
  else if c = 0x02 then .getSize
  else if c = 0x03 then .uncompressAny
  else if c = 0x10 then .ctxInit
  else if c = 0x11 then .ctxRead
  else if c = 0x12 then .ctxFinished
  else if c = 0x13 then .ctxDiscard
  else if c = 0x14 then .ctxQuery
  else if c = 0x20 then .packGet
  else if c = 0x21 then .packSet
  else if c = 0x30 then .lzFind
  else if c = 0x31 then .lzCompress
  else if c = 0x40 then .hufBuild
  else if c = 0x41 then .hufLoad
  else .cmdUnknown c

/-- The header row five header bytes belong to (R94 to R97): unrecognised first, then Dif, then the accepted
values of byte 0, then reserved flags. -/
def decodeHeader (h : Header) : Instr :=
  if h.recognised = false then .hdrUnrecognised h.tag h.flags h.size
  else if h.dif then .hdrDif h.base h.flags h.size
  else if h.b0 = 0x00 then .hdrNone h.size
  else if h.b0 = 0x10 then .hdrLz h.size
  else if h.b0 = 0x11 then .hdrLzx h.size
  else if h.b0 = 0x24 then .hdrHuf4 h.size
  else if h.b0 = 0x28 then .hdrHuf8 h.size
  else if h.b0 = 0x30 then .hdrRl h.size
  else if h.b0 = 0x40 then .hdrFlz h.size
  else .hdrBadFlags h.base h.flags h.size

/-- `n` data bytes handed to a constructor, or `truncated`. -/
def decodeRun (n : Nat) (mk : List Byte → Instr) (rest : List Byte) : Except DecodeError (Instr × List Byte) :=
  if rest.length < n then .error .truncated else .ok (mk (rest.take n), rest.drop n)

/-- An RLE token (R98): bit 7 of the control byte selects. -/
def decodeRlt : List Byte → Except DecodeError (Instr × List Byte)
  | [] => .error .truncated
  | c :: rest =>
    if c.getLsbD 7 then
      match rest with
      | v :: rest => .ok (.rltRun (c.extractLsb' 0 7) v, rest)
      | [] => .error .truncated
    else decodeRun ((c.extractLsb' 0 7).toNat + 1) .rltLits rest

/-- A FastLZ operation (R103 to R106): `C[7:5]` selects. -/
def decodeFlt : List Byte → Except DecodeError (Instr × List Byte)
  | [] => .error .truncated
  | c :: rest =>
    if fastKind c = 0 then decodeRun ((c.extractLsb' 0 5).toNat + 1) .fltLits rest
    else if fastKind c = 7 then
      match rest with
      | e :: b1 :: rest => .ok (.fltMatchLong e (fastOffField c b1), rest)
      | _ => .error .truncated
    else
      match rest with
      | b1 :: rest => .ok (.fltMatchShort (fastKind c) (fastOffField c b1), rest)
      | [] => .error .truncated

/-- The decoder: the instruction the bytes are in a format, and the bytes after it; total, refusing by name. -/
def decode : Format → List Byte → Except DecodeError (Instr × List Byte)
  | .cmd, c :: rest => .ok (decodeCommand c, rest)
  | .hdr, b0 :: b1 :: b2 :: b3 :: b4 :: rest => .ok (decodeHeader ⟨b0, wordOfBytes b1 b2 b3 b4⟩, rest)
  | .store n, bs => decodeRun n .bytes bs
  | .rlt, bs => decodeRlt bs
  | .lzFlag, f :: rest => .ok (.lztFlags f, rest)
  | .lzLit, b :: rest => .ok (.lztLit b, rest)
  | .lzRef, b0 :: b1 :: rest => .ok (.lztRef (plainLenField b0) (plainOffField b0 b1), rest)
  | .lzxRef, b0 :: b1 :: b2 :: rest => .ok (.lzxtRef b0 (extOffField b1 b2), rest)
  | .flt, bs => decodeFlt bs
  | .hft, x :: rest => .ok (.hftByte (x.extractLsb' 0 4) (x.extractLsb' 4 4), rest)
  | .hfc, x :: rest => .ok (.hfcCode x, rest)
  | .pkv bits index, bs =>
    if Config.bitsMin ≤ bits.toNat ∧ bits.toNat ≤ Config.bitsMax then .ok (.pkvElement bits index, bs)
    else .error .badWidth
  | _, _ => .error .truncated

/-! ### The encoder -/

/-- The five bytes of a header (R93). -/
def Header.bytes (h : Header) : List Byte :=
  [h.b0, byteOfWord h.size 0, byteOfWord h.size 1, byteOfWord h.size 2, byteOfWord h.size 3]

/-- The bytes of an instruction, written from the encodings (R91 to R110). A packed element has no bytes of its own:
it is a place in a buffer (R110). -/
def encode : Instr → List Byte
  | .getType => [0x01]
  | .getSize => [0x02]
  | .uncompressAny => [0x03]
  | .ctxInit => [0x10]
  | .ctxRead => [0x11]
  | .ctxFinished => [0x12]
  | .ctxDiscard => [0x13]
  | .ctxQuery => [0x14]
  | .packGet => [0x20]
  | .packSet => [0x21]
  | .lzFind => [0x30]
  | .lzCompress => [0x31]
  | .hufBuild => [0x40]
  | .hufLoad => [0x41]
  | .cmdUnknown c => [c]
  | .hdrNone size => Header.bytes ⟨0x00, size⟩
  | .hdrLz size => Header.bytes ⟨0x10, size⟩
  | .hdrLzx size => Header.bytes ⟨0x11, size⟩
  | .hdrHuf4 size => Header.bytes ⟨0x24, size⟩
  | .hdrHuf8 size => Header.bytes ⟨0x28, size⟩
  | .hdrRl size => Header.bytes ⟨0x30, size⟩
  | .hdrFlz size => Header.bytes ⟨0x40, size⟩
  | .hdrDif base flags size => Header.bytes ⟨headerByte (1#1 ++ base) flags, size⟩
  | .hdrUnrecognised tag flags size => Header.bytes ⟨headerByte tag flags, size⟩
  | .hdrBadFlags base flags size => Header.bytes ⟨headerByte (0#1 ++ base) flags, size⟩
  | .bytes data => data
  | .rltLits data => (0#1 ++ BitVec.ofNat 7 (data.length - 1)) :: data
  | .rltRun n v => [1#1 ++ n, v]
  | .lztFlags f => [f]
  | .lztLit b => [b]
  | .lztRef l o => [l ++ o.extractLsb' 8 4, o.extractLsb' 0 8]
  | .lzxtRef l o => [l, o.extractLsb' 8 8, o.extractLsb' 0 8]
  | .fltLits data => (0#3 ++ BitVec.ofNat 5 (data.length - 1)) :: data
  | .fltMatchShort k o => [k ++ o.extractLsb' 8 5, o.extractLsb' 0 8]
  | .fltMatchLong e o => [7#3 ++ o.extractLsb' 8 5, e, o.extractLsb' 0 8]
  | .hftByte l h => [h ++ l]
  | .hfcCode x => [x]
  | .pkvElement _ _ => []

/-- The format an instruction is read in (R90, R114). -/
def formatOf : Instr → Format
  | .getType | .getSize | .uncompressAny | .ctxInit | .ctxRead | .ctxFinished | .ctxDiscard | .ctxQuery
  | .packGet | .packSet | .lzFind | .lzCompress | .hufBuild | .hufLoad | .cmdUnknown _ => .cmd
  | .hdrNone _ | .hdrLz _ | .hdrLzx _ | .hdrHuf4 _ | .hdrHuf8 _ | .hdrRl _ | .hdrFlz _
  | .hdrDif _ _ _ | .hdrUnrecognised _ _ _ | .hdrBadFlags _ _ _ => .hdr
  | .bytes data => .store data.length
  | .rltLits _ | .rltRun _ _ => .rlt
  | .lztFlags _ => .lzFlag
  | .lztLit _ => .lzLit
  | .lztRef _ _ => .lzRef
  | .lzxtRef _ _ => .lzxRef
  | .fltLits _ | .fltMatchShort _ _ | .fltMatchLong _ _ => .flt
  | .hftByte _ _ => .hft
  | .hfcCode _ => .hfc
  | .pkvElement bits index => .pkv bits index

/-! ### The host's question about one word -/

/-- Byte `i` of a number, `i = 0` lowest. -/
def byteOfNat (w i : Nat) : Byte := BitVec.ofNat 8 (w >>> (8 * i))

/-- The instruction `decode` reads in a format, if it does not refuse. -/
def decodeOne (f : Format) (bs : List Byte) : Option Instr :=
  match decode f bs with
  | .ok (i, _) => some i
  | .error _ => none

/-- The instruction read from a table word of `nbits` bits. One width serves several formats, which a word alone
does not tell apart (log 14): the word is read as the first row of that width, in the table's order, whose match and
mask it meets, and a row without match and mask comes after those that have one. A 24-bit row is numbered by the
table with its first byte leftmost; the other rows with their first byte lowest. -/
def decodeTableWord (nbits w : Nat) : Option Instr :=
  if nbits = 8 then
    if byteOfNat w 0 ∈ commandCodes ∨ (byteOfNat w 0).getLsbD 7 then decodeOne .cmd [byteOfNat w 0]
    else decodeOne .rlt (byteOfNat w 0 :: List.replicate 128 0)
  else if nbits = 16 then
    if (byteOfNat w 0).getLsbD 7 then decodeOne .rlt [byteOfNat w 0, byteOfNat w 1]
    else decodeOne .lzRef [byteOfNat w 0, byteOfNat w 1]
  else if nbits = 24 then
    if fastKind (byteOfNat w 2) = 7 then decodeOne .flt [byteOfNat w 2, byteOfNat w 1, byteOfNat w 0]
    else decodeOne .lzxRef [byteOfNat w 2, byteOfNat w 1, byteOfNat w 0]
  else if nbits = 40 then
    decodeOne .hdr [byteOfNat w 0, byteOfNat w 1, byteOfNat w 2, byteOfNat w 3, byteOfNat w 4]
  else none

end Sys2Proof
end

