-- ==== Sys2Proof/WellFormed.lean ====
section
/-!
DEFINITION. Which terms of `Instr` are instructions of the table: the ranges the encodings give their fields
(30_encoding.md R91 to R110). It uses the decoder's tables of codes and of legal flags, so that a field's range is
said once.
-/

namespace Sys2Proof

/-- Every field lies in the range its row of spec/opcode_table.json gives it. -/
def Instr.wellFormed : Instr → Bool
  | .cmdUnknown c => decide (c ∉ commandCodes)
  | .hdrDif base _ _ => decide (base.toNat ≤ 4)
  | .hdrUnrecognised tag _ _ => decide (4 < (tag.extractLsb' 0 3).toNat)
  | .hdrBadFlags base flags _ => decide (base.toNat ≤ 4) && !legalFlags base flags
  | .bytes data => decide (data.length < 2 ^ 32)
  | .rltLits data => decide (1 ≤ data.length ∧ data.length ≤ 128)
  | .fltLits data => decide (1 ≤ data.length ∧ data.length ≤ 32)
  | .fltMatchShort k _ => decide (1 ≤ k.toNat ∧ k.toNat ≤ 6)
  | .pkvElement bits _ => decide (Config.bitsMin ≤ bits.toNat ∧ bits.toNat ≤ Config.bitsMax)
  | .getType | .getSize | .uncompressAny | .ctxInit | .ctxRead | .ctxFinished | .ctxDiscard | .ctxQuery
  | .packGet | .packSet | .lzFind | .lzCompress | .hufBuild | .hufLoad
  | .hdrNone _ | .hdrLz _ | .hdrLzx _ | .hdrHuf4 _ | .hdrHuf8 _ | .hdrRl _ | .hdrFlz _
  | .rltRun _ _ | .lztFlags _ | .lztLit _ | .lztRef _ _ | .lzxtRef _ _ | .fltMatchLong _ _
  | .hftByte _ _ | .hfcCode _ => true

end Sys2Proof
end

