-- ==== Sys2Proof/Machine/State.lean ====
section
/-!
DEFINITION. The state of the machine, as plain data: the command interface registers (10_state.md R35 to R38),
the context slots (R20 to R34), the memory (R39, R40), the two parameters the spec leaves open (00_scope.md R6), and
the model's own two fields: the host's pending actions and the counter of the free values.
-/

namespace Sys2Proof.Machine

/-- `state` of a context slot, 2 bits (R22). -/
inductive CtxState where
  | idle | active | finished | error
  deriving DecidableEq, Repr

/-- A context slot (R21 to R33). While `state` is `idle` no rule reads another field (R22). -/
structure Ctx where
  /-- R22. -/
  state   : CtxState
  /-- R23. -/
  kind    : Kind
  /-- R23: RL 0; LZ 0 PLAIN, 1 EXT, 2 FAST; HUFF the symbol width 4 or 8. -/
  mode    : BitVec 4
  /-- R24: address of the first destination byte. -/
  dstBase : Word
  /-- R24: the header's size. -/
  outSize : Word
  /-- R25: bytes produced so far. -/
  outPos  : Word
  /-- R26: payload bytes consumed since `CTX_INIT`. -/
  inCount : BitVec 64
  /-- R26, R27. -/
  phase   : Phase
  /-- R28. -/
  cnt     : BitVec 9
  /-- R29. -/
  b0      : Byte
  /-- R29. -/
  b1      : Byte
  /-- R30: the current flag byte, shifted left once per token started. -/
  flags   : Byte
  /-- R30: tokens the flag byte still covers. -/
  nflag   : BitVec 4
  /-- R31: table bytes received. -/
  tpos    : Byte
  /-- R31: code length of each symbol. -/
  len     : Vector (BitVec 4) 256
  /-- R31: bits of the code being read, the first in the highest position. -/
  code    : BitVec 15
  /-- R31. -/
  codeLen : BitVec 4
  /-- R31: the low nibble of an output byte whose high nibble is not decoded yet. -/
  nibHold : BitVec 4
  /-- R31. -/
  nibHave : Bool
  /-- R33: the code of the error that put the slot into `error`, else 0. -/
  err     : Byte
  deriving DecidableEq, Repr

/-- `ARG[0]` to `ARG[5]` (R36). -/
structure Args where
  a0 : Word
  a1 : Word
  a2 : Word
  a3 : Word
  a4 : Word
  a5 : Word
  deriving DecidableEq, Repr

/-- `RES[0]` to `RES[3]` (R36). -/
structure Results where
  r0 : Word
  r1 : Word
  r2 : Word
  r3 : Word
  deriving DecidableEq, Repr

/-- Memory (R39): the listed bytes; an unlisted byte reads as `Config.fillByte` (log 1). -/
structure Memory where
  cells : List Host.Cell
  deriving DecidableEq, Repr

/-- The registers of R36, by name; their numbers are `Reg.number`. -/
inductive Reg where
  | cmd | status | errcode | arg (i : Fin 6) | res (i : Fin 4)
  deriving DecidableEq, Repr

/-- What the host can do to the machine (R35, R40, R400); a read changes nothing and needs no entry. -/
inductive HostOp where
  /-- Write a register; a write of `CMD` executes the command (R35). -/
  | writeReg (r : Reg) (v : Word)
  /-- Write a byte of memory (R40). -/
  | writeMem (a : Nat) (b : Byte)
  /-- Reset the block (R400). -/
  | reset
  deriving DecidableEq, Repr

/-- Why the machine stops with a fault. -/
inductive Fault where
  /-- Raised by a host write of memory at an address that is not below 2^32: the spec gives no such byte (R39). Safe:
  the model stops where the hardware has nothing to do. -/
  | noSuchAddress
  deriving DecidableEq, Repr

/-- Why the machine refuses. -/
inductive Refusal where
  /-- Raised by an arm of `exec` whose instruction has no meaning yet; no arm does. Safe. -/
  | notModelled (mnemonic : String)
  /-- Raised by a command that would write a region it also reads: "A model refuses such a command", R67, U4, with the
  regions of R62 (log 5). Safe. -/
  | overlappingRegions
  /-- Raised by a header, a token or a packed element executed where no command or context is reading one: the spec
  gives it no effect there (R114, R329; log 11, 12, 13). Safe. -/
  | notBeingRead
  deriving DecidableEq, Repr

/-- The state of the machine. -/
structure State where
  /-- `CMD`, R36. -/
  cmd       : Byte
  /-- `STATUS`, R36, R37. -/
  status    : Word
  /-- `ERRCODE`, R36, R38. -/
  errcode   : Byte
  /-- `ARG[0..5]`, R36. -/
  arg       : Args
  /-- `RES[0..3]`, R36. -/
  res       : Results
  /-- `CTX[0..NCTX-1]`, R20, R21; `NCTX` is its length (log 6). -/
  slots     : List Ctx
  /-- `MEM`, R39, R40. -/
  mem       : Memory
  /-- The parameter `D_FAST`, R6, R193 (log 7); no instruction writes it. -/
  dFast     : Nat
  /-- The model's own: how many free values were drawn (log 23). -/
  freeCount : Nat
  /-- The model's own: what the host does next, the first entry first (log 9). -/
  host      : List HostOp
  deriving DecidableEq, Repr

/-- A slot after reset: `IDLE` (R22, R41). The other fields are unspecified; the model names zeros (DESIGN CHOICE,
log 2, unsafe). -/
def Ctx.reset : Ctx where
  state := .idle
  kind := .rl
  mode := 0
  dstBase := 0
  outSize := 0
  outPos := 0
  inCount := 0
  phase := .rlCtrl
  cnt := 0
  b0 := 0
  b1 := 0
  flags := 0
  nflag := 0
  tpos := 0
  len := Vector.replicate 256 0
  code := 0
  codeLen := 0
  nibHold := 0
  nibHave := false
  err := 0

/-- The machine after reset (R41, R400): every register 0, every slot `IDLE`. Nothing is listed in memory (log 1) and
the host has nothing pending (log 9). -/
def State.reset : State where
  cmd := 0
  status := 0
  errcode := 0
  arg := ⟨0, 0, 0, 0, 0, 0⟩
  res := ⟨0, 0, 0, 0⟩
  slots := List.replicate Config.nctxDefault Ctx.reset
  mem := ⟨[]⟩
  dFast := Config.dFastDefault
  freeCount := 0
  host := []

end Sys2Proof.Machine
end

