-- ==== Sys2Proof/Machine/Flags.lean ====
section
/-!
DEFINITION. The block's only flags: the fields of `STATUS` (10_state.md R37) and the value of `ERRCODE` (R38).
-/

namespace Sys2Proof.Machine

/-- A flag as bit `i` of a register. -/
def flagBit (b : Bool) (i : Nat) : Word := if b then 1 <<< i else 0

/-- `STATUS` from its fields (R37): ERR bit 0, FIN bit 1, NOTSMALLER bit 2; BUSY and the reserved bits are 0. -/
def statusWord (err fin notSmaller : Bool) : Word := flagBit err 0 ||| flagBit fin 1 ||| flagBit notSmaller 2

/-- `STATUS.ERR` (R37). -/
def State.errFlag (s : State) : Bool := s.status.getLsbD 0
/-- `STATUS.FIN` (R37). -/
def State.finFlag (s : State) : Bool := s.status.getLsbD 1
/-- `STATUS.NOTSMALLER` (R37). -/
def State.notSmallerFlag (s : State) : Bool := s.status.getLsbD 2
/-- `STATUS.BUSY` (R37): the host always reads 0. -/
def State.busyFlag (s : State) : Bool := s.status.getLsbD 3

/-- The errors of R361. -/
inductive Err where
  | truncatedHeader | badType | unsupportedType | badFlags | dstTooSmall | truncatedPayload | badOffset | overrun
  | badTable | badCode | badState | range | badArg | badCmd
  deriving DecidableEq, Repr

/-- The codes of R361. -/
def Err.code : Err → Byte
  | .truncatedHeader => 1
  | .badType => 2
  | .unsupportedType => 3
  | .badFlags => 4
  | .dstTooSmall => 5
  | .truncatedPayload => 6
  | .badOffset => 7
  | .overrun => 8
  | .badTable => 9
  | .badCode => 10
  | .badState => 11
  | .range => 12
  | .badArg => 13
  | .badCmd => 14

end Sys2Proof.Machine
end

