-- ==== Sys2Proof/Machine/Ops.lean ====
section
/-!
DEFINITION. The named operations over memory, registers and slots, and the one shared operation of the hardware's
exceptions: `raise` (60_exceptions.md R362). Nothing is entered by an error, so there is no return (R368, R369).
-/

namespace Sys2Proof.Machine

/-- What a step or a meaning answers. -/
abbrev Outcome := Host.Outcome State Fault Refusal

/-! ### Memory (20_memory.md) -/

/-- `MEM[a]` (R8): the listed byte, or `Config.fillByte` (log 1). -/
def Memory.read (m : Memory) (a : Nat) : Byte :=
  match m.cells.find? (fun c => c.1 == a) with
  | some c => c.2
  | none => Config.fillByte

/-- A cell put into a rising list. -/
def insertCell (c : Host.Cell) : List Host.Cell → List Host.Cell
  | [] => [c]
  | d :: r => if c.1 < d.1 then c :: d :: r else d :: insertCell c r

/-- `MemWrite(a, 1, b)` (R8): the byte at `a` becomes `b`. The canonical form is kept: no cell equal to what an
unlisted byte reads as. -/
def Memory.write (m : Memory) (a : Nat) (b : Byte) : Memory :=
  if b = Config.fillByte then ⟨m.cells.filter (fun c => c.1 != a)⟩
  else ⟨insertCell (a, b) (m.cells.filter (fun c => c.1 != a))⟩

/-- The canonical form: addresses strictly rising and below 2^32 (R39), no cell equal to an unlisted byte. -/
abbrev Memory.wf (m : Memory) : Prop :=
  m.cells.Pairwise (fun c d => c.1 < d.1) ∧ ∀ c ∈ m.cells, c.1 < 2 ^ 32 ∧ c.2 ≠ Config.fillByte

/-- `MemRead(a, n)` (R8): `n` bytes as a little-endian number. -/
def Memory.readLE (m : Memory) (a : Nat) : Nat → Nat
  | 0 => 0
  | n + 1 => (m.read a).toNat + 256 * m.readLE (a + 1) n

/-- The bytes `MEM[a .. a+n-1]`. -/
def Memory.readList (m : Memory) (a : Nat) : Nat → List Byte
  | 0 => []
  | n + 1 => m.read a :: m.readList (a + 1) n

/-- Bytes written at `a` upward, ascending (R63). -/
def Memory.writeList (m : Memory) (a : Nat) : List Byte → Memory
  | [] => m
  | b :: bs => (m.write a b).writeList (a + 1) bs

/-- The `n` bytes of a number, lowest first (R61). -/
def leBytes : Nat → Nat → List Byte
  | 0, _ => []
  | n + 1, v => BitVec.ofNat 8 v :: leBytes n (v / 256)

/-- `MemWrite(a, n, v)` (R8). -/
def Memory.writeLE (m : Memory) (a n v : Nat) : Memory := m.writeList a (leBytes n v)

/-- `n` copies of `b` at `a` upward, ascending. -/
def Memory.fill (m : Memory) (a : Nat) (b : Byte) : Nat → Memory
  | 0 => m
  | n + 1 => (m.write a b).fill (a + 1) b n

/-- The loop of the window copy (R68, R222): `MEM[d+k] <- MEM[d-off+k]` for `k` ascending, byte by byte, so that
later reads see earlier writes. -/
def Memory.copyUp (m : Memory) (d off : Nat) : Nat → Memory
  | 0 => m
  | n + 1 => (m.write d (m.read (d - off))).copyUp (d + 1) off n

/-- The bytes `MEM[a .. a+n-1]` become free values, drawn at counter value `c` (U5, log 4). -/
def Memory.writeFree (m : Memory) (a c : Nat) : Nat → Memory
  | 0 => m
  | n + 1 => (m.writeFree a c n).write (a + n) (Config.freeByte c n)

/-- Two regions, given by base and length, have a byte in common. -/
def overlaps (a n b k : Nat) : Bool := decide (0 < n ∧ 0 < k ∧ a < b + k ∧ b < a + n)

/-! ### Results and errors (R36 to R38, R362) -/

/-- No results: every register a rule does not name is 0 (R36, U23). -/
def noResults : Results := ⟨0, 0, 0, 0⟩

/-- The only writer of `STATUS`, `ERRCODE` and `RES[0..3]`: every command writes all of them (R36). -/
def State.respond (s : State) (status : Word) (errcode : Byte) (res : Results) : State :=
  { s with status := status, errcode := errcode, res := res }

/-- A command that does not raise: `ERR` and `ERRCODE` are 0 (R362, R38). -/
def State.done (s : State) (fin notSmaller : Bool) (res : Results) : State :=
  s.respond (statusWord false fin notSmaller) 0 res

/-- `raise` of the error with a code (R362): `ERR` 1, `FIN` and `NOTSMALLER` 0, `ERRCODE` the code; `res` holds the
result registers that the raising rule says keep a value, 0 elsewhere. Memory and slots stay as they stand. -/
def State.raiseCode (s : State) (code : Byte) (res : Results) : State :=
  s.respond (statusWord true false false) code res

/-- `raise E` with all results 0 (R362). -/
def State.raise (s : State) (e : Err) : State := s.raiseCode e.code noResults

/-- `MEM` replaced. -/
def State.setMem (s : State) (m : Memory) : State := { s with mem := m }

/-- Slot `i` replaced (R21). -/
def State.setSlot (s : State) (i : Nat) (c : Ctx) : State := { s with slots := s.slots.set i c }

/-- The slot an operand `ctx` selects; `none` when `ctx >= NCTX` (R321). -/
def State.slotAt (s : State) (ctx : Word) : Option Ctx := s.slots[ctx.toNat]?

/-- Destination bytes that an `LZ_COMPRESS` may have used as scratch hold free values afterwards (R200, U5). -/
def State.scratch (s : State) (a n : Nat) : State :=
  { s with mem := s.mem.writeFree a s.freeCount n, freeCount := s.freeCount + 1 }

/-- A slot that holds no context any more: every field but `state` is unspecified (R22, R335, U12): free values,
drawn at counter value `n` (log 3). -/
def freeSlot (n : Nat) : Ctx where
  state := .idle
  kind := Config.freeKind n
  phase := Config.freePhase n
  mode := (Config.freeBits n 2).setWidth 4
  dstBase := (Config.freeBits n 3).setWidth 32
  outSize := (Config.freeBits n 4).setWidth 32
  outPos := (Config.freeBits n 5).setWidth 32
  inCount := Config.freeBits n 6
  cnt := (Config.freeBits n 7).setWidth 9
  b0 := (Config.freeBits n 8).setWidth 8
  b1 := (Config.freeBits n 9).setWidth 8
  flags := (Config.freeBits n 10).setWidth 8
  nflag := (Config.freeBits n 11).setWidth 4
  tpos := (Config.freeBits n 12).setWidth 8
  len := Vector.ofFn (fun i => (Config.freeBits n (20 + i.val)).setWidth 4)
  code := (Config.freeBits n 13).setWidth 15
  codeLen := (Config.freeBits n 14).setWidth 4
  nibHold := (Config.freeBits n 15).setWidth 4
  nibHave := (Config.freeBits n 16).getLsbD 0
  err := (Config.freeBits n 17).setWidth 8

/-- `CTX[i].state <- IDLE`, the other fields of the slot unspecified (R335). -/
def State.dropSlot (s : State) (i : Nat) : State :=
  { s with slots := s.slots.set i (freeSlot s.freeCount), freeCount := s.freeCount + 1 }

/-- Reset (R41, R400): every register 0 and every slot `IDLE`; `MEM` is unchanged. -/
def State.resetBlock (s : State) : State :=
  { s with cmd := 0, status := 0, errcode := 0, arg := ⟨0, 0, 0, 0, 0, 0⟩, res := noResults,
           slots := s.slots.map (fun _ => Ctx.reset) }

/-! ### The register port (R35, R36) -/

/-- The number of a register (R36). -/
def Reg.number : Reg → Nat
  | .cmd => 0
  | .status => 1
  | .errcode => 2
  | .arg i => 3 + i.val
  | .res i => 9 + i.val

/-- `ARG[i]`. -/
def Args.get (g : Args) (i : Fin 6) : Word :=
  match i with
  | 0 => g.a0 | 1 => g.a1 | 2 => g.a2 | 3 => g.a3 | 4 => g.a4 | 5 => g.a5

/-- `ARG[i] <- v`. -/
def Args.set (g : Args) (i : Fin 6) (v : Word) : Args :=
  match i with
  | 0 => { g with a0 := v } | 1 => { g with a1 := v } | 2 => { g with a2 := v }
  | 3 => { g with a3 := v } | 4 => { g with a4 := v } | 5 => { g with a5 := v }

/-- `RES[i]`. -/
def Results.get (g : Results) (i : Fin 4) : Word :=
  match i with
  | 0 => g.r0 | 1 => g.r1 | 2 => g.r2 | 3 => g.r3

/-- A host read of a register (R36): bits above its width read 0. Reading has no effect. -/
def State.readReg (s : State) : Reg → Word
  | .cmd => s.cmd.setWidth 32
  | .status => s.status
  | .errcode => s.errcode.setWidth 32
  | .arg i => s.arg.get i
  | .res i => s.res.get i

/-- What a host write stores (R36): `CMD` takes its low 8 bits, `ARG` all 32, a read-only register nothing. -/
def State.writeReg (s : State) (r : Reg) (v : Word) : State :=
  match r with
  | .cmd => { s with cmd := v.setWidth 8 }
  | .arg i => { s with arg := s.arg.set i v }
  | .status => s
  | .errcode => s
  | .res _ => s

end Sys2Proof.Machine
end

