-- ==== Sys2Proof/Machine/Operands.lean ====
section
/-!
DEFINITION. Every operand form: regions with a length (20_memory.md R66), `opts` bits (30_encoding.md R91, R92), the
`kind` operand (R92), a header in memory (41_header_and_store.md R151) and its judgement (47_dispatcher_and_contexts.md
R322 to R325), and the fresh context an accepted header gives (R327).
-/

namespace Sys2Proof.Machine

/-- `a + n <= 2^32`, without wrap-around (R66). -/
def regionFits (a n : Nat) : Bool := decide (a + n ≤ 2 ^ 32)

/-- No bit of `opts` at or above `k` is set: reserved bits must be 0 (R91). -/
def optsLegal (opts : Word) (k : Nat) : Bool := decide (opts.toNat < 2 ^ k)

/-- `opts[0]`: `extended`, or `use4Bit` (R92). -/
def optBit0 (opts : Word) : Bool := opts.getLsbD 0
/-- `opts[1]`: `fast` (R92). -/
def optBit1 (opts : Word) : Bool := opts.getLsbD 1

/-- The `kind` operand of `CTX_INIT`: 1 RL, 2 LZ, 3 HUFF; nothing else (R92, R328). -/
def kindOperand (w : Word) : Option Kind :=
  if w = 1 then some .rl else if w = 2 then some .lz else if w = 3 then some .huff else none

/-- `kind` as the number R23 gives it. -/
def kindCode : Kind → Nat
  | .rl => 1
  | .lz => 2
  | .huff => 3

/-- `phase` as the number R27 gives it. -/
def phaseCode : Phase → Nat
  | .rlCtrl => 0
  | .rlLit => 1
  | .rlVal => 2
  | .lzFlag => 3
  | .lzToken => 4
  | .lzRef1 => 5
  | .lzRef2 => 6
  | .flOp => 7
  | .flLit => 8
  | .flExt => 9
  | .flOff => 10
  | .hfTable => 11
  | .hfData => 12

/-- `state` as the number R22 gives it. -/
def stateCode : CtxState → Nat
  | .idle => 0
  | .active => 1
  | .finished => 2
  | .error => 3

/-- `hdrFields(a)`: the five header bytes at `a` (R151). -/
def readHeader (m : Memory) (a : Nat) : Header :=
  ⟨m.read a, wordOfBytes (m.read (a + 1)) (m.read (a + 2)) (m.read (a + 3)) (m.read (a + 4))⟩

/-- `kindOf(base)` (R325): a store block has no context kind. -/
def kindOf (base : BitVec 3) : Option Kind :=
  if base = 1 then some .lz else if base = 2 then some .huff
  else if base = 3 then some .rl else if base = 4 then some .lz else none

/-- `checkHeader` (R322): the first test that fails, in the order of the rule; `want = none` is `ANY`. -/
def checkHeader (h : Header) (avail cap : Nat) (want : Option Kind) : Option Err :=
  if avail < 5 then some .truncatedHeader
  else if h.recognised = false then some .badType
  else if h.dif then some .unsupportedType
  else if want ≠ none ∧ kindOf h.base ≠ want then some .unsupportedType
  else if legalFlags h.base h.flags = false then some .badFlags
  else if cap < h.size.toNat then some .dstTooSmall
  else none

/-- `kind` of the decoder an accepted header selects (R325). -/
def headerKind (h : Header) : Kind := (kindOf h.base).getD .rl

/-- `mode` of the decoder an accepted header selects (R325): 0 PLAIN, 1 EXT, 2 FAST; 4 or 8 for Huffman; 0 for RL. -/
def headerMode (h : Header) : BitVec 4 :=
  if h.base = 1 then (if h.flags.getLsbD 0 then 1 else 0)
  else if h.base = 2 then h.flags
  else if h.base = 4 then 2
  else 0

/-- Initial `phase` of the decoder an accepted header selects (R27, R325). -/
def headerPhase (h : Header) : Phase :=
  if h.base = 1 then .lzFlag
  else if h.base = 2 then .hfTable
  else if h.base = 4 then .flOp
  else .rlCtrl

/-- `freshContext(base, flags, size, dst)` (R327). -/
def freshContext (h : Header) (dst : Word) : Ctx where
  state := if h.size = 0 then .finished else .active
  kind := headerKind h
  mode := headerMode h
  dstBase := dst
  outSize := h.size
  outPos := 0
  inCount := 0
  phase := headerPhase h
  cnt := 0
  b0 := 0
  b1 := 0
  flags := 0
  nflag := 0
  tpos := 0
  len := Vector.replicate 256 0
  code := 0
  codeLen := 0
  nibHold := 0
  nibHave := false
  err := 0

/-- A natural number as a result register: the rules' results are below 2^32 (R9). -/
def resultWord (n : Nat) : Word := BitVec.ofNat 32 n

end Sys2Proof.Machine
end

