-- ==== Sys2Proof/Machine/Packed.lean ====
section
/-!
DEFINITION. The bit_unpacker unit (40_bit_unpacker.md): PACK_GET, PACK_SET and the packed element.
-/

namespace Sys2Proof.Machine

/-- Stream bit `k` of the bytes at `base` (R7, R60). -/
def streamBit (m : Memory) (base k : Nat) : Bool := (m.read (base + k / 8)).getLsbD (k % 8)

/-- The value of the `n` stream bits from `off` on, the first lowest: the loop of R132, and `pk` of R137 with
`off = bits * index` and `n = bits`. -/
def packedValue (m : Memory) (base off : Nat) : Nat → Nat
  | 0 => 0
  | n + 1 => packedValue m base off n + (if streamBit m base (off + n) then 2 ^ n else 0)

/-- Bit `i` of a byte replaced. -/
def setBit (x : Byte) (i : Nat) (b : Bool) : Byte := (x &&& ~~~(1#8 <<< i)) ||| (if b then 1#8 <<< i else 0)

/-- The inner loop of R134 over bits `0 .. n-1` of buffer byte `j`: the bits that belong to the element take the bits
of `value`, the others stay. -/
def packByte (x : Byte) (off bits : Nat) (value : Word) (j : Nat) : Nat → Byte
  | 0 => x
  | n + 1 =>
    if off ≤ 8 * j + n ∧ 8 * j + n < off + bits
    then setBit (packByte x off bits value j n) n (value.getLsbD (8 * j + n - off))
    else packByte x off bits value j n

/-- The outer loop of R134: buffer bytes `j`, `j+1`, .. (`n` of them), each read, changed and written back. -/
def packBytes (m : Memory) (buf off bits : Nat) (value : Word) (j : Nat) : Nat → Memory
  | 0 => m
  | n + 1 =>
    packBytes (m.write (buf + j) (packByte (m.read (buf + j)) off bits value j 8)) buf off bits value (j + 1) n

/-- The tests of R132 and R134, in their order: address overflow, width, extent; `off` and `last` are natural
numbers (R131). -/
def packError (buf bufLen bits index : Nat) : Option Err :=
  if regionFits buf bufLen = false then some .badArg
  else if bits < Config.bitsMin ∨ Config.bitsMax < bits then some .badArg
  else if bufLen ≤ (bits * index + bits - 1) / 8 then some .range
  else none

/-- The access of `PACK_GET` to element `index` of width `bits` in the buffer `ARG0`, `ARG1` (R132); the value is
zero-extended (R133). -/
def packGet (bits index : Word) (s : State) : Outcome :=
  match packError s.arg.a0.toNat s.arg.a1.toNat bits.toNat index.toNat with
  | some e => .next (s.raise e)
  | none =>
    .next (s.done false false
      ⟨resultWord (packedValue s.mem s.arg.a0.toNat (bits.toNat * index.toNat) bits.toNat), 0, 0, 0⟩)

/-- The access of `PACK_SET` to element `index` of width `bits` in the buffer `ARG0`, `ARG1`, with the value `ARG4`
(R134). -/
def packSet (bits index : Word) (s : State) : Outcome :=
  match packError s.arg.a0.toNat s.arg.a1.toNat bits.toNat index.toNat with
  | some e => .next (s.raise e)
  | none =>
    .next ((s.setMem (packBytes s.mem s.arg.a0.toNat (bits.toNat * index.toNat) bits.toNat s.arg.a4
        (bits.toNat * index.toNat / 8)
        ((bits.toNat * index.toNat + bits.toNat - 1) / 8 + 1 - bits.toNat * index.toNat / 8))).done
      false false noResults)

/-- PACK_GET (R132): width `ARG2`, index `ARG3`. -/
def execPackGet (s : State) : Outcome := packGet s.arg.a2 s.arg.a3 s

/-- PACK_SET (R134): width `ARG2`, index `ARG3`. -/
def execPackSet (s : State) : Outcome := packSet s.arg.a2 s.arg.a3 s

/-- PKV.ELEMENT (R110, R131): the element is read under `PACK_GET` and written under `PACK_SET`; the command that is
executing is the one in `CMD` (log 13). -/
def execPkvElement (bits index : Word) (s : State) : Outcome :=
  if s.cmd = 0x20 then packGet bits index s
  else if s.cmd = 0x21 then packSet bits index s
  else .refused .notBeingRead

end Sys2Proof.Machine
end

