-- ==== Sys2Proof/Machine/HufTable.lean ====
section
/-!
DEFINITION. The huffman_canonical_table_builder unit (45_huffman_table_builder.md): code lengths from frequencies,
canonical codes from lengths, HUF_BUILD and HUF_LOAD. Lengths, weights and codes are natural numbers (R263, R266).
-/

namespace Sys2Proof.Machine

/-! ### From lengths to codes -/

/-- `count[L]` (R266). -/
def lenCount (lens : List Nat) (L : Nat) : Nat := lens.count L

/-- `next[L]` as the second loop of R266 leaves it: `next[1] = 0`, `next[L+1] = (next[L] + count[L]) << 1`. -/
def nextCode (lens : List Nat) : Nat → Nat
  | 0 => 0
  | L + 1 => if L = 0 then 0 else (nextCode lens L + lenCount lens L) * 2

/-- `code[s]` of `canon(len)` for a symbol with `len[s] > 0` (R266): `next[len[s]]`, advanced once for every smaller
symbol of the same length (log 21). -/
def canonCode (lens : List Nat) (s : Nat) : Nat :=
  nextCode lens (lens.getD s 0) + (lens.take s).count (lens.getD s 0)

/-- The entry of symbol `s` in a code table (R261): its code, or 0 for a symbol with no code. -/
def codeEntry (lens : List Nat) (s : Nat) : Nat := if lens.getD s 0 = 0 then 0 else canonCode lens s

/-- The sum of R267. -/
def kraftSum (lens : List Nat) : Nat :=
  (lens.map (fun l => if l = 0 then 0 else 2 ^ (Config.hufMaxLen - l))).sum

/-- `kraftOK(len)` (R267). -/
def kraftOK (lens : List Nat) : Bool := decide (kraftSum lens ≤ 2 ^ Config.hufMaxLen)

/-- `symOf(L, c)` (R292): the symbol of length `L` and code `c`, if there is one. -/
def symOf (lens : List Nat) (L c : Nat) : Option Nat :=
  (List.range lens.length).find? (fun s => lens.getD s 0 == L && canonCode lens s == c)

/-! ### From frequencies to lengths -/

/-- A node of the Huffman tree (R263). -/
inductive HufTree where
  /-- The leaf of a symbol: its key is the symbol. -/
  | leaf (weight key : Nat)
  /-- An internal node. -/
  | node (weight key : Nat) (a b : HufTree)
  deriving DecidableEq, Repr

/-- The weight of a node. -/
def HufTree.weight : HufTree → Nat
  | .leaf w _ => w
  | .node w _ _ _ => w

/-- The key of a node. -/
def HufTree.key : HufTree → Nat
  | .leaf _ k => k
  | .node _ k _ _ => k

/-- The order of nodes: by weight, then by key (R263). -/
def HufTree.before (a b : HufTree) : Bool :=
  decide (a.weight < b.weight ∨ (a.weight = b.weight ∧ a.key < b.key))

/-- The least node of a queue, and the queue without it. -/
def takeLeast : List HufTree → Option (HufTree × List HufTree)
  | [] => none
  | t :: ts =>
    match takeLeast ts with
    | none => some (t, [])
    | some (m, rest) => if t.before m then some (t, ts) else some (m, t :: rest)

/-- The loop of R263: while two nodes are left, the two least become the children of a new one, whose key is the next
internal key. The first argument bounds the number of merges. -/
def hufMerge : Nat → Nat → List HufTree → List HufTree
  | 0, _, q => q
  | n + 1, key, q =>
    match takeLeast q with
    | none => q
    | some (a, q1) =>
      match takeLeast q1 with
      | none => q
      | some (b, q2) => hufMerge n (key + 1) (.node (a.weight + b.weight) key a b :: q2)

/-- The leaves below a node with their depths, the node being at depth `d`. -/
def HufTree.depths : HufTree → Nat → List (Nat × Nat)
  | .leaf _ k, d => [(k, d)]
  | .node _ _ a b, d => a.depths (d + 1) ++ b.depths (d + 1)

/-- The leaves of the used symbols, from symbol `s` on (R263). -/
def hufLeaves (s : Nat) : List Nat → List HufTree
  | [] => []
  | w :: ws => if w = 0 then hufLeaves (s + 1) ws else .leaf w s :: hufLeaves (s + 1) ws

/-- `depth[s]` of every symbol, 0 for an unused one (R263). Internal keys begin at `N`. -/
def hufDepths (w : List Nat) : List Nat :=
  let root := hufMerge w.length w.length (hufLeaves 0 w)
  let ds := root.flatMap (fun t => t.depths 0)
  (List.range w.length).map (fun s => (ds.lookup s).getD 0)

/-- One halving round: `(w + 1) >> 1` (R265); an unused symbol stays unused. -/
def halveWeights (w : List Nat) : List Nat := w.map (fun x => (x + 1) / 2)

/-- The loop of R265; `n` bounds the rounds still allowed, `k` counts the rounds made (log 20). -/
def limitLengths : Nat → List Nat → Nat → List Nat × Nat
  | 0, w, k => (hufDepths w, k)
  | n + 1, w, k =>
    if (hufDepths w).all (fun d => decide (d ≤ Config.hufMaxLen)) then (hufDepths w, k)
    else limitLengths n (halveWeights w) (k + 1)

/-- The number of used symbols (R263). -/
def usedCount (f : List Nat) : Nat := (f.filter (fun x => decide (0 < x))).length

/-- `buildLengths(f)` (R264, R265): the lengths and the number of halving rounds. -/
def buildLengths (f : List Nat) : List Nat × Nat :=
  if usedCount f ≤ 1 then (f.map (fun x => if x = 0 then 0 else 1), 0)
  else limitLengths Config.maxRounds f 0

/-! ### The tables in memory (R261) -/

/-- `N` (R260). -/
def alphabetSize (opts : Word) : Nat := if optBit0 opts then Config.hufN4 else Config.hufN8

/-- The frequency table: `n` little-endian 32-bit entries at `a`. -/
def readFreqs (m : Memory) (a n : Nat) : List Nat := (List.range n).map (fun s => m.readLE (a + 4 * s) 4)

/-- The length table: `n` packed 4-bit entries at `a` (`pk(lenIn, 4, s)`, R137, R268). -/
def readLens (m : Memory) (a n : Nat) : List Nat := (List.range n).map (fun s => packedValue m a (4 * s) 4)

/-- The bytes of a length table: `len[2j] | (len[2j+1] << 4)`. -/
def lenTableBytes : List Nat → List Byte
  | a :: b :: r => (BitVec.ofNat 4 b ++ BitVec.ofNat 4 a : BitVec 8) :: lenTableBytes r
  | [a] => [(0#4 ++ BitVec.ofNat 4 a : BitVec 8)]
  | [] => []

/-- The bytes of a code table: little-endian 16-bit entries. -/
def codeTableBytes (lens : List Nat) : List Byte :=
  (List.range lens.length).flatMap (fun s => leBytes 2 (codeEntry lens s))

/-- `max(len)`. -/
def longest (lens : List Nat) : Nat := lens.foldl max 0

/-! ### The commands -/

/-- The operand tests of HUF_BUILD (R262). -/
def hufBuildLegal (g : Args) : Bool :=
  optsLegal g.a1 1 && regionFits g.a0.toNat (4 * alphabetSize g.a1)
    && regionFits g.a2.toNat (alphabetSize g.a1 / 2) && regionFits g.a3.toNat (2 * alphabetSize g.a1)

/-- HUF_BUILD's outputs overlap its input or each other (R67, R262). -/
def hufBuildOverlap (g : Args) : Bool :=
  overlaps g.a0.toNat (4 * alphabetSize g.a1) g.a2.toNat (alphabetSize g.a1 / 2)
    || overlaps g.a0.toNat (4 * alphabetSize g.a1) g.a3.toNat (2 * alphabetSize g.a1)
    || overlaps g.a2.toNat (alphabetSize g.a1 / 2) g.a3.toNat (2 * alphabetSize g.a1)

/-- HUF_BUILD (R262). -/
def execHufBuild (s : State) : Outcome :=
  if hufBuildLegal s.arg = false then .next (s.raise .badArg)
  else if hufBuildOverlap s.arg then .refused .overlappingRegions
  else
    let f := readFreqs s.mem s.arg.a0.toNat (alphabetSize s.arg.a1)
    let lens := (buildLengths f).1
    .next ((s.setMem ((s.mem.writeList s.arg.a2.toNat (lenTableBytes lens)).writeList s.arg.a3.toNat
        (codeTableBytes lens))).done false false
      ⟨resultWord (usedCount f), resultWord (longest lens), resultWord (buildLengths f).2, 0⟩)

/-- HUF_LOAD (R268). Where the table is refused nothing is written, so there is no overlap to refuse (R67, log 5). -/
def execHufLoad (s : State) : Outcome :=
  if optsLegal s.arg.a1 1 = false ∨ regionFits s.arg.a0.toNat (alphabetSize s.arg.a1 / 2) = false
      ∨ regionFits s.arg.a2.toNat (2 * alphabetSize s.arg.a1) = false then .next (s.raise .badArg)
  else
    let lens := readLens s.mem s.arg.a0.toNat (alphabetSize s.arg.a1)
    if kraftOK lens = false then .next (s.raise .badTable)
    else if overlaps s.arg.a0.toNat (alphabetSize s.arg.a1 / 2) s.arg.a2.toNat (2 * alphabetSize s.arg.a1) then
      .refused .overlappingRegions
    else
      .next ((s.setMem (s.mem.writeList s.arg.a2.toNat (codeTableBytes lens))).done false false
        ⟨resultWord (usedCount lens), resultWord (longest lens), 0, 0⟩)

end Sys2Proof.Machine
end

