-- ==== Sys2Proof/Machine/Run.lean ====
section
/-!
DEFINITION. What every decoder step is made of: a context together with the memory it decodes into, `emit` and `raise`
(00_scope.md R8), the window copy (44_lz_decode.md R222), the consumption of one payload byte with the detection of
`FINISHED` (47_dispatcher_and_contexts.md R330), and the execution of one whole token by the context that is reading.
-/

namespace Sys2Proof.Machine

/-- A context and the memory it decodes into. -/
structure Run where
  mem : Memory
  ctx : Ctx
  deriving DecidableEq, Repr

/-- `raise E` inside a decoder step (R329): `err` and `state` are set, what was done before stays. -/
def Run.raise (r : Run) (e : Err) : Run := { r with ctx := { r.ctx with err := e.code, state := .error } }

/-- The address of the next output byte, `dstBase + outPos`, without wrap-around (R9, R65). -/
def Ctx.outAddr (c : Ctx) : Nat := c.dstBase.toNat + c.outPos.toNat

/-- `emit(b)` (R8). -/
def Run.emit (r : Run) (b : Byte) : Run :=
  { mem := r.mem.write r.ctx.outAddr b, ctx := { r.ctx with outPos := r.ctx.outPos + 1 } }

/-- `n` bytes would pass the declared output size. -/
def Ctx.wouldOverrun (c : Ctx) (n : Nat) : Bool := decide (c.outSize.toNat < c.outPos.toNat + n)

/-- `copy(off, len)` (R222), then the field writes `after` of the token it completes. Both tests come before any
write; the copy is R68's. -/
def Run.copy (r : Run) (off len : Nat) (after : Ctx → Ctx) : Run :=
  if r.ctx.outPos.toNat < off then r.raise .badOffset
  else if r.ctx.wouldOverrun len then r.raise .overrun
  else { mem := r.mem.copyUp r.ctx.outAddr off len,
         ctx := after { r.ctx with outPos := r.ctx.outPos + BitVec.ofNat 32 len } }

/-- The end of the body of `feed`'s loop: `FINISHED` is detected after each step (R330). -/
def Run.settle (r : Run) : Run :=
  if r.ctx.state = .active ∧ r.ctx.outPos = r.ctx.outSize then { r with ctx := { r.ctx with state := .finished } }
  else r

/-- `inCount <- inCount + 1` (R330). -/
def Run.count (r : Run) : Run := { r with ctx := { r.ctx with inCount := r.ctx.inCount + 1 } }

/-- One payload byte consumed by a step rule: the body of `feed`'s loop (R330). -/
def Run.consume (rule : Run → Run) (r : Run) : Run :=
  (rule r.count).settle

/-- Payload bytes consumed one after another, while the context is `ACTIVE` (R330). -/
def Run.consumeAll : List (Run → Run) → Run → Run
  | [], r => r
  | rule :: rules, r => if r.ctx.state = .active then Run.consumeAll rules (r.consume rule) else r

/-- The format in which a context reads its next token (R27, R111, R329); `none` inside a token. -/
def Ctx.nextFormat (c : Ctx) : Option Format :=
  match c.phase with
  | .rlCtrl => some .rlt
  | .lzFlag => some .lzFlag
  | .lzToken =>
    if c.flags.getLsbD 7 = false then some .lzLit
    else if c.mode = 0 then some .lzRef
    else if c.mode = 1 then some .lzxRef
    else none
  | .flOp => some .flt
  | .hfTable => some .hft
  | .hfData => some .hfc
  | .rlLit | .rlVal | .lzRef1 | .lzRef2 | .flLit | .flExt | .flOff => none

/-- The context that is reading tokens of format `f`: the slot `ARG0` names, as `CTX_READ` names it (R331), when it is
`ACTIVE` and at the start of such a token (log 12). -/
def State.reader (s : State) (f : Format) : Option Ctx :=
  match s.slotAt s.arg.a0 with
  | some c => if c.state = .active ∧ c.nextFormat = some f then some c else none
  | none => none

/-- A run written back into its slot and into memory. -/
def State.putRun (s : State) (i : Nat) (r : Run) : State := (s.setMem r.mem).setSlot i r.ctx

/-- The execution of one whole token: its bytes are consumed in order by the context that is reading, each by the
step rule given for it. A token no context is reading has no effect to have (log 12). -/
def runToken (f : Format) (rules : List (Run → Run)) (s : State) : Outcome :=
  match s.reader f with
  | some c => .next (s.putRun s.arg.a0.toNat (Run.consumeAll rules ⟨s.mem, c⟩))
  | none => .refused .notBeingRead

end Sys2Proof.Machine
end

