-- ==== Sys2Proof/Machine/HufDecode.lean ====
section
/-!
DEFINITION. The huffman_decoder unit (46_huffman_decoder.md): its step rules, and the tokens HFT.BYTE and HFC.CODE.
-/

namespace Sys2Proof.Machine

/-- `N` of a HUFF context: 16 for `mode = 4`, 256 for `mode = 8` (R31, R290; log 18). -/
def Ctx.symbols (c : Ctx) : Nat := if c.mode = 4 then Config.hufN4 else Config.hufN8

/-- `len[0 .. N-1]` as numbers. -/
def Ctx.lens (c : Ctx) : List Nat := (c.len.toList.take c.symbols).map BitVec.toNat

/-- `len[i] <- v`. -/
def Ctx.setLen (c : Ctx) (i : Nat) (v : BitVec 4) : Ctx := { c with len := c.len.setIfInBounds i v }

/-- The field writes of a table byte in `HF_TABLE` (R291). -/
def Ctx.putTableByte (c : Ctx) (x : Byte) : Ctx :=
  { (c.setLen (2 * c.tpos.toNat) (x.extractLsb' 0 4)).setLen (2 * c.tpos.toNat + 1) (x.extractLsb' 4 4) with
    tpos := c.tpos + 1 }

/-- A table byte in `HF_TABLE` (R291): the test of R267 at the last one. -/
def hfTable (x : Byte) (r : Run) : Run :=
  let c := r.ctx.putTableByte x
  if c.tpos.toNat = c.symbols / 2 then
    if kraftOK c.lens then ⟨r.mem, { c with phase := .hfData }⟩ else Run.raise ⟨r.mem, c⟩ .badTable
  else ⟨r.mem, c⟩

/-- `emitSym(s)` (R295, R296): an output byte in 8-bit mode; in 4-bit mode a nibble, the low one of a byte first. -/
def Run.emitSym (r : Run) (s : Nat) : Run :=
  if r.ctx.mode = 4 then
    if r.ctx.nibHave then
      { (r.emit (BitVec.ofNat 4 s ++ r.ctx.nibHold)) with
        ctx := { (r.emit (BitVec.ofNat 4 s ++ r.ctx.nibHold)).ctx with nibHave := false } }
    else { r with ctx := { r.ctx with nibHold := BitVec.ofNat 4 s, nibHave := true } }
  else r.emit (BitVec.ofNat 8 s)

/-- One stream bit into the code being read: `code <- (code << 1) | b`, `codeLen <- codeLen + 1` (R293). -/
def Ctx.pushBit (c : Ctx) (b : Bool) : Ctx :=
  { c with code := (c.code <<< 1) ||| (BitVec.ofBool b).setWidth 15, codeLen := c.codeLen + 1 }

/-- `code <- 0 ; codeLen <- 0` (R293). -/
def Ctx.clearCode (c : Ctx) : Ctx := { c with code := 0, codeLen := 0 }

/-- The loop of R293 over the bits of a stream byte, in order. -/
def hfBits : List Bool → Run → Run
  | [], r => r
  | b :: bs, r =>
    let c := r.ctx.pushBit b
    match symOf c.lens c.codeLen.toNat c.code.toNat with
    | some s =>
      let r' := Run.emitSym ⟨r.mem, c.clearCode⟩ s
      if r'.ctx.outPos = r'.ctx.outSize then r' else hfBits bs r'
    | none =>
      if c.codeLen.toNat = Config.hufMaxLen then Run.raise ⟨r.mem, c⟩ .badCode
      else hfBits bs ⟨r.mem, c⟩

/-- The bits of a byte, bit 0 first (R60, R293). -/
def byteBits (x : Byte) : List Bool :=
  [x.getLsbD 0, x.getLsbD 1, x.getLsbD 2, x.getLsbD 3, x.getLsbD 4, x.getLsbD 5, x.getLsbD 6, x.getLsbD 7]

/-- A stream byte in `HF_DATA` (R293). -/
def hfData (x : Byte) (r : Run) : Run := hfBits (byteBits x) r

/-- HFT.BYTE (R291). -/
def execHftByte (l h : BitVec 4) (s : State) : Outcome := runToken .hft [hfTable (h ++ l)] s

/-- HFC.CODE (R293): one byte of the code stream (log 12). -/
def execHfcCode (x : Byte) (s : State) : Outcome := runToken .hfc [hfData x] s

end Sys2Proof.Machine
end

