-- ==== Sys2Proof/Machine/Rle.lean ====
section
/-!
DEFINITION. The rle_decoder unit (42_rle_decoder.md): its step rules, and the tokens RLT.LITS and RLT.RUN.
-/

namespace Sys2Proof.Machine

/-- Start of a literal run of `n` bytes, in `RL_CTRL` (R171). -/
def rlCtrlLits (n : Nat) (r : Run) : Run :=
  if r.ctx.wouldOverrun n then r.raise .overrun
  else { r with ctx := { r.ctx with cnt := BitVec.ofNat 9 n, phase := .rlLit } }

/-- Start of a repeat run of `n` bytes, in `RL_CTRL` (R172). -/
def rlCtrlRun (n : Nat) (r : Run) : Run :=
  if r.ctx.wouldOverrun n then r.raise .overrun
  else { r with ctx := { r.ctx with cnt := BitVec.ofNat 9 n, phase := .rlVal } }

/-- A control byte in `RL_CTRL`: bit 7 selects, `x[6:0]` counts (R98, R171, R172). -/
def rlCtrl (x : Byte) (r : Run) : Run :=
  if x.getLsbD 7 then rlCtrlRun ((x.extractLsb' 0 7).toNat + 3) r
  else rlCtrlLits ((x.extractLsb' 0 7).toNat + 1) r

/-- `cnt <- cnt - 1`, and the phase `p` when it reaches 0. -/
def Ctx.countDown (c : Ctx) (p : Phase) : Ctx :=
  { c with cnt := c.cnt - 1, phase := if c.cnt - 1 = 0 then p else c.phase }

/-- A literal byte in `RL_LIT` (R173). -/
def rlLit (x : Byte) (r : Run) : Run := { r.emit x with ctx := (r.emit x).ctx.countDown .rlCtrl }

/-- `n` bytes equal to `x` emitted (the loop of R174). -/
def Run.emitMany (r : Run) (x : Byte) (n : Nat) : Run :=
  { mem := r.mem.fill r.ctx.outAddr x n, ctx := { r.ctx with outPos := r.ctx.outPos + BitVec.ofNat 32 n } }

/-- The value byte in `RL_VAL` (R174). -/
def rlVal (x : Byte) (r : Run) : Run :=
  { r.emitMany x r.ctx.cnt.toNat with
    ctx := { (r.emitMany x r.ctx.cnt.toNat).ctx with cnt := 0, phase := .rlCtrl } }

/-- RLT.LITS: the control byte by R171, each literal byte by R173. -/
def execRltLits (data : List Byte) (s : State) : Outcome :=
  runToken .rlt (rlCtrlLits data.length :: data.map rlLit) s

/-- RLT.RUN: the control byte by R172, the value byte by R174. -/
def execRltRun (n : BitVec 7) (v : Byte) (s : State) : Outcome :=
  runToken .rlt [rlCtrlRun (n.toNat + 3), rlVal v] s

end Sys2Proof.Machine
end

