-- ==== Sys2Proof/Machine/LzDecode.lean ====
section
/-!
DEFINITION. The decode side of the matcher (44_lz_decode.md): the step rules of LZ, extended LZ and FastLZ payloads, and
their tokens.
-/

namespace Sys2Proof.Machine

/-! ### Plain and extended LZ -/

/-- A flag byte in `LZ_FLAG` (R221). -/
def lzFlag (x : Byte) (r : Run) : Run := { r with ctx := { r.ctx with flags := x, nflag := 8, phase := .lzToken } }

/-- `nextTok` (R221): the phase after a completed token. -/
def Ctx.nextTok (c : Ctx) : Ctx := { c with phase := if c.nflag = 0 then .lzFlag else .lzToken }

/-- The flag bit is consumed with the token's first byte (R223, R224). -/
def Ctx.takeFlag (c : Ctx) : Ctx := { c with flags := c.flags <<< 1, nflag := c.nflag - 1 }

/-- A literal byte in `LZ_TOKEN`, flag bit 0 (R223). -/
def lzTokenLit (x : Byte) (r : Run) : Run :=
  { r.emit x with ctx := ((r.emit x).ctx.takeFlag).nextTok }

/-- The first byte of a back-reference in `LZ_TOKEN`, flag bit 1 (R224). -/
def lzTokenRef (x : Byte) (r : Run) : Run :=
  { r with ctx := { r.ctx.takeFlag with b0 := x, phase := .lzRef1 } }

/-- The last byte of a plain back-reference in `LZ_REF1` (R225). -/
def lzRef1Plain (x : Byte) (r : Run) : Run :=
  r.copy ((plainOffField r.ctx.b0 x).toNat + 1) ((plainLenField r.ctx.b0).toNat + 3) Ctx.nextTok

/-- The second byte of an extended back-reference in `LZ_REF1` (R226). -/
def lzRef1Ext (x : Byte) (r : Run) : Run := { r with ctx := { r.ctx with b1 := x, phase := .lzRef2 } }

/-- The last byte of an extended back-reference in `LZ_REF2` (R227). -/
def lzRef2 (x : Byte) (r : Run) : Run :=
  r.copy ((extOffField r.ctx.b1 x).toNat + 1) (r.ctx.b0.toNat + 3) Ctx.nextTok

/-- LZT.FLAGS (R221). -/
def execLztFlags (f : Byte) (s : State) : Outcome := runToken .lzFlag [lzFlag f] s

/-- LZT.LIT (R223). -/
def execLztLit (b : Byte) (s : State) : Outcome := runToken .lzLit [lzTokenLit b] s

/-- LZT.REF: first byte by R224, second by R225. -/
def execLztRef (l : BitVec 4) (o : BitVec 12) (s : State) : Outcome :=
  runToken .lzRef [lzTokenRef (l ++ o.extractLsb' 8 4), lzRef1Plain (o.extractLsb' 0 8)] s

/-- LZXT.REF: bytes by R224, R226, R227. -/
def execLzxtRef (l : Byte) (o : BitVec 16) (s : State) : Outcome :=
  runToken .lzxRef [lzTokenRef l, lzRef1Ext (o.extractLsb' 8 8), lzRef2 (o.extractLsb' 0 8)] s

/-! ### FastLZ -/

/-- Start of a literal run of `n` bytes in `FL_OP` (R228). -/
def flOpLits (n : Nat) (r : Run) : Run :=
  if r.ctx.wouldOverrun n then r.raise .overrun
  else { r with ctx := { r.ctx with cnt := BitVec.ofNat 9 n, phase := .flLit } }

/-- The first byte of a short match in `FL_OP` (R229). -/
def flOpShort (x : Byte) (r : Run) : Run :=
  { r with ctx := { r.ctx with b0 := x, cnt := BitVec.ofNat 9 ((fastKind x).toNat + 2), phase := .flOff } }

/-- The first byte of a long match in `FL_OP` (R230). -/
def flOpLong (x : Byte) (r : Run) : Run := { r with ctx := { r.ctx with b0 := x, phase := .flExt } }

/-- An operation byte in `FL_OP`: `C[7:5]` selects (R103, R228 to R230). -/
def flOp (x : Byte) (r : Run) : Run :=
  if fastKind x = 0 then flOpLits ((x.extractLsb' 0 5).toNat + 1) r
  else if fastKind x = 7 then flOpLong x r
  else flOpShort x r

/-- A literal byte in `FL_LIT` (R231). -/
def flLit (x : Byte) (r : Run) : Run := { r.emit x with ctx := (r.emit x).ctx.countDown .flOp }

/-- The length-extension byte in `FL_EXT` (R232). -/
def flExt (x : Byte) (r : Run) : Run :=
  { r with ctx := { r.ctx with cnt := BitVec.ofNat 9 (9 + x.toNat), phase := .flOff } }

/-- The low offset byte in `FL_OFF` (R233). -/
def flOff (x : Byte) (r : Run) : Run :=
  r.copy ((fastOffField r.ctx.b0 x).toNat + 1) r.ctx.cnt.toNat (fun c => { c with cnt := 0, phase := .flOp })

/-- FLT.LITS: the operation byte by R228, each literal byte by R231. -/
def execFltLits (data : List Byte) (s : State) : Outcome :=
  runToken .flt (flOpLits data.length :: data.map flLit) s

/-- FLT.MATCH_SHORT: the operation byte by R229, the offset byte by R233. -/
def execFltMatchShort (k : BitVec 3) (o : BitVec 13) (s : State) : Outcome :=
  runToken .flt [flOpShort (k ++ o.extractLsb' 8 5), flOff (o.extractLsb' 0 8)] s

/-- FLT.MATCH_LONG: the operation byte by R230, the extension byte by R232, the offset byte by R233. -/
def execFltMatchLong (e : Byte) (o : BitVec 13) (s : State) : Outcome :=
  runToken .flt [flOpLong (7#3 ++ o.extractLsb' 8 5), flExt e, flOff (o.extractLsb' 0 8)] s

end Sys2Proof.Machine
end

