-- ==== Sys2Proof/Machine/Dispatcher.lean ====
section
/-!
DEFINITION. The compression_block_dispatcher unit (47_dispatcher_and_contexts.md, 41_header_and_store.md): header
inspection, UNCOMPRESS_ANY and the store copy, the decode engine, the context commands, and the unknown command.
-/

namespace Sys2Proof.Machine

/-! ### The decode engine -/

/-- `step(c, x)` (R329): the rule selected by the context's phase and, where the table says so, by its mode, its flag
bit or bits of `x`. In `LZ_REF1` every mode but EXT takes R225 (only PLAIN and EXT occur there, R27; log 18). -/
def stepByte (x : Byte) (r : Run) : Run :=
  match r.ctx.phase with
  | .rlCtrl => rlCtrl x r
  | .rlLit => rlLit x r
  | .rlVal => rlVal x r
  | .lzFlag => lzFlag x r
  | .lzToken => if r.ctx.flags.getLsbD 7 then lzTokenRef x r else lzTokenLit x r
  | .lzRef1 => if r.ctx.mode = 1 then lzRef1Ext x r else lzRef1Plain x r
  | .lzRef2 => lzRef2 x r
  | .flOp => flOp x r
  | .flLit => flLit x r
  | .flExt => flExt x r
  | .flOff => flOff x r
  | .hfTable => hfTable x r
  | .hfData => hfData x r

/-- `feed(c, a, n)` (R330): the run after it and the number of bytes consumed. -/
def feed : Nat → Nat → Run → Run × Nat
  | _, 0, r => (r, 0)
  | a, n + 1, r =>
    if r.ctx.state = .active then
      let rest := feed (a + 1) n (r.consume (stepByte (r.mem.read a)))
      (rest.1, rest.2 + 1)
    else (r, 0)

/-! ### Header inspection (R152, R153) -/

/-- `GET_TYPE` on header byte 0 `b` (R152). -/
def getType (b : Byte) (s : State) : State :=
  let h : Header := ⟨b, 0⟩
  if regionFits s.arg.a0.toNat s.arg.a1.toNat = false then s.raiseCode Err.badArg.code ⟨0xFF, 0, 0, 0⟩
  else if s.arg.a1.toNat < 1 then s.raiseCode Err.truncatedHeader.code ⟨0xFF, 0, 0, 0⟩
  else if h.recognised = false then s.raiseCode Err.badType.code ⟨0xFF, 0, 0, 0⟩
  else s.done false false ⟨h.base.setWidth 32, (BitVec.ofBool h.dif).setWidth 32, h.flags.setWidth 32, 0⟩

/-- `GET_SIZE` on the size field `size` (R153). -/
def getSize (size : Word) (s : State) : State :=
  if regionFits s.arg.a0.toNat s.arg.a1.toNat = false then s.raise .badArg
  else if s.arg.a1.toNat < 5 then s.raise .truncatedHeader
  else s.done false false ⟨size, 0, 0, 0⟩

/-- GET_TYPE (R152): one byte is read. -/
def execGetType (s : State) : Outcome := .next (getType (s.mem.read s.arg.a0.toNat) s)

/-- GET_SIZE (R153). -/
def execGetSize (s : State) : Outcome := .next (getSize (readHeader s.mem s.arg.a0.toNat).size s)

/-! ### UNCOMPRESS_ANY (R326) -/

/-- The store copy (R156), with the data bytes given: the length test before any write. A destination that overlaps the
source is refused (R67). -/
def storeCopy (data : List Byte) (s : State) : Outcome :=
  if s.arg.a1.toNat < 5 + data.length then .next (s.raise .truncatedPayload)
  else if overlaps s.arg.a0.toNat s.arg.a1.toNat s.arg.a2.toNat data.length then .refused .overlappingRegions
  else
    .next ((s.setMem (s.mem.writeList s.arg.a2.toNat data)).done true false
      ⟨resultWord data.length, resultWord (5 + data.length), 0, 0⟩)

/-- What R326 does after `feed`: the results, then the outcome of the private context. -/
def uncompressResult (r : Run) (consumed : Nat) (s : State) : State :=
  let res : Results := ⟨r.ctx.outPos, resultWord (5 + consumed), 0, 0⟩
  match r.ctx.state with
  | .error => (s.setMem r.mem).raiseCode r.ctx.err res
  | .active => (s.setMem r.mem).raiseCode Err.truncatedPayload.code res
  | .finished | .idle => (s.setMem r.mem).done true false res

/-- The token decoders of `UNCOMPRESS_ANY`: a private context is fed the rest of the source (R326). The source and the
destination bytes written must not overlap (R62, R67). -/
def uncompressTokens (h : Header) (s : State) : Outcome :=
  let fed := feed (s.arg.a0.toNat + 5) (s.arg.a1.toNat - 5) ⟨s.mem, freshContext h s.arg.a2⟩
  if overlaps s.arg.a0.toNat s.arg.a1.toNat s.arg.a2.toNat fed.1.ctx.outPos.toNat then .refused .overlappingRegions
  else .next (uncompressResult fed.1 fed.2 s)

/-- `UNCOMPRESS_ANY` with the header `h` (R326). -/
def uncompressAny (h : Header) (s : State) : Outcome :=
  if regionFits s.arg.a0.toNat s.arg.a1.toNat = false ∨ regionFits s.arg.a2.toNat s.arg.a3.toNat = false then
    .next (s.raise .badArg)
  else
    match checkHeader h s.arg.a1.toNat s.arg.a3.toNat none with
    | some e => .next (s.raise e)
    | none =>
      if h.base = 0 then
        if s.arg.a1.toNat < 5 + h.size.toNat then .next (s.raise .truncatedPayload)
        else storeCopy (s.mem.readList (s.arg.a0.toNat + 5) h.size.toNat) s
      else uncompressTokens h s

/-- UNCOMPRESS_ANY (R326). -/
def execUncompressAny (s : State) : Outcome := uncompressAny (readHeader s.mem s.arg.a0.toNat) s

/-! ### The context commands -/

/-- `CTX_INIT` with the header `h` (R328). -/
def ctxInit (h : Header) (s : State) : State :=
  match s.slotAt s.arg.a0, kindOperand s.arg.a1 with
  | some _, some kind =>
    if regionFits s.arg.a2.toNat s.arg.a3.toNat = false ∨ regionFits s.arg.a4.toNat s.arg.a5.toNat = false then
      s.raise .badArg
    else
      match checkHeader h s.arg.a5.toNat s.arg.a3.toNat (some kind) with
      | some e => s.raise e
      | none =>
        (s.setSlot s.arg.a0.toNat (freshContext h s.arg.a2)).done
          (decide ((freshContext h s.arg.a2).state = .finished)) false noResults
  | _, _ => s.raise .badArg

/-- CTX_INIT (R328): the five header bytes at `ARG4`. -/
def execCtxInit (s : State) : Outcome := .next (ctxInit (readHeader s.mem s.arg.a4.toNat) s)

/-- What R331 does after `feed`: `RES0` the bytes produced, `RES1` the bytes consumed, then the slot's outcome. -/
def readResult (before : Ctx) (r : Run) (consumed : Nat) (s : State) : State :=
  let res : Results := ⟨r.ctx.outPos - before.outPos, resultWord consumed, 0, 0⟩
  if r.ctx.state = .error then (s.putRun s.arg.a0.toNat r).raiseCode r.ctx.err res
  else (s.putRun s.arg.a0.toNat r).done (decide (r.ctx.state = .finished)) false res

/-- CTX_READ (R331). The chunk bytes consumed and the destination bytes written must not overlap (R62, R67). -/
def execCtxRead (s : State) : Outcome :=
  match s.slotAt s.arg.a0 with
  | none => .next (s.raise .badArg)
  | some c =>
    if regionFits s.arg.a1.toNat s.arg.a2.toNat = false then .next (s.raise .badArg)
    else
      match c.state with
      | .idle => .next (s.raise .badState)
      | .error => .next (s.raiseCode c.err noResults)
      | .finished => .next (s.done true false noResults)
      | .active =>
        let fed := feed s.arg.a1.toNat s.arg.a2.toNat ⟨s.mem, c⟩
        if overlaps s.arg.a1.toNat fed.2 c.outAddr (fed.1.ctx.outPos - c.outPos).toNat then
          .refused .overlappingRegions
        else .next (readResult c fed.1 fed.2 s)

/-- CTX_FINISHED (R334). -/
def execCtxFinished (s : State) : Outcome :=
  match s.slotAt s.arg.a0 with
  | none => .next (s.raise .badArg)
  | some c =>
    .next (s.done (decide (c.state = .finished)) false ⟨if c.state = .finished then 1 else 0, 0, 0, 0⟩)

/-- CTX_DISCARD (R335). -/
def execCtxDiscard (s : State) : Outcome :=
  match s.slotAt s.arg.a0 with
  | none => .next (s.raise .badArg)
  | some _ => .next ((s.dropSlot s.arg.a0.toNat).done false false noResults)

/-- The packed status of R336. -/
def queryWord (c : Ctx) : Word :=
  BitVec.ofNat 32 (stateCode c.state) ||| c.err.setWidth 32 <<< 8 ||| BitVec.ofNat 32 (phaseCode c.phase) <<< 16
    ||| BitVec.ofNat 32 (kindCode c.kind) <<< 24 ||| c.mode.setWidth 32 <<< 28

/-- CTX_QUERY (R336). -/
def execCtxQuery (s : State) : Outcome :=
  match s.slotAt s.arg.a0 with
  | none => .next (s.raise .badArg)
  | some c =>
    if c.state = .idle then .next (s.done false false noResults)
    else
      .next (s.done (decide (c.state = .finished)) false
        ⟨queryWord c, c.outPos, c.inCount.extractLsb' 0 32, c.inCount.extractLsb' 32 32⟩)

/-- CMD.unknown (R91): `E_BAD_CMD`, and nothing changes but `STATUS`, `ERRCODE` and `RES`. -/
def execCmdUnknown (_code : Byte) (s : State) : Outcome := .next (s.raise .badCmd)

/-! ### Headers as instructions -/

/-- A header acts as the command that is reading it says, the one in `CMD`: `GET_TYPE` and `GET_SIZE` report it,
`UNCOMPRESS_ANY` and `CTX_INIT` select a decoder by it or refuse it (R152, R153, R326, R328; log 11). No other command
reads a header. -/
def runHeader (h : Header) (s : State) : Outcome :=
  if s.cmd = 0x01 then .next (getType h.b0 s)
  else if s.cmd = 0x02 then .next (getSize h.size s)
  else if s.cmd = 0x03 then uncompressAny h s
  else if s.cmd = 0x10 then .next (ctxInit h s)
  else .refused .notBeingRead

/-- HDR.NONE (R156). -/
def execHdrNone (size : Word) (s : State) : Outcome := runHeader ⟨0x00, size⟩ s
/-- HDR.LZ (R325). -/
def execHdrLz (size : Word) (s : State) : Outcome := runHeader ⟨0x10, size⟩ s
/-- HDR.LZX (R325). -/
def execHdrLzx (size : Word) (s : State) : Outcome := runHeader ⟨0x11, size⟩ s
/-- HDR.HUF4 (R325). -/
def execHdrHuf4 (size : Word) (s : State) : Outcome := runHeader ⟨0x24, size⟩ s
/-- HDR.HUF8 (R325). -/
def execHdrHuf8 (size : Word) (s : State) : Outcome := runHeader ⟨0x28, size⟩ s
/-- HDR.RL (R325). -/
def execHdrRl (size : Word) (s : State) : Outcome := runHeader ⟨0x30, size⟩ s
/-- HDR.FLZ (R325). -/
def execHdrFlz (size : Word) (s : State) : Outcome := runHeader ⟨0x40, size⟩ s
/-- HDR.DIF (R324). -/
def execHdrDif (base : BitVec 3) (flags : BitVec 4) (size : Word) (s : State) : Outcome :=
  runHeader ⟨headerByte (1#1 ++ base) flags, size⟩ s
/-- HDR.UNRECOGNISED (R97). -/
def execHdrUnrecognised (tag : BitVec 4) (flags : BitVec 4) (size : Word) (s : State) : Outcome :=
  runHeader ⟨headerByte tag flags, size⟩ s
/-- HDR.BADFLAGS (R323). -/
def execHdrBadFlags (base : BitVec 3) (flags : BitVec 4) (size : Word) (s : State) : Outcome :=
  runHeader ⟨headerByte (0#1 ++ base) flags, size⟩ s

/-- BYTES (R156): the payload of a store block, under the operands of `UNCOMPRESS_ANY`: its operand and capacity tests,
then the store copy of these bytes. DESIGN CHOICE (log 26): the spec gives a store payload no execution of its own. The
model takes `ARG0` to `ARG3` as those operands whatever `CMD` holds, tests no header bytes, and gives a source shorter
than a header and these bytes, also one shorter than 5, `E_TRUNCATED_PAYLOAD`. -/
def execBytes (data : List Byte) (s : State) : Outcome :=
  if regionFits s.arg.a0.toNat s.arg.a1.toNat = false ∨ regionFits s.arg.a2.toNat s.arg.a3.toNat = false then
    .next (s.raise .badArg)
  else if s.arg.a3.toNat < data.length then .next (s.raise .dstTooSmall)
  else storeCopy data s

end Sys2Proof.Machine
end

