-- ==== Sys2Proof/Machine/Matcher.lean ====
section
/-!
DEFINITION. The compress side of the matcher (43_lz77_matcher.md): the match search, LZ_FIND, the greedy parse, the
serialisation of its tokens, and LZ_COMPRESS.
-/

namespace Sys2Proof.Machine

/-- `W`: the largest offset (R191). -/
def matchWindow (extended : Bool) : Nat := if extended then Config.lzxWin else Config.lzWin
/-- `M`: the largest length (R191). -/
def matchMax (extended : Bool) : Nat := if extended then Config.lzxMaxLen else Config.lzMaxLen

/-- How many bytes at `p` and `q` agree, at most `lim` of them (R192). -/
def agree (m : Memory) (p q : Nat) : Nat → Nat
  | 0 => 0
  | lim + 1 => if m.read p = m.read q then 1 + agree m (p + 1) (q + 1) lim else 0

/-- `matchLen(pos, off)` for the source of `size` bytes at `src` (R192). The reference side may run past `pos`. -/
def matchLen (m : Memory) (src size : Nat) (extended : Bool) (pos off : Nat) : Nat :=
  agree m (src + pos) (src + pos - off) (min (matchMax extended) (size - pos))

/-- `max(Cand)`: the number of offsets searched (R193). -/
def candidates (dFast : Nat) (extended fast : Bool) (pos : Nat) : Nat :=
  if fast then min (min pos (matchWindow extended)) dFast else min pos (matchWindow extended)

/-- The loop of R194 over the offsets `1 .. n`: the best offset and length so far; a longer match is needed to
replace the best one, so the smallest offset wins a tie (R195). -/
def bestMatch (m : Memory) (src size : Nat) (extended : Bool) (pos : Nat) : Nat → Nat × Nat
  | 0 => (0, 0)
  | n + 1 =>
    let best := bestMatch m src size extended pos n
    let L := matchLen m src size extended pos (n + 1)
    if best.2 < L then (n + 1, L) else best

/-- One search (R194): the match found, as offset and length, or none. -/
def findMatch (m : Memory) (dFast src size : Nat) (extended fast : Bool) (pos : Nat) : Option (Nat × Nat) :=
  let best := bestMatch m src size extended pos (candidates dFast extended fast pos)
  if Config.lzMin ≤ best.2 then some best else none

/-- LZ_FIND (R194). -/
def execLzFind (s : State) : Outcome :=
  if regionFits s.arg.a0.toNat s.arg.a1.toNat = false ∨ optsLegal s.arg.a3 2 = false then .next (s.raise .badArg)
  else if s.arg.a1.toNat < s.arg.a2.toNat then .next (s.raise .range)
  else
    match findMatch s.mem s.dFast s.arg.a0.toNat s.arg.a1.toNat (optBit0 s.arg.a3) (optBit1 s.arg.a3)
        s.arg.a2.toNat with
    | some (off, len) => .next (s.done false false ⟨1, resultWord off, resultWord len, 0⟩)
    | none => .next (s.done false false noResults)

/-- The token of a back-reference in the mode's format (R101, R102). -/
def refToken (extended : Bool) (off len : Nat) : Instr :=
  if extended then .lzxtRef (BitVec.ofNat 8 (len - 3)) (BitVec.ofNat 16 (off - 1))
  else .lztRef (BitVec.ofNat 4 (len - 3)) (BitVec.ofNat 12 (off - 1))

/-- The greedy parse from `pos` on (R197); the first argument bounds the number of tokens. -/
def parseTokens (m : Memory) (dFast src size : Nat) (extended fast : Bool) : Nat → Nat → List Instr
  | 0, _ => []
  | n + 1, pos =>
    if pos < size then
      match findMatch m dFast src size extended fast pos with
      | some (off, len) => refToken extended off len :: parseTokens m dFast src size extended fast n (pos + len)
      | none => .lztLit (m.read (src + pos)) :: parseTokens m dFast src size extended fast n (pos + 1)
    else []

/-- A token is a back-reference: its flag bit is 1 (R99). -/
def isRef : Instr → Bool
  | .lztRef _ _ => true
  | .lzxtRef _ _ => true
  | _ => false

/-- The flag byte of a group: bit `7 - i` for token `i`, unused low bits clear (R198). -/
def flagByte (group : List Instr) : Byte :=
  BitVec.ofNat 8 ((List.range 8).map (fun i => if (group[i]?.map isRef).getD false then 2 ^ (7 - i) else 0)).sum

/-- The payload of a token list: groups of 8, each its flag byte and then its tokens (R198); the first argument
bounds the number of groups. -/
def serialise : Nat → List Instr → List Byte
  | 0, _ => []
  | n + 1, toks =>
    if toks = [] then []
    else encode (.lztFlags (flagByte (toks.take 8))) ++ (toks.take 8).flatMap encode ++ serialise n (toks.drop 8)

/-- The block `LZ_COMPRESS` writes: header and payload (R199, R200). -/
def compressedBlock (m : Memory) (dFast src size : Nat) (extended fast : Bool) : List Byte :=
  let toks := parseTokens m dFast src size extended fast size 0
  encode (if extended then .hdrLzx (BitVec.ofNat 32 size) else .hdrLz (BitVec.ofNat 32 size))
    ++ serialise toks.length toks

/-- How many destination bytes `LZ_COMPRESS` writes or may write: exactly the block on success (R62, R200); where it
returns 0 or raises `E_DST_TOO_SMALL`, the bytes R200 and U5 leave unspecified. -/
def compressWritten (total size cap : Nat) : Nat := if size ≤ total ∨ cap < total then min cap size else total

/-- LZ_COMPRESS (R200). The destination bytes a command that writes no block may have used as scratch hold free values
afterwards (U5). A source that meets the bytes this outcome writes is refused (R67, log 5). -/
def execLzCompress (s : State) : Outcome :=
  if regionFits s.arg.a0.toNat s.arg.a1.toNat = false ∨ regionFits s.arg.a2.toNat s.arg.a3.toNat = false
      ∨ optsLegal s.arg.a4 2 = false then .next (s.raise .badArg)
  else
    let block := compressedBlock s.mem s.dFast s.arg.a0.toNat s.arg.a1.toNat (optBit0 s.arg.a4) (optBit1 s.arg.a4)
    let scratched := s.scratch s.arg.a2.toNat (min s.arg.a3.toNat s.arg.a1.toNat)
    if overlaps s.arg.a0.toNat s.arg.a1.toNat s.arg.a2.toNat
        (compressWritten block.length s.arg.a1.toNat s.arg.a3.toNat) then .refused .overlappingRegions
    else if s.arg.a1.toNat ≤ block.length then .next (scratched.done false true noResults)
    else if s.arg.a3.toNat < block.length then .next (scratched.raise .dstTooSmall)
    else
      .next ((s.setMem (s.mem.writeList s.arg.a2.toNat block)).done false false
        ⟨resultWord block.length, 0, 0, 0⟩)

end Sys2Proof.Machine
end

