-- ==== Sys2Proof/Machine/Dispatch.lean ====
section
/-!
DEFINITION. One arm per instruction: the call of its meaning.
-/

namespace Sys2Proof.Machine

def exec (i : Instr) (s : State) : Host.Outcome State Fault Refusal :=
  match i with
  | .getType => Sys2Proof.Machine.execGetType s
  | .getSize => Sys2Proof.Machine.execGetSize s
  | .uncompressAny => Sys2Proof.Machine.execUncompressAny s
  | .ctxInit => Sys2Proof.Machine.execCtxInit s
  | .ctxRead => Sys2Proof.Machine.execCtxRead s
  | .ctxFinished => Sys2Proof.Machine.execCtxFinished s
  | .ctxDiscard => Sys2Proof.Machine.execCtxDiscard s
  | .ctxQuery => Sys2Proof.Machine.execCtxQuery s
  | .packGet => Sys2Proof.Machine.execPackGet s
  | .packSet => Sys2Proof.Machine.execPackSet s
  | .lzFind => Sys2Proof.Machine.execLzFind s
  | .lzCompress => Sys2Proof.Machine.execLzCompress s
  | .hufBuild => Sys2Proof.Machine.execHufBuild s
  | .hufLoad => Sys2Proof.Machine.execHufLoad s
  | .cmdUnknown code => Sys2Proof.Machine.execCmdUnknown code s
  | .hdrNone size => Sys2Proof.Machine.execHdrNone size s
  | .hdrLz size => Sys2Proof.Machine.execHdrLz size s
  | .hdrLzx size => Sys2Proof.Machine.execHdrLzx size s
  | .hdrHuf4 size => Sys2Proof.Machine.execHdrHuf4 size s
  | .hdrHuf8 size => Sys2Proof.Machine.execHdrHuf8 size s
  | .hdrRl size => Sys2Proof.Machine.execHdrRl size s
  | .hdrFlz size => Sys2Proof.Machine.execHdrFlz size s
  | .hdrDif base flags size => Sys2Proof.Machine.execHdrDif base flags size s
  | .hdrUnrecognised tag flags size => Sys2Proof.Machine.execHdrUnrecognised tag flags size s
  | .hdrBadFlags base flags size => Sys2Proof.Machine.execHdrBadFlags base flags size s
  | .bytes data => Sys2Proof.Machine.execBytes data s
  | .rltLits data => Sys2Proof.Machine.execRltLits data s
  | .rltRun n v => Sys2Proof.Machine.execRltRun n v s
  | .lztFlags f => Sys2Proof.Machine.execLztFlags f s
  | .lztLit b => Sys2Proof.Machine.execLztLit b s
  | .lztRef l o => Sys2Proof.Machine.execLztRef l o s
  | .lzxtRef l o => Sys2Proof.Machine.execLzxtRef l o s
  | .fltLits data => Sys2Proof.Machine.execFltLits data s
  | .fltMatchShort k o => Sys2Proof.Machine.execFltMatchShort k o s
  | .fltMatchLong e o => Sys2Proof.Machine.execFltMatchLong e o s
  | .hftByte l h => Sys2Proof.Machine.execHftByte l h s
  | .hfcCode x => Sys2Proof.Machine.execHfcCode x s
  | .pkvElement bits index => Sys2Proof.Machine.execPkvElement bits index s

end Sys2Proof.Machine
end

