-- ==== Sys2Proof/Machine/HostPort.lean ====
section
/-!
DEFINITION. What one action of the host does to the machine (10_state.md R35, R36, R40; 70_reset_and_hazards.md R400), and
the operands, the memory and the slot that make the next host action run one given instruction (log 15).
-/

namespace Sys2Proof.Machine

/-- The command byte a host action makes the block execute, if it does: the low 8 bits written to `CMD` (R35, R36). -/
def HostOp.command : HostOp → Option Byte
  | .writeReg .cmd v => some (v.setWidth 8)
  | _ => none

/-- One action of the host. A write of `CMD` executes the command it holds to completion (R35); any other write stores
what the register keeps (R36); memory is the host's (R40); reset is R400. -/
def portAction (op : HostOp) (s : State) : Outcome :=
  match op.command with
  | some c => exec (decodeCommand c) { s with cmd := c }
  | none =>
    match op with
    | .writeReg r v => .next (s.writeReg r v)
    | .writeMem a b => if a < 2 ^ 32 then .next (s.setMem (s.mem.write a b)) else .fault .noSuchAddress
    | .reset => .next s.resetBlock

/-! ### One given instruction as the next one (log 15) -/

/-- The host's next action becomes the write of a command code. -/
def State.nextCommand (s : State) (c : Word) : State := { s with host := .writeReg .cmd c :: s.host }

/-- Where the bytes of a header or a token are placed. -/
def installAddr : Nat := 0x1000

/-- The bytes of an instruction placed in memory, zeros above them up to the longest token. -/
def State.placeBytes (s : State) (bs : List Byte) : State :=
  s.setMem ((s.mem.fill installAddr 0 129).writeList installAddr bs)

/-- The operands replaced. -/
def State.setArgs (s : State) (g : Args) : State := { s with arg := g }

/-- A context at the start of a token of format `f`, with output behind it and room before it. -/
def installCtx : Format → Option Ctx
  | .rlt => some (freshContext ⟨0x30, 0x100000⟩ 0x100000)
  | .lzFlag => some (freshContext ⟨0x10, 0x100000⟩ 0x100000)
  | .lzLit => some { freshContext ⟨0x10, 0x100000⟩ 0x100000 with phase := .lzToken, flags := 0x00, nflag := 8 }
  | .lzRef =>
    some { freshContext ⟨0x10, 0x100000⟩ 0x100000 with
      phase := .lzToken, flags := 0x80, nflag := 8, outPos := 0x20000 }
  | .lzxRef =>
    some { freshContext ⟨0x11, 0x100000⟩ 0x100000 with
      phase := .lzToken, flags := 0x80, nflag := 8, outPos := 0x20000 }
  | .flt => some { freshContext ⟨0x40, 0x100000⟩ 0x100000 with outPos := 0x20000 }
  | .hft => some (freshContext ⟨0x28, 0x100000⟩ 0x100000)
  | .hfc => some { freshContext ⟨0x28, 0x100000⟩ 0x100000 with phase := .hfData, tpos := 128 }
  | .cmd | .hdr | .store _ | .pkv _ _ => none

/-- What the instruction `i` needs for the machine to run it next: for a command, the write of `CMD` (with two disjoint
output regions for the two commands that refuse overlapping ones); for a header that selects a decoder, a
`CTX_INIT` that reads it; for another header, an `UNCOMPRESS_ANY`; for a token, a `CTX_READ` whose chunk is the
token's bytes, on slot 0 at the start of such a token. -/
def State.install (s : State) (i : Instr) : State :=
  match i with
  | .hufBuild => (s.setArgs ⟨0, 1, 0x1000, 0x2000, 0, 0⟩).nextCommand 0x40
  | .hufLoad => (s.setArgs ⟨0, 1, 0x1000, 0, 0, 0⟩).nextCommand 0x41
  | .hdrLz _ | .hdrLzx _ | .hdrFlz _ =>
    ((s.placeBytes (encode i)).setArgs ⟨0, 2, 0, 0xFFFFFFFF, 0x1000, 5⟩).nextCommand 0x10
  | .hdrHuf4 _ | .hdrHuf8 _ =>
    ((s.placeBytes (encode i)).setArgs ⟨0, 3, 0, 0xFFFFFFFF, 0x1000, 5⟩).nextCommand 0x10
  | .hdrRl _ => ((s.placeBytes (encode i)).setArgs ⟨0, 1, 0, 0xFFFFFFFF, 0x1000, 5⟩).nextCommand 0x10
  | .hdrNone size =>
    ((s.placeBytes (encode i)).setArgs
      ⟨0x1000, 5 + BitVec.ofNat 32 (min size.toNat 256), 0, 0xFFFFFFFF, 0, 0⟩).nextCommand 0x03
  | .hdrDif _ _ _ | .hdrUnrecognised _ _ _ | .hdrBadFlags _ _ _ =>
    ((s.placeBytes (encode i)).setArgs ⟨0x1000, 5, 0, 0xFFFFFFFF, 0, 0⟩).nextCommand 0x03
  | .getType | .getSize | .uncompressAny | .ctxInit | .ctxRead | .ctxFinished | .ctxDiscard | .ctxQuery
  | .packGet | .packSet | .lzFind | .lzCompress | .cmdUnknown _ =>
    s.nextCommand (((encode i).headD 0).setWidth 32)
  | .bytes _ | .rltLits _ | .rltRun _ _ | .lztFlags _ | .lztLit _ | .lztRef _ _ | .lzxtRef _ _ | .fltLits _
  | .fltMatchShort _ _ | .fltMatchLong _ _ | .hftByte _ _ | .hfcCode _ | .pkvElement _ _ =>
    match installCtx (formatOf i) with
    | some c =>
      (((s.placeBytes (encode i)).setSlot 0 c).setArgs
        ⟨0, 0x1000, BitVec.ofNat 32 (encode i).length, 0, 0, 0⟩).nextCommand 0x11
    | none => s

end Sys2Proof.Machine
end

