-- ==== Sys2Proof/Machine/Step.lean ====
section
/-!
DEFINITION. The step of the machine and the interface to the host's one-word question.
-/

namespace Sys2Proof.Machine

/-- One step: the host's next action. When the host has nothing pending the block waits (R402; log 9). -/
def step (s : State) : Host.Outcome State Fault Refusal :=
  match s.host with
  | [] => .next s
  | op :: rest => portAction op { s with host := rest }

/-- The instruction of a table word made the next one the machine runs (log 15). -/
def State.withFetchWord (s : State) (nbits w : Nat) : State :=
  match decodeTableWord nbits w with
  | some i => s.install i
  | none => s

end Sys2Proof.Machine
end

