-- ==== Sys2Proof/Safety.lean ====
section
/-!
DEFINITION. What claims say of the machine: what memory holds, what an operation leaves alone, and the invariant of a
reachable state (10_state.md R22 to R33, R37, R38).
-/

namespace Sys2Proof.Machine

/-- Outside the `n` bytes at `a`, `m'` reads as `m` does. -/
def Memory.SameOutside (m m' : Memory) (a n : Nat) : Prop := ∀ x, x < a ∨ a + n ≤ x → m'.read x = m.read x

/-- The bytes `bs` stand in memory at `a`. -/
def Memory.Holds (m : Memory) (a : Nat) (bs : List Byte) : Prop :=
  ∀ (k : Nat) (h : k < bs.length), m.read (a + k) = bs[k]

/-- The `n` bytes at `a` and the `k` bytes at `b` have no byte in common. -/
abbrev Apart (a n b k : Nat) : Prop := n = 0 ∨ k = 0 ∨ a + n ≤ b ∨ b + k ≤ a

/-- The size field of the header at `a`: bytes 1 to 4, the first lowest (R61, R93). -/
def sizeAt (m : Memory) (a : Nat) : Nat :=
  (m.read (a + 1)).toNat + 2 ^ 8 * (m.read (a + 2)).toNat + 2 ^ 16 * (m.read (a + 3)).toNat
    + 2 ^ 24 * (m.read (a + 4)).toNat

/-- `kindOf` of a base type, as numbers: 1 LZ, 2 HUFF, 3 RL, 4 LZ; 0 stands for none (R325). -/
def kindNumber (base : Nat) : Nat :=
  if base = 1 ∨ base = 4 then 2 else if base = 2 then 3 else if base = 3 then 1 else 0

/-- `flags` is legal for `base` (R95, R323), as numbers. -/
abbrev legalFlagsNumber (base flags : Nat) : Prop :=
  (base = 0 ∧ flags = 0) ∨ (base = 1 ∧ (flags = 0 ∨ flags = 1)) ∨ (base = 2 ∧ (flags = 4 ∨ flags = 8)) ∨
    (base = 3 ∧ flags = 0) ∨ (base = 4 ∧ flags = 0)

/-- The header tests of R322 for byte 0 `b` and size `size`: the code of the first that fails, 0 when none does;
`want` is a `kind`, 0 for `ANY`. -/
def headerTests (b size avail cap want : Nat) : Byte :=
  if avail < 5 then 1
  else if 4 < b / 16 % 8 then 2
  else if b / 128 = 1 then 3
  else if want ≠ 0 ∧ kindNumber (b / 16 % 8) ≠ want then 3
  else if ¬ legalFlagsNumber (b / 16 % 8) (b % 16) then 4
  else if cap < size then 5
  else 0

/-- The context an accepted header byte 0 opens (the tables of R325 and R327). -/
def blockContext (b : Nat) (size dst : Word) : Ctx where
  state := if size = 0 then .finished else .active
  kind := if b = 0x30 then .rl else if b = 0x24 ∨ b = 0x28 then .huff else .lz
  mode := if b = 0x11 then 1 else if b = 0x40 then 2 else if b = 0x24 then 4 else if b = 0x28 then 8 else 0
  dstBase := dst
  outSize := size
  outPos := 0
  inCount := 0
  phase := if b = 0x30 then .rlCtrl else if b = 0x40 then .flOp else if b = 0x24 ∨ b = 0x28 then .hfTable else .lzFlag
  cnt := 0
  b0 := 0
  b1 := 0
  flags := 0
  nflag := 0
  tpos := 0
  len := Vector.replicate 256 0
  code := 0
  codeLen := 0
  nibHold := 0
  nibHave := false
  err := 0

/-- A number from its bits, the first one highest (R266, R293). -/
def bitsValue (bs : List Bool) : Nat := bs.foldl (fun v b => 2 * v + b.toNat) 0

/-- The code of symbol `s` as it stands in the stream: its bits, the most significant first (R108, R266). -/
def codeWord (lens : List Nat) (s : Nat) : List Bool :=
  (List.range (lens.getD s 0)).map (fun i => (canonCode lens s).testBit (lens.getD s 0 - 1 - i))

/-- Symbol `s` has a code. -/
abbrev HasCode (lens : List Nat) (s : Nat) : Prop := s < lens.length ∧ lens.getD s 0 ≠ 0

/-- No symbol's code begins the bits. -/
def NoCodeBegins (lens : List Nat) (bs : List Bool) : Prop := ∀ s, HasCode lens s → ¬ codeWord lens s <+: bs

/-- The bytes of nibbles taken in pairs, the low one first; an odd last nibble waits (R109, R296). -/
def nibbleBytes : List Nat → List Byte
  | lo :: hi :: r => BitVec.ofNat 8 (lo + 16 * hi) :: nibbleBytes r
  | _ => []

/-- Two slots are the same, or both hold no context: no rule reads the other fields then (R22). -/
def Ctx.SameIfLive (c d : Ctx) : Prop := c = d ∨ (c.state = .idle ∧ d.state = .idle)

/-- Two states are the same but for the unread fields of slots that hold no context. -/
def State.SameUpToIdle (s t : State) : Prop :=
  t = { s with slots := t.slots } ∧ List.Forall₂ Ctx.SameIfLive s.slots t.slots

/-- The commands that name no context (R402). -/
def contextFree : List Instr :=
  [.getType, .getSize, .uncompressAny, .packGet, .packSet, .lzFind, .lzCompress, .hufBuild, .hufLoad]

/-- The source bytes a token of the parse stands for (R197): one for a literal, the length for a back-reference. -/
def coveredBytes : Instr → Nat
  | .lztRef l _ => l.toNat + 3
  | .lzxtRef l _ => l.toNat + 3
  | _ => 1

/-- A token is a back-reference (R99). -/
def IsReference (i : Instr) : Prop := (∃ l o, i = .lztRef l o) ∨ ∃ l o, i = .lzxtRef l o

/-- Token `i` is what `LZ_FIND` reports at position `pos` of the source of an `LZ_COMPRESS`, with its options: the
match found as a back-reference of the mode, or the source byte there (R197). -/
def State.ParsesAs (s : State) (pos : Nat) (i : Instr) : Prop :=
  ∃ t, exec .lzFind { s with arg := ⟨s.arg.a0, s.arg.a1, BitVec.ofNat 32 pos, s.arg.a4, 0, 0⟩ } = .next t ∧
    t.errcode = 0 ∧
    i = if t.res.r0 = 1 then
        (if s.arg.a4.getLsbD 0 then
          .lzxtRef (BitVec.ofNat 8 (t.res.r2.toNat - 3)) (BitVec.ofNat 16 (t.res.r1.toNat - 1))
        else .lztRef (BitVec.ofNat 4 (t.res.r2.toNat - 3)) (BitVec.ofNat 12 (t.res.r1.toNat - 1)))
      else .lztLit (s.mem.read (s.arg.a0.toNat + pos))

/-- The regions an instruction may write in a state, as base and length (R62, R338): the destination of the block it
decodes, the packed buffer, the capacity given to the encoder, the tables. -/
def State.writable (s : State) (i : Instr) : List (Nat × Nat) :=
  match i with
  | .uncompressAny => [(s.arg.a2.toNat, sizeAt s.mem s.arg.a0.toNat)]
  | .hdrNone size | .hdrLz size | .hdrLzx size | .hdrHuf4 size | .hdrHuf8 size | .hdrRl size | .hdrFlz size =>
    [(s.arg.a2.toNat, size.toNat)]
  | .bytes data => [(s.arg.a2.toNat, data.length)]
  | .ctxRead | .rltLits _ | .rltRun _ _ | .lztFlags _ | .lztLit _ | .lztRef _ _ | .lzxtRef _ _ | .fltLits _
  | .fltMatchShort _ _ | .fltMatchLong _ _ | .hftByte _ _ | .hfcCode _ =>
    match s.slots[s.arg.a0.toNat]? with
    | some c => [(c.dstBase.toNat, c.outSize.toNat)]
    | none => []
  | .packSet | .pkvElement _ _ => [(s.arg.a0.toNat, s.arg.a1.toNat)]
  | .lzCompress => [(s.arg.a2.toNat, s.arg.a3.toNat)]
  | .hufBuild =>
    [(s.arg.a2.toNat, if s.arg.a1.getLsbD 0 then 8 else 128), (s.arg.a3.toNat, if s.arg.a1.getLsbD 0 then 32 else 512)]
  | .hufLoad => [(s.arg.a2.toNat, if s.arg.a1.getLsbD 0 then 32 else 512)]
  | .getType | .getSize | .ctxInit | .ctxFinished | .ctxDiscard | .ctxQuery | .packGet | .lzFind | .cmdUnknown _
  | .hdrDif _ _ _ | .hdrUnrecognised _ _ _ | .hdrBadFlags _ _ _ => []

/-- The slot `ARG0` names is `c` (R321). -/
abbrev State.SlotIs (s : State) (c : Ctx) : Prop := s.slots[s.arg.a0.toNat]? = some c

/-- `state` after a step of an `ACTIVE` context whose output stands at `pos` (R330). -/
def stateAt (c : Ctx) (pos : Nat) : CtxState := if pos = c.outSize.toNat then .finished else .active

/-- `kind`, `mode` and `phase` occur together (R23, R27). -/
def Ctx.typed (c : Ctx) : Prop :=
  match c.phase with
  | .rlCtrl | .rlLit | .rlVal => c.kind = .rl ∧ c.mode = 0
  | .lzFlag | .lzToken | .lzRef1 => c.kind = .lz ∧ (c.mode = 0 ∨ c.mode = 1)
  | .lzRef2 => c.kind = .lz ∧ c.mode = 1
  | .flOp | .flLit | .flExt | .flOff => c.kind = .lz ∧ c.mode = 2
  | .hfTable | .hfData => c.kind = .huff ∧ (c.mode = 4 ∨ c.mode = 8)

/-- What the carry-over fields of a context without error satisfy in each phase (R27 to R31). -/
def Ctx.carried (c : Ctx) : Prop :=
  match c.phase with
  | .rlLit => 1 ≤ c.cnt.toNat ∧ c.cnt.toNat ≤ 128 ∧ c.outPos.toNat + c.cnt.toNat ≤ c.outSize.toNat
  | .rlVal => 3 ≤ c.cnt.toNat ∧ c.cnt.toNat ≤ 130 ∧ c.outPos.toNat + c.cnt.toNat ≤ c.outSize.toNat
  | .lzToken => 1 ≤ c.nflag.toNat ∧ c.nflag.toNat ≤ 8
  | .lzRef1 | .lzRef2 => c.nflag.toNat ≤ 7
  | .flLit => 1 ≤ c.cnt.toNat ∧ c.cnt.toNat ≤ 32 ∧ c.outPos.toNat + c.cnt.toNat ≤ c.outSize.toNat
  | .flOff => 3 ≤ c.cnt.toNat ∧ c.cnt.toNat ≤ 264
  | .hfTable => c.tpos.toNat < c.symbols / 2 ∧ c.code = 0 ∧ c.codeLen = 0 ∧ c.nibHave = false
  | .hfData =>
    c.tpos.toNat = c.symbols / 2 ∧ c.codeLen.toNat ≤ 14 ∧ c.code.toNat < 2 ^ c.codeLen.toNat ∧ kraftOK c.lens = true
  | .rlCtrl | .lzFlag | .flOp | .flExt => True

/-- The codes a payload error can leave in a context (R222, R228, R171, R291, R294). -/
def payloadCodes : List Byte := [7, 8, 9, 10]

/-- What holds of a slot that holds a context (R22 to R33): the destination lies in the address space, the output does
not pass the declared size, `FINISHED` is exactly a complete output, `err` is set exactly in `ERROR`. -/
def Ctx.Ok (c : Ctx) : Prop :=
  c.state = .idle ∨
    (c.dstBase.toNat + c.outSize.toNat ≤ 2 ^ 32 ∧ c.outPos.toNat ≤ c.outSize.toNat ∧ c.typed ∧
      (c.state = .finished ↔ c.outPos = c.outSize) ∧
      (c.state = .error → c.err ∈ payloadCodes) ∧
      (c.state ≠ .error → c.err = 0 ∧ c.carried) ∧
      (c.nibHave = true → c.mode = 4 ∧ c.kind = .huff ∧ c.state ≠ .finished))

/-- The fields of `STATUS` and `ERRCODE` as a command leaves them (R37, R38, R361): at most one of ERR, FIN and
NOTSMALLER, every other bit 0, and `ERRCODE` an error's code exactly when ERR is 1. -/
def State.ResponseOk (s : State) : Prop :=
  (s.status = 0 ∨ s.status = 1 ∨ s.status = 2 ∨ s.status = 4) ∧ (s.status = 1 ↔ s.errcode ≠ 0) ∧ s.errcode.toNat ≤ 14

/-- The invariant of the machine. -/
def State.Inv (s : State) : Prop := s.mem.wf ∧ (∀ c ∈ s.slots, c.Ok) ∧ s.ResponseOk

end Sys2Proof.Machine
end

