-- ==== Sys2Proof/Certificates/Slice0/Obligations.lean ====
section
/-!
DEFINITION. The statements about the machine. Each docstring names the rule of spec/ it comes from. A next state is
written out as a record update of the state before, so it says what changes and that nothing else does.
-/

section

open Sys2Proof Sys2Proof.Machine

/-! ### Encoding -/

/-- R91 to R110: decoding what the encoder writes gives the instruction back, with every operand. -/
def Obligations.DecodeOfEncode : Prop :=
  ∀ (i : Instr) (rest : List Byte), i.wellFormed = true → decode (formatOf i) (encode i ++ rest) = .ok (i, rest)

/-- R91 to R110: in one format, bytes have one reading: what is decoded is well formed, of that format, and encodes
to the bytes it was read from. A store payload is below 2^32 bytes, as its header says it. -/
def Obligations.EncodeOfDecode : Prop :=
  ∀ (f : Format) (bs rest : List Byte) (i : Instr), (∀ n, f = .store n → n < 2 ^ 32) →
    decode f bs = .ok (i, rest) → i.wellFormed = true ∧ formatOf i = f ∧ encode i ++ rest = bs

/-- R112: no token byte is illegal: with enough bytes after it, every byte begins a token in every token format. -/
def Obligations.EveryByteBeginsAToken : Prop :=
  ∀ (f : Format) (bs : List Byte), f ∈ [Format.rlt, .lzFlag, .lzLit, .lzRef, .lzxRef, .flt, .hft, .hfc] →
    129 ≤ bs.length → ∃ i rest, decode f bs = .ok (i, rest)

/-- A few words written out from the encodings of R92, R93, R98 to R107 decode to what they stand for. -/
def Obligations.WordsDecode : Prop :=
  decode .cmd [0x31] = .ok (.lzCompress, []) ∧
  decode .hdr [0x24, 0x08, 0x00, 0x00, 0x01] = .ok (.hdrHuf4 0x01000008, []) ∧
  decode .rlt [0x83, 0x5A] = .ok (.rltRun 3 0x5A, []) ∧
  decode .lzRef [0x91, 0x02] = .ok (.lztRef 9 0x102, []) ∧
  decode .flt [0x3F, 0xFF] = .ok (.fltMatchShort 1 0x1FFF, [])

/-! ### The step -/

/-- R35: a host write of `CMD` executes the command it holds, at once and on the state with `CMD` written. -/
def Obligations.StepRunsTheCommandWritten : Prop :=
  ∀ (s : State) (v : Word) (rest : List HostOp) (i : Instr), s.host = .writeReg .cmd v :: rest →
    decode .cmd [v.setWidth 8] = .ok (i, []) →
    step s = exec i { s with host := rest, cmd := v.setWidth 8 }

/-- R36, R40, R400, R402: what the host's other actions do. A read-only register is not written; an operand register
takes the value; a byte of memory is the host's; a reset clears the block and leaves memory; without an action the
block waits (log 9, log 16: the host's actions as a list, and the fault outside the address space, are the model's).
What the host reads: each register, the bits above the width of `CMD` and `ERRCODE` as 0, and in `CMD` the last code
written (log 24: a read is a function of the state). -/
def Obligations.StepOfTheOtherHostActions : Prop :=
  ∀ (s : State) (rest : List HostOp),
    (s.host = [] → step s = .next s) ∧
    (∀ v, s.host = .writeReg .status v :: rest → step s = .next { s with host := rest }) ∧
    (∀ v, s.host = .writeReg .errcode v :: rest → step s = .next { s with host := rest }) ∧
    (∀ j v, s.host = .writeReg (.res j) v :: rest → step s = .next { s with host := rest }) ∧
    (∀ j v, s.host = .writeReg (.arg j) v :: rest → ∃ g, step s = .next { s with host := rest, arg := g } ∧
      ∀ k, g.get k = if k = j then v else s.arg.get k) ∧
    (∀ a b, s.host = .writeMem a b :: rest → a < 2 ^ 32 → ∃ m, step s = .next { s with host := rest, mem := m } ∧
      ∀ x, m.read x = if x = a then b else s.mem.read x) ∧
    (∀ a b, s.host = .writeMem a b :: rest → 2 ^ 32 ≤ a → step s = .fault .noSuchAddress) ∧
    (s.host = .reset :: rest → ∃ l, step s = .next { s with
        host := rest, cmd := 0, status := 0, errcode := 0, arg := ⟨0, 0, 0, 0, 0, 0⟩, res := ⟨0, 0, 0, 0⟩, slots := l } ∧
      l.length = s.slots.length ∧ ∀ c ∈ l, c.state = .idle) ∧
    ((s.readReg .cmd).toNat = s.cmd.toNat ∧ s.readReg .status = s.status ∧
      (s.readReg .errcode).toNat = s.errcode.toNat ∧ (∀ j, s.readReg (.arg j) = s.arg.get j) ∧
      ∀ j, s.readReg (.res j) = s.res.get j) ∧
    (∀ v t, s.host = .writeReg .cmd v :: rest → step s = .next t → (t.readReg .cmd).toNat = v.toNat % 2 ^ 8)

/-- R41: what reset leaves, where the spec gives a value: every register 0, every slot `IDLE`. That there are 4 slots is
the spec's default of a parameter it leaves open, which the model takes (log 6). -/
def Obligations.ResetValues : Prop :=
  State.reset.cmd = 0 ∧ State.reset.status = 0 ∧ State.reset.errcode = 0 ∧ (∀ j, State.reset.arg.get j = 0) ∧
    (∀ j, State.reset.res.get j = 0) ∧ State.reset.slots.length = 4 ∧ ∀ c ∈ State.reset.slots, c.state = .idle

/-- R36: no instruction writes `CMD` or an operand register; the number of slots, the parameter `D_FAST` and the host's
pending actions stay too. -/
def Obligations.ExecKeepsCommandAndOperands : Prop :=
  ∀ (i : Instr) (s t : State), exec i s = .next t →
    t.cmd = s.cmd ∧ t.arg = s.arg ∧ t.slots.length = s.slots.length ∧ t.dFast = s.dFast ∧ t.host = s.host

/-- R36: every command writes all of `STATUS`, `ERRCODE` and `RES`: what stood in them before has no influence on the
outcome. -/
def Obligations.CommandsRewriteTheWholeResponse : Prop :=
  ∀ (i : Instr) (s : State) (a : Word) (b : Byte) (r : Results), formatOf i = .cmd →
    exec i { s with status := a, errcode := b, res := r } = exec i s

/-- R402: a command that names no context depends on no state but its operands and memory (and the parameter
`D_FAST`): from two states that agree on those it gives the same response and the same memory, and it leaves every
slot alone (R337). The two states also agree on the counter of the free values, which is the model's own (log 4, log 23):
without that the destination bytes `LZ_COMPRESS` leaves unspecified could differ. -/
def Obligations.ContextFreeCommandsUseOperandsAndMemory : Prop :=
  ∀ (i : Instr) (s s' : State), i ∈ contextFree → s'.arg = s.arg → s'.mem = s.mem → s'.dFast = s.dFast →
    s'.freeCount = s.freeCount →
    (∀ t, exec i s = .next t → t.slots = s.slots ∧
      exec i s' = .next { s' with
        status := t.status, errcode := t.errcode, res := t.res, mem := t.mem, freeCount := t.freeCount }) ∧
    (∀ r, exec i s = .refused r → exec i s' = .refused r) ∧ (∀ r, exec i s ≠ .fault r)

/-- R22: no rule reads a field but `state` of a slot that is `IDLE`: two states that differ only there have the same
outcome, up to such fields again. -/
def Obligations.IdleSlotFieldsAreUnread : Prop :=
  ∀ (i : Instr) (s s' : State), s.SameUpToIdle s' →
    (∀ t, exec i s = .next t → ∃ t', exec i s' = .next t' ∧ t.SameUpToIdle t') ∧
    (∀ r, exec i s = .refused r → exec i s' = .refused r) ∧ (∀ r, exec i s = .fault r → exec i s' = .fault r)

/-! ### Invariants -/

/-- The invariant holds after reset. The unread fields of the slots are the model's choice (log 2), and so is what
unlisted memory reads as (log 1); the invariant does not depend on either. -/
def Obligations.InvAtReset : Prop := State.reset.Inv

/-- R22 to R33, R37, R38: every instruction keeps the invariant, whatever it does. -/
def Obligations.ExecKeepsInv : Prop :=
  ∀ (i : Instr) (s t : State), i.wellFormed = true → s.Inv → exec i s = .next t → t.Inv

/-- R22 to R33, R37, R38: every step of the machine keeps the invariant. -/
def Obligations.StepKeepsInv : Prop := ∀ (s t : State), s.Inv → step s = .next t → t.Inv

/-! ### Operands and errors -/

/-- R66, R91, R321: a base and a length that pass the end of the address space, or a context number that names no slot,
raise `E_BAD_ARG`, and so do a `kind` that is none of the three and a reserved bit of `opts`; a code that is not in the
table raises `E_BAD_CMD`; nothing but the response changes. `GET_TYPE` alone keeps a result, `0xFF` (R152). -/
def Obligations.BadOperandsAndCommandsRaise : Prop :=
  ∀ (s : State) (i : Instr),
    (i ∈ [Instr.getSize, .uncompressAny, .packGet, .packSet, .lzFind, .lzCompress] ∧
        2 ^ 32 < s.arg.a0.toNat + s.arg.a1.toNat ∨
      i ∈ [Instr.uncompressAny, .lzCompress, .ctxInit] ∧ 2 ^ 32 < s.arg.a2.toNat + s.arg.a3.toNat ∨
      i = .ctxInit ∧ 2 ^ 32 < s.arg.a4.toNat + s.arg.a5.toNat ∨
      i = .ctxRead ∧ 2 ^ 32 < s.arg.a1.toNat + s.arg.a2.toNat ∨
      i = .hufBuild ∧ 2 ^ 32 < s.arg.a0.toNat + (if s.arg.a1.getLsbD 0 then 64 else 1024) ∨
      i = .hufBuild ∧ 2 ^ 32 < s.arg.a2.toNat + (if s.arg.a1.getLsbD 0 then 8 else 128) ∨
      i = .hufBuild ∧ 2 ^ 32 < s.arg.a3.toNat + (if s.arg.a1.getLsbD 0 then 32 else 512) ∨
      i = .hufLoad ∧ 2 ^ 32 < s.arg.a0.toNat + (if s.arg.a1.getLsbD 0 then 8 else 128) ∨
      i = .hufLoad ∧ 2 ^ 32 < s.arg.a2.toNat + (if s.arg.a1.getLsbD 0 then 32 else 512) ∨
      i ∈ [Instr.ctxInit, .ctxRead, .ctxFinished, .ctxDiscard, .ctxQuery] ∧ s.slots.length ≤ s.arg.a0.toNat ∨
      i = .ctxInit ∧ s.arg.a1 ∉ [1, 2, 3] ∨
      i ∈ [Instr.hufBuild, .hufLoad] ∧ 2 ≤ s.arg.a1.toNat ∨
      i = .lzFind ∧ 4 ≤ s.arg.a3.toNat ∨ i = .lzCompress ∧ 4 ≤ s.arg.a4.toNat →
    exec i s = .next { s with status := 1, errcode := 13, res := ⟨0, 0, 0, 0⟩ }) ∧
    (2 ^ 32 < s.arg.a0.toNat + s.arg.a1.toNat →
      exec .getType s = .next { s with status := 1, errcode := 13, res := ⟨0xFF, 0, 0, 0⟩ }) ∧
    (∀ code, code ∉ commandCodes → decode .cmd [code] = .ok (.cmdUnknown code, []) ∧
      exec (.cmdUnknown code) s = .next { s with status := 1, errcode := 14, res := ⟨0, 0, 0, 0⟩ })

/-- R365: an error of the operand, header, state and range classes leaves memory and every slot as they were; only
`LZ_COMPRESS` may have used its destination before `E_DST_TOO_SMALL`. -/
def Obligations.EarlyErrorsChangeNothing : Prop :=
  ∀ (i : Instr) (s t : State), formatOf i = .cmd → exec i s = .next t →
    t.errcode ∈ [1, 2, 3, 4, 5, 11, 12, 13, 14] → ¬ (i = .lzCompress ∧ t.errcode = 5) →
    t.mem = s.mem ∧ t.slots = s.slots

/-- R67, with the regions of R62 as the model reads them (log 5): a command is refused exactly when the bytes it writes
meet the bytes it reads: `LZ_COMPRESS` by its outcome, `HUF_BUILD` and `HUF_LOAD` in both alphabets, `UNCOMPRESS_ANY` on a
store block and on a token block, the payload of a store block (log 26), and `CTX_READ`. And the model's own (log 11, log
12, log 13): a header, a token or a packed element that no command and no context is reading is refused. -/
def Obligations.RefusalsAreNamed : Prop :=
  ∀ (s : State) (i : Instr) (N : Nat) (len : Nat → Nat), N = (if s.arg.a1.getLsbD 0 then 16 else 256) →
    (∀ y, len y = (s.mem.read (s.arg.a0.toNat + y / 2)).toNat / 16 ^ (y % 2) % 16) →
    (∀ total, s.arg.a0.toNat + s.arg.a1.toNat ≤ 2 ^ 32 → s.arg.a2.toNat + s.arg.a3.toNat ≤ 2 ^ 32 →
      s.arg.a4.toNat < 4 →
      total = (compressedBlock s.mem s.dFast s.arg.a0.toNat s.arg.a1.toNat (s.arg.a4.getLsbD 0)
        (s.arg.a4.getLsbD 1)).length →
      (exec .lzCompress s = .refused .overlappingRegions ↔
        ¬ Apart s.arg.a0.toNat s.arg.a1.toNat s.arg.a2.toNat
          (if total < s.arg.a1.toNat ∧ total ≤ s.arg.a3.toNat then total
          else min s.arg.a3.toNat s.arg.a1.toNat))) ∧
    (s.arg.a1.toNat < 2 → s.arg.a0.toNat + 4 * N ≤ 2 ^ 32 → s.arg.a2.toNat + N / 2 ≤ 2 ^ 32 →
      s.arg.a3.toNat + 2 * N ≤ 2 ^ 32 →
      (exec .hufBuild s = .refused .overlappingRegions ↔
        ¬ (Apart s.arg.a0.toNat (4 * N) s.arg.a2.toNat (N / 2) ∧ Apart s.arg.a0.toNat (4 * N) s.arg.a3.toNat (2 * N) ∧
          Apart s.arg.a2.toNat (N / 2) s.arg.a3.toNat (2 * N)))) ∧
    (s.arg.a1.toNat < 2 → s.arg.a0.toNat + N / 2 ≤ 2 ^ 32 → s.arg.a2.toNat + 2 * N ≤ 2 ^ 32 →
      ((List.range N).map (fun y => if len y = 0 then 0 else 2 ^ (15 - len y))).sum ≤ 2 ^ 15 →
      (exec .hufLoad s = .refused .overlappingRegions ↔ ¬ Apart s.arg.a0.toNat (N / 2) s.arg.a2.toNat (2 * N))) ∧
    (∀ size, s.arg.a0.toNat + s.arg.a1.toNat ≤ 2 ^ 32 → s.arg.a2.toNat + s.arg.a3.toNat ≤ 2 ^ 32 →
      5 + size ≤ s.arg.a1.toNat → size ≤ s.arg.a3.toNat →
      (i = .uncompressAny ∧ s.mem.read s.arg.a0.toNat = 0x00 ∧ sizeAt s.mem s.arg.a0.toNat = size ∨
        (∃ w : Word, i = .hdrNone w ∧ s.cmd = 0x03 ∧ w.toNat = size) ∨ ∃ data, i = .bytes data ∧ data.length = size) →
      (exec i s = .refused .overlappingRegions ↔ ¬ Apart s.arg.a0.toNat s.arg.a1.toNat s.arg.a2.toNat size)) ∧
    (∀ b size written, s.arg.a0.toNat + s.arg.a1.toNat ≤ 2 ^ 32 → s.arg.a2.toNat + s.arg.a3.toNat ≤ 2 ^ 32 →
      b = (s.mem.read s.arg.a0.toNat).toNat → size = sizeAt s.mem s.arg.a0.toNat → b ≠ 0 →
      headerTests b size s.arg.a1.toNat s.arg.a3.toNat 0 = 0 →
      written = (feed (s.arg.a0.toNat + 5) (s.arg.a1.toNat - 5)
        ⟨s.mem, blockContext b (BitVec.ofNat 32 size) s.arg.a2⟩).1.ctx.outPos.toNat →
      (exec .uncompressAny s = .refused .overlappingRegions ↔
        ¬ Apart s.arg.a0.toNat s.arg.a1.toNat s.arg.a2.toNat written)) ∧
    (∀ c fed, s.SlotIs c → c.state = .active → s.arg.a1.toNat + s.arg.a2.toNat ≤ 2 ^ 32 →
      fed = feed s.arg.a1.toNat s.arg.a2.toNat ⟨s.mem, c⟩ →
      (exec .ctxRead s = .refused .overlappingRegions ↔
        ¬ Apart s.arg.a1.toNat fed.2 (c.dstBase.toNat + c.outPos.toNat) (fed.1.ctx.outPos - c.outPos).toNat)) ∧
    (formatOf i = .hdr → s.cmd ∉ [0x01, 0x02, 0x03, 0x10] → exec i s = .refused .notBeingRead) ∧
    (formatOf i ∈ [Format.rlt, .lzFlag, .lzLit, .lzRef, .lzxRef, .flt, .hft, .hfc] →
      (∀ c, s.SlotIs c → c.state = .active → c.nextFormat ≠ some (formatOf i)) →
      exec i s = .refused .notBeingRead) ∧
    (∀ bits index, i = .pkvElement bits index → s.cmd ∉ [0x20, 0x21] → exec i s = .refused .notBeingRead)

/-! ### Headers -/

/-- R152: `GET_TYPE`, whole. -/
def Obligations.GetTypeReports : Prop :=
  ∀ (s : State) (b : Nat), b = (s.mem.read s.arg.a0.toNat).toNat →
    exec .getType s = .next (
      if 2 ^ 32 < s.arg.a0.toNat + s.arg.a1.toNat then
        { s with status := 1, errcode := 13, res := ⟨0xFF, 0, 0, 0⟩ }
      else if s.arg.a1.toNat < 1 then { s with status := 1, errcode := 1, res := ⟨0xFF, 0, 0, 0⟩ }
      else if 4 < b / 16 % 8 then { s with status := 1, errcode := 2, res := ⟨0xFF, 0, 0, 0⟩ }
      else
        { s with
          status := 0, errcode := 0
          res := ⟨BitVec.ofNat 32 (b / 16 % 8), BitVec.ofNat 32 (b / 128), BitVec.ofNat 32 (b % 16), 0⟩ })

/-- R153: `GET_SIZE`, whole. -/
def Obligations.GetSizeReports : Prop :=
  ∀ (s : State),
    exec .getSize s = .next (
      if 2 ^ 32 < s.arg.a0.toNat + s.arg.a1.toNat then
        { s with status := 1, errcode := 13, res := ⟨0, 0, 0, 0⟩ }
      else if s.arg.a1.toNat < 5 then { s with status := 1, errcode := 1, res := ⟨0, 0, 0, 0⟩ }
      else
        { s with status := 0, errcode := 0, res := ⟨BitVec.ofNat 32 (sizeAt s.mem s.arg.a0.toNat), 0, 0, 0⟩ })

/-- R322: the header tests of `UNCOMPRESS_ANY` and `CTX_INIT`, in their order; the first that fails decides the error,
and nothing but the response changes. -/
def Obligations.HeaderTestsDecideTheError : Prop :=
  ∀ (s : State) (code : Byte), code ≠ 0 →
    (s.arg.a0.toNat + s.arg.a1.toNat ≤ 2 ^ 32 → s.arg.a2.toNat + s.arg.a3.toNat ≤ 2 ^ 32 →
      code = headerTests (s.mem.read s.arg.a0.toNat).toNat (sizeAt s.mem s.arg.a0.toNat) s.arg.a1.toNat
        s.arg.a3.toNat 0 →
      exec .uncompressAny s = .next { s with status := 1, errcode := code, res := ⟨0, 0, 0, 0⟩ }) ∧
    (s.arg.a0.toNat < s.slots.length → s.arg.a1 ∈ [1, 2, 3] → s.arg.a2.toNat + s.arg.a3.toNat ≤ 2 ^ 32 →
      s.arg.a4.toNat + s.arg.a5.toNat ≤ 2 ^ 32 →
      code = headerTests (s.mem.read s.arg.a4.toNat).toNat (sizeAt s.mem s.arg.a4.toNat) s.arg.a5.toNat
        s.arg.a3.toNat s.arg.a1.toNat →
      exec .ctxInit s = .next { s with status := 1, errcode := code, res := ⟨0, 0, 0, 0⟩ })

/-- R325, R327, R328: a `CTX_INIT` that passes its tests puts the context of the table into the slot and changes nothing
else but the response; it reports `FIN` for a block of size 0. -/
def Obligations.CtxInitOpensAContext : Prop :=
  ∀ (s : State), s.arg.a0.toNat < s.slots.length → s.arg.a1 ∈ [1, 2, 3] →
    s.arg.a2.toNat + s.arg.a3.toNat ≤ 2 ^ 32 → s.arg.a4.toNat + s.arg.a5.toNat ≤ 2 ^ 32 →
    headerTests (s.mem.read s.arg.a4.toNat).toNat (sizeAt s.mem s.arg.a4.toNat) s.arg.a5.toNat s.arg.a3.toNat
      s.arg.a1.toNat = 0 →
    exec .ctxInit s = .next { s with
      status := if sizeAt s.mem s.arg.a4.toNat = 0 then 2 else 0, errcode := 0, res := ⟨0, 0, 0, 0⟩
      slots := s.slots.set s.arg.a0.toNat (blockContext (s.mem.read s.arg.a4.toNat).toNat
        (BitVec.ofNat 32 (sizeAt s.mem s.arg.a4.toNat)) s.arg.a2) }

/-- R325, R328: each of the six headers a context exists for, read by `CTX_INIT` with its `kind`, opens its decoder. -/
def Obligations.HeadersOpenTheirDecoders : Prop :=
  ∀ (s : State) (size : Word) (i : Instr) (b : Nat) (kind : Word),
    (i, b, kind) ∈ [(Instr.hdrLz size, 0x10, 2), (.hdrLzx size, 0x11, 2), (.hdrHuf4 size, 0x24, 3),
      (.hdrHuf8 size, 0x28, 3), (.hdrRl size, 0x30, 1), (.hdrFlz size, 0x40, 2)] →
    s.cmd = 0x10 → s.arg.a0.toNat < s.slots.length → s.arg.a1 = kind → s.arg.a2.toNat + s.arg.a3.toNat ≤ 2 ^ 32 →
    s.arg.a4.toNat + s.arg.a5.toNat ≤ 2 ^ 32 → 5 ≤ s.arg.a5.toNat → size.toNat ≤ s.arg.a3.toNat →
    exec i s = .next { s with
      status := if size = 0 then 2 else 0, errcode := 0, res := ⟨0, 0, 0, 0⟩
      slots := s.slots.set s.arg.a0.toNat (blockContext b size s.arg.a2) }

/-- R97, R323, R324: the headers no decoder accepts raise their error under `UNCOMPRESS_ANY` and under `CTX_INIT`, and
nothing but the response changes. -/
def Obligations.RefusedHeadersRaise : Prop :=
  ∀ (s : State) (size : Word) (tag : BitVec 4) (base : BitVec 3) (flags : BitVec 4),
    (s.cmd = 0x03 ∧ s.arg.a0.toNat + s.arg.a1.toNat ≤ 2 ^ 32 ∧ 5 ≤ s.arg.a1.toNat ∨
      s.cmd = 0x10 ∧ s.arg.a4.toNat + s.arg.a5.toNat ≤ 2 ^ 32 ∧ 5 ≤ s.arg.a5.toNat ∧
        s.arg.a0.toNat < s.slots.length ∧ s.arg.a1 ∈ [1, 2, 3]) →
    s.arg.a2.toNat + s.arg.a3.toNat ≤ 2 ^ 32 →
    ((Instr.hdrUnrecognised tag flags size).wellFormed = true →
      exec (.hdrUnrecognised tag flags size) s = .next { s with status := 1, errcode := 2, res := ⟨0, 0, 0, 0⟩ }) ∧
    ((Instr.hdrDif base flags size).wellFormed = true →
      exec (.hdrDif base flags size) s = .next { s with status := 1, errcode := 3, res := ⟨0, 0, 0, 0⟩ }) ∧
    ((Instr.hdrBadFlags base flags size).wellFormed = true →
      (s.cmd = 0x10 → kindNumber base.toNat = s.arg.a1.toNat) →
      exec (.hdrBadFlags base flags size) s = .next { s with status := 1, errcode := 4, res := ⟨0, 0, 0, 0⟩ })

/-- R114, R151: a header in memory acts as the header instruction it decodes to, under each of the four commands that
read one; that a header is executed under the command in `CMD` is the model's reading (log 11). -/
def Obligations.HeaderInMemoryActsAsItsInstruction : Prop :=
  ∀ (s : State) (i : Instr) (a : Nat), i.wellFormed = true → formatOf i = .hdr →
    s.cmd ∈ [0x01, 0x02, 0x03, 0x10] → a = (if s.cmd = 0x10 then s.arg.a4.toNat else s.arg.a0.toNat) →
    s.mem.Holds a (encode i) → exec (decodeCommand s.cmd) s = exec i s

/-- R156, R326: a store block, as `UNCOMPRESS_ANY` reads it: the length test comes before any write; then the data bytes
are written to the destination. The model's own: so do its header HDR.NONE under that command in `CMD` (log 11) and its
payload under the same operands, whatever `CMD` holds (log 26). -/
def Obligations.StoreBlockIsCopied : Prop :=
  ∀ (s : State) (i : Instr) (size : Word) (data : List Byte), data.length = size.toNat →
    (((i = .uncompressAny ∧ s.mem.read s.arg.a0.toNat = 0x00 ∧ sizeAt s.mem s.arg.a0.toNat = size.toNat ∨
        i = .hdrNone size ∧ s.cmd = 0x03) ∧ s.mem.Holds (s.arg.a0.toNat + 5) data) ∨ i = .bytes data) →
    s.arg.a0.toNat + s.arg.a1.toNat ≤ 2 ^ 32 → s.arg.a2.toNat + s.arg.a3.toNat ≤ 2 ^ 32 → 5 ≤ s.arg.a1.toNat →
    size.toNat ≤ s.arg.a3.toNat →
    (s.arg.a1.toNat < 5 + size.toNat →
      exec i s = .next { s with status := 1, errcode := 6, res := ⟨0, 0, 0, 0⟩ }) ∧
    (5 + size.toNat ≤ s.arg.a1.toNat → Apart s.arg.a0.toNat s.arg.a1.toNat s.arg.a2.toNat size.toNat →
      ∃ m, exec i s = .next { s with mem := m, status := 2, errcode := 0, res := ⟨size, 5 + size, 0, 0⟩ } ∧
        m.Holds s.arg.a2.toNat data ∧ s.mem.SameOutside m s.arg.a2.toNat size.toNat)

/-! ### Streaming contexts -/

/-- R331, R338 (e): `CTX_READ` by the state of its slot. Outside `ACTIVE`: `E_BAD_STATE`, the recorded error again, or
nothing to do. On an `ACTIVE` slot whose chunk does not meet its destination it changes its slot, the output it adds,
and the response: `RES0` is the output added, `RES1` the bytes consumed; the code reported is the one recorded in the
slot. The identity of the context stays, its position does not decrease, and what was written before is not written
again. -/
def Obligations.CtxReadByStateOfItsSlot : Prop :=
  ∀ (s : State) (c : Ctx), s.SlotIs c → s.arg.a1.toNat + s.arg.a2.toNat ≤ 2 ^ 32 →
    (c.state = .idle → exec .ctxRead s = .next { s with status := 1, errcode := 11, res := ⟨0, 0, 0, 0⟩ }) ∧
    (c.state = .error → exec .ctxRead s = .next { s with status := 1, errcode := c.err, res := ⟨0, 0, 0, 0⟩ }) ∧
    (c.state = .finished → exec .ctxRead s = .next { s with status := 2, errcode := 0, res := ⟨0, 0, 0, 0⟩ }) ∧
    (c.state = .active → c.Ok → Apart s.arg.a1.toNat s.arg.a2.toNat c.dstBase.toNat c.outSize.toNat →
      ∃ (c' : Ctx) (m : Memory) (n : Nat), n ≤ s.arg.a2.toNat ∧
        exec .ctxRead s = .next { s with
          mem := m, slots := s.slots.set s.arg.a0.toNat c'
          status := if c'.state = .error then 1 else if c'.state = .finished then 2 else 0
          errcode := c'.err, res := ⟨c'.outPos - c.outPos, BitVec.ofNat 32 n, 0, 0⟩ } ∧
        c'.inCount = c.inCount + BitVec.ofNat 64 n ∧ c.outPos.toNat ≤ c'.outPos.toNat ∧ c'.state ≠ .idle ∧
        c'.dstBase = c.dstBase ∧ c'.outSize = c.outSize ∧ c'.kind = c.kind ∧ c'.mode = c.mode ∧
        (c'.state = .active → n = s.arg.a2.toNat) ∧
        s.mem.SameOutside m (c.dstBase.toNat + c.outPos.toNat) (c'.outPos.toNat - c.outPos.toNat))

/-- R338 (a), R12: chunking is unobservable: a chunk fed in two pieces leaves the slots, memory and the last report that
the whole chunk leaves, and the counts add up. -/
def Obligations.ChunkingIsUnobservable : Prop :=
  ∀ (s : State) (c : Ctx) (n1 n2 : Word), s.SlotIs c → c.Ok → s.arg.a2.toNat = n1.toNat + n2.toNat →
    s.arg.a1.toNat + s.arg.a2.toNat ≤ 2 ^ 32 →
    Apart s.arg.a1.toNat s.arg.a2.toNat c.dstBase.toNat c.outSize.toNat →
    ∃ t u v, exec .ctxRead s = .next t ∧
      exec .ctxRead { s with arg := { s.arg with a2 := n1 } } = .next u ∧
      exec .ctxRead { u with arg := { s.arg with a1 := s.arg.a1 + n1, a2 := n2 } } = .next v ∧
      v.mem = t.mem ∧ v.slots = t.slots ∧ v.status = t.status ∧ v.errcode = t.errcode ∧
      u.res.r0.toNat + v.res.r0.toNat = t.res.r0.toNat ∧ u.res.r1.toNat + v.res.r1.toNat = t.res.r1.toNat

/-- R338 (b), R326: decoding a block at once and through a slot leave the same memory, the same counts and the same
error; where the one-shot command reports a truncated payload the slot is still `ACTIVE` without error. -/
def Obligations.OneShotEqualsStreaming : Prop :=
  ∀ (s : State) (j : Nat), j < s.slots.length → j < 2 ^ 32 → s.arg.a0.toNat + s.arg.a1.toNat ≤ 2 ^ 32 →
    s.arg.a2.toNat + s.arg.a3.toNat ≤ 2 ^ 32 →
    headerTests (s.mem.read s.arg.a0.toNat).toNat (sizeAt s.mem s.arg.a0.toNat) s.arg.a1.toNat s.arg.a3.toNat 0 = 0 →
    (s.mem.read s.arg.a0.toNat).toNat ≠ 0 →
    Apart s.arg.a0.toNat s.arg.a1.toNat s.arg.a2.toNat (sizeAt s.mem s.arg.a0.toNat) →
    ∃ t u v c, exec .uncompressAny s = .next t ∧
      exec .ctxInit { s with arg := ⟨BitVec.ofNat 32 j,
        BitVec.ofNat 32 (kindNumber ((s.mem.read s.arg.a0.toNat).toNat / 16)), s.arg.a2, s.arg.a3, s.arg.a0,
        s.arg.a1⟩ } = .next u ∧
      exec .ctxRead { u with arg := ⟨BitVec.ofNat 32 j, s.arg.a0 + 5, s.arg.a1 - 5, 0, 0, 0⟩ } = .next v ∧
      v.slots[j]? = some c ∧ t.mem = v.mem ∧ t.slots = s.slots ∧ t.res.r0 = c.outPos ∧
      t.res.r1.toNat = 5 + c.inCount.toNat ∧
      (c.state = .finished ∧ t.status = 2 ∧ t.errcode = 0 ∧ v.errcode = 0 ∨
        c.state = .error ∧ t.status = 1 ∧ t.errcode = c.err ∧ v.errcode = c.err ∨
        c.state = .active ∧ t.status = 1 ∧ t.errcode = 6 ∧ v.errcode = 0)

/-- R111, R329, R331: a `CTX_READ` whose chunk is one token does to memory and to the slots what the token's instruction
does, and reports it: this joins the tokens' statements to the command a host issues. -/
def Obligations.CtxReadOfATokenRunsIt : Prop :=
  ∀ (s : State) (c : Ctx) (i : Instr), s.SlotIs c → c.state = .active → c.Ok → i.wellFormed = true →
    c.nextFormat = some (formatOf i) → s.mem.Holds s.arg.a1.toNat (encode i) →
    s.arg.a2.toNat = (encode i).length → s.arg.a1.toNat + s.arg.a2.toNat ≤ 2 ^ 32 →
    Apart s.arg.a1.toNat s.arg.a2.toNat c.dstBase.toNat c.outSize.toNat →
    ∃ t c', exec i s = .next t ∧ t.slots[s.arg.a0.toNat]? = some c' ∧
      exec .ctxRead s = .next { t with
        status := if c'.state = .error then 1 else if c'.state = .finished then 2 else 0
        errcode := c'.err, res := ⟨c'.outPos - c.outPos, (c'.inCount - c.inCount).setWidth 32, 0, 0⟩ }

/-- R335: `CTX_DISCARD`: a number that names no slot raises `E_BAD_ARG`; else, whatever the state of the slot, the slot
is `IDLE`, nothing is said of its other fields, and memory and the other slots stay. (The counter of the free values
that stand in those fields is the model's own, log 3; nothing is said of it.) -/
def Obligations.CtxDiscardFreesTheSlot : Prop :=
  ∀ (s : State),
    (s.slots.length ≤ s.arg.a0.toNat →
      exec .ctxDiscard s = .next { s with status := 1, errcode := 13, res := ⟨0, 0, 0, 0⟩ }) ∧
    (s.arg.a0.toNat < s.slots.length → ∃ (c' : Ctx) (n : Nat), c'.state = .idle ∧
      exec .ctxDiscard s = .next { s with
        status := 0, errcode := 0, res := ⟨0, 0, 0, 0⟩, slots := s.slots.set s.arg.a0.toNat c', freeCount := n })

/-- R334, R336: `CTX_FINISHED` and `CTX_QUERY`: a number that names no slot raises `E_BAD_ARG`; else the answer, zeros
for a query of an `IDLE` slot, else the packed fields and the counters; nothing but the response changes. -/
def Obligations.CtxFinishedAndQueryReport : Prop :=
  ∀ (s : State),
    (s.slots.length ≤ s.arg.a0.toNat →
      exec .ctxFinished s = .next { s with status := 1, errcode := 13, res := ⟨0, 0, 0, 0⟩ } ∧
      exec .ctxQuery s = .next { s with status := 1, errcode := 13, res := ⟨0, 0, 0, 0⟩ }) ∧
    ∀ c, s.SlotIs c →
      exec .ctxFinished s = .next { s with
        status := if c.state = .finished then 2 else 0, errcode := 0
        res := ⟨if c.state = .finished then 1 else 0, 0, 0, 0⟩ } ∧
      (c.state = .idle → exec .ctxQuery s = .next { s with status := 0, errcode := 0, res := ⟨0, 0, 0, 0⟩ }) ∧
      (c.state ≠ .idle → ∃ w : Word,
        exec .ctxQuery s = .next { s with
          status := if c.state = .finished then 2 else 0, errcode := 0
          res := ⟨w, c.outPos, BitVec.ofNat 32 c.inCount.toNat, BitVec.ofNat 32 (c.inCount.toNat / 2 ^ 32)⟩ } ∧
        w.toNat = stateCode c.state + 2 ^ 8 * c.err.toNat + 2 ^ 16 * phaseCode c.phase + 2 ^ 24 * kindCode c.kind
          + 2 ^ 28 * c.mode.toNat)

/-- R363: the error of a context is sticky: the read that raises records its code in the slot; from then on a read
raises it again and changes nothing, and no command but a successful `CTX_INIT` and `CTX_DISCARD` moves the slot. -/
def Obligations.ContextErrorIsSticky : Prop :=
  ∀ (s : State) (c : Ctx) (j : Nat), s.slots[j]? = some c →
    (c.state = .active → s.arg.a0.toNat = j → s.arg.a1.toNat + s.arg.a2.toNat ≤ 2 ^ 32 →
      ∀ t, exec .ctxRead s = .next t → t.errcode ≠ 0 →
        ∃ c', t.slots[j]? = some c' ∧ c'.state = .error ∧ c'.err = t.errcode) ∧
    (c.state = .error → ∀ i t, formatOf i = .cmd → exec i s = .next t → ¬ (i = .ctxInit ∧ t.errcode = 0) →
        i ≠ .ctxDiscard →
      t.slots[j]? = some c ∧
      (i = .ctxRead → s.arg.a0.toNat = j → s.arg.a1.toNat + s.arg.a2.toNat ≤ 2 ^ 32 →
        t = { s with status := 1, errcode := c.err, res := ⟨0, 0, 0, 0⟩ }) ∧
      (i = .ctxFinished → s.arg.a0.toNat = j → t = { s with status := 0, errcode := 0, res := ⟨0, 0, 0, 0⟩ }) ∧
      (i = .ctxQuery → s.arg.a0.toNat = j → t.status = 0 ∧ t.res.r0.extractLsb' 8 8 = c.err))

/-- R337: the slot state machine: what each command does to the `state` of the slot it names, and that no other slot
moves. -/
def Obligations.SlotStateMachine : Prop :=
  ∀ (s t : State) (c : Ctx) (i : Instr), s.SlotIs c → exec i s = .next t → formatOf i = .cmd →
    ∃ c', t.SlotIs c' ∧ (∀ j, j ≠ s.arg.a0.toNat → t.slots[j]? = s.slots[j]?) ∧
      (t.errcode = 13 → c' = c) ∧
      (i = .ctxInit → t.errcode = 0 → c'.state = if c'.outSize = 0 then .finished else .active) ∧
      (i = .ctxInit → t.errcode ≠ 0 → c' = c) ∧
      (i = .ctxRead → t.errcode ≠ 13 →
        (c.state = .idle → c' = c ∧ t.errcode = 11) ∧ (c.state = .finished → c' = c ∧ t.res.r0 = 0) ∧
        (c.state = .error → c' = c ∧ t.errcode = c.err) ∧ (c.state = .active → c'.state ≠ .idle)) ∧
      (i = .ctxDiscard → c'.state = .idle) ∧
      (i ≠ .ctxInit → i ≠ .ctxRead → i ≠ .ctxDiscard → c' = c)

/-- R338 (c): no instruction writes memory outside the regions of R62 it may write: the destination of the block it
decodes, the packed buffer, the encoder's capacity, the tables. -/
def Obligations.WritesAreBounded : Prop :=
  ∀ (i : Instr) (s t : State), i.wellFormed = true → s.Inv → exec i s = .next t →
    ∀ a, (∀ r ∈ s.writable i, a < r.1 ∨ r.1 + r.2 ≤ a) → t.mem.read a = s.mem.read a

/-! ### RLE tokens -/

/-- R98, R104, R171, R173, R228, R231: a literal run that fits, RLE and FastLZ: its bytes are written, and the context
stands at the next control or operation byte. -/
def Obligations.LiteralRuns : Prop :=
  ∀ (s : State) (c : Ctx) (i : Instr) (data : List Byte) (start : Phase), s.SlotIs c → c.state = .active →
    (i = .rltLits data ∧ start = .rlCtrl ∧ data.length ≤ 128 ∨ i = .fltLits data ∧ start = .flOp ∧ data.length ≤ 32) →
    c.phase = start → 1 ≤ data.length → c.outPos.toNat + data.length ≤ c.outSize.toNat →
    ∃ m, exec i s = .next { s with
        mem := m
        slots := s.slots.set s.arg.a0.toNat { c with
          outPos := c.outPos + BitVec.ofNat 32 data.length
          inCount := c.inCount + BitVec.ofNat 64 (data.length + 1)
          cnt := 0, phase := start, state := stateAt c (c.outPos.toNat + data.length) } } ∧
      m.Holds (c.dstBase.toNat + c.outPos.toNat) data ∧
      s.mem.SameOutside m (c.dstBase.toNat + c.outPos.toNat) data.length

/-- R98, R172, R174: a repeat run that fits: `n + 3` copies of the value are written. -/
def Obligations.RleRepeatRun : Prop :=
  ∀ (s : State) (c : Ctx) (n : BitVec 7) (v : Byte), s.SlotIs c → c.state = .active → c.phase = .rlCtrl →
    c.outPos.toNat + (n.toNat + 3) ≤ c.outSize.toNat →
    ∃ m, exec (.rltRun n v) s = .next { s with
        mem := m
        slots := s.slots.set s.arg.a0.toNat { c with
          outPos := c.outPos + BitVec.ofNat 32 (n.toNat + 3), inCount := c.inCount + 2
          cnt := 0, phase := .rlCtrl, state := stateAt c (c.outPos.toNat + (n.toNat + 3)) } } ∧
      (∀ k < n.toNat + 3, m.read (c.dstBase.toNat + c.outPos.toNat + k) = v) ∧
      s.mem.SameOutside m (c.dstBase.toNat + c.outPos.toNat) (n.toNat + 3)

/-- R171, R172, R228: a run that would pass the declared size is refused at its first byte: `E_OVERRUN` in the slot, no
byte written.
That a token is executed as an instruction, by the slot `ARG0` names and with the response registers left alone, is
the model's choice (log 12). -/
def Obligations.RunsPastTheSizeOverrun : Prop :=
  ∀ (s : State) (c : Ctx) (i : Instr) (n : Nat), s.SlotIs c → c.state = .active → i.wellFormed = true →
    ((∃ data, i = .rltLits data ∧ n = data.length ∧ c.phase = .rlCtrl) ∨
      (∃ k v, i = .rltRun k v ∧ n = k.toNat + 3 ∧ c.phase = .rlCtrl) ∨
      (∃ data, i = .fltLits data ∧ n = data.length ∧ c.phase = .flOp)) →
    c.outSize.toNat < c.outPos.toNat + n →
    exec i s = .next { s with
      slots := s.slots.set s.arg.a0.toNat { c with inCount := c.inCount + 1, err := 8, state := .error } }

/-! ### LZ and FastLZ tokens -/

/-- R99, R100, R221, R223: a flag byte covers the next 8 tokens and writes no memory; a literal is written and uses one
flag bit. -/
def Obligations.LzFlagByteAndLiteral : Prop :=
  ∀ (s : State) (c : Ctx) (b : Byte), s.SlotIs c → c.state = .active → c.outPos.toNat < c.outSize.toNat →
    (c.phase = .lzFlag →
      exec (.lztFlags b) s = .next { s with
        slots := s.slots.set s.arg.a0.toNat { c with
          inCount := c.inCount + 1, flags := b, nflag := 8, phase := .lzToken } }) ∧
    (c.phase = .lzToken → c.flags.getLsbD 7 = false →
      ∃ m, exec (.lztLit b) s = .next { s with
          mem := m
          slots := s.slots.set s.arg.a0.toNat { c with
            outPos := c.outPos + 1, inCount := c.inCount + 1, flags := c.flags <<< 1, nflag := c.nflag - 1
            phase := if c.nflag = 1 then .lzFlag else .lzToken, state := stateAt c (c.outPos.toNat + 1) } } ∧
        ∀ a, m.read a = if a = c.dstBase.toNat + c.outPos.toNat then b else s.mem.read a)

/-- R101, R102, R222 to R227: a back-reference inside the output so far that fits the declared size: every byte written
equals the byte `off` below it as it stands after the copy, so an overlapping copy repeats; plain and extended.
That a token is executed as an instruction, by the slot `ARG0` names and with the response registers left alone, is
the model's choice (log 12). -/
def Obligations.LzBackReference : Prop :=
  ∀ (s : State) (c : Ctx) (i : Instr) (len off : Nat) (b0 b1 : Byte) (used : Nat), s.SlotIs c → c.state = .active →
    c.phase = .lzToken → c.flags.getLsbD 7 = true →
    ((∃ (l : BitVec 4) (o : BitVec 12), i = .lztRef l o ∧ c.mode = 0 ∧ len = l.toNat + 3 ∧ off = o.toNat + 1 ∧
        b0 = l ++ o.extractLsb' 8 4 ∧ b1 = c.b1 ∧ used = 2) ∨
      (∃ (l : Byte) (o : BitVec 16), i = .lzxtRef l o ∧ c.mode = 1 ∧ len = l.toNat + 3 ∧ off = o.toNat + 1 ∧
        b0 = l ∧ b1 = o.extractLsb' 8 8 ∧ used = 3)) →
    off ≤ c.outPos.toNat → c.outPos.toNat + len ≤ c.outSize.toNat →
    ∃ m, exec i s = .next { s with
        mem := m
        slots := s.slots.set s.arg.a0.toNat { c with
          outPos := c.outPos + BitVec.ofNat 32 len, inCount := c.inCount + BitVec.ofNat 64 used
          flags := c.flags <<< 1, nflag := c.nflag - 1, b0 := b0, b1 := b1
          phase := if c.nflag = 1 then .lzFlag else .lzToken, state := stateAt c (c.outPos.toNat + len) } } ∧
      (∀ k < len, m.read (c.dstBase.toNat + c.outPos.toNat + k)
        = m.read (c.dstBase.toNat + c.outPos.toNat + k - off)) ∧
      s.mem.SameOutside m (c.dstBase.toNat + c.outPos.toNat) len

/-- R105, R106, R229, R230, R232, R233: a FastLZ match inside the output so far that fits the declared size, short and
long.
That a token is executed as an instruction, by the slot `ARG0` names and with the response registers left alone, is
the model's choice (log 12). -/
def Obligations.FastMatch : Prop :=
  ∀ (s : State) (c : Ctx) (i : Instr) (len off : Nat) (b0 : Byte) (used : Nat), s.SlotIs c → c.state = .active →
    c.phase = .flOp →
    ((∃ (k : BitVec 3) (o : BitVec 13), i = .fltMatchShort k o ∧ 1 ≤ k.toNat ∧ k.toNat ≤ 6 ∧ len = k.toNat + 2 ∧
        off = o.toNat + 1 ∧ b0 = k ++ o.extractLsb' 8 5 ∧ used = 2) ∨
      (∃ (e : Byte) (o : BitVec 13), i = .fltMatchLong e o ∧ len = 9 + e.toNat ∧ off = o.toNat + 1 ∧
        b0 = 7#3 ++ o.extractLsb' 8 5 ∧ used = 3)) →
    off ≤ c.outPos.toNat → c.outPos.toNat + len ≤ c.outSize.toNat →
    ∃ m, exec i s = .next { s with
        mem := m
        slots := s.slots.set s.arg.a0.toNat { c with
          outPos := c.outPos + BitVec.ofNat 32 len, inCount := c.inCount + BitVec.ofNat 64 used
          b0 := b0, cnt := 0, phase := .flOp, state := stateAt c (c.outPos.toNat + len) } } ∧
      (∀ k < len, m.read (c.dstBase.toNat + c.outPos.toNat + k)
        = m.read (c.dstBase.toNat + c.outPos.toNat + k - off)) ∧
      s.mem.SameOutside m (c.dstBase.toNat + c.outPos.toNat) len

/-- R222: a back-reference that reaches before the output raises `E_BAD_OFFSET`, one that would pass the declared size
`E_OVERRUN`, the offset tested first: the code goes into the slot, no byte is written, the position stays; all four
forms.
That a token is executed as an instruction, by the slot `ARG0` names and with the response registers left alone, is
the model's choice (log 12). -/
def Obligations.BadBackReferencesRaise : Prop :=
  ∀ (s : State) (c : Ctx) (i : Instr) (len off : Nat), s.SlotIs c → c.state = .active → i.wellFormed = true →
    c.outPos.toNat < c.outSize.toNat →
    ((∃ l o, i = .lztRef l o ∧ c.phase = .lzToken ∧ c.flags.getLsbD 7 = true ∧ c.mode = 0 ∧ len = l.toNat + 3 ∧
        off = o.toNat + 1) ∨
      (∃ l o, i = .lzxtRef l o ∧ c.phase = .lzToken ∧ c.flags.getLsbD 7 = true ∧ c.mode = 1 ∧ len = l.toNat + 3 ∧
        off = o.toNat + 1) ∨
      (∃ k o, i = .fltMatchShort k o ∧ c.phase = .flOp ∧ len = k.toNat + 2 ∧ off = o.toNat + 1) ∨
      (∃ e o, i = .fltMatchLong e o ∧ c.phase = .flOp ∧ len = 9 + e.toNat ∧ off = o.toNat + 1)) →
    c.outPos.toNat < off ∨ c.outSize.toNat < c.outPos.toNat + len →
    ∃ c', exec i s = .next { s with slots := s.slots.set s.arg.a0.toNat c' } ∧ c'.state = .error ∧
      c'.err = (if c.outPos.toNat < off then 7 else 8) ∧ c'.outPos = c.outPos ∧
      c'.inCount = c.inCount + BitVec.ofNat 64 (encode i).length

/-! ### Huffman tokens -/

/-- R107, R291: a table byte stores two lengths; the last one is judged by the Kraft sum of R267: the context goes on to
the code stream, or `E_BAD_TABLE` goes into the slot. No memory is written.
Modes other than 4 and 8, which no run reaches, take the 8-bit rules: the model's reading (log 18).
That a token is executed as an instruction, by the slot `ARG0` names and with the response registers left alone, is
the model's choice (log 12). -/
def Obligations.HuffmanTableByte : Prop :=
  ∀ (s : State) (c : Ctx) (l h : BitVec 4) (lens : Vector (BitVec 4) 256) (N : Nat), s.SlotIs c → c.state = .active →
    c.phase = .hfTable → c.outPos ≠ c.outSize → N = (if c.mode = 4 then 16 else 256) → c.tpos.toNat < N / 2 →
    (∀ j : Fin 256, lens[j] = if j.val = 2 * c.tpos.toNat then l
      else if j.val = 2 * c.tpos.toNat + 1 then h else c.len[j]) →
    let kraft := ((List.range N).map (fun j =>
      if lens.toList.getD j 0 = 0 then 0 else 2 ^ (15 - (lens.toList.getD j 0).toNat))).sum
    let c' := { c with inCount := c.inCount + 1, len := lens, tpos := c.tpos + 1 }
    exec (.hftByte l h) s = .next { s with
      slots := s.slots.set s.arg.a0.toNat (
        if c.tpos.toNat + 1 < N / 2 then c'
        else if kraft ≤ 2 ^ 15 then { c' with phase := .hfData }
        else { c' with err := 9, state := .error }) }

/-- R293, R295: a stream byte in 8-bit mode. The bits still pending and the byte's bits are the codes of `syms` and then
`rest`: those symbols are written as bytes; `rest` becomes pending, or is dropped when the output is complete.
Modes other than 4 and 8, which no run reaches, take the 8-bit rules: the model's reading (log 18).
That a token is executed as an instruction, by the slot `ARG0` names and with the response registers left alone, is
the model's choice (log 12). -/
def Obligations.HuffmanByteSymbols : Prop :=
  ∀ (s : State) (c : Ctx) (x : Byte) (pending rest : List Bool) (syms : List Nat), s.SlotIs c → c.state = .active →
    c.phase = .hfData → c.mode ≠ 4 → kraftSum c.lens ≤ 2 ^ 15 → pending.length = c.codeLen.toNat →
    pending.length ≤ 14 →
    bitsValue pending = c.code.toNat → NoCodeBegins c.lens pending → (∀ y ∈ syms, HasCode c.lens y) →
    pending ++ (List.range 8).map (fun k => x.getLsbD k) = syms.flatMap (codeWord c.lens) ++ rest →
    (c.outPos.toNat + syms.length = c.outSize.toNat ∧ syms ≠ [] ∨
      c.outPos.toNat + syms.length < c.outSize.toNat ∧ NoCodeBegins c.lens rest ∧ rest.length ≤ 14) →
    ∃ m, exec (.hfcCode x) s = .next { s with
        mem := m
        slots := s.slots.set s.arg.a0.toNat { c with
          outPos := c.outPos + BitVec.ofNat 32 syms.length, inCount := c.inCount + 1
          code := if c.outPos.toNat + syms.length = c.outSize.toNat then 0 else BitVec.ofNat 15 (bitsValue rest)
          codeLen := if c.outPos.toNat + syms.length = c.outSize.toNat then 0 else BitVec.ofNat 4 rest.length
          state := stateAt c (c.outPos.toNat + syms.length) } } ∧
      m.Holds (c.dstBase.toNat + c.outPos.toNat) (syms.map (BitVec.ofNat 8)) ∧
      s.mem.SameOutside m (c.dstBase.toNat + c.outPos.toNat) syms.length

/-- R293, R296: a stream byte in 4-bit mode. The nibble that waits and the symbols, taken in pairs, are written as bytes,
the low nibble first; an odd one waits. The bits left become pending, or are dropped when the output is complete.
That a token is executed as an instruction, by the slot `ARG0` names and with the response registers left alone, is
the model's choice (log 12). -/
def Obligations.HuffmanNibbleSymbols : Prop :=
  ∀ (s : State) (c : Ctx) (x : Byte) (pending rest : List Bool) (syms nibs : List Nat), s.SlotIs c →
    c.state = .active → c.phase = .hfData → c.mode = 4 → kraftSum c.lens ≤ 2 ^ 15 →
    pending.length = c.codeLen.toNat → pending.length ≤ 14 → bitsValue pending = c.code.toNat →
    NoCodeBegins c.lens pending → (∀ y ∈ syms, HasCode c.lens y) →
    pending ++ (List.range 8).map (fun k => x.getLsbD k) = syms.flatMap (codeWord c.lens) ++ rest →
    nibs = (if c.nibHave then [c.nibHold.toNat] else []) ++ syms →
    (c.outPos.toNat + nibs.length / 2 = c.outSize.toNat ∧ nibs.length % 2 = 0 ∧ syms ≠ [] ∨
      c.outPos.toNat + nibs.length / 2 < c.outSize.toNat ∧ NoCodeBegins c.lens rest ∧ rest.length ≤ 14) →
    ∃ m c', exec (.hfcCode x) s = .next { s with mem := m, slots := s.slots.set s.arg.a0.toNat c' } ∧
      c' = { c with
        outPos := c.outPos + BitVec.ofNat 32 (nibs.length / 2), inCount := c.inCount + 1
        code := if c.outPos.toNat + nibs.length / 2 = c.outSize.toNat then 0 else BitVec.ofNat 15 (bitsValue rest)
        codeLen := if c.outPos.toNat + nibs.length / 2 = c.outSize.toNat then 0 else BitVec.ofNat 4 rest.length
        nibHave := decide (nibs.length % 2 = 1), nibHold := c'.nibHold
        state := stateAt c (c.outPos.toNat + nibs.length / 2) } ∧
      (nibs.length % 2 = 1 → c'.nibHold = BitVec.ofNat 4 (nibs.getLastD 0)) ∧
      m.Holds (c.dstBase.toNat + c.outPos.toNat) (nibbleBytes nibs) ∧
      s.mem.SameOutside m (c.dstBase.toNat + c.outPos.toNat) (nibs.length / 2)

/-- R294: 15 bits since the last symbol that no code begins raise `E_BAD_CODE`, at the byte that holds the 15th; no byte
is written.
That a token is executed as an instruction, by the slot `ARG0` names and with the response registers left alone, is
the model's choice (log 12). -/
def Obligations.UnmatchedBitsRaiseBadCode : Prop :=
  ∀ (s : State) (c : Ctx) (x : Byte) (pending : List Bool), s.SlotIs c → c.state = .active → c.phase = .hfData →
    pending.length = c.codeLen.toNat → bitsValue pending = c.code.toNat → pending.length ≤ 14 →
    15 ≤ pending.length + 8 →
    NoCodeBegins c.lens ((pending ++ (List.range 8).map (fun k => x.getLsbD k)).take 15) →
    ∃ c', exec (.hfcCode x) s = .next { s with slots := s.slots.set s.arg.a0.toNat c' } ∧ c'.state = .error ∧
      c'.err = 10 ∧ c'.outPos = c.outPos ∧ c'.inCount = c.inCount + 1 ∧ c'.codeLen = 15

/-- R267: when the Kraft sum is not above 1 the canonical codes fit their lengths and are prefix-free; when it is 1
every sequence of 15 bits begins with exactly one code. -/
def Obligations.CanonicalCodesArePrefixFree : Prop :=
  ∀ (lens : List Nat), (∀ l ∈ lens, l ≤ 15) → kraftSum lens ≤ 2 ^ 15 →
    (∀ a b, HasCode lens a → HasCode lens b →
      canonCode lens a < 2 ^ lens.getD a 0 ∧ (a ≠ b → ¬ codeWord lens a <+: codeWord lens b)) ∧
    (kraftSum lens = 2 ^ 15 → ∀ bits : List Bool, bits.length = 15 →
      ∃ a, (HasCode lens a ∧ codeWord lens a <+: bits) ∧
        ∀ b, HasCode lens b → codeWord lens b <+: bits → b = a)

/-! ### Huffman tables -/

/-- R268, R266, R261: `HUF_LOAD`. The lengths are the packed nibbles of its input. An over-subscribed table raises
`E_BAD_TABLE` and writes nothing; otherwise each symbol's entry is its canonical code, which is the number of code
words before it, counted at its own length; nothing else is written. -/
def Obligations.HufLoadWritesTheCanonicalCodes : Prop :=
  ∀ (s : State) (N : Nat) (len : Nat → Nat), s.arg.a1.toNat < 2 → N = (if s.arg.a1.getLsbD 0 then 16 else 256) →
    s.arg.a0.toNat + N / 2 ≤ 2 ^ 32 → s.arg.a2.toNat + 2 * N ≤ 2 ^ 32 →
    (∀ y, len y = (s.mem.read (s.arg.a0.toNat + y / 2)).toNat / 16 ^ (y % 2) % 16) →
    let kraft := ((List.range N).map (fun y => if len y = 0 then 0 else 2 ^ (15 - len y))).sum
    (2 ^ 15 < kraft → exec .hufLoad s = .next { s with status := 1, errcode := 9, res := ⟨0, 0, 0, 0⟩ }) ∧
    (kraft ≤ 2 ^ 15 → Apart s.arg.a0.toNat (N / 2) s.arg.a2.toNat (2 * N) →
      ∃ m, exec .hufLoad s = .next { s with
          mem := m, status := 0, errcode := 0
          res := ⟨BitVec.ofNat 32 ((List.range N).countP (fun y => 0 < len y)),
            BitVec.ofNat 32 (((List.range N).map len).foldl max 0), 0, 0⟩ } ∧
        (∀ y < N, m.readLE (s.arg.a2.toNat + 2 * y) 2 =
          if len y = 0 then 0
          else ((List.range N).map (fun z =>
            if 0 < len z ∧ len z < len y then 2 ^ (len y - len z)
            else if len z = len y ∧ z < y then 1 else 0)).sum) ∧
        s.mem.SameOutside m s.arg.a2.toNat (2 * N))

/-- R262: `HUF_BUILD` completes on operands whose regions do not meet: it writes the length table and the code table of
the lengths `buildLengths` gives and nothing else, and reports the number of used symbols, the longest code and the
rounds. -/
def Obligations.HufBuildWritesBothTables : Prop :=
  ∀ (s : State) (N : Nat) (f : List Nat), s.arg.a1.toNat < 2 → N = (if s.arg.a1.getLsbD 0 then 16 else 256) →
    f = (List.range N).map (fun y => s.mem.readLE (s.arg.a0.toNat + 4 * y) 4) →
    s.arg.a0.toNat + 4 * N ≤ 2 ^ 32 → s.arg.a2.toNat + N / 2 ≤ 2 ^ 32 → s.arg.a3.toNat + 2 * N ≤ 2 ^ 32 →
    Apart s.arg.a0.toNat (4 * N) s.arg.a2.toNat (N / 2) → Apart s.arg.a0.toNat (4 * N) s.arg.a3.toNat (2 * N) →
    Apart s.arg.a2.toNat (N / 2) s.arg.a3.toNat (2 * N) →
    ∃ m, exec .hufBuild s = .next { s with
        mem := m, status := 0, errcode := 0
        res := ⟨BitVec.ofNat 32 (f.countP (fun w => 0 < w)), BitVec.ofNat 32 ((buildLengths f).1.foldl max 0),
          BitVec.ofNat 32 (buildLengths f).2, 0⟩ } ∧
      m.Holds s.arg.a2.toNat (lenTableBytes (buildLengths f).1) ∧
      m.Holds s.arg.a3.toNat (codeTableBytes (buildLengths f).1) ∧
      ∀ x, (x < s.arg.a2.toNat ∨ s.arg.a2.toNat + N / 2 ≤ x) → (x < s.arg.a3.toNat ∨ s.arg.a3.toNat + 2 * N ≤ x) →
        m.read x = s.mem.read x

/-- R263, R264, R265, R267: the lengths `buildLengths` gives for 32-bit frequencies of an alphabet of 16 or 256: at most
15, positive exactly for the used symbols, with a Kraft sum of 1 when two symbols or more are used, of one half when one
is, and 0 when none is; at most 32 rounds. -/
def Obligations.BuiltLengthsAreUsable : Prop :=
  ∀ (f : List Nat), (f.length = 16 ∨ f.length = 256) → (∀ w ∈ f, w < 2 ^ 32) →
    (buildLengths f).1.length = f.length ∧ (buildLengths f).2 ≤ 32 ∧
    (∀ y < f.length, (buildLengths f).1.getD y 0 ≤ 15 ∧ (0 < (buildLengths f).1.getD y 0 ↔ 0 < f.getD y 0)) ∧
    kraftSum (buildLengths f).1 =
      (if 2 ≤ f.countP (fun w => 0 < w) then 2 ^ 15 else if f.countP (fun w => 0 < w) = 1 then 2 ^ 14 else 0)

/-- R269 (c): with no halving round, a more frequent symbol has no longer code. -/
def Obligations.FrequentSymbolsHaveShortCodes : Prop :=
  ∀ (f : List Nat) (a b : Nat), (f.length = 16 ∨ f.length = 256) → (buildLengths f).2 = 0 →
    0 < f.getD b 0 → f.getD b 0 < f.getD a 0 → (buildLengths f).1.getD a 0 ≤ (buildLengths f).1.getD b 0

/-- R269 (a), (b): the length table `HUF_BUILD` writes, given to `HUF_LOAD`, is accepted and yields the code table
`HUF_BUILD` wrote. -/
def Obligations.HufLoadReproducesHufBuild : Prop :=
  ∀ (s t : State) (N : Nat) (out : Word), N = (if s.arg.a1.getLsbD 0 then 16 else 256) →
    exec .hufBuild s = .next t → t.errcode = 0 → out.toNat + 2 * N ≤ 2 ^ 32 →
    Apart s.arg.a2.toNat (N / 2) out.toNat (2 * N) →
    ∃ u, exec .hufLoad { t with arg := { t.arg with a0 := s.arg.a2, a2 := out } } = .next u ∧ u.errcode = 0 ∧
      u.res.r0 = t.res.r0 ∧ u.res.r1 = t.res.r1 ∧
      ∀ k < 2 * N, u.mem.read (out.toNat + k) = t.mem.read (s.arg.a3.toNat + k)

/-! ### Packed values -/

/-- R131, R132, R133: `PACK_GET`: its tests in order, and bit by bit the value, zero-extended; nothing but the response
changes. -/
def Obligations.PackGetReadsTheElement : Prop :=
  ∀ (s : State) (bits index : Nat), bits = s.arg.a2.toNat → index = s.arg.a3.toNat →
    (2 ^ 32 < s.arg.a0.toNat + s.arg.a1.toNat ∨ ¬ (1 ≤ bits ∧ bits ≤ 32) →
      exec .packGet s = .next { s with status := 1, errcode := 13, res := ⟨0, 0, 0, 0⟩ }) ∧
    (s.arg.a0.toNat + s.arg.a1.toNat ≤ 2 ^ 32 → 1 ≤ bits → bits ≤ 32 →
      (s.arg.a1.toNat ≤ (bits * index + bits - 1) / 8 →
        exec .packGet s = .next { s with status := 1, errcode := 12, res := ⟨0, 0, 0, 0⟩ }) ∧
      ((bits * index + bits - 1) / 8 < s.arg.a1.toNat →
        ∃ v : Word, exec .packGet s = .next { s with status := 0, errcode := 0, res := ⟨v, 0, 0, 0⟩ } ∧
          ∀ k < 32, v.getLsbD k = (decide (k < bits) &&
            (s.mem.read (s.arg.a0.toNat + (bits * index + k) / 8)).getLsbD ((bits * index + k) % 8))))

/-- R131, R134: `PACK_SET`: its tests in order, and bit by bit the buffer afterwards: the element's bits are the
value's, every other bit of memory stays. -/
def Obligations.PackSetWritesTheElement : Prop :=
  ∀ (s : State) (bits index : Nat), bits = s.arg.a2.toNat → index = s.arg.a3.toNat →
    (2 ^ 32 < s.arg.a0.toNat + s.arg.a1.toNat ∨ ¬ (1 ≤ bits ∧ bits ≤ 32) →
      exec .packSet s = .next { s with status := 1, errcode := 13, res := ⟨0, 0, 0, 0⟩ }) ∧
    (s.arg.a0.toNat + s.arg.a1.toNat ≤ 2 ^ 32 → 1 ≤ bits → bits ≤ 32 →
      (s.arg.a1.toNat ≤ (bits * index + bits - 1) / 8 →
        exec .packSet s = .next { s with status := 1, errcode := 12, res := ⟨0, 0, 0, 0⟩ }) ∧
      ((bits * index + bits - 1) / 8 < s.arg.a1.toNat →
        ∃ m, exec .packSet s = .next { s with mem := m, status := 0, errcode := 0, res := ⟨0, 0, 0, 0⟩ } ∧
          ∀ a k, k < 8 → (m.read a).getLsbD k =
            if s.arg.a0.toNat ≤ a ∧ bits * index ≤ 8 * (a - s.arg.a0.toNat) + k ∧
                8 * (a - s.arg.a0.toNat) + k < bits * index + bits then
              s.arg.a4.getLsbD (8 * (a - s.arg.a0.toNat) + k - bits * index)
            else (s.mem.read a).getLsbD k))

/-- The model's own (log 13): the packed element of R110, with its own width and index, executed under `PACK_GET` in
`CMD` is read, and under `PACK_SET` it is written with `ARG4`; where it lies inside the buffer it completes so. -/
def Obligations.PackedElementActsUnderItsCommand : Prop :=
  ∀ (s : State) (bits index : Word), s.arg.a0.toNat + s.arg.a1.toNat ≤ 2 ^ 32 → 1 ≤ bits.toNat → bits.toNat ≤ 32 →
    (bits.toNat * index.toNat + bits.toNat - 1) / 8 < s.arg.a1.toNat →
    (s.cmd = 0x20 → ∃ v : Word,
      exec (.pkvElement bits index) s = .next { s with status := 0, errcode := 0, res := ⟨v, 0, 0, 0⟩ } ∧
        ∀ k < 32, v.getLsbD k = (decide (k < bits.toNat) &&
          (s.mem.read (s.arg.a0.toNat + (bits.toNat * index.toNat + k) / 8)).getLsbD
            ((bits.toNat * index.toNat + k) % 8))) ∧
    (s.cmd = 0x21 → ∃ m, exec (.pkvElement bits index) s = .next { s with
        mem := m, status := 0, errcode := 0, res := ⟨0, 0, 0, 0⟩ } ∧
      ∀ a k, k < 8 → (m.read a).getLsbD k =
        if s.arg.a0.toNat ≤ a ∧ bits.toNat * index.toNat ≤ 8 * (a - s.arg.a0.toNat) + k ∧
            8 * (a - s.arg.a0.toNat) + k < bits.toNat * index.toNat + bits.toNat then
          s.arg.a4.getLsbD (8 * (a - s.arg.a0.toNat) + k - bits.toNat * index.toNat)
        else (s.mem.read a).getLsbD k)

/-- R136: reading an element back after it was set gives the value cut to the width, and setting it leaves the value of
every other element of that width. -/
def Obligations.PackedValuesRoundTrip : Prop :=
  ∀ (s t : State) (j : Word), exec .packSet s = .next t → t.errcode = 0 →
    (s.arg.a2.toNat * j.toNat + s.arg.a2.toNat - 1) / 8 < s.arg.a1.toNat →
    ∃ u v, exec .packGet { t with arg := { t.arg with a3 := j } } = .next u ∧
      exec .packGet { s with arg := { s.arg with a3 := j } } = .next v ∧ u.errcode = 0 ∧ v.errcode = 0 ∧
      u.res.r0 = if j = s.arg.a3 then BitVec.ofNat 32 (s.arg.a4.toNat % 2 ^ s.arg.a2.toNat) else v.res.r0

/-! ### The matcher -/

/-- R192 to R195: `LZ_FIND`, whole: its errors in order; then the longest match among the offsets searched, the
smallest offset among equals, if it is 3 long or more; memory and slots stay. -/
def Obligations.LzFindReportsTheBestMatch : Prop :=
  ∀ (s : State) (far lim : Nat) (fits : Nat → Nat → Prop),
    far = min (min s.arg.a2.toNat (if s.arg.a3.getLsbD 0 then 65536 else 4096))
      (if s.arg.a3.getLsbD 1 then s.dFast else 2 ^ 32) →
    lim = min (if s.arg.a3.getLsbD 0 then 258 else 18) (s.arg.a1.toNat - s.arg.a2.toNat) →
    (∀ off len, fits off len ↔ 1 ≤ off ∧ off ≤ far ∧ len ≤ lim ∧
      ∀ k < len, s.mem.read (s.arg.a0.toNat + s.arg.a2.toNat + k)
        = s.mem.read (s.arg.a0.toNat + s.arg.a2.toNat - off + k)) →
    (2 ^ 32 < s.arg.a0.toNat + s.arg.a1.toNat ∨ 4 ≤ s.arg.a3.toNat →
      exec .lzFind s = .next { s with status := 1, errcode := 13, res := ⟨0, 0, 0, 0⟩ }) ∧
    (s.arg.a0.toNat + s.arg.a1.toNat ≤ 2 ^ 32 → s.arg.a3.toNat < 4 →
      (s.arg.a1.toNat < s.arg.a2.toNat →
        exec .lzFind s = .next { s with status := 1, errcode := 12, res := ⟨0, 0, 0, 0⟩ }) ∧
      (s.arg.a2.toNat ≤ s.arg.a1.toNat →
        ((∀ off, ¬ fits off 3) ∧ exec .lzFind s = .next { s with status := 0, errcode := 0, res := ⟨0, 0, 0, 0⟩ }) ∨
        ∃ off len, 3 ≤ len ∧ fits off len ∧ (∀ off' len', fits off' len' → len' ≤ len) ∧
          (∀ off' < off, ¬ fits off' len) ∧
          exec .lzFind s = .next { s with
            status := 0, errcode := 0, res := ⟨1, BitVec.ofNat 32 off, BitVec.ofNat 32 len, 0⟩ }))

/-- R196: a match `LZ_FIND` reports is decodable where it was found: a context whose output so far is the source up to
that position, in the mode of the search, accepts the token and writes the source's next bytes.
That a token is executed as an instruction, by the slot `ARG0` names and with the response registers left alone, is
the model's choice (log 12). -/
def Obligations.ReportedMatchesDecode : Prop :=
  ∀ (s t u : State) (c : Ctx) (off len : Nat) (i : Instr), exec .lzFind s = .next t → t.res.r0 = 1 →
    off = t.res.r1.toNat → len = t.res.r2.toNat →
    i = (if s.arg.a3.getLsbD 0 then .lzxtRef (BitVec.ofNat 8 (len - 3)) (BitVec.ofNat 16 (off - 1))
      else .lztRef (BitVec.ofNat 4 (len - 3)) (BitVec.ofNat 12 (off - 1))) →
    u.SlotIs c → c.state = .active → c.phase = .lzToken → c.flags.getLsbD 7 = true →
    c.mode = (if s.arg.a3.getLsbD 0 then 1 else 0) → c.outPos = s.arg.a2 → c.outSize = s.arg.a1 →
    (∀ k < s.arg.a2.toNat, u.mem.read (c.dstBase.toNat + k) = s.mem.read (s.arg.a0.toNat + k)) →
    1 ≤ off ∧ off ≤ s.arg.a2.toNat ∧ 3 ≤ len ∧ s.arg.a2.toNat + len ≤ s.arg.a1.toNat ∧
    off ≤ (if s.arg.a3.getLsbD 0 then 65536 else 4096) ∧ len ≤ (if s.arg.a3.getLsbD 0 then 258 else 18) ∧
    (∀ k < len, s.mem.read (s.arg.a0.toNat + s.arg.a2.toNat + k)
      = s.mem.read (s.arg.a0.toNat + s.arg.a2.toNat - off + k)) ∧
    ∃ v c', exec i u = .next v ∧ v.SlotIs c' ∧ c'.state ≠ .error ∧ c'.outPos.toNat = s.arg.a2.toNat + len ∧
      ∀ k < s.arg.a2.toNat + len, v.mem.read (c.dstBase.toNat + k) = s.mem.read (s.arg.a0.toNat + k)

/-- R197 to R201: `LZ_COMPRESS`, where the bytes its outcome writes do not meet the source (log 5). `block` is the header
and the serialised greedy parse: each token is what `LZ_FIND` reports at its position, the tokens cover the source, and
each group of 8 follows a flag byte whose bit `7 - j` says that token `j` of the group is a back-reference. The outcomes
in their order: `NotSmaller`, `E_DST_TOO_SMALL`, the block written; no byte outside the destination changes, and in the
first two cases the destination bytes that may have been scratch are free values (log 4; their counter is the model's
own, log 23, and nothing is said of it). -/
def Obligations.LzCompressOutcomes : Prop :=
  ∀ (s : State) (block : List Byte), s.arg.a0.toNat + s.arg.a1.toNat ≤ 2 ^ 32 →
    s.arg.a2.toNat + s.arg.a3.toNat ≤ 2 ^ 32 → s.arg.a4.toNat < 4 →
    block = compressedBlock s.mem s.dFast s.arg.a0.toNat s.arg.a1.toNat (s.arg.a4.getLsbD 0) (s.arg.a4.getLsbD 1) →
    (∃ (toks : List Instr) (flags : Nat → Byte),
      (∀ (k : Nat) (h : k < toks.length), s.ParsesAs ((toks.take k).map coveredBytes).sum toks[k]) ∧
      (toks.map coveredBytes).sum = s.arg.a1.toNat ∧
      (∀ g j, j < 8 → ((flags g).getLsbD (7 - j) = true ↔ ∃ i, toks[8 * g + j]? = some i ∧ IsReference i)) ∧
      block = [if s.arg.a4.getLsbD 0 then 0x11 else 0x10, byteOfWord s.arg.a1 0, byteOfWord s.arg.a1 1,
          byteOfWord s.arg.a1 2, byteOfWord s.arg.a1 3] ++
        (List.range ((toks.length + 7) / 8)).flatMap (fun g =>
          flags g :: ((toks.drop (8 * g)).take 8).flatMap encode)) ∧
    (s.arg.a1.toNat ≤ block.length →
      Apart s.arg.a0.toNat s.arg.a1.toNat s.arg.a2.toNat (min s.arg.a3.toNat s.arg.a1.toNat) →
      ∃ m n, exec .lzCompress s = .next { s with
          mem := m, freeCount := n, status := 4, errcode := 0, res := ⟨0, 0, 0, 0⟩ } ∧
        s.mem.SameOutside m s.arg.a2.toNat (min s.arg.a3.toNat s.arg.a1.toNat)) ∧
    (block.length < s.arg.a1.toNat → s.arg.a3.toNat < block.length →
      Apart s.arg.a0.toNat s.arg.a1.toNat s.arg.a2.toNat (min s.arg.a3.toNat s.arg.a1.toNat) →
      ∃ m n, exec .lzCompress s = .next { s with
          mem := m, freeCount := n, status := 1, errcode := 5, res := ⟨0, 0, 0, 0⟩ } ∧
        s.mem.SameOutside m s.arg.a2.toNat (min s.arg.a3.toNat s.arg.a1.toNat)) ∧
    (block.length < s.arg.a1.toNat → block.length ≤ s.arg.a3.toNat →
      Apart s.arg.a0.toNat s.arg.a1.toNat s.arg.a2.toNat block.length →
      ∃ m, exec .lzCompress s = .next { s with
          mem := m, status := 0, errcode := 0, res := ⟨BitVec.ofNat 32 block.length, 0, 0, 0⟩ } ∧
        m.Holds s.arg.a2.toNat block ∧ s.mem.SameOutside m s.arg.a2.toNat block.length)

/-- R202: a block of the greedy parse is never longer than the header, the source and one flag byte for every 8
source bytes. -/
def Obligations.CompressedSizeIsBounded : Prop :=
  ∀ (m : Memory) (dFast src size : Nat) (extended fast : Bool),
    (compressedBlock m dFast src size extended fast).length ≤ 5 + (size + (size + 7) / 8)

/-- R203: what `LZ_COMPRESS` writes, `UNCOMPRESS_ANY` decodes back to the source. -/
def Obligations.LzRoundTrip : Prop :=
  ∀ (s t : State) (out : Word), exec .lzCompress s = .next t → t.errcode = 0 → t.res.r0 ≠ 0 →
    out.toNat + s.arg.a1.toNat ≤ 2 ^ 32 → Apart s.arg.a2.toNat t.res.r0.toNat out.toNat s.arg.a1.toNat →
    ∃ u, exec .uncompressAny { t with arg := ⟨s.arg.a2, t.res.r0, out, s.arg.a1, 0, 0⟩ } = .next u ∧
      u.status = 2 ∧ u.errcode = 0 ∧ u.res.r0 = s.arg.a1 ∧ u.res.r1 = t.res.r0 ∧
      ∀ k < s.arg.a1.toNat, u.mem.read (out.toNat + k) = s.mem.read (s.arg.a0.toNat + k)

end
end

