-- ==== Sys2Proof/Laws/Memory.lean ====
section
/-!
SUPPORT. Memory: what a read gives after each memory operation, and that every memory operation keeps the canonical
form.
-/

namespace Sys2Proof.Machine

/-! ### One byte -/

theorem Memory.read_of_notMem (cs : List Host.Cell) (a : Nat) (h : ∀ c ∈ cs, c.1 ≠ a) :
    Memory.read ⟨cs⟩ a = Config.fillByte := by
  unfold Memory.read
  have : cs.find? (fun c => c.1 == a) = none := by
    rw [List.find?_eq_none]; intro c hc; simpa using h c hc
  simp [this]

theorem Memory.read_cons (c : Host.Cell) (cs : List Host.Cell) (a : Nat) :
    Memory.read ⟨c :: cs⟩ a = if c.1 = a then c.2 else Memory.read ⟨cs⟩ a := by
  unfold Memory.read
  by_cases h : c.1 = a <;> simp [h]

/-- A byte listed nowhere reads as the unlisted byte. -/
@[simp] theorem Memory.read_nil (a : Nat) : Memory.read ⟨[]⟩ a = Config.fillByte := rfl

theorem Memory.read_filter (cs : List Host.Cell) (a x : Nat) (h : x ≠ a) :
    Memory.read ⟨cs.filter (fun c => c.1 != a)⟩ x = Memory.read ⟨cs⟩ x := by
  induction cs with
  | nil => rfl
  | cons c cs ih =>
    by_cases hc : c.1 = a
    · have : c.1 ≠ x := by omega
      simp [hc, Memory.read_cons, ih, h.symm]
    · simp [hc, Memory.read_cons, ih]

theorem Memory.read_insertCell (c : Host.Cell) (cs : List Host.Cell) (x : Nat) (h : ∀ d ∈ cs, d.1 ≠ c.1) :
    Memory.read ⟨insertCell c cs⟩ x = if c.1 = x then c.2 else Memory.read ⟨cs⟩ x := by
  induction cs with
  | nil => simp [insertCell, Memory.read_cons]
  | cons d cs ih =>
    have hd := h d (by simp)
    have ih := ih (fun e he => h e (by simp [he]))
    unfold insertCell
    split
    · simp [Memory.read_cons]
    · rw [Memory.read_cons, ih, Memory.read_cons]
      by_cases h1 : c.1 = x <;> by_cases h2 : d.1 = x <;> simp_all

/-- A read after a write: the value written at its address, the old value elsewhere. -/
@[simp] theorem Memory.read_write (m : Memory) (a : Nat) (b : Byte) (x : Nat) :
    (m.write a b).read x = if x = a then b else m.read x := by
  have hf : ∀ d ∈ m.cells.filter (fun c => c.1 != a), d.1 ≠ a := by
    intro d hd; simpa using (List.mem_filter.mp hd).2
  unfold Memory.write
  by_cases hx : x = a
  · subst hx
    split
    · rename_i hb; rw [Memory.read_of_notMem _ _ hf, if_pos rfl, hb]
    · rw [Memory.read_insertCell _ _ _ hf]; simp
  · rw [if_neg hx]
    split
    · exact Memory.read_filter _ _ _ hx
    · rw [Memory.read_insertCell _ _ _ hf, Memory.read_filter _ _ _ hx, if_neg (Ne.symm hx)]

theorem pairwise_insertCell (c : Host.Cell) (cs : List Host.Cell) (hne : ∀ d ∈ cs, d.1 ≠ c.1)
    (h : cs.Pairwise (fun c d => c.1 < d.1)) : (insertCell c cs).Pairwise (fun c d => c.1 < d.1) ∧
      ∀ d ∈ insertCell c cs, d = c ∨ d ∈ cs := by
  induction cs with
  | nil => simp [insertCell]
  | cons d cs ih =>
    have hd := hne d (by simp)
    obtain ⟨h1, h2⟩ := List.pairwise_cons.mp h
    have ih := ih (fun e he => hne e (by simp [he])) h2
    unfold insertCell
    split
    · rename_i hlt
      refine ⟨List.pairwise_cons.mpr ⟨?_, h⟩, by simp⟩
      intro e he
      rcases List.mem_cons.mp he with rfl | he
      · exact hlt
      · exact lt_trans hlt (h1 e he)
    · refine ⟨List.pairwise_cons.mpr ⟨?_, ih.1⟩, ?_⟩
      · intro e he
        rcases ih.2 e he with rfl | he
        · omega
        · exact h1 e he
      · intro e he
        rcases List.mem_cons.mp he with rfl | he
        · simp
        · rcases ih.2 e he with rfl | he <;> simp_all

/-- A write inside the address space keeps the canonical form. -/
theorem Memory.write_wf (m : Memory) (a : Nat) (b : Byte) (ha : a < 2 ^ 32) (h : m.wf) : (m.write a b).wf := by
  have hf : ∀ d ∈ m.cells.filter (fun c => c.1 != a), d.1 ≠ a := by
    intro d hd; simpa using (List.mem_filter.mp hd).2
  have hp : (m.cells.filter (fun c => c.1 != a)).Pairwise (fun c d => c.1 < d.1) := h.1.filter _
  have hm : ∀ c ∈ m.cells.filter (fun c => c.1 != a), c.1 < 2 ^ 32 ∧ c.2 ≠ Config.fillByte := by
    intro c hc; exact h.2 c (List.mem_filter.mp hc).1
  unfold Memory.write
  split
  · exact ⟨hp, hm⟩
  · rename_i hb
    have := pairwise_insertCell (a, b) _ hf hp
    refine ⟨this.1, fun c hc => ?_⟩
    rcases this.2 c hc with rfl | hc
    · exact ⟨ha, hb⟩
    · exact hm c hc

/-! ### Many bytes -/

/-- A read after a list of bytes was written. -/
theorem Memory.read_writeList (m : Memory) (a : Nat) (bs : List Byte) (x : Nat) :
    (m.writeList a bs).read x = if h : a ≤ x ∧ x - a < bs.length then bs[x - a] else m.read x := by
  induction bs generalizing m a with
  | nil => simp [Memory.writeList]
  | cons b bs ih =>
    rw [Memory.writeList, ih]
    by_cases h1 : x = a
    · subst h1; simp
    · by_cases h2 : a + 1 ≤ x ∧ x - (a + 1) < bs.length
      · have h3 : a ≤ x ∧ x - a < (b :: bs).length := ⟨by omega, by simp only [List.length_cons]; omega⟩
        rw [dif_pos h2, dif_pos h3]
        have : x - a = (x - (a + 1)) + 1 := by omega
        simp [this]
      · have h3 : ¬ (a ≤ x ∧ x - a < (b :: bs).length) := by
          simp only [List.length_cons]; omega
        rw [dif_neg h2, dif_neg h3, Memory.read_write, if_neg h1]

theorem Memory.writeList_wf (m : Memory) (a : Nat) (bs : List Byte) (ha : a + bs.length ≤ 2 ^ 32) (h : m.wf) :
    (m.writeList a bs).wf := by
  induction bs generalizing m a with
  | nil => exact h
  | cons b bs ih =>
    simp only [List.length_cons] at ha
    exact ih _ _ (by omega) (m.write_wf a b (by omega) h)

/-- A list of bytes written is held. -/
theorem Memory.writeList_holds (m : Memory) (a : Nat) (bs : List Byte) : (m.writeList a bs).Holds a bs := by
  intro k hk; rw [Memory.read_writeList, dif_pos (by omega)]; simp

theorem Memory.writeList_sameOutside (m : Memory) (a : Nat) (bs : List Byte) :
    m.SameOutside (m.writeList a bs) a bs.length := by
  intro x hx; rw [Memory.read_writeList, dif_neg (by omega)]

/-- A read after equal bytes were written. -/
theorem Memory.read_fill (m : Memory) (a : Nat) (b : Byte) (n x : Nat) :
    (m.fill a b n).read x = if a ≤ x ∧ x < a + n then b else m.read x := by
  induction n generalizing m a with
  | zero => rw [Memory.fill, if_neg (by omega)]
  | succ n ih =>
    rw [Memory.fill, ih, Memory.read_write]
    split_ifs <;> first | rfl | omega

theorem Memory.fill_wf (m : Memory) (a : Nat) (b : Byte) (n : Nat) (ha : a + n ≤ 2 ^ 32) (h : m.wf) :
    (m.fill a b n).wf := by
  induction n generalizing m a with
  | zero => exact h
  | succ n ih => exact ih _ _ (by omega) (m.write_wf a b (by omega) h)

/-- The window copy writes only its `n` destination bytes, and each is the byte `off` below it as it then stands. -/
theorem Memory.read_copyUp (m : Memory) (d off n : Nat) (h1 : 1 ≤ off) (h2 : off ≤ d) (x : Nat) :
    (m.copyUp d off n).read x =
      if d ≤ x ∧ x < d + n then (m.copyUp d off n).read (x - off) else m.read x := by
  induction n generalizing m d x with
  | zero => rw [Memory.copyUp, if_neg (by omega)]
  | succ n ih =>
    rw [Memory.copyUp]
    have key : ∀ y, y ≤ d →
        (Memory.copyUp (m.write d (m.read (d - off))) (d + 1) off n).read y
          = (m.write d (m.read (d - off))).read y := by
      intro y hy; rw [ih _ _ (by omega), if_neg (by omega)]
    by_cases hx : x = d
    · subst hx
      rw [if_pos (by omega), key _ (by omega), key _ (by omega)]
      simp
    · rw [ih _ _ (by omega)]
      by_cases hr : d + 1 ≤ x ∧ x < d + 1 + n
      · rw [if_pos hr, if_pos (by omega)]
      · rw [if_neg hr, if_neg (by omega), Memory.read_write, if_neg hx]

theorem Memory.copyUp_sameOutside (m : Memory) (d off n : Nat) : m.SameOutside (m.copyUp d off n) d n := by
  induction n generalizing m d with
  | zero => intro x _; rfl
  | succ n ih =>
    intro x hx
    rw [Memory.copyUp, ih _ _ x (by omega), Memory.read_write, if_neg (by omega)]

theorem Memory.copyUp_wf (m : Memory) (d off n : Nat) (ha : d + n ≤ 2 ^ 32) (h : m.wf) : (m.copyUp d off n).wf := by
  induction n generalizing m d with
  | zero => exact h
  | succ n ih => exact ih _ _ (by omega) (m.write_wf _ _ (by omega) h)

/-- Free bytes change nothing outside their range. -/
theorem Memory.writeFree_sameOutside (m : Memory) (a c n : Nat) : m.SameOutside (m.writeFree a c n) a n := by
  induction n with
  | zero => intro x _; rfl
  | succ n ih =>
    intro x hx
    rw [Memory.writeFree, Memory.read_write, if_neg (by omega), ih x (by omega)]

theorem Memory.writeFree_wf (m : Memory) (a c n : Nat) (ha : a + n ≤ 2 ^ 32) (h : m.wf) : (m.writeFree a c n).wf := by
  induction n with
  | zero => exact h
  | succ n ih => exact Memory.write_wf _ _ _ (by omega) (ih (by omega))

@[simp] theorem Memory.readList_length (m : Memory) (a n : Nat) : (m.readList a n).length = n := by
  induction n generalizing a with
  | zero => rfl
  | succ n ih => simp [Memory.readList, ih]

theorem Memory.getElem_readList (m : Memory) (a n k : Nat) (h : k < (m.readList a n).length) :
    (m.readList a n)[k] = m.read (a + k) := by
  induction n generalizing a k with
  | zero => simp [Memory.readList] at h
  | succ n ih =>
    cases k with
    | zero => rfl
    | succ k =>
      simp only [Memory.readList, List.getElem_cons_succ]
      rw [ih]; congr 1; omega

@[simp] theorem leBytes_length (n v : Nat) : (leBytes n v).length = n := by
  induction n generalizing v with
  | zero => rfl
  | succ n ih => simp [leBytes, ih]

/-- The memory of the machine after reset is in canonical form. -/
theorem reset_mem_wf : State.reset.mem.wf := by decide

/-! ### Packed bytes -/

theorem getLsbD_setBit (x : Byte) (i : Nat) (b : Bool) (j : Nat) (hi : i < 8) :
    (setBit x i b).getLsbD j = if j = i then b else x.getLsbD j := by
  unfold setBit
  by_cases hj : j < 8
  · interval_cases i <;> interval_cases j <;> cases b <;> simp
  · have : j ≠ i := by omega
    simp [this, BitVec.getLsbD_of_ge _ _ (by omega : 8 ≤ j)]

/-- One rewritten buffer byte: its bits that belong to the element are the value's, the others stay. -/
theorem getLsbD_packByte (x : Byte) (off bits : Nat) (value : Word) (j n i : Nat) (hn : n ≤ 8) :
    (packByte x off bits value j n).getLsbD i =
      if i < n ∧ off ≤ 8 * j + i ∧ 8 * j + i < off + bits then value.getLsbD (8 * j + i - off) else x.getLsbD i := by
  induction n with
  | zero => simp [packByte]
  | succ n ih =>
    have ih := ih (by omega)
    unfold packByte
    split
    · rw [getLsbD_setBit _ _ _ _ (by omega), ih]
      by_cases h : i = n
      · subst h; rename_i h'; simp [h']
      · rw [if_neg h]
        have : (i < n ∧ off ≤ 8 * j + i ∧ 8 * j + i < off + bits) ↔
          (i < n + 1 ∧ off ≤ 8 * j + i ∧ 8 * j + i < off + bits) := by omega
        simp only [this]
    · rw [ih]
      rename_i h'
      have : (i < n ∧ off ≤ 8 * j + i ∧ 8 * j + i < off + bits) ↔
          (i < n + 1 ∧ off ≤ 8 * j + i ∧ 8 * j + i < off + bits) := by
        constructor
        · omega
        · rintro ⟨h1, h2, h3⟩
          by_cases hi : i = n
          · subst hi; exact absurd ⟨h2, h3⟩ h'
          · exact ⟨by omega, h2, h3⟩
      simp only [this]

/-- A read after `PACK_SET` rewrote bytes `j .. j+n-1` of the buffer. -/
theorem Memory.read_packBytes (m : Memory) (buf off bits : Nat) (value : Word) (j n x : Nat) :
    (packBytes m buf off bits value j n).read x =
      if buf + j ≤ x ∧ x < buf + j + n then packByte (m.read x) off bits value (x - buf) 8 else m.read x := by
  induction n generalizing m j with
  | zero => rw [packBytes, if_neg (by omega)]
  | succ n ih =>
    rw [packBytes, ih]
    by_cases hx : x = buf + j
    · subst hx
      rw [if_neg (by omega), if_pos (by omega), Memory.read_write, if_pos rfl]
      congr 1; omega
    · rw [Memory.read_write, if_neg hx]
      split_ifs <;> first | rfl | omega

theorem Memory.packBytes_wf (m : Memory) (buf off bits : Nat) (value : Word) (j n : Nat)
    (ha : buf + j + n ≤ 2 ^ 32) (h : m.wf) : (packBytes m buf off bits value j n).wf := by
  induction n generalizing m j with
  | zero => exact h
  | succ n ih => exact ih _ _ (by omega) (m.write_wf _ _ (by omega) h)

/-- Bit `i` of the value `PACK_GET` computes: stream bit `off + i` below the width, 0 from the width on (R132, R133). -/
theorem testBit_packedValue (m : Memory) (base off n i : Nat) :
    (packedValue m base off n).testBit i = (decide (i < n) && streamBit m base (off + i)) ∧
      packedValue m base off n < 2 ^ n := by
  induction n generalizing i with
  | zero => simp [packedValue]
  | succ n ih =>
    have hlt := (ih 0).2
    have hi := (ih i).1
    unfold packedValue
    by_cases hb : streamBit m base (off + n) = true
    · simp only [hb, if_true]
      refine ⟨?_, by omega⟩
      rw [Nat.add_comm]
      rcases lt_trichotomy i n with h | h | h
      · rw [Nat.testBit_two_pow_add_gt h, hi]; simp [h, Nat.lt_succ_of_lt h]
      · subst h; rw [Nat.testBit_two_pow_add_eq, hi]; simp [hb]
      · rw [Nat.testBit_lt_two_pow (lt_of_lt_of_le (by omega : _ < 2 ^ (n + 1))
          (Nat.pow_le_pow_right (by omega) (by omega)))]
        simp; omega
    · simp only [hb]
      refine ⟨?_, by simp; omega⟩
      simp only [Bool.false_eq_true, if_false, Nat.add_zero, hi]
      by_cases h : i = n
      · subst h; simp [hb]
      · have : i < n ↔ i < n + 1 := by omega
        simp [this]

end Sys2Proof.Machine
end

