-- ==== Sys2Proof/Laws/State.lean ====
section
/-!
SUPPORT. One lemma per field per update, true by definition: a later proof unfolds no record update.
-/

namespace Sys2Proof.Machine

/-! `State.respond`: the response registers, nothing else (R36) -/

@[simp] theorem State.respond_cmd (s : State) (a : Word) (b : Byte) (r : Results) :
    (s.respond a b r).cmd = s.cmd := rfl
@[simp] theorem State.respond_status (s : State) (a : Word) (b : Byte) (r : Results) :
    (s.respond a b r).status = a := rfl
@[simp] theorem State.respond_errcode (s : State) (a : Word) (b : Byte) (r : Results) :
    (s.respond a b r).errcode = b := rfl
@[simp] theorem State.respond_arg (s : State) (a : Word) (b : Byte) (r : Results) :
    (s.respond a b r).arg = s.arg := rfl
@[simp] theorem State.respond_res (s : State) (a : Word) (b : Byte) (r : Results) :
    (s.respond a b r).res = r := rfl
@[simp] theorem State.respond_slots (s : State) (a : Word) (b : Byte) (r : Results) :
    (s.respond a b r).slots = s.slots := rfl
@[simp] theorem State.respond_mem (s : State) (a : Word) (b : Byte) (r : Results) :
    (s.respond a b r).mem = s.mem := rfl
@[simp] theorem State.respond_dFast (s : State) (a : Word) (b : Byte) (r : Results) :
    (s.respond a b r).dFast = s.dFast := rfl
@[simp] theorem State.respond_freeCount (s : State) (a : Word) (b : Byte) (r : Results) :
    (s.respond a b r).freeCount = s.freeCount := rfl
@[simp] theorem State.respond_host (s : State) (a : Word) (b : Byte) (r : Results) :
    (s.respond a b r).host = s.host := rfl

/-! `State.done`: a command that does not raise (R362) -/

@[simp] theorem State.done_cmd (s : State) (a b : Bool) (r : Results) : (s.done a b r).cmd = s.cmd := rfl
@[simp] theorem State.done_status (s : State) (a b : Bool) (r : Results) :
    (s.done a b r).status = statusWord false a b := rfl
@[simp] theorem State.done_errcode (s : State) (a b : Bool) (r : Results) : (s.done a b r).errcode = 0 := rfl
@[simp] theorem State.done_arg (s : State) (a b : Bool) (r : Results) : (s.done a b r).arg = s.arg := rfl
@[simp] theorem State.done_res (s : State) (a b : Bool) (r : Results) : (s.done a b r).res = r := rfl
@[simp] theorem State.done_slots (s : State) (a b : Bool) (r : Results) :
    (s.done a b r).slots = s.slots := rfl
@[simp] theorem State.done_mem (s : State) (a b : Bool) (r : Results) : (s.done a b r).mem = s.mem := rfl
@[simp] theorem State.done_dFast (s : State) (a b : Bool) (r : Results) :
    (s.done a b r).dFast = s.dFast := rfl
@[simp] theorem State.done_freeCount (s : State) (a b : Bool) (r : Results) :
    (s.done a b r).freeCount = s.freeCount := rfl
@[simp] theorem State.done_host (s : State) (a b : Bool) (r : Results) : (s.done a b r).host = s.host := rfl

/-! `State.raiseCode`: a command that raises (R362) -/

@[simp] theorem State.raiseCode_cmd (s : State) (b : Byte) (r : Results) :
    (s.raiseCode b r).cmd = s.cmd := rfl
@[simp] theorem State.raiseCode_status (s : State) (b : Byte) (r : Results) :
    (s.raiseCode b r).status = statusWord true false false := rfl
@[simp] theorem State.raiseCode_errcode (s : State) (b : Byte) (r : Results) :
    (s.raiseCode b r).errcode = b := rfl
@[simp] theorem State.raiseCode_arg (s : State) (b : Byte) (r : Results) :
    (s.raiseCode b r).arg = s.arg := rfl
@[simp] theorem State.raiseCode_res (s : State) (b : Byte) (r : Results) : (s.raiseCode b r).res = r := rfl
@[simp] theorem State.raiseCode_slots (s : State) (b : Byte) (r : Results) :
    (s.raiseCode b r).slots = s.slots := rfl
@[simp] theorem State.raiseCode_mem (s : State) (b : Byte) (r : Results) :
    (s.raiseCode b r).mem = s.mem := rfl
@[simp] theorem State.raiseCode_dFast (s : State) (b : Byte) (r : Results) :
    (s.raiseCode b r).dFast = s.dFast := rfl
@[simp] theorem State.raiseCode_freeCount (s : State) (b : Byte) (r : Results) :
    (s.raiseCode b r).freeCount = s.freeCount := rfl
@[simp] theorem State.raiseCode_host (s : State) (b : Byte) (r : Results) :
    (s.raiseCode b r).host = s.host := rfl

/-! `State.raise`: a command that raises without results (R362) -/

@[simp] theorem State.raise_cmd (s : State) (e : Err) : (s.raise e).cmd = s.cmd := rfl
@[simp] theorem State.raise_status (s : State) (e : Err) :
    (s.raise e).status = statusWord true false false := rfl
@[simp] theorem State.raise_errcode (s : State) (e : Err) : (s.raise e).errcode = e.code := rfl
@[simp] theorem State.raise_arg (s : State) (e : Err) : (s.raise e).arg = s.arg := rfl
@[simp] theorem State.raise_res (s : State) (e : Err) : (s.raise e).res = noResults := rfl
@[simp] theorem State.raise_slots (s : State) (e : Err) : (s.raise e).slots = s.slots := rfl
@[simp] theorem State.raise_mem (s : State) (e : Err) : (s.raise e).mem = s.mem := rfl
@[simp] theorem State.raise_dFast (s : State) (e : Err) : (s.raise e).dFast = s.dFast := rfl
@[simp] theorem State.raise_freeCount (s : State) (e : Err) : (s.raise e).freeCount = s.freeCount := rfl
@[simp] theorem State.raise_host (s : State) (e : Err) : (s.raise e).host = s.host := rfl

/-! `State.setMem`: memory, nothing else -/

@[simp] theorem State.setMem_cmd (s : State) (m : Memory) : (s.setMem m).cmd = s.cmd := rfl
@[simp] theorem State.setMem_status (s : State) (m : Memory) : (s.setMem m).status = s.status := rfl
@[simp] theorem State.setMem_errcode (s : State) (m : Memory) : (s.setMem m).errcode = s.errcode := rfl
@[simp] theorem State.setMem_arg (s : State) (m : Memory) : (s.setMem m).arg = s.arg := rfl
@[simp] theorem State.setMem_res (s : State) (m : Memory) : (s.setMem m).res = s.res := rfl
@[simp] theorem State.setMem_slots (s : State) (m : Memory) : (s.setMem m).slots = s.slots := rfl
@[simp] theorem State.setMem_mem (s : State) (m : Memory) : (s.setMem m).mem = m := rfl
@[simp] theorem State.setMem_dFast (s : State) (m : Memory) : (s.setMem m).dFast = s.dFast := rfl
@[simp] theorem State.setMem_freeCount (s : State) (m : Memory) : (s.setMem m).freeCount = s.freeCount := rfl
@[simp] theorem State.setMem_host (s : State) (m : Memory) : (s.setMem m).host = s.host := rfl

/-! `State.setSlot`: one slot, nothing else -/

@[simp] theorem State.setSlot_cmd (s : State) (i : Nat) (c : Ctx) : (s.setSlot i c).cmd = s.cmd := rfl
@[simp] theorem State.setSlot_status (s : State) (i : Nat) (c : Ctx) :
    (s.setSlot i c).status = s.status := rfl
@[simp] theorem State.setSlot_errcode (s : State) (i : Nat) (c : Ctx) :
    (s.setSlot i c).errcode = s.errcode := rfl
@[simp] theorem State.setSlot_arg (s : State) (i : Nat) (c : Ctx) : (s.setSlot i c).arg = s.arg := rfl
@[simp] theorem State.setSlot_res (s : State) (i : Nat) (c : Ctx) : (s.setSlot i c).res = s.res := rfl
@[simp] theorem State.setSlot_slots (s : State) (i : Nat) (c : Ctx) :
    (s.setSlot i c).slots = s.slots.set i c := rfl
@[simp] theorem State.setSlot_mem (s : State) (i : Nat) (c : Ctx) : (s.setSlot i c).mem = s.mem := rfl
@[simp] theorem State.setSlot_dFast (s : State) (i : Nat) (c : Ctx) : (s.setSlot i c).dFast = s.dFast := rfl
@[simp] theorem State.setSlot_freeCount (s : State) (i : Nat) (c : Ctx) :
    (s.setSlot i c).freeCount = s.freeCount := rfl
@[simp] theorem State.setSlot_host (s : State) (i : Nat) (c : Ctx) : (s.setSlot i c).host = s.host := rfl

/-! `State.putRun`: memory and one slot, nothing else -/

@[simp] theorem State.putRun_cmd (s : State) (i : Nat) (r : Run) : (s.putRun i r).cmd = s.cmd := rfl
@[simp] theorem State.putRun_status (s : State) (i : Nat) (r : Run) : (s.putRun i r).status = s.status := rfl
@[simp] theorem State.putRun_errcode (s : State) (i : Nat) (r : Run) :
    (s.putRun i r).errcode = s.errcode := rfl
@[simp] theorem State.putRun_arg (s : State) (i : Nat) (r : Run) : (s.putRun i r).arg = s.arg := rfl
@[simp] theorem State.putRun_res (s : State) (i : Nat) (r : Run) : (s.putRun i r).res = s.res := rfl
@[simp] theorem State.putRun_slots (s : State) (i : Nat) (r : Run) :
    (s.putRun i r).slots = s.slots.set i r.ctx := rfl
@[simp] theorem State.putRun_mem (s : State) (i : Nat) (r : Run) : (s.putRun i r).mem = r.mem := rfl
@[simp] theorem State.putRun_dFast (s : State) (i : Nat) (r : Run) : (s.putRun i r).dFast = s.dFast := rfl
@[simp] theorem State.putRun_freeCount (s : State) (i : Nat) (r : Run) :
    (s.putRun i r).freeCount = s.freeCount := rfl
@[simp] theorem State.putRun_host (s : State) (i : Nat) (r : Run) : (s.putRun i r).host = s.host := rfl

/-! `State.scratch`: the scratch bytes of the destination (R200) -/

@[simp] theorem State.scratch_cmd (s : State) (a n : Nat) : (s.scratch a n).cmd = s.cmd := rfl
@[simp] theorem State.scratch_status (s : State) (a n : Nat) : (s.scratch a n).status = s.status := rfl
@[simp] theorem State.scratch_errcode (s : State) (a n : Nat) : (s.scratch a n).errcode = s.errcode := rfl
@[simp] theorem State.scratch_arg (s : State) (a n : Nat) : (s.scratch a n).arg = s.arg := rfl
@[simp] theorem State.scratch_res (s : State) (a n : Nat) : (s.scratch a n).res = s.res := rfl
@[simp] theorem State.scratch_slots (s : State) (a n : Nat) : (s.scratch a n).slots = s.slots := rfl
@[simp] theorem State.scratch_mem (s : State) (a n : Nat) :
    (s.scratch a n).mem = s.mem.writeFree a s.freeCount n := rfl
@[simp] theorem State.scratch_dFast (s : State) (a n : Nat) : (s.scratch a n).dFast = s.dFast := rfl
@[simp] theorem State.scratch_freeCount (s : State) (a n : Nat) :
    (s.scratch a n).freeCount = s.freeCount + 1 := rfl
@[simp] theorem State.scratch_host (s : State) (a n : Nat) : (s.scratch a n).host = s.host := rfl

/-! `State.dropSlot`: one slot becomes free (R335) -/

@[simp] theorem State.dropSlot_cmd (s : State) (i : Nat) : (s.dropSlot i).cmd = s.cmd := rfl
@[simp] theorem State.dropSlot_status (s : State) (i : Nat) : (s.dropSlot i).status = s.status := rfl
@[simp] theorem State.dropSlot_errcode (s : State) (i : Nat) : (s.dropSlot i).errcode = s.errcode := rfl
@[simp] theorem State.dropSlot_arg (s : State) (i : Nat) : (s.dropSlot i).arg = s.arg := rfl
@[simp] theorem State.dropSlot_res (s : State) (i : Nat) : (s.dropSlot i).res = s.res := rfl
@[simp] theorem State.dropSlot_slots (s : State) (i : Nat) :
    (s.dropSlot i).slots = s.slots.set i (freeSlot s.freeCount) := rfl
@[simp] theorem State.dropSlot_mem (s : State) (i : Nat) : (s.dropSlot i).mem = s.mem := rfl
@[simp] theorem State.dropSlot_dFast (s : State) (i : Nat) : (s.dropSlot i).dFast = s.dFast := rfl
@[simp] theorem State.dropSlot_freeCount (s : State) (i : Nat) :
    (s.dropSlot i).freeCount = s.freeCount + 1 := rfl
@[simp] theorem State.dropSlot_host (s : State) (i : Nat) : (s.dropSlot i).host = s.host := rfl

/-! `State.resetBlock`: registers 0, slots idle, memory kept (R400) -/

@[simp] theorem State.resetBlock_cmd (s : State) : (s.resetBlock).cmd = 0 := rfl
@[simp] theorem State.resetBlock_status (s : State) : (s.resetBlock).status = 0 := rfl
@[simp] theorem State.resetBlock_errcode (s : State) : (s.resetBlock).errcode = 0 := rfl
@[simp] theorem State.resetBlock_arg (s : State) : (s.resetBlock).arg = ⟨0, 0, 0, 0, 0, 0⟩ := rfl
@[simp] theorem State.resetBlock_res (s : State) : (s.resetBlock).res = ⟨0, 0, 0, 0⟩ := rfl
@[simp] theorem State.resetBlock_slots (s : State) :
    (s.resetBlock).slots = s.slots.map (fun _ => Ctx.reset) := rfl
@[simp] theorem State.resetBlock_mem (s : State) : (s.resetBlock).mem = s.mem := rfl
@[simp] theorem State.resetBlock_dFast (s : State) : (s.resetBlock).dFast = s.dFast := rfl
@[simp] theorem State.resetBlock_freeCount (s : State) : (s.resetBlock).freeCount = s.freeCount := rfl
@[simp] theorem State.resetBlock_host (s : State) : (s.resetBlock).host = s.host := rfl

/-! `State.setArgs`: the operands, nothing else -/

@[simp] theorem State.setArgs_cmd (s : State) (g : Args) : (s.setArgs g).cmd = s.cmd := rfl
@[simp] theorem State.setArgs_status (s : State) (g : Args) : (s.setArgs g).status = s.status := rfl
@[simp] theorem State.setArgs_errcode (s : State) (g : Args) : (s.setArgs g).errcode = s.errcode := rfl
@[simp] theorem State.setArgs_arg (s : State) (g : Args) : (s.setArgs g).arg = g := rfl
@[simp] theorem State.setArgs_res (s : State) (g : Args) : (s.setArgs g).res = s.res := rfl
@[simp] theorem State.setArgs_slots (s : State) (g : Args) : (s.setArgs g).slots = s.slots := rfl
@[simp] theorem State.setArgs_mem (s : State) (g : Args) : (s.setArgs g).mem = s.mem := rfl
@[simp] theorem State.setArgs_dFast (s : State) (g : Args) : (s.setArgs g).dFast = s.dFast := rfl
@[simp] theorem State.setArgs_freeCount (s : State) (g : Args) : (s.setArgs g).freeCount = s.freeCount := rfl
@[simp] theorem State.setArgs_host (s : State) (g : Args) : (s.setArgs g).host = s.host := rfl

/-! `State.nextCommand`: the host's next action, nothing else -/

@[simp] theorem State.nextCommand_cmd (s : State) (c : Word) : (s.nextCommand c).cmd = s.cmd := rfl
@[simp] theorem State.nextCommand_status (s : State) (c : Word) : (s.nextCommand c).status = s.status := rfl
@[simp] theorem State.nextCommand_errcode (s : State) (c : Word) :
    (s.nextCommand c).errcode = s.errcode := rfl
@[simp] theorem State.nextCommand_arg (s : State) (c : Word) : (s.nextCommand c).arg = s.arg := rfl
@[simp] theorem State.nextCommand_res (s : State) (c : Word) : (s.nextCommand c).res = s.res := rfl
@[simp] theorem State.nextCommand_slots (s : State) (c : Word) : (s.nextCommand c).slots = s.slots := rfl
@[simp] theorem State.nextCommand_mem (s : State) (c : Word) : (s.nextCommand c).mem = s.mem := rfl
@[simp] theorem State.nextCommand_dFast (s : State) (c : Word) : (s.nextCommand c).dFast = s.dFast := rfl
@[simp] theorem State.nextCommand_freeCount (s : State) (c : Word) :
    (s.nextCommand c).freeCount = s.freeCount := rfl
@[simp] theorem State.nextCommand_host (s : State) (c : Word) :
    (s.nextCommand c).host = .writeReg .cmd c :: s.host := rfl

/-! `Ctx.takeFlag`: one flag bit used (R223, R224) -/

@[simp] theorem Ctx.takeFlag_state (c : Ctx) : (c.takeFlag).state = c.state := rfl
@[simp] theorem Ctx.takeFlag_kind (c : Ctx) : (c.takeFlag).kind = c.kind := rfl
@[simp] theorem Ctx.takeFlag_mode (c : Ctx) : (c.takeFlag).mode = c.mode := rfl
@[simp] theorem Ctx.takeFlag_dstBase (c : Ctx) : (c.takeFlag).dstBase = c.dstBase := rfl
@[simp] theorem Ctx.takeFlag_outSize (c : Ctx) : (c.takeFlag).outSize = c.outSize := rfl
@[simp] theorem Ctx.takeFlag_outPos (c : Ctx) : (c.takeFlag).outPos = c.outPos := rfl
@[simp] theorem Ctx.takeFlag_inCount (c : Ctx) : (c.takeFlag).inCount = c.inCount := rfl
@[simp] theorem Ctx.takeFlag_phase (c : Ctx) : (c.takeFlag).phase = c.phase := rfl
@[simp] theorem Ctx.takeFlag_cnt (c : Ctx) : (c.takeFlag).cnt = c.cnt := rfl
@[simp] theorem Ctx.takeFlag_b0 (c : Ctx) : (c.takeFlag).b0 = c.b0 := rfl
@[simp] theorem Ctx.takeFlag_b1 (c : Ctx) : (c.takeFlag).b1 = c.b1 := rfl
@[simp] theorem Ctx.takeFlag_flags (c : Ctx) : (c.takeFlag).flags = c.flags <<< 1 := rfl
@[simp] theorem Ctx.takeFlag_nflag (c : Ctx) : (c.takeFlag).nflag = c.nflag - 1 := rfl
@[simp] theorem Ctx.takeFlag_tpos (c : Ctx) : (c.takeFlag).tpos = c.tpos := rfl
@[simp] theorem Ctx.takeFlag_len (c : Ctx) : (c.takeFlag).len = c.len := rfl
@[simp] theorem Ctx.takeFlag_code (c : Ctx) : (c.takeFlag).code = c.code := rfl
@[simp] theorem Ctx.takeFlag_codeLen (c : Ctx) : (c.takeFlag).codeLen = c.codeLen := rfl
@[simp] theorem Ctx.takeFlag_nibHold (c : Ctx) : (c.takeFlag).nibHold = c.nibHold := rfl
@[simp] theorem Ctx.takeFlag_nibHave (c : Ctx) : (c.takeFlag).nibHave = c.nibHave := rfl
@[simp] theorem Ctx.takeFlag_err (c : Ctx) : (c.takeFlag).err = c.err := rfl

/-! `Ctx.nextTok`: the phase after a token (R221) -/

@[simp] theorem Ctx.nextTok_state (c : Ctx) : (c.nextTok).state = c.state := rfl
@[simp] theorem Ctx.nextTok_kind (c : Ctx) : (c.nextTok).kind = c.kind := rfl
@[simp] theorem Ctx.nextTok_mode (c : Ctx) : (c.nextTok).mode = c.mode := rfl
@[simp] theorem Ctx.nextTok_dstBase (c : Ctx) : (c.nextTok).dstBase = c.dstBase := rfl
@[simp] theorem Ctx.nextTok_outSize (c : Ctx) : (c.nextTok).outSize = c.outSize := rfl
@[simp] theorem Ctx.nextTok_outPos (c : Ctx) : (c.nextTok).outPos = c.outPos := rfl
@[simp] theorem Ctx.nextTok_inCount (c : Ctx) : (c.nextTok).inCount = c.inCount := rfl
@[simp] theorem Ctx.nextTok_phase (c : Ctx) :
    (c.nextTok).phase = if c.nflag = 0 then .lzFlag else .lzToken := rfl
@[simp] theorem Ctx.nextTok_cnt (c : Ctx) : (c.nextTok).cnt = c.cnt := rfl
@[simp] theorem Ctx.nextTok_b0 (c : Ctx) : (c.nextTok).b0 = c.b0 := rfl
@[simp] theorem Ctx.nextTok_b1 (c : Ctx) : (c.nextTok).b1 = c.b1 := rfl
@[simp] theorem Ctx.nextTok_flags (c : Ctx) : (c.nextTok).flags = c.flags := rfl
@[simp] theorem Ctx.nextTok_nflag (c : Ctx) : (c.nextTok).nflag = c.nflag := rfl
@[simp] theorem Ctx.nextTok_tpos (c : Ctx) : (c.nextTok).tpos = c.tpos := rfl
@[simp] theorem Ctx.nextTok_len (c : Ctx) : (c.nextTok).len = c.len := rfl
@[simp] theorem Ctx.nextTok_code (c : Ctx) : (c.nextTok).code = c.code := rfl
@[simp] theorem Ctx.nextTok_codeLen (c : Ctx) : (c.nextTok).codeLen = c.codeLen := rfl
@[simp] theorem Ctx.nextTok_nibHold (c : Ctx) : (c.nextTok).nibHold = c.nibHold := rfl
@[simp] theorem Ctx.nextTok_nibHave (c : Ctx) : (c.nextTok).nibHave = c.nibHave := rfl
@[simp] theorem Ctx.nextTok_err (c : Ctx) : (c.nextTok).err = c.err := rfl

/-! `Ctx.countDown`: one literal less to come (R173, R231) -/

@[simp] theorem Ctx.countDown_state (c : Ctx) (p : Phase) : (c.countDown p).state = c.state := rfl
@[simp] theorem Ctx.countDown_kind (c : Ctx) (p : Phase) : (c.countDown p).kind = c.kind := rfl
@[simp] theorem Ctx.countDown_mode (c : Ctx) (p : Phase) : (c.countDown p).mode = c.mode := rfl
@[simp] theorem Ctx.countDown_dstBase (c : Ctx) (p : Phase) : (c.countDown p).dstBase = c.dstBase := rfl
@[simp] theorem Ctx.countDown_outSize (c : Ctx) (p : Phase) : (c.countDown p).outSize = c.outSize := rfl
@[simp] theorem Ctx.countDown_outPos (c : Ctx) (p : Phase) : (c.countDown p).outPos = c.outPos := rfl
@[simp] theorem Ctx.countDown_inCount (c : Ctx) (p : Phase) : (c.countDown p).inCount = c.inCount := rfl
@[simp] theorem Ctx.countDown_phase (c : Ctx) (p : Phase) :
    (c.countDown p).phase = if c.cnt - 1 = 0 then p else c.phase := rfl
@[simp] theorem Ctx.countDown_cnt (c : Ctx) (p : Phase) : (c.countDown p).cnt = c.cnt - 1 := rfl
@[simp] theorem Ctx.countDown_b0 (c : Ctx) (p : Phase) : (c.countDown p).b0 = c.b0 := rfl
@[simp] theorem Ctx.countDown_b1 (c : Ctx) (p : Phase) : (c.countDown p).b1 = c.b1 := rfl
@[simp] theorem Ctx.countDown_flags (c : Ctx) (p : Phase) : (c.countDown p).flags = c.flags := rfl
@[simp] theorem Ctx.countDown_nflag (c : Ctx) (p : Phase) : (c.countDown p).nflag = c.nflag := rfl
@[simp] theorem Ctx.countDown_tpos (c : Ctx) (p : Phase) : (c.countDown p).tpos = c.tpos := rfl
@[simp] theorem Ctx.countDown_len (c : Ctx) (p : Phase) : (c.countDown p).len = c.len := rfl
@[simp] theorem Ctx.countDown_code (c : Ctx) (p : Phase) : (c.countDown p).code = c.code := rfl
@[simp] theorem Ctx.countDown_codeLen (c : Ctx) (p : Phase) : (c.countDown p).codeLen = c.codeLen := rfl
@[simp] theorem Ctx.countDown_nibHold (c : Ctx) (p : Phase) : (c.countDown p).nibHold = c.nibHold := rfl
@[simp] theorem Ctx.countDown_nibHave (c : Ctx) (p : Phase) : (c.countDown p).nibHave = c.nibHave := rfl
@[simp] theorem Ctx.countDown_err (c : Ctx) (p : Phase) : (c.countDown p).err = c.err := rfl

/-! `Ctx.pushBit`: one stream bit (R293) -/

@[simp] theorem Ctx.pushBit_state (c : Ctx) (b : Bool) : (c.pushBit b).state = c.state := rfl
@[simp] theorem Ctx.pushBit_kind (c : Ctx) (b : Bool) : (c.pushBit b).kind = c.kind := rfl
@[simp] theorem Ctx.pushBit_mode (c : Ctx) (b : Bool) : (c.pushBit b).mode = c.mode := rfl
@[simp] theorem Ctx.pushBit_dstBase (c : Ctx) (b : Bool) : (c.pushBit b).dstBase = c.dstBase := rfl
@[simp] theorem Ctx.pushBit_outSize (c : Ctx) (b : Bool) : (c.pushBit b).outSize = c.outSize := rfl
@[simp] theorem Ctx.pushBit_outPos (c : Ctx) (b : Bool) : (c.pushBit b).outPos = c.outPos := rfl
@[simp] theorem Ctx.pushBit_inCount (c : Ctx) (b : Bool) : (c.pushBit b).inCount = c.inCount := rfl
@[simp] theorem Ctx.pushBit_phase (c : Ctx) (b : Bool) : (c.pushBit b).phase = c.phase := rfl
@[simp] theorem Ctx.pushBit_cnt (c : Ctx) (b : Bool) : (c.pushBit b).cnt = c.cnt := rfl
@[simp] theorem Ctx.pushBit_b0 (c : Ctx) (b : Bool) : (c.pushBit b).b0 = c.b0 := rfl
@[simp] theorem Ctx.pushBit_b1 (c : Ctx) (b : Bool) : (c.pushBit b).b1 = c.b1 := rfl
@[simp] theorem Ctx.pushBit_flags (c : Ctx) (b : Bool) : (c.pushBit b).flags = c.flags := rfl
@[simp] theorem Ctx.pushBit_nflag (c : Ctx) (b : Bool) : (c.pushBit b).nflag = c.nflag := rfl
@[simp] theorem Ctx.pushBit_tpos (c : Ctx) (b : Bool) : (c.pushBit b).tpos = c.tpos := rfl
@[simp] theorem Ctx.pushBit_len (c : Ctx) (b : Bool) : (c.pushBit b).len = c.len := rfl
@[simp] theorem Ctx.pushBit_code (c : Ctx) (b : Bool) :
    (c.pushBit b).code = (c.code <<< 1) ||| (BitVec.ofBool b).setWidth 15 := rfl
@[simp] theorem Ctx.pushBit_codeLen (c : Ctx) (b : Bool) : (c.pushBit b).codeLen = c.codeLen + 1 := rfl
@[simp] theorem Ctx.pushBit_nibHold (c : Ctx) (b : Bool) : (c.pushBit b).nibHold = c.nibHold := rfl
@[simp] theorem Ctx.pushBit_nibHave (c : Ctx) (b : Bool) : (c.pushBit b).nibHave = c.nibHave := rfl
@[simp] theorem Ctx.pushBit_err (c : Ctx) (b : Bool) : (c.pushBit b).err = c.err := rfl

/-! `Ctx.setLen`: one code length (R291) -/

@[simp] theorem Ctx.setLen_state (c : Ctx) (i : Nat) (v : BitVec 4) : (c.setLen i v).state = c.state := rfl
@[simp] theorem Ctx.setLen_kind (c : Ctx) (i : Nat) (v : BitVec 4) : (c.setLen i v).kind = c.kind := rfl
@[simp] theorem Ctx.setLen_mode (c : Ctx) (i : Nat) (v : BitVec 4) : (c.setLen i v).mode = c.mode := rfl
@[simp] theorem Ctx.setLen_dstBase (c : Ctx) (i : Nat) (v : BitVec 4) :
    (c.setLen i v).dstBase = c.dstBase := rfl
@[simp] theorem Ctx.setLen_outSize (c : Ctx) (i : Nat) (v : BitVec 4) :
    (c.setLen i v).outSize = c.outSize := rfl
@[simp] theorem Ctx.setLen_outPos (c : Ctx) (i : Nat) (v : BitVec 4) : (c.setLen i v).outPos = c.outPos := rfl
@[simp] theorem Ctx.setLen_inCount (c : Ctx) (i : Nat) (v : BitVec 4) :
    (c.setLen i v).inCount = c.inCount := rfl
@[simp] theorem Ctx.setLen_phase (c : Ctx) (i : Nat) (v : BitVec 4) : (c.setLen i v).phase = c.phase := rfl
@[simp] theorem Ctx.setLen_cnt (c : Ctx) (i : Nat) (v : BitVec 4) : (c.setLen i v).cnt = c.cnt := rfl
@[simp] theorem Ctx.setLen_b0 (c : Ctx) (i : Nat) (v : BitVec 4) : (c.setLen i v).b0 = c.b0 := rfl
@[simp] theorem Ctx.setLen_b1 (c : Ctx) (i : Nat) (v : BitVec 4) : (c.setLen i v).b1 = c.b1 := rfl
@[simp] theorem Ctx.setLen_flags (c : Ctx) (i : Nat) (v : BitVec 4) : (c.setLen i v).flags = c.flags := rfl
@[simp] theorem Ctx.setLen_nflag (c : Ctx) (i : Nat) (v : BitVec 4) : (c.setLen i v).nflag = c.nflag := rfl
@[simp] theorem Ctx.setLen_tpos (c : Ctx) (i : Nat) (v : BitVec 4) : (c.setLen i v).tpos = c.tpos := rfl
@[simp] theorem Ctx.setLen_len (c : Ctx) (i : Nat) (v : BitVec 4) :
    (c.setLen i v).len = c.len.setIfInBounds i v := rfl
@[simp] theorem Ctx.setLen_code (c : Ctx) (i : Nat) (v : BitVec 4) : (c.setLen i v).code = c.code := rfl
@[simp] theorem Ctx.setLen_codeLen (c : Ctx) (i : Nat) (v : BitVec 4) :
    (c.setLen i v).codeLen = c.codeLen := rfl
@[simp] theorem Ctx.setLen_nibHold (c : Ctx) (i : Nat) (v : BitVec 4) :
    (c.setLen i v).nibHold = c.nibHold := rfl
@[simp] theorem Ctx.setLen_nibHave (c : Ctx) (i : Nat) (v : BitVec 4) :
    (c.setLen i v).nibHave = c.nibHave := rfl
@[simp] theorem Ctx.setLen_err (c : Ctx) (i : Nat) (v : BitVec 4) : (c.setLen i v).err = c.err := rfl

/-! `Ctx.putTableByte`: two code lengths (R291) -/

@[simp] theorem Ctx.putTableByte_state (c : Ctx) (x : Byte) : (c.putTableByte x).state = c.state := rfl
@[simp] theorem Ctx.putTableByte_kind (c : Ctx) (x : Byte) : (c.putTableByte x).kind = c.kind := rfl
@[simp] theorem Ctx.putTableByte_mode (c : Ctx) (x : Byte) : (c.putTableByte x).mode = c.mode := rfl
@[simp] theorem Ctx.putTableByte_dstBase (c : Ctx) (x : Byte) : (c.putTableByte x).dstBase = c.dstBase := rfl
@[simp] theorem Ctx.putTableByte_outSize (c : Ctx) (x : Byte) : (c.putTableByte x).outSize = c.outSize := rfl
@[simp] theorem Ctx.putTableByte_outPos (c : Ctx) (x : Byte) : (c.putTableByte x).outPos = c.outPos := rfl
@[simp] theorem Ctx.putTableByte_inCount (c : Ctx) (x : Byte) : (c.putTableByte x).inCount = c.inCount := rfl
@[simp] theorem Ctx.putTableByte_phase (c : Ctx) (x : Byte) : (c.putTableByte x).phase = c.phase := rfl
@[simp] theorem Ctx.putTableByte_cnt (c : Ctx) (x : Byte) : (c.putTableByte x).cnt = c.cnt := rfl
@[simp] theorem Ctx.putTableByte_b0 (c : Ctx) (x : Byte) : (c.putTableByte x).b0 = c.b0 := rfl
@[simp] theorem Ctx.putTableByte_b1 (c : Ctx) (x : Byte) : (c.putTableByte x).b1 = c.b1 := rfl
@[simp] theorem Ctx.putTableByte_flags (c : Ctx) (x : Byte) : (c.putTableByte x).flags = c.flags := rfl
@[simp] theorem Ctx.putTableByte_nflag (c : Ctx) (x : Byte) : (c.putTableByte x).nflag = c.nflag := rfl
@[simp] theorem Ctx.putTableByte_tpos (c : Ctx) (x : Byte) : (c.putTableByte x).tpos = c.tpos + 1 := rfl
@[simp] theorem Ctx.putTableByte_len (c : Ctx) (x : Byte) :
    (c.putTableByte x).len =
      (c.len.setIfInBounds (2 * c.tpos.toNat) (x.extractLsb' 0 4)).setIfInBounds (2 * c.tpos.toNat + 1)
      (x.extractLsb' 4 4) := rfl
@[simp] theorem Ctx.putTableByte_code (c : Ctx) (x : Byte) : (c.putTableByte x).code = c.code := rfl
@[simp] theorem Ctx.putTableByte_codeLen (c : Ctx) (x : Byte) : (c.putTableByte x).codeLen = c.codeLen := rfl
@[simp] theorem Ctx.putTableByte_nibHold (c : Ctx) (x : Byte) : (c.putTableByte x).nibHold = c.nibHold := rfl
@[simp] theorem Ctx.putTableByte_nibHave (c : Ctx) (x : Byte) : (c.putTableByte x).nibHave = c.nibHave := rfl
@[simp] theorem Ctx.putTableByte_err (c : Ctx) (x : Byte) : (c.putTableByte x).err = c.err := rfl

/-! `Run.raise`: the context's error (R329) -/

@[simp] theorem Run.raise_mem (r : Run) (e : Err) : (r.raise e).mem = r.mem := rfl
@[simp] theorem Run.raise_state (r : Run) (e : Err) : (r.raise e).ctx.state = .error := rfl
@[simp] theorem Run.raise_kind (r : Run) (e : Err) : (r.raise e).ctx.kind = r.ctx.kind := rfl
@[simp] theorem Run.raise_mode (r : Run) (e : Err) : (r.raise e).ctx.mode = r.ctx.mode := rfl
@[simp] theorem Run.raise_dstBase (r : Run) (e : Err) : (r.raise e).ctx.dstBase = r.ctx.dstBase := rfl
@[simp] theorem Run.raise_outSize (r : Run) (e : Err) : (r.raise e).ctx.outSize = r.ctx.outSize := rfl
@[simp] theorem Run.raise_outPos (r : Run) (e : Err) : (r.raise e).ctx.outPos = r.ctx.outPos := rfl
@[simp] theorem Run.raise_inCount (r : Run) (e : Err) : (r.raise e).ctx.inCount = r.ctx.inCount := rfl
@[simp] theorem Run.raise_phase (r : Run) (e : Err) : (r.raise e).ctx.phase = r.ctx.phase := rfl
@[simp] theorem Run.raise_cnt (r : Run) (e : Err) : (r.raise e).ctx.cnt = r.ctx.cnt := rfl
@[simp] theorem Run.raise_b0 (r : Run) (e : Err) : (r.raise e).ctx.b0 = r.ctx.b0 := rfl
@[simp] theorem Run.raise_b1 (r : Run) (e : Err) : (r.raise e).ctx.b1 = r.ctx.b1 := rfl
@[simp] theorem Run.raise_flags (r : Run) (e : Err) : (r.raise e).ctx.flags = r.ctx.flags := rfl
@[simp] theorem Run.raise_nflag (r : Run) (e : Err) : (r.raise e).ctx.nflag = r.ctx.nflag := rfl
@[simp] theorem Run.raise_tpos (r : Run) (e : Err) : (r.raise e).ctx.tpos = r.ctx.tpos := rfl
@[simp] theorem Run.raise_len (r : Run) (e : Err) : (r.raise e).ctx.len = r.ctx.len := rfl
@[simp] theorem Run.raise_code (r : Run) (e : Err) : (r.raise e).ctx.code = r.ctx.code := rfl
@[simp] theorem Run.raise_codeLen (r : Run) (e : Err) : (r.raise e).ctx.codeLen = r.ctx.codeLen := rfl
@[simp] theorem Run.raise_nibHold (r : Run) (e : Err) : (r.raise e).ctx.nibHold = r.ctx.nibHold := rfl
@[simp] theorem Run.raise_nibHave (r : Run) (e : Err) : (r.raise e).ctx.nibHave = r.ctx.nibHave := rfl
@[simp] theorem Run.raise_err (r : Run) (e : Err) : (r.raise e).ctx.err = e.code := rfl

/-! `Run.emit`: one output byte (R8) -/

@[simp] theorem Run.emit_mem (r : Run) (b : Byte) : (r.emit b).mem = r.mem.write r.ctx.outAddr b := rfl
@[simp] theorem Run.emit_state (r : Run) (b : Byte) : (r.emit b).ctx.state = r.ctx.state := rfl
@[simp] theorem Run.emit_kind (r : Run) (b : Byte) : (r.emit b).ctx.kind = r.ctx.kind := rfl
@[simp] theorem Run.emit_mode (r : Run) (b : Byte) : (r.emit b).ctx.mode = r.ctx.mode := rfl
@[simp] theorem Run.emit_dstBase (r : Run) (b : Byte) : (r.emit b).ctx.dstBase = r.ctx.dstBase := rfl
@[simp] theorem Run.emit_outSize (r : Run) (b : Byte) : (r.emit b).ctx.outSize = r.ctx.outSize := rfl
@[simp] theorem Run.emit_outPos (r : Run) (b : Byte) : (r.emit b).ctx.outPos = r.ctx.outPos + 1 := rfl
@[simp] theorem Run.emit_inCount (r : Run) (b : Byte) : (r.emit b).ctx.inCount = r.ctx.inCount := rfl
@[simp] theorem Run.emit_phase (r : Run) (b : Byte) : (r.emit b).ctx.phase = r.ctx.phase := rfl
@[simp] theorem Run.emit_cnt (r : Run) (b : Byte) : (r.emit b).ctx.cnt = r.ctx.cnt := rfl
@[simp] theorem Run.emit_b0 (r : Run) (b : Byte) : (r.emit b).ctx.b0 = r.ctx.b0 := rfl
@[simp] theorem Run.emit_b1 (r : Run) (b : Byte) : (r.emit b).ctx.b1 = r.ctx.b1 := rfl
@[simp] theorem Run.emit_flags (r : Run) (b : Byte) : (r.emit b).ctx.flags = r.ctx.flags := rfl
@[simp] theorem Run.emit_nflag (r : Run) (b : Byte) : (r.emit b).ctx.nflag = r.ctx.nflag := rfl
@[simp] theorem Run.emit_tpos (r : Run) (b : Byte) : (r.emit b).ctx.tpos = r.ctx.tpos := rfl
@[simp] theorem Run.emit_len (r : Run) (b : Byte) : (r.emit b).ctx.len = r.ctx.len := rfl
@[simp] theorem Run.emit_code (r : Run) (b : Byte) : (r.emit b).ctx.code = r.ctx.code := rfl
@[simp] theorem Run.emit_codeLen (r : Run) (b : Byte) : (r.emit b).ctx.codeLen = r.ctx.codeLen := rfl
@[simp] theorem Run.emit_nibHold (r : Run) (b : Byte) : (r.emit b).ctx.nibHold = r.ctx.nibHold := rfl
@[simp] theorem Run.emit_nibHave (r : Run) (b : Byte) : (r.emit b).ctx.nibHave = r.ctx.nibHave := rfl
@[simp] theorem Run.emit_err (r : Run) (b : Byte) : (r.emit b).ctx.err = r.ctx.err := rfl

/-! `Run.emitMany`: equal output bytes (R174) -/

@[simp] theorem Run.emitMany_mem (r : Run) (x : Byte) (n : Nat) :
    (r.emitMany x n).mem = r.mem.fill r.ctx.outAddr x n := rfl
@[simp] theorem Run.emitMany_state (r : Run) (x : Byte) (n : Nat) :
    (r.emitMany x n).ctx.state = r.ctx.state := rfl
@[simp] theorem Run.emitMany_kind (r : Run) (x : Byte) (n : Nat) :
    (r.emitMany x n).ctx.kind = r.ctx.kind := rfl
@[simp] theorem Run.emitMany_mode (r : Run) (x : Byte) (n : Nat) :
    (r.emitMany x n).ctx.mode = r.ctx.mode := rfl
@[simp] theorem Run.emitMany_dstBase (r : Run) (x : Byte) (n : Nat) :
    (r.emitMany x n).ctx.dstBase = r.ctx.dstBase := rfl
@[simp] theorem Run.emitMany_outSize (r : Run) (x : Byte) (n : Nat) :
    (r.emitMany x n).ctx.outSize = r.ctx.outSize := rfl
@[simp] theorem Run.emitMany_outPos (r : Run) (x : Byte) (n : Nat) :
    (r.emitMany x n).ctx.outPos = r.ctx.outPos + BitVec.ofNat 32 n := rfl
@[simp] theorem Run.emitMany_inCount (r : Run) (x : Byte) (n : Nat) :
    (r.emitMany x n).ctx.inCount = r.ctx.inCount := rfl
@[simp] theorem Run.emitMany_phase (r : Run) (x : Byte) (n : Nat) :
    (r.emitMany x n).ctx.phase = r.ctx.phase := rfl
@[simp] theorem Run.emitMany_cnt (r : Run) (x : Byte) (n : Nat) : (r.emitMany x n).ctx.cnt = r.ctx.cnt := rfl
@[simp] theorem Run.emitMany_b0 (r : Run) (x : Byte) (n : Nat) : (r.emitMany x n).ctx.b0 = r.ctx.b0 := rfl
@[simp] theorem Run.emitMany_b1 (r : Run) (x : Byte) (n : Nat) : (r.emitMany x n).ctx.b1 = r.ctx.b1 := rfl
@[simp] theorem Run.emitMany_flags (r : Run) (x : Byte) (n : Nat) :
    (r.emitMany x n).ctx.flags = r.ctx.flags := rfl
@[simp] theorem Run.emitMany_nflag (r : Run) (x : Byte) (n : Nat) :
    (r.emitMany x n).ctx.nflag = r.ctx.nflag := rfl
@[simp] theorem Run.emitMany_tpos (r : Run) (x : Byte) (n : Nat) :
    (r.emitMany x n).ctx.tpos = r.ctx.tpos := rfl
@[simp] theorem Run.emitMany_len (r : Run) (x : Byte) (n : Nat) : (r.emitMany x n).ctx.len = r.ctx.len := rfl
@[simp] theorem Run.emitMany_code (r : Run) (x : Byte) (n : Nat) :
    (r.emitMany x n).ctx.code = r.ctx.code := rfl
@[simp] theorem Run.emitMany_codeLen (r : Run) (x : Byte) (n : Nat) :
    (r.emitMany x n).ctx.codeLen = r.ctx.codeLen := rfl
@[simp] theorem Run.emitMany_nibHold (r : Run) (x : Byte) (n : Nat) :
    (r.emitMany x n).ctx.nibHold = r.ctx.nibHold := rfl
@[simp] theorem Run.emitMany_nibHave (r : Run) (x : Byte) (n : Nat) :
    (r.emitMany x n).ctx.nibHave = r.ctx.nibHave := rfl
@[simp] theorem Run.emitMany_err (r : Run) (x : Byte) (n : Nat) : (r.emitMany x n).ctx.err = r.ctx.err := rfl

/-! `Ctx.clearCode`: no code is being read (R293). -/

@[simp] theorem Ctx.clearCode_state (c : Ctx) : c.clearCode.state = c.state := rfl
@[simp] theorem Ctx.clearCode_kind (c : Ctx) : c.clearCode.kind = c.kind := rfl
@[simp] theorem Ctx.clearCode_mode (c : Ctx) : c.clearCode.mode = c.mode := rfl
@[simp] theorem Ctx.clearCode_dstBase (c : Ctx) : c.clearCode.dstBase = c.dstBase := rfl
@[simp] theorem Ctx.clearCode_outSize (c : Ctx) : c.clearCode.outSize = c.outSize := rfl
@[simp] theorem Ctx.clearCode_outPos (c : Ctx) : c.clearCode.outPos = c.outPos := rfl
@[simp] theorem Ctx.clearCode_inCount (c : Ctx) : c.clearCode.inCount = c.inCount := rfl
@[simp] theorem Ctx.clearCode_phase (c : Ctx) : c.clearCode.phase = c.phase := rfl
@[simp] theorem Ctx.clearCode_cnt (c : Ctx) : c.clearCode.cnt = c.cnt := rfl
@[simp] theorem Ctx.clearCode_b0 (c : Ctx) : c.clearCode.b0 = c.b0 := rfl
@[simp] theorem Ctx.clearCode_b1 (c : Ctx) : c.clearCode.b1 = c.b1 := rfl
@[simp] theorem Ctx.clearCode_flags (c : Ctx) : c.clearCode.flags = c.flags := rfl
@[simp] theorem Ctx.clearCode_nflag (c : Ctx) : c.clearCode.nflag = c.nflag := rfl
@[simp] theorem Ctx.clearCode_tpos (c : Ctx) : c.clearCode.tpos = c.tpos := rfl
@[simp] theorem Ctx.clearCode_len (c : Ctx) : c.clearCode.len = c.len := rfl
@[simp] theorem Ctx.clearCode_code (c : Ctx) : c.clearCode.code = 0 := rfl
@[simp] theorem Ctx.clearCode_codeLen (c : Ctx) : c.clearCode.codeLen = 0 := rfl
@[simp] theorem Ctx.clearCode_nibHold (c : Ctx) : c.clearCode.nibHold = c.nibHold := rfl
@[simp] theorem Ctx.clearCode_nibHave (c : Ctx) : c.clearCode.nibHave = c.nibHave := rfl
@[simp] theorem Ctx.clearCode_err (c : Ctx) : c.clearCode.err = c.err := rfl

/-! `Run.count`: one payload byte more (R330). -/

@[simp] theorem Run.count_mem (r : Run) : r.count.mem = r.mem := rfl
@[simp] theorem Run.count_state (r : Run) : r.count.ctx.state = r.ctx.state := rfl
@[simp] theorem Run.count_kind (r : Run) : r.count.ctx.kind = r.ctx.kind := rfl
@[simp] theorem Run.count_mode (r : Run) : r.count.ctx.mode = r.ctx.mode := rfl
@[simp] theorem Run.count_dstBase (r : Run) : r.count.ctx.dstBase = r.ctx.dstBase := rfl
@[simp] theorem Run.count_outSize (r : Run) : r.count.ctx.outSize = r.ctx.outSize := rfl
@[simp] theorem Run.count_outPos (r : Run) : r.count.ctx.outPos = r.ctx.outPos := rfl
@[simp] theorem Run.count_inCount (r : Run) : r.count.ctx.inCount = r.ctx.inCount + 1 := rfl
@[simp] theorem Run.count_phase (r : Run) : r.count.ctx.phase = r.ctx.phase := rfl
@[simp] theorem Run.count_cnt (r : Run) : r.count.ctx.cnt = r.ctx.cnt := rfl
@[simp] theorem Run.count_b0 (r : Run) : r.count.ctx.b0 = r.ctx.b0 := rfl
@[simp] theorem Run.count_b1 (r : Run) : r.count.ctx.b1 = r.ctx.b1 := rfl
@[simp] theorem Run.count_flags (r : Run) : r.count.ctx.flags = r.ctx.flags := rfl
@[simp] theorem Run.count_nflag (r : Run) : r.count.ctx.nflag = r.ctx.nflag := rfl
@[simp] theorem Run.count_tpos (r : Run) : r.count.ctx.tpos = r.ctx.tpos := rfl
@[simp] theorem Run.count_len (r : Run) : r.count.ctx.len = r.ctx.len := rfl
@[simp] theorem Run.count_code (r : Run) : r.count.ctx.code = r.ctx.code := rfl
@[simp] theorem Run.count_codeLen (r : Run) : r.count.ctx.codeLen = r.ctx.codeLen := rfl
@[simp] theorem Run.count_nibHold (r : Run) : r.count.ctx.nibHold = r.ctx.nibHold := rfl
@[simp] theorem Run.count_nibHave (r : Run) : r.count.ctx.nibHave = r.ctx.nibHave := rfl
@[simp] theorem Run.count_err (r : Run) : r.count.ctx.err = r.ctx.err := rfl

end Sys2Proof.Machine
end

