-- ==== Sys2Proof/Laws/Decoder.lean ====
section
/-!
SUPPORT. What one decoder step can do: it keeps the invariant of a context, it writes only the output it adds, and it
never moves the output back.
-/

namespace Sys2Proof.Machine

/-- What a step may do to a run: the identity of the context stays, the output grows, memory changes only where the
output grew. -/
structure Run.Advance (r r' : Run) : Prop where
  kind : r'.ctx.kind = r.ctx.kind
  mode : r'.ctx.mode = r.ctx.mode
  dstBase : r'.ctx.dstBase = r.ctx.dstBase
  outSize : r'.ctx.outSize = r.ctx.outSize
  outPos : r.ctx.outPos.toNat ≤ r'.ctx.outPos.toNat
  mem : r.mem.SameOutside r'.mem r.ctx.outAddr (r'.ctx.outPos.toNat - r.ctx.outPos.toNat)

/-- A run of an `ACTIVE` context that satisfies the invariant. -/
structure Run.Live (r : Run) : Prop where
  mem : r.mem.wf
  state : r.ctx.state = .active
  region : r.ctx.dstBase.toNat + r.ctx.outSize.toNat ≤ 2 ^ 32
  room : r.ctx.outPos.toNat < r.ctx.outSize.toNat
  typed : r.ctx.typed
  carried : r.ctx.carried
  err : r.ctx.err = 0
  nib : r.ctx.nibHave = true → r.ctx.mode = 4 ∧ r.ctx.kind = .huff

/-- What a step leaves, before `FINISHED` is detected. -/
structure Run.Post (r : Run) : Prop where
  mem : r.mem.wf
  region : r.ctx.dstBase.toNat + r.ctx.outSize.toNat ≤ 2 ^ 32
  fits : r.ctx.outPos.toNat ≤ r.ctx.outSize.toNat
  typed : r.ctx.typed
  outcome : (r.ctx.state = .error ∧ r.ctx.err ∈ payloadCodes ∧ r.ctx.outPos.toNat < r.ctx.outSize.toNat) ∨
    (r.ctx.state = .active ∧ r.ctx.err = 0 ∧ r.ctx.carried)
  nib : r.ctx.nibHave = true → r.ctx.mode = 4 ∧ r.ctx.kind = .huff ∧ r.ctx.outPos.toNat < r.ctx.outSize.toNat

theorem Memory.SameOutside.refl (m : Memory) (a n : Nat) : m.SameOutside m a n := fun _ _ => rfl

theorem Run.Advance.refl (r : Run) : r.Advance r :=
  ⟨rfl, rfl, rfl, rfl, le_refl _, Memory.SameOutside.refl _ _ _⟩

theorem Run.Advance.trans {a b c : Run} (h : a.Advance b) (k : b.Advance c) : a.Advance c where
  kind := k.kind.trans h.kind
  mode := k.mode.trans h.mode
  dstBase := k.dstBase.trans h.dstBase
  outSize := k.outSize.trans h.outSize
  outPos := h.outPos.trans k.outPos
  mem := by
    intro x hx
    have e1 := h.outPos
    have e2 := k.outPos
    have e3 : b.ctx.outAddr = a.ctx.outAddr + (b.ctx.outPos.toNat - a.ctx.outPos.toNat) := by
      simp only [Ctx.outAddr, h.dstBase]; omega
    rw [k.mem x (by omega), h.mem x (by omega)]

/-- A run whose memory and output stay where they are. -/
theorem Run.Advance.of_same {r r' : Run} (h1 : r'.ctx.kind = r.ctx.kind) (h2 : r'.ctx.mode = r.ctx.mode)
    (h3 : r'.ctx.dstBase = r.ctx.dstBase) (h4 : r'.ctx.outSize = r.ctx.outSize) (h5 : r'.ctx.outPos = r.ctx.outPos)
    (h6 : r'.mem = r.mem) : r.Advance r' :=
  ⟨h1, h2, h3, h4, by rw [h5], by rw [h6]; exact Memory.SameOutside.refl _ _ _⟩

/-! ### The phases -/

theorem Ctx.typed_hfTable {c : Ctx} (h : c.phase = .hfTable) :
    c.typed ↔ c.kind = .huff ∧ (c.mode = 4 ∨ c.mode = 8) := by simp only [Ctx.typed, h]

theorem Ctx.typed_hfData {c : Ctx} (h : c.phase = .hfData) :
    c.typed ↔ c.kind = .huff ∧ (c.mode = 4 ∨ c.mode = 8) := by simp only [Ctx.typed, h]

theorem Ctx.carried_hfTable {c : Ctx} (h : c.phase = .hfTable) :
    c.carried ↔ c.tpos.toNat < c.symbols / 2 ∧ c.code = 0 ∧ c.codeLen = 0 ∧ c.nibHave = false := by
  simp only [Ctx.carried, h]

theorem Ctx.carried_hfData {c : Ctx} (h : c.phase = .hfData) :
    c.carried ↔ c.tpos.toNat = c.symbols / 2 ∧ c.codeLen.toNat ≤ 14 ∧ c.code.toNat < 2 ^ c.codeLen.toNat ∧
      kraftOK c.lens = true := by
  simp only [Ctx.carried, h]

/-- The alphabet is the mode's. -/
theorem Ctx.symbols_congr {c d : Ctx} (h : c.mode = d.mode) : c.symbols = d.symbols := by
  simp only [Ctx.symbols, h]

/-- The lengths are the mode's alphabet of `len`. -/
theorem Ctx.lens_congr {c d : Ctx} (h : c.mode = d.mode) (hl : c.len = d.len) : c.lens = d.lens := by
  simp only [Ctx.lens, Ctx.symbols_congr h, hl]

/-! ### The pieces of a step -/

theorem Ctx.wouldOverrun_iff (c : Ctx) (n : Nat) :
    c.wouldOverrun n = true ↔ c.outSize.toNat < c.outPos.toNat + n := by simp [Ctx.wouldOverrun]

theorem toNat_add_ofNat (w : Word) (n : Nat) (s : Word) (h : w.toNat + n ≤ s.toNat) :
    (w + BitVec.ofNat 32 n).toNat = w.toNat + n := by
  have := s.isLt
  simp; omega

/-- `raise` in a step of a live run. -/
theorem Run.Live.raise_post {r : Run} (h : r.Live) (e : Err) (he : e.code ∈ payloadCodes) : (r.raise e).Post where
  mem := h.mem
  region := h.region
  fits := h.room.le
  typed := h.typed
  outcome := .inl ⟨rfl, he, h.room⟩
  nib := fun hn => ⟨(h.nib hn).1, (h.nib hn).2, h.room⟩

theorem Run.raise_advance (r : Run) (e : Err) : r.Advance (r.raise e) := .of_same rfl rfl rfl rfl rfl rfl

/-- One output byte where there is room. -/
theorem Run.emit_advance (r : Run) (b : Byte) (h : r.ctx.outPos.toNat < r.ctx.outSize.toNat) :
    r.Advance (r.emit b) where
  kind := rfl
  mode := rfl
  dstBase := rfl
  outSize := rfl
  outPos := by
    have := toNat_add_ofNat r.ctx.outPos 1 r.ctx.outSize h
    simp only [Run.emit_outPos]; change _ ≤ (r.ctx.outPos + BitVec.ofNat 32 1).toNat; omega
  mem := by
    intro x hx
    have := toNat_add_ofNat r.ctx.outPos 1 r.ctx.outSize h
    have e : (r.emit b).ctx.outPos.toNat = r.ctx.outPos.toNat + 1 := this
    rw [e] at hx
    simp only [Run.emit_mem, Memory.read_write]
    rw [if_neg (by omega)]

theorem Run.emit_outPos_toNat (r : Run) (b : Byte) (h : r.ctx.outPos.toNat < r.ctx.outSize.toNat) :
    (r.emit b).ctx.outPos.toNat = r.ctx.outPos.toNat + 1 := toNat_add_ofNat r.ctx.outPos 1 r.ctx.outSize h

theorem Run.emit_wf (r : Run) (b : Byte) (hm : r.mem.wf) (h : r.ctx.outPos.toNat < r.ctx.outSize.toNat)
    (hr : r.ctx.dstBase.toNat + r.ctx.outSize.toNat ≤ 2 ^ 32) : (r.emit b).mem.wf :=
  Memory.write_wf _ _ _ (by simp only [Ctx.outAddr]; omega) hm

/-- What `copy` can do (R222): one of the two errors, or the copy. -/
theorem Run.copy_cases (r : Run) (off len : Nat) (after : Ctx → Ctx) :
    (r.ctx.outPos.toNat < off ∧ r.copy off len after = r.raise .badOffset) ∨
    (off ≤ r.ctx.outPos.toNat ∧ r.ctx.outSize.toNat < r.ctx.outPos.toNat + len ∧
      r.copy off len after = r.raise .overrun) ∨
    (off ≤ r.ctx.outPos.toNat ∧ r.ctx.outPos.toNat + len ≤ r.ctx.outSize.toNat ∧
      r.copy off len after = ⟨r.mem.copyUp r.ctx.outAddr off len,
        after { r.ctx with outPos := r.ctx.outPos + BitVec.ofNat 32 len }⟩) := by
  unfold Run.copy
  split
  · exact .inl ⟨by assumption, rfl⟩
  · split
    · rename_i h; rw [Ctx.wouldOverrun_iff] at h
      exact .inr (.inl ⟨by omega, h, rfl⟩)
    · rename_i h; rw [Ctx.wouldOverrun_iff] at h
      exact .inr (.inr ⟨by omega, by omega, rfl⟩)

/-- A copy whose token leaves the identity of the context and its output alone advances the run. -/
theorem Run.copy_advance (r : Run) (off len : Nat) (after : Ctx → Ctx)
    (h1 : ∀ c, (after c).kind = c.kind) (h2 : ∀ c, (after c).mode = c.mode) (h3 : ∀ c, (after c).dstBase = c.dstBase)
    (h4 : ∀ c, (after c).outSize = c.outSize) (h5 : ∀ c, (after c).outPos = c.outPos) :
    r.Advance (r.copy off len after) := by
  rcases r.copy_cases off len after with ⟨_, e⟩ | ⟨_, _, e⟩ | ⟨_, hl, e⟩
  · rw [e]; exact r.raise_advance _
  · rw [e]; exact r.raise_advance _
  · rw [e]
    have hp := toNat_add_ofNat r.ctx.outPos len r.ctx.outSize hl
    exact ⟨h1 _, h2 _, h3 _, h4 _, by rw [h5]; simp only [hp]; omega, by
      rw [h5]; simp only [hp]
      have : r.ctx.outPos.toNat + len - r.ctx.outPos.toNat = len := by omega
      rw [this]; exact Memory.copyUp_sameOutside _ _ _ _⟩

theorem Run.copy_post (r : Run) (h : r.Live) (off len : Nat) (after : Ctx → Ctx)
    (h3 : ∀ c, (after c).dstBase = c.dstBase) (h4 : ∀ c, (after c).outSize = c.outSize)
    (h5 : ∀ c, (after c).outPos = c.outPos) (h6 : ∀ c, (after c).state = c.state) (h7 : ∀ c, (after c).err = c.err)
    (h8 : ∀ c, (after c).nibHave = c.nibHave) (ht : ∀ p, (after { r.ctx with outPos := p }).typed)
    (hc : ∀ p, (after { r.ctx with outPos := p }).carried) (hn : r.ctx.nibHave = false) :
    (r.copy off len after).Post := by
  rcases r.copy_cases off len after with ⟨_, e⟩ | ⟨_, _, e⟩ | ⟨_, hl, e⟩
  · rw [e]; exact h.raise_post _ (by decide)
  · rw [e]; exact h.raise_post _ (by decide)
  · rw [e]
    have hp := toNat_add_ofNat r.ctx.outPos len r.ctx.outSize hl
    have hr := h.region
    exact {
      mem := Memory.copyUp_wf _ _ _ _ (by simp only [Ctx.outAddr]; omega) h.mem
      region := by simp only [h3, h4]; exact h.region
      fits := by simp only [h4, h5, hp]; exact hl
      typed := ht _
      outcome := .inr ⟨by simp only [h6]; exact h.state, by simp only [h7]; exact h.err, hc _⟩
      nib := by simp only [h8, hn]; exact fun h => absurd h (by simp) }

/-- The mode and the pending nibble: only a Huffman context holds one. -/
theorem Run.Live.noNib {r : Run} (h : r.Live) (hk : r.ctx.kind ≠ .huff) : r.ctx.nibHave = false := by
  cases hn : r.ctx.nibHave with
  | false => rfl
  | true => exact absurd (h.nib hn).2 hk

/-! ### The step rules -/

theorem rlCtrlLits_advance (n : Nat) (r : Run) : r.Advance (rlCtrlLits n r) := by
  unfold rlCtrlLits; split
  · exact r.raise_advance _
  · exact .of_same rfl rfl rfl rfl rfl rfl

theorem rlCtrlRun_advance (n : Nat) (r : Run) : r.Advance (rlCtrlRun n r) := by
  unfold rlCtrlRun; split
  · exact r.raise_advance _
  · exact .of_same rfl rfl rfl rfl rfl rfl

theorem flOpLits_advance (n : Nat) (r : Run) : r.Advance (flOpLits n r) := by
  unfold flOpLits; split
  · exact r.raise_advance _
  · exact .of_same rfl rfl rfl rfl rfl rfl

/-- A count in range is kept by the 9-bit field. -/
theorem cnt_toNat (n : Nat) (h : n < 512) : (BitVec.ofNat 9 n).toNat = n := by simp; omega

theorem rlCtrlLits_post (n : Nat) (r : Run) (h : r.Live) (hp : r.ctx.phase = .rlCtrl) (h1 : 1 ≤ n) (h2 : n ≤ 128) :
    (rlCtrlLits n r).Post := by
  have ht := h.typed
  simp only [Ctx.typed, hp] at ht
  unfold rlCtrlLits
  split
  · exact h.raise_post _ (by decide)
  · rename_i hw
    rw [Ctx.wouldOverrun_iff] at hw
    have hn := h.noNib (by rw [ht.1]; decide)
    exact {
      mem := h.mem, region := h.region, fits := h.room.le
      typed := ht
      outcome := .inr ⟨h.state, h.err, by
        have hcn := cnt_toNat n (by omega)
        exact ⟨by simp only []; omega, by simp only []; omega, by simp only []; omega⟩⟩
      nib := fun hh => absurd hh (by simp [hn]) }

theorem rlCtrlRun_post (n : Nat) (r : Run) (h : r.Live) (hp : r.ctx.phase = .rlCtrl) (h1 : 3 ≤ n) (h2 : n ≤ 130) :
    (rlCtrlRun n r).Post := by
  have ht := h.typed
  simp only [Ctx.typed, hp] at ht
  unfold rlCtrlRun
  split
  · exact h.raise_post _ (by decide)
  · rename_i hw
    rw [Ctx.wouldOverrun_iff] at hw
    have hn := h.noNib (by rw [ht.1]; decide)
    exact {
      mem := h.mem, region := h.region, fits := h.room.le
      typed := ht
      outcome := .inr ⟨h.state, h.err, by
        have hcn := cnt_toNat n (by omega)
        exact ⟨by simp only []; omega, by simp only []; omega, by simp only []; omega⟩⟩
      nib := fun hh => absurd hh (by simp [hn]) }

theorem flOpLits_post (n : Nat) (r : Run) (h : r.Live) (hp : r.ctx.phase = .flOp) (h1 : 1 ≤ n) (h2 : n ≤ 32) :
    (flOpLits n r).Post := by
  have ht := h.typed
  simp only [Ctx.typed, hp] at ht
  unfold flOpLits
  split
  · exact h.raise_post _ (by decide)
  · rename_i hw
    rw [Ctx.wouldOverrun_iff] at hw
    have hn := h.noNib (by rw [ht.1]; decide)
    exact {
      mem := h.mem, region := h.region, fits := h.room.le
      typed := ht
      outcome := .inr ⟨h.state, h.err, by
        have hcn := cnt_toNat n (by omega)
        exact ⟨by simp only []; omega, by simp only []; omega, by simp only []; omega⟩⟩
      nib := fun hh => absurd hh (by simp [hn]) }

/-- A count that is not 0 counts down by one. -/
theorem cnt_pred (c : BitVec 9) (h : 1 ≤ c.toNat) : (c - 1).toNat = c.toNat - 1 := by
  rw [BitVec.toNat_sub]; simp; omega

theorem rlLit_advance (x : Byte) (r : Run) (h : r.ctx.outPos.toNat < r.ctx.outSize.toNat) :
    r.Advance (rlLit x r) :=
  (r.emit_advance x h).trans (.of_same rfl rfl rfl rfl rfl rfl)

theorem flLit_advance (x : Byte) (r : Run) (h : r.ctx.outPos.toNat < r.ctx.outSize.toNat) :
    r.Advance (flLit x r) :=
  (r.emit_advance x h).trans (.of_same rfl rfl rfl rfl rfl rfl)

theorem rlLit_post (x : Byte) (r : Run) (h : r.Live) (hp : r.ctx.phase = .rlLit) : (rlLit x r).Post := by
  have ht := h.typed
  have hc := h.carried
  simp only [Ctx.typed, hp] at ht
  simp only [Ctx.carried, hp] at hc
  have hn := h.noNib (by rw [ht.1]; decide)
  have hpos := r.emit_outPos_toNat x h.room
  have hcnt := cnt_pred r.ctx.cnt hc.1
  have hroom := h.room
  have hph : (rlLit x r).ctx.phase = if r.ctx.cnt - 1 = 0 then .rlCtrl else .rlLit := by
    change (if r.ctx.cnt - 1 = 0 then .rlCtrl else r.ctx.phase) = _; rw [hp]
  refine {
    mem := r.emit_wf x h.mem h.room h.region, region := h.region
    fits := by simp only [rlLit, Ctx.countDown_outPos, Ctx.countDown_outSize, hpos, Run.emit_outSize]; omega
    typed := ?_
    outcome := .inr ⟨h.state, h.err, ?_⟩
    nib := fun hh => absurd hh (by simp [rlLit, hn]) }
  · by_cases hz : r.ctx.cnt - 1 = 0
    · rw [if_pos hz] at hph; simp only [Ctx.typed, hph]; exact ht
    · rw [if_neg hz] at hph; simp only [Ctx.typed, hph]; exact ht
  · by_cases hz : r.ctx.cnt - 1 = 0
    · rw [if_pos hz] at hph; simp only [Ctx.carried, hph]
    · have : (r.ctx.cnt - 1).toNat ≠ 0 := fun h0 => hz (BitVec.eq_of_toNat_eq (by simpa using h0))
      rw [if_neg hz] at hph
      simp only [Ctx.carried, hph]
      simp only [rlLit, Run.emit_cnt,
        Ctx.countDown_cnt, Ctx.countDown_outPos, hpos, Ctx.countDown_outSize, Run.emit_outSize]
      omega

theorem flLit_post (x : Byte) (r : Run) (h : r.Live) (hp : r.ctx.phase = .flLit) : (flLit x r).Post := by
  have ht := h.typed
  have hc := h.carried
  simp only [Ctx.typed, hp] at ht
  simp only [Ctx.carried, hp] at hc
  have hn := h.noNib (by rw [ht.1]; decide)
  have hpos := r.emit_outPos_toNat x h.room
  have hcnt := cnt_pred r.ctx.cnt hc.1
  have hroom := h.room
  have hph : (flLit x r).ctx.phase = if r.ctx.cnt - 1 = 0 then .flOp else .flLit := by
    change (if r.ctx.cnt - 1 = 0 then .flOp else r.ctx.phase) = _; rw [hp]
  refine {
    mem := r.emit_wf x h.mem h.room h.region, region := h.region
    fits := by simp only [flLit, Ctx.countDown_outPos, Ctx.countDown_outSize, hpos, Run.emit_outSize]; omega
    typed := ?_
    outcome := .inr ⟨h.state, h.err, ?_⟩
    nib := fun hh => absurd hh (by simp [flLit, hn]) }
  · by_cases hz : r.ctx.cnt - 1 = 0
    · rw [if_pos hz] at hph; simp only [Ctx.typed, hph]; exact ht
    · rw [if_neg hz] at hph; simp only [Ctx.typed, hph]; exact ht
  · by_cases hz : r.ctx.cnt - 1 = 0
    · rw [if_pos hz] at hph; simp only [Ctx.carried, hph]
    · have : (r.ctx.cnt - 1).toNat ≠ 0 := fun h0 => hz (BitVec.eq_of_toNat_eq (by simpa using h0))
      rw [if_neg hz] at hph
      simp only [Ctx.carried, hph]
      simp only [flLit, Run.emit_cnt,
        Ctx.countDown_cnt, Ctx.countDown_outPos, hpos, Ctx.countDown_outSize, Run.emit_outSize]
      omega

theorem rlVal_advance (x : Byte) (r : Run) (h : r.ctx.outPos.toNat + r.ctx.cnt.toNat ≤ r.ctx.outSize.toNat) :
    r.Advance (rlVal x r) := by
  have hp := toNat_add_ofNat r.ctx.outPos r.ctx.cnt.toNat r.ctx.outSize h
  have e : (rlVal x r).ctx.outPos.toNat = r.ctx.outPos.toNat + r.ctx.cnt.toNat := hp
  exact ⟨rfl, rfl, rfl, rfl, by omega, by
    intro y hy
    rw [e] at hy
    change (r.mem.fill r.ctx.outAddr x r.ctx.cnt.toNat).read y = _
    rw [Memory.read_fill, if_neg (by omega)]⟩

theorem rlVal_post (x : Byte) (r : Run) (h : r.Live) (hp : r.ctx.phase = .rlVal) : (rlVal x r).Post := by
  have ht := h.typed
  have hc := h.carried
  simp only [Ctx.typed, hp] at ht
  simp only [Ctx.carried, hp] at hc
  have hn := h.noNib (by rw [ht.1]; decide)
  have e : (rlVal x r).ctx.outPos.toNat = r.ctx.outPos.toNat + r.ctx.cnt.toNat :=
    toNat_add_ofNat r.ctx.outPos r.ctx.cnt.toNat r.ctx.outSize hc.2.2
  have hr := h.region
  exact {
    mem := Memory.fill_wf _ _ _ _ (by simp only [Ctx.outAddr]; omega) h.mem, region := h.region
    fits := by rw [e]; exact hc.2.2
    typed := ht
    outcome := .inr ⟨h.state, h.err, trivial⟩
    nib := fun hh => absurd hh (by simp [rlVal, hn]) }

theorem lzTokenLit_advance (x : Byte) (r : Run) (h : r.ctx.outPos.toNat < r.ctx.outSize.toNat) :
    r.Advance (lzTokenLit x r) :=
  (r.emit_advance x h).trans (.of_same rfl rfl rfl rfl rfl rfl)

theorem nflag_pred (c : BitVec 4) (h : 1 ≤ c.toNat) : (c - 1).toNat = c.toNat - 1 := by
  rw [BitVec.toNat_sub]; simp; omega

theorem lzFlag_post (x : Byte) (r : Run) (h : r.Live) (hp : r.ctx.phase = .lzFlag) : (lzFlag x r).Post := by
  have ht := h.typed
  simp only [Ctx.typed, hp] at ht
  have hn := h.noNib (by rw [ht.1]; decide)
  exact {
    mem := h.mem, region := h.region, fits := h.room.le
    typed := ht
    outcome := .inr ⟨h.state, h.err, by change 1 ≤ 8; decide, by change 8 ≤ 8; decide⟩
    nib := fun hh => absurd hh (by simp [lzFlag, hn]) }

/-- The phase after a token has its carry-over fields in range. -/
theorem Ctx.nextTok_carried (c : Ctx) (h : c.nflag.toNat ≤ 8) : c.nextTok.carried := by
  have hph : c.nextTok.phase = if c.nflag = 0 then .lzFlag else .lzToken := rfl
  by_cases hz : c.nflag = 0
  · rw [if_pos hz] at hph; simp only [Ctx.carried, hph]
  · have : c.nflag.toNat ≠ 0 := fun h0 => hz (BitVec.eq_of_toNat_eq (by simpa using h0))
    rw [if_neg hz] at hph
    simp only [Ctx.carried, hph, Ctx.nextTok_nflag]; omega

theorem Ctx.nextTok_typed (c : Ctx) (h : c.kind = .lz) (hm : c.mode = 0 ∨ c.mode = 1) : c.nextTok.typed := by
  have hph : c.nextTok.phase = if c.nflag = 0 then .lzFlag else .lzToken := rfl
  by_cases hz : c.nflag = 0
  · rw [if_pos hz] at hph; simp only [Ctx.typed, hph]; exact ⟨h, hm⟩
  · rw [if_neg hz] at hph; simp only [Ctx.typed, hph]; exact ⟨h, hm⟩

theorem lzTokenLit_post (x : Byte) (r : Run) (h : r.Live) (hp : r.ctx.phase = .lzToken) : (lzTokenLit x r).Post := by
  have ht := h.typed
  have hc := h.carried
  simp only [Ctx.typed, hp] at ht
  simp only [Ctx.carried, hp] at hc
  have hn := h.noNib (by rw [ht.1]; decide)
  have hpos := r.emit_outPos_toNat x h.room
  have hroom := h.room
  have hf := nflag_pred r.ctx.nflag hc.1
  exact {
    mem := r.emit_wf x h.mem h.room h.region, region := h.region
    fits := by
      change (r.emit x).ctx.outPos.toNat ≤ r.ctx.outSize.toNat
      omega
    typed := Ctx.nextTok_typed _ ht.1 ht.2
    outcome := .inr ⟨h.state, h.err, Ctx.nextTok_carried _ (by
      simp only [Ctx.takeFlag_nflag, Run.emit_nflag, hf]; omega)⟩
    nib := fun hh => absurd hh (by simp [lzTokenLit, hn]) }

theorem lzTokenRef_post (x : Byte) (r : Run) (h : r.Live) (hp : r.ctx.phase = .lzToken) : (lzTokenRef x r).Post := by
  have ht := h.typed
  have hc := h.carried
  simp only [Ctx.typed, hp] at ht
  simp only [Ctx.carried, hp] at hc
  have hn := h.noNib (by rw [ht.1]; decide)
  have hf := nflag_pred r.ctx.nflag hc.1
  exact {
    mem := h.mem, region := h.region, fits := h.room.le
    typed := ht
    outcome := .inr ⟨h.state, h.err, by
      change (r.ctx.nflag - 1).toNat ≤ 7; omega⟩
    nib := fun hh => absurd hh (by simp [lzTokenRef, hn]) }

theorem lzRef1Plain_post (x : Byte) (r : Run) (h : r.Live) (hp : r.ctx.phase = .lzRef1) : (lzRef1Plain x r).Post := by
  have ht := h.typed
  have hc := h.carried
  simp only [Ctx.typed, hp] at ht
  simp only [Ctx.carried, hp] at hc
  have hn := h.noNib (by rw [ht.1]; decide)
  exact r.copy_post h _ _ _ (fun _ => rfl) (fun _ => rfl) (fun _ => rfl) (fun _ => rfl) (fun _ => rfl) (fun _ => rfl)
    (fun _ => Ctx.nextTok_typed _ ht.1 ht.2) (fun _ => Ctx.nextTok_carried _ (by simp only []; omega)) hn

theorem lzRef1Ext_post (x : Byte) (r : Run) (h : r.Live) (hp : r.ctx.phase = .lzRef1) (hm : r.ctx.mode = 1) :
    (lzRef1Ext x r).Post := by
  have ht := h.typed
  have hc := h.carried
  simp only [Ctx.typed, hp] at ht
  simp only [Ctx.carried, hp] at hc
  have hn := h.noNib (by rw [ht.1]; decide)
  exact {
    mem := h.mem, region := h.region, fits := h.room.le
    typed := ⟨ht.1, hm⟩
    outcome := .inr ⟨h.state, h.err, hc⟩
    nib := fun hh => absurd hh (by simp [lzRef1Ext, hn]) }

theorem lzRef2_post (x : Byte) (r : Run) (h : r.Live) (hp : r.ctx.phase = .lzRef2) : (lzRef2 x r).Post := by
  have ht := h.typed
  have hc := h.carried
  simp only [Ctx.typed, hp] at ht
  simp only [Ctx.carried, hp] at hc
  have hn := h.noNib (by rw [ht.1]; decide)
  exact r.copy_post h _ _ _ (fun _ => rfl) (fun _ => rfl) (fun _ => rfl) (fun _ => rfl) (fun _ => rfl) (fun _ => rfl)
    (fun _ => Ctx.nextTok_typed _ ht.1 (.inr ht.2)) (fun _ => Ctx.nextTok_carried _ (by simp only []; omega)) hn

/-- The kind bits of an operation byte are a number below 8. -/
theorem fastKind_short (x : Byte) (h0 : fastKind x ≠ 0) (h7 : fastKind x ≠ 7) :
    1 ≤ (fastKind x).toNat ∧ (fastKind x).toNat ≤ 6 := by
  have h1 := (fastKind x).isLt
  have h2 : (fastKind x).toNat ≠ 0 := fun h => h0 (BitVec.eq_of_toNat_eq (by simpa using h))
  have h3 : (fastKind x).toNat ≠ 7 := fun h => h7 (BitVec.eq_of_toNat_eq (by simpa using h))
  omega

theorem flOpShort_post (x : Byte) (r : Run) (h : r.Live) (hp : r.ctx.phase = .flOp) (h0 : 1 ≤ (fastKind x).toNat) :
    (flOpShort x r).Post := by
  have ht := h.typed
  simp only [Ctx.typed, hp] at ht
  have hn := h.noNib (by rw [ht.1]; decide)
  have h7 := (fastKind x).isLt
  exact {
    mem := h.mem, region := h.region, fits := h.room.le
    typed := ht
    outcome := .inr ⟨h.state, h.err, by
      have hcn := cnt_toNat ((fastKind x).toNat + 2) (by omega)
      exact ⟨by simp only [flOpShort]; omega, by simp only [flOpShort]; omega⟩⟩
    nib := fun hh => absurd hh (by simp [flOpShort, hn]) }

theorem flOpLong_post (x : Byte) (r : Run) (h : r.Live) (hp : r.ctx.phase = .flOp) : (flOpLong x r).Post := by
  have ht := h.typed
  simp only [Ctx.typed, hp] at ht
  have hn := h.noNib (by rw [ht.1]; decide)
  exact {
    mem := h.mem, region := h.region, fits := h.room.le
    typed := ht
    outcome := .inr ⟨h.state, h.err, trivial⟩
    nib := fun hh => absurd hh (by simp [flOpLong, hn]) }

theorem flExt_post (x : Byte) (r : Run) (h : r.Live) (hp : r.ctx.phase = .flExt) : (flExt x r).Post := by
  have ht := h.typed
  simp only [Ctx.typed, hp] at ht
  have hn := h.noNib (by rw [ht.1]; decide)
  have hx := x.isLt
  exact {
    mem := h.mem, region := h.region, fits := h.room.le
    typed := ht
    outcome := .inr ⟨h.state, h.err, by
      have hcn := cnt_toNat (9 + x.toNat) (by omega)
      exact ⟨by simp only [flExt]; omega, by simp only [flExt]; omega⟩⟩
    nib := fun hh => absurd hh (by simp [flExt, hn]) }

theorem flOff_post (x : Byte) (r : Run) (h : r.Live) (hp : r.ctx.phase = .flOff) : (flOff x r).Post := by
  have ht := h.typed
  simp only [Ctx.typed, hp] at ht
  have hn := h.noNib (by rw [ht.1]; decide)
  exact r.copy_post h _ _ _ (fun _ => rfl) (fun _ => rfl) (fun _ => rfl) (fun _ => rfl) (fun _ => rfl) (fun _ => rfl)
    (fun _ => ht) (fun _ => trivial) hn

/-- The context after a table byte keeps its identity and its output. -/
theorem putTableByte_advance (x : Byte) (r : Run) : r.Advance ⟨r.mem, r.ctx.putTableByte x⟩ :=
  .of_same (Ctx.putTableByte_kind _ _) (Ctx.putTableByte_mode _ _) (Ctx.putTableByte_dstBase _ _)
    (Ctx.putTableByte_outSize _ _) (Ctx.putTableByte_outPos _ _) rfl

/-- What a table byte can do (R291): the last one is judged, the others only stored. -/
theorem hfTable_cases (x : Byte) (r : Run) :
    ((r.ctx.putTableByte x).tpos.toNat = r.ctx.symbols / 2 ∧ kraftOK (r.ctx.putTableByte x).lens = true ∧
      hfTable x r = ⟨r.mem, { r.ctx.putTableByte x with phase := .hfData }⟩) ∨
    ((r.ctx.putTableByte x).tpos.toNat = r.ctx.symbols / 2 ∧ kraftOK (r.ctx.putTableByte x).lens = false ∧
      hfTable x r = Run.raise ⟨r.mem, r.ctx.putTableByte x⟩ .badTable) ∨
    ((r.ctx.putTableByte x).tpos.toNat ≠ r.ctx.symbols / 2 ∧ hfTable x r = ⟨r.mem, r.ctx.putTableByte x⟩) := by
  have hs : (r.ctx.putTableByte x).symbols = r.ctx.symbols := Ctx.symbols_congr (Ctx.putTableByte_mode _ _)
  rw [← hs]
  by_cases h : (r.ctx.putTableByte x).tpos.toNat = (r.ctx.putTableByte x).symbols / 2
  · by_cases hk : kraftOK (r.ctx.putTableByte x).lens = true
    · exact .inl ⟨h, hk, by unfold hfTable; rw [if_pos h, if_pos hk]⟩
    · exact .inr (.inl ⟨h, by simpa using hk, by unfold hfTable; rw [if_pos h, if_neg hk]⟩)
  · exact .inr (.inr ⟨h, by unfold hfTable; rw [if_neg h]⟩)

theorem hfTable_advance (x : Byte) (r : Run) : r.Advance (hfTable x r) := by
  rcases hfTable_cases x r with ⟨_, _, e⟩ | ⟨_, _, e⟩ | ⟨_, e⟩ <;> rw [e]
  · exact (putTableByte_advance x r).trans (.of_same rfl rfl rfl rfl rfl rfl)
  · exact (putTableByte_advance x r).trans (Run.raise_advance _ _)
  · exact putTableByte_advance x r

/-- The alphabet has 16 or 256 symbols. -/
theorem Ctx.symbols_le (c : Ctx) : c.symbols = 16 ∨ c.symbols = 256 := by
  unfold Ctx.symbols; split <;> simp [Config.hufN4, Config.hufN8]

theorem hfTable_post (x : Byte) (r : Run) (h : r.Live) (hp : r.ctx.phase = .hfTable) : (hfTable x r).Post := by
  have ht := (Ctx.typed_hfTable hp).mp h.typed
  obtain ⟨hc1, hc2, hc3, hc4⟩ := (Ctx.carried_hfTable hp).mp h.carried
  have hr := h.room
  have hb := r.ctx.symbols_le
  have htp : (r.ctx.tpos + 1).toNat = r.ctx.tpos.toNat + 1 := by
    rw [BitVec.toNat_add]; simp; omega
  have f1 := r.ctx.putTableByte_state x
  have f2 := r.ctx.putTableByte_kind x
  have f3 := r.ctx.putTableByte_mode x
  have f4 := r.ctx.putTableByte_dstBase x
  have f5 := r.ctx.putTableByte_outSize x
  have f6 := r.ctx.putTableByte_outPos x
  have f7 := r.ctx.putTableByte_phase x
  have f8 := r.ctx.putTableByte_tpos x
  have f9 := r.ctx.putTableByte_code x
  have f10 := r.ctx.putTableByte_codeLen x
  have f11 := r.ctx.putTableByte_nibHave x
  have f12 := r.ctx.putTableByte_err x
  have hcase := hfTable_cases x r
  generalize r.ctx.putTableByte x = c at *
  rw [h.state] at f1; rw [hp] at f7; rw [hc2] at f9; rw [hc3] at f10; rw [hc4] at f11; rw [h.err] at f12
  rw [← f2, ← f3] at ht
  have hreg : c.dstBase.toNat + c.outSize.toNat ≤ 2 ^ 32 := by rw [f4, f5]; exact h.region
  have hfit : c.outPos.toNat < c.outSize.toNat := by rw [f5, f6]; exact hr
  rcases hcase with ⟨hz, hk, e⟩ | ⟨hz, hk, e⟩ | ⟨hz, e⟩ <;> rw [e]
  · refine {
      mem := h.mem, region := hreg, fits := hfit.le
      typed := (Ctx.typed_hfData rfl).mpr ht
      outcome := .inr ⟨f1, f12, ?_⟩
      nib := fun hh => absurd hh (by simp [f11]) }
    rw [Ctx.carried_hfData rfl, Ctx.symbols_congr (c := { c with phase := .hfData }) (d := r.ctx) f3,
      Ctx.lens_congr (c := { c with phase := .hfData }) (d := c) rfl rfl]
    exact ⟨hz, by simp only [f10]; decide, by simp only [f9, f10]; decide, hk⟩
  · exact {
      mem := h.mem, region := hreg, fits := hfit.le
      typed := (Ctx.typed_hfTable f7).mpr ht
      outcome := .inl ⟨rfl, by simp [payloadCodes, Err.code], hfit⟩
      nib := fun hh => absurd hh (by simp [f11]) }
  · refine {
      mem := h.mem, region := hreg, fits := hfit.le
      typed := (Ctx.typed_hfTable f7).mpr ht
      outcome := .inr ⟨f1, f12, ?_⟩
      nib := fun hh => absurd hh (by simp [f11]) }
    rw [Ctx.carried_hfTable f7, Ctx.symbols_congr (d := r.ctx) f3]
    rw [f8] at hz
    exact ⟨by rw [f8]; omega, f9, f10, f11⟩

/-! ### The code stream -/

theorem Run.emitSym_advance (r : Run) (s : Nat) (h : r.ctx.outPos.toNat < r.ctx.outSize.toNat) :
    r.Advance (r.emitSym s) := by
  unfold Run.emitSym
  split
  · split
    · exact (r.emit_advance _ h).trans (.of_same rfl rfl rfl rfl rfl rfl)
    · exact .of_same rfl rfl rfl rfl rfl rfl
  · exact r.emit_advance _ h

theorem hfBits_advance (bs : List Bool) (r : Run) (h : r.ctx.outPos.toNat < r.ctx.outSize.toNat) :
    r.Advance (hfBits bs r) := by
  induction bs generalizing r with
  | nil => exact .refl r
  | cons b bs ih =>
    unfold hfBits
    simp only []
    split
    · rename_i s _
      have ha : r.Advance (Run.emitSym ⟨r.mem, (r.ctx.pushBit b).clearCode⟩ s) :=
        Run.Advance.trans (b := ⟨r.mem, (r.ctx.pushBit b).clearCode⟩)
          (.of_same rfl rfl rfl rfl rfl rfl) (Run.emitSym_advance _ _ h)
      split
      · exact ha
      · rename_i hne
        refine ha.trans (ih _ ?_)
        have h1 : (Run.emitSym ⟨r.mem, (r.ctx.pushBit b).clearCode⟩ s).ctx.outPos.toNat
            ≤ r.ctx.outPos.toNat + 1 := by
          unfold Run.emitSym
          split
          · split
            · exact le_of_eq (Run.emit_outPos_toNat ⟨r.mem, (r.ctx.pushBit b).clearCode⟩
                (BitVec.ofNat 4 s ++ (r.ctx.pushBit b).clearCode.nibHold) h)
            · exact Nat.le_succ _
          · exact le_of_eq (Run.emit_outPos_toNat ⟨r.mem, (r.ctx.pushBit b).clearCode⟩ _ h)
        have h2 := ha.outSize
        have h3 : (Run.emitSym ⟨r.mem, (r.ctx.pushBit b).clearCode⟩ s).ctx.outPos.toNat
            ≠ (Run.emitSym ⟨r.mem, (r.ctx.pushBit b).clearCode⟩ s).ctx.outSize.toNat :=
          fun e => hne (BitVec.eq_of_toNat_eq e)
        rw [h2] at h3 ⊢
        omega
    · split
      · exact .of_same rfl rfl rfl rfl rfl rfl
      · exact Run.Advance.trans (b := ⟨r.mem, r.ctx.pushBit b⟩) (.of_same rfl rfl rfl rfl rfl rfl) (ih _ h)

/-- What holds of a run inside a stream byte. -/
structure Run.InByte (r : Run) : Prop where
  mem : r.mem.wf
  state : r.ctx.state = .active
  region : r.ctx.dstBase.toNat + r.ctx.outSize.toNat ≤ 2 ^ 32
  fits : r.ctx.outPos.toNat ≤ r.ctx.outSize.toNat
  phase : r.ctx.phase = .hfData
  typed : r.ctx.typed
  carried : r.ctx.carried
  err : r.ctx.err = 0
  nib : r.ctx.nibHave = true → r.ctx.mode = 4 ∧ r.ctx.kind = .huff ∧ r.ctx.outPos.toNat < r.ctx.outSize.toNat

theorem Run.InByte.post {r : Run} (h : r.InByte) : r.Post :=
  ⟨h.mem, h.region, h.fits, h.typed, .inr ⟨h.state, h.err, h.carried⟩, h.nib⟩

/-- The code read so far stays below `2 ^ codeLen`. -/
theorem Ctx.pushBit_range (c : Ctx) (b : Bool) (h1 : c.codeLen.toNat ≤ 14) (h2 : c.code.toNat < 2 ^ c.codeLen.toNat) :
    (c.pushBit b).codeLen.toNat = c.codeLen.toNat + 1 ∧
      (c.pushBit b).code.toNat = 2 * c.code.toNat + b.toNat ∧
      (c.pushBit b).code.toNat < 2 ^ (c.codeLen.toNat + 1) := by
  have hl : (c.pushBit b).codeLen.toNat = c.codeLen.toNat + 1 := by
    simp only [Ctx.pushBit_codeLen]; rw [BitVec.toNat_add]; simp; omega
  have hpow : 2 ^ c.codeLen.toNat ≤ 2 ^ 14 := Nat.pow_le_pow_right (by omega) h1
  have hcode : (c.pushBit b).code.toNat = 2 * c.code.toNat + b.toNat := by
    simp only [Ctx.pushBit_code, BitVec.toNat_or, BitVec.toNat_shiftLeft, Nat.shiftLeft_eq, pow_one]
    have hm : c.code.toNat * 2 % 2 ^ 15 = 2 * c.code.toNat := by
      rw [Nat.mod_eq_of_lt (by omega)]; omega
    rw [hm]
    have := Nat.two_pow_add_eq_or_of_lt (i := 1) (b := b.toNat) (by cases b <;> simp) c.code.toNat
    cases b
    · simp
    · simp at this ⊢; omega
  refine ⟨hl, hcode, ?_⟩
  rw [hcode, pow_succ]
  have : b.toNat ≤ 1 := by cases b <;> simp
  omega

theorem hfBits_post (bs : List Bool) (r : Run) (h : r.InByte) (hroom : r.ctx.outPos.toNat < r.ctx.outSize.toNat) :
    (hfBits bs r).Post := by
  induction bs generalizing r with
  | nil => exact h.post
  | cons b bs ih =>
    have ht := (Ctx.typed_hfData h.phase).mp h.typed
    obtain ⟨hc1, hc2, hc3, hk⟩ := (Ctx.carried_hfData h.phase).mp h.carried
    obtain ⟨hl, hcode, hlt⟩ := r.ctx.pushBit_range b hc2 hc3
    have cleared : ∀ c : Ctx, c.phase = .hfData → c.mode = r.ctx.mode → c.len = r.ctx.len → c.tpos = r.ctx.tpos →
        c.code = 0 → c.codeLen = 0 → c.carried := by
      intro c h1 h2 h3 h4 h5 h6
      rw [Ctx.carried_hfData h1, h4, h5, h6, Ctx.symbols_congr h2, Ctx.lens_congr h2 h3]
      exact ⟨hc1, by decide, by decide, hk⟩
    unfold hfBits
    simp only []
    split
    · rename_i s _
      -- the run after the symbol
      have key : ∀ r' : Run, r' = Run.emitSym ⟨r.mem, (r.ctx.pushBit b).clearCode⟩ s →
          r'.InByte := by
        intro r' hr'
        have base : Run.InByte ⟨r.mem, (r.ctx.pushBit b).clearCode⟩ := {
          mem := h.mem, state := h.state, region := h.region, fits := h.fits, phase := h.phase
          typed := h.typed
          carried := cleared _ h.phase rfl rfl rfl rfl rfl
          err := h.err, nib := h.nib }
        have hpos := Run.emit_outPos_toNat ⟨r.mem, (r.ctx.pushBit b).clearCode⟩
        have hpos := fun x => hpos x hroom
        have hwf := fun x => Run.emit_wf ⟨r.mem, (r.ctx.pushBit b).clearCode⟩ x
          h.mem hroom h.region
        subst hr'
        unfold Run.emitSym
        split
        · rename_i hm
          split
          · refine { mem := hwf _, state := h.state, region := h.region, fits := ?_, phase := h.phase, typed := base.typed, carried := cleared _ h.phase rfl rfl rfl rfl rfl, err := h.err, nib := fun hh => absurd hh (by simp) }
            have := hpos (BitVec.ofNat 4 s ++ r.ctx.nibHold)
            exact le_trans (le_of_eq this) hroom
          · refine { mem := h.mem, state := h.state, region := h.region, fits := h.fits, phase := h.phase, typed := base.typed, carried := cleared _ h.phase rfl rfl rfl rfl rfl, err := h.err, nib := fun _ => ⟨hm, ht.1, hroom⟩ }
        · rename_i hm
          refine { mem := hwf _, state := h.state, region := h.region, fits := ?_, phase := h.phase, typed := base.typed, carried := cleared _ h.phase rfl rfl rfl rfl rfl, err := h.err, nib := ?_ }
          · exact le_trans (le_of_eq (hpos _)) hroom
          · intro hh; exact absurd (h.nib hh).1 hm
      have hI := key _ rfl
      split
      · exact hI.post
      · rename_i hne
        refine ih _ hI (lt_of_le_of_ne hI.fits fun e => hne (BitVec.eq_of_toNat_eq e))
    · split
      · rename_i hl15
        exact {
          mem := h.mem, region := h.region, fits := h.fits
          typed := h.typed
          outcome := .inl ⟨rfl, by simp [payloadCodes, Err.code], hroom⟩
          nib := h.nib }
      · rename_i hl15
        refine ih _ {
          mem := h.mem, state := h.state, region := h.region, fits := h.fits, phase := h.phase
          typed := h.typed
          carried := ?_, err := h.err, nib := h.nib } hroom
        rw [Ctx.carried_hfData (c := r.ctx.pushBit b) h.phase, Ctx.symbols_congr (Ctx.pushBit_mode _ _),
          Ctx.lens_congr (Ctx.pushBit_mode _ _) (Ctx.pushBit_len _ _)]
        refine ⟨hc1, ?_, by rw [hl]; exact hlt, hk⟩
        rw [hl] at hl15 ⊢
        simp only [Config.hufMaxLen] at hl15; omega

theorem hfData_post (x : Byte) (r : Run) (h : r.Live) (hp : r.ctx.phase = .hfData) : (hfData x r).Post :=
  hfBits_post _ r {
    mem := h.mem, state := h.state, region := h.region, fits := h.room.le, phase := hp, typed := h.typed
    carried := h.carried, err := h.err, nib := fun hn => ⟨(h.nib hn).1, (h.nib hn).2, h.room⟩ } h.room

/-! ### One byte -/

/-- What one payload byte can do to a live run (R329): it advances the run and leaves a run that satisfies the
invariant or an error. -/
theorem stepByte_post (x : Byte) (r : Run) (h : r.Live) : (stepByte x r).Post := by
  unfold stepByte
  split
  case h_1 hp =>
    unfold rlCtrl
    have := (x.extractLsb' 0 7).isLt
    split
    · exact rlCtrlRun_post _ r h hp (by omega) (by omega)
    · exact rlCtrlLits_post _ r h hp (by omega) (by omega)
  case h_2 hp => exact rlLit_post x r h hp
  case h_3 hp => exact rlVal_post x r h hp
  case h_4 hp => exact lzFlag_post x r h hp
  case h_5 hp =>
    split
    · exact lzTokenRef_post x r h hp
    · exact lzTokenLit_post x r h hp
  case h_6 hp =>
    split
    · rename_i hm; exact lzRef1Ext_post x r h hp hm
    · exact lzRef1Plain_post x r h hp
  case h_7 hp => exact lzRef2_post x r h hp
  case h_8 hp =>
    unfold flOp
    have := (x.extractLsb' 0 5).isLt
    split
    · exact flOpLits_post _ r h hp (by omega) (by omega)
    · split
      · exact flOpLong_post x r h hp
      · rename_i h0 h7; exact flOpShort_post x r h hp (fastKind_short x h0 h7).1
  case h_9 hp => exact flLit_post x r h hp
  case h_10 hp => exact flExt_post x r h hp
  case h_11 hp => exact flOff_post x r h hp
  case h_12 hp => exact hfTable_post x r h hp
  case h_13 hp => exact hfData_post x r h hp

theorem stepByte_advance (x : Byte) (r : Run) (h : r.Live) : r.Advance (stepByte x r) := by
  have hc := h.carried
  unfold stepByte
  split
  case h_1 => unfold rlCtrl; split; exacts [rlCtrlRun_advance _ r, rlCtrlLits_advance _ r]
  case h_2 => exact rlLit_advance x r h.room
  case h_3 hp =>
    simp only [Ctx.carried, hp] at hc
    exact rlVal_advance x r hc.2.2
  case h_4 => exact .of_same rfl rfl rfl rfl rfl rfl
  case h_5 =>
    split
    · exact .of_same rfl rfl rfl rfl rfl rfl
    · exact lzTokenLit_advance x r h.room
  case h_6 =>
    split
    · exact .of_same rfl rfl rfl rfl rfl rfl
    · exact r.copy_advance _ _ _ (fun _ => rfl) (fun _ => rfl) (fun _ => rfl) (fun _ => rfl) (fun _ => rfl)
  case h_7 => exact r.copy_advance _ _ _ (fun _ => rfl) (fun _ => rfl) (fun _ => rfl) (fun _ => rfl) (fun _ => rfl)
  case h_8 =>
    unfold flOp
    split
    · exact flOpLits_advance _ r
    · split
      · exact .of_same rfl rfl rfl rfl rfl rfl
      · exact .of_same rfl rfl rfl rfl rfl rfl
  case h_9 => exact flLit_advance x r h.room
  case h_10 => exact .of_same rfl rfl rfl rfl rfl rfl
  case h_11 => exact r.copy_advance _ _ _ (fun _ => rfl) (fun _ => rfl) (fun _ => rfl) (fun _ => rfl) (fun _ => rfl)
  case h_12 => exact hfTable_advance x r
  case h_13 => exact hfBits_advance _ r h.room

/-- After a step, `settle` detects `FINISHED`: the context satisfies the invariant again. -/
theorem Run.Post.settle {r : Run} (h : r.Post) : r.settle.ctx.Ok ∧ r.settle.mem.wf := by
  unfold Run.settle
  split
  · rename_i hf
    refine ⟨.inr ⟨h.region, h.fits, h.typed, ?_⟩, h.mem⟩
    rcases h.outcome with ⟨hs, _⟩ | ⟨_, he, hc⟩
    · rw [hs] at hf; exact absurd hf.1 (by decide)
    · refine ⟨by simp [hf.2], by simp, fun _ => ⟨he, hc⟩, ?_⟩
      intro hn
      have := (h.nib hn).2.2
      rw [hf.2] at this; omega
  · rename_i hf
    refine ⟨.inr ⟨h.region, h.fits, h.typed, ?_⟩, h.mem⟩
    rcases h.outcome with ⟨hs, he, hr⟩ | ⟨hs, he, hc⟩
    · refine ⟨by simp [hs]; intro e; rw [e] at hr; omega, fun _ => he, fun hn => absurd hs hn, ?_⟩
      intro hn; exact ⟨(h.nib hn).1, (h.nib hn).2.1, by simp [hs]⟩
    · refine ⟨by simp [hs]; intro e; exact hf ⟨hs, e⟩, by simp [hs], fun _ => ⟨he, hc⟩, ?_⟩
      intro hn; exact ⟨(h.nib hn).1, (h.nib hn).2.1, by simp [hs]⟩

/-- An `ACTIVE` context that satisfies the invariant makes a live run. -/
theorem Ctx.Ok.live {c : Ctx} (h : c.Ok) (hs : c.state = .active) (m : Memory) (hm : m.wf) : Run.Live ⟨m, c⟩ := by
  rcases h with h | ⟨h1, h2, h3, h4, _, h6, h7⟩
  · rw [hs] at h; exact absurd h (by decide)
  · have h6 := h6 (by simp [hs])
    refine ⟨hm, hs, h1, lt_of_le_of_ne h2 ?_, h3, h6.2, h6.1, fun hn => ⟨(h7 hn).1, (h7 hn).2.1⟩⟩
    intro e
    have := h4.mpr (BitVec.eq_of_toNat_eq e)
    rw [hs] at this; exact absurd this (by decide)

theorem Run.settle_advance (r : Run) : r.Advance r.settle := by
  unfold Run.settle; split
  · exact .of_same rfl rfl rfl rfl rfl rfl
  · exact .refl r

theorem Run.Live.count {r : Run} (h : r.Live) : r.count.Live :=
  ⟨h.mem, h.state, h.region, h.room, h.typed, h.carried, h.err, h.nib⟩

/-- What `feed` can do (R330): the invariant is kept, the run advances, and no more than `n` bytes are consumed. -/
theorem feed_ok (a n : Nat) (r : Run) (hm : r.mem.wf) (h : r.ctx.Ok) :
    (feed a n r).1.mem.wf ∧ (feed a n r).1.ctx.Ok ∧ r.Advance (feed a n r).1 ∧ (feed a n r).2 ≤ n := by
  induction n generalizing a r with
  | zero => exact ⟨hm, h, .refl r, le_refl _⟩
  | succ n ih =>
    unfold feed
    split
    · rename_i hs
      have hl : r.Live := h.live hs r.mem hm
      have hp := stepByte_post (r.mem.read a) _ hl.count
      have h1 : r.Advance r.count := .of_same rfl rfl rfl rfl rfl rfl
      have ha : r.Advance (Run.consume (stepByte (r.mem.read a)) r) :=
        (h1.trans (stepByte_advance (r.mem.read a) _ hl.count)).trans (Run.settle_advance _)
      have := ih (a + 1) (Run.consume (stepByte (r.mem.read a)) r) hp.settle.2 hp.settle.1
      exact ⟨this.1, this.2.1, ha.trans this.2.2.1, Nat.succ_le_succ this.2.2.2⟩
    · exact ⟨hm, h, .refl r, Nat.zero_le _⟩

end Sys2Proof.Machine
end

