-- ==== Sys2Proof/Laws/Operations.lean ====
section
/-!
SUPPORT. What each shared operation can do, said once: the operand tests, the response, the header tests, the token
runner, `feed` in pieces, and the lengths of the tables.
-/

namespace Sys2Proof.Machine

/-! ### The response (R36, R362) -/

/-- The status of a command that does not raise, as a number. -/
theorem statusWord_done (fin notSmaller : Bool) :
    statusWord false fin notSmaller = (if fin then 2 else 0) ||| (if notSmaller then 4 else 0) := by
  cases fin <;> cases notSmaller <;> decide

/-- `raise` as a record update (R362). -/
theorem State.raise_eq (s : State) (e : Err) :
    s.raise e = { s with status := 1, errcode := e.code, res := ⟨0, 0, 0, 0⟩ } := rfl

/-- `raise` with results as a record update (R362). -/
theorem State.raiseCode_eq (s : State) (b : Byte) (r : Results) :
    s.raiseCode b r = { s with status := 1, errcode := b, res := r } := rfl

/-- A command that does not raise, as a record update (R37, R362). -/
theorem State.done_eq (s : State) (fin : Bool) (r : Results) :
    s.done fin false r = { s with status := if fin then 2 else 0, errcode := 0, res := r } := by
  cases fin <;> rfl

/-- The codes of R361 are 1 to 14. -/
theorem Err.code_range (e : Err) : 1 ≤ e.code.toNat ∧ e.code.toNat ≤ 14 := by cases e <;> decide

/-! ### Operands (R62, R66, R91) -/

theorem regionFits_iff (a n : Nat) : regionFits a n = true ↔ a + n ≤ 2 ^ 32 := by simp [regionFits]

theorem regionFits_eq_false_iff (a n : Nat) : regionFits a n = false ↔ 2 ^ 32 < a + n := by simp [regionFits]

theorem optsLegal_iff (w : Word) (k : Nat) : optsLegal w k = true ↔ w.toNat < 2 ^ k := by simp [optsLegal]

/-- Overlap is the opposite of having no byte in common. -/
theorem overlaps_iff (a n b k : Nat) : overlaps a n b k = true ↔ ¬ Apart a n b k := by
  simp only [overlaps, decide_eq_true_eq, Apart]; omega

theorem overlaps_eq_false_iff (a n b k : Nat) : overlaps a n b k = false ↔ Apart a n b k := by
  rw [← Bool.not_eq_true, overlaps_iff, not_not]

/-- Parts of regions that are apart are apart. -/
theorem Apart.mono {a n b k a' n' b' k' : Nat} (h : Apart a n b k) (h1 : a ≤ a') (h2 : a' + n' ≤ a + n)
    (h3 : b ≤ b') (h4 : b' + k' ≤ b + k) : Apart a' n' b' k' := by
  simp only [Apart] at *; omega

/-- The slot an operand selects exists exactly below `NCTX` (R321). -/
theorem State.slotAt_eq_none_iff (s : State) (w : Word) : s.slotAt w = none ↔ s.slots.length ≤ w.toNat := by
  simp [State.slotAt]

/-- The kinds `CTX_INIT` accepts (R92). -/
theorem kindOperand_eq_none_iff (w : Word) : kindOperand w = none ↔ w ≠ 1 ∧ w ≠ 2 ∧ w ≠ 3 := by
  unfold kindOperand
  split <;> simp_all
  split <;> simp_all

/-! ### Headers (R93, R151, R322) -/

/-- The size field, as a number (R61). -/
theorem readHeader_size_toNat (m : Memory) (a : Nat) : (readHeader m a).size.toNat = sizeAt m a := by
  simp only [readHeader, wordOfBytes, sizeAt, BitVec.toNat_append]
  have h1 := (m.read (a + 1)).isLt
  have h2 := (m.read (a + 2)).isLt
  have h3 := (m.read (a + 3)).isLt
  rw [← Nat.shiftLeft_add_eq_or_of_lt h1, ← Nat.shiftLeft_add_eq_or_of_lt h2, ← Nat.shiftLeft_add_eq_or_of_lt h3]
  simp only [Nat.shiftLeft_eq]
  omega

theorem readHeader_b0 (m : Memory) (a : Nat) : (readHeader m a).b0 = m.read a := rfl

/-- The fields of byte 0, as numbers (R94). -/
theorem Header.base_toNat (h : Header) : h.base.toNat = h.b0.toNat / 16 % 8 := by
  simp [Header.base, BitVec.extractLsb'_toNat, Nat.shiftRight_eq_div_pow]

theorem Header.flags_toNat (h : Header) : h.flags.toNat = h.b0.toNat % 16 := by
  simp [Header.flags, BitVec.extractLsb'_toNat]

theorem Header.dif_iff (h : Header) : h.dif = true ↔ h.b0.toNat / 128 = 1 := by
  have := h.b0.isLt
  simp only [Header.dif, BitVec.getLsbD, Nat.testBit_eq_decide_div_mod_eq, decide_eq_true_eq]
  omega

theorem Header.recognised_iff (h : Header) : h.recognised = true ↔ h.b0.toNat / 16 % 8 ≤ 4 := by
  simp [Header.recognised, Header.base_toNat]

/-- The tests of R322 on a header that passed all of them. -/
theorem checkHeader_eq_none_iff (h : Header) (avail cap : Nat) (want : Option Kind) :
    checkHeader h avail cap want = none ↔
      5 ≤ avail ∧ h.recognised = true ∧ h.dif = false ∧ (want = none ∨ kindOf h.base = want) ∧
        legalFlags h.base h.flags = true ∧ h.size.toNat ≤ cap := by
  unfold checkHeader
  constructor
  · intro e
    split at e; · cases e
    split at e; · cases e
    split at e; · cases e
    split at e; · cases e
    split at e; · cases e
    split at e; · cases e
    rename_i h1 h2 h3 h4 h5 h6
    refine ⟨by omega, by simpa using h2, by simpa using h3, ?_, by simpa using h5, by omega⟩
    by_cases hn : want = none
    · exact .inl hn
    · exact .inr (by_contra fun hk => h4 ⟨hn, hk⟩)
  · rintro ⟨h1, h2, h3, h4, h5, h6⟩
    rw [if_neg (by omega), if_neg (by simp [h2]), if_neg (by simp [h3]), if_neg ?_, if_neg (by simp [h5]),
      if_neg (by omega)]
    rcases h4 with h4 | h4 <;> simp [h4]

/-- The errors a header test can give (R322). -/
theorem checkHeader_some (h : Header) (avail cap : Nat) (want : Option Kind) (e : Err)
    (he : checkHeader h avail cap want = some e) :
    e = .truncatedHeader ∨ e = .badType ∨ e = .unsupportedType ∨ e = .badFlags ∨ e = .dstTooSmall := by
  unfold checkHeader at he
  repeat' split at he
  all_goals simp_all

/-! ### Packed elements (R132, R134) -/

/-- The tests of `PACK_GET` and `PACK_SET` pass exactly on an element inside the buffer. -/
theorem packError_eq_none_iff (buf bufLen bits index : Nat) :
    packError buf bufLen bits index = none ↔
      buf + bufLen ≤ 2 ^ 32 ∧ 1 ≤ bits ∧ bits ≤ 32 ∧ (bits * index + bits - 1) / 8 < bufLen := by
  unfold packError
  constructor
  · intro e
    split at e; · cases e
    split at e; · cases e
    split at e; · cases e
    rename_i h1 h2 h3
    rw [regionFits_eq_false_iff] at h1
    simp only [Config.bitsMin, Config.bitsMax] at h2
    omega
  · rintro ⟨h1, h2, h3, h4⟩
    rw [if_neg (by rw [regionFits_eq_false_iff]; omega), if_neg (by simp only [Config.bitsMin, Config.bitsMax]; omega),
      if_neg (by generalize (bits * index + bits - 1) / 8 = q at *; omega)]

/-! ### Tokens (R329, log 12) -/

/-- A token runs exactly when the slot `ARG0` names is `ACTIVE` and stands before a token of its format. -/
theorem State.reader_eq_some_iff (s : State) (f : Format) (c : Ctx) :
    s.reader f = some c ↔ s.SlotIs c ∧ c.state = .active ∧ c.nextFormat = some f := by
  unfold State.reader State.slotAt State.SlotIs
  split
  · rename_i d hd
    split
    · rename_i h; rw [hd]; constructor
      · intro e; cases e; exact ⟨rfl, h⟩
      · rintro ⟨e, _⟩; exact e
    · rename_i h; rw [hd]; constructor
      · intro e; cases e
      · rintro ⟨e, k⟩; cases e; exact absurd k h
  · rename_i hd; rw [hd]; simp

/-- What a token does: it runs, or no context is reading it. -/
theorem runToken_cases (f : Format) (rules : List (Run → Run)) (s : State) :
    (∃ c, s.SlotIs c ∧ c.state = .active ∧ c.nextFormat = some f ∧
      runToken f rules s = .next (s.putRun s.arg.a0.toNat (Run.consumeAll rules ⟨s.mem, c⟩))) ∨
    (s.reader f = none ∧ runToken f rules s = .refused .notBeingRead) := by
  unfold runToken
  split
  · rename_i c hc
    have := (s.reader_eq_some_iff f c).mp hc
    exact .inl ⟨c, this.1, this.2.1, this.2.2, rfl⟩
  · rename_i hc; exact .inr ⟨hc, rfl⟩

theorem Run.consumeAll_nil (r : Run) : Run.consumeAll [] r = r := rfl

theorem Run.consumeAll_cons (rule : Run → Run) (rules : List (Run → Run)) (r : Run) (h : r.ctx.state = .active) :
    Run.consumeAll (rule :: rules) r = Run.consumeAll rules (r.consume rule) := by simp [Run.consumeAll, h]

/-- A run that is not `ACTIVE` consumes nothing (R330). -/
theorem Run.consumeAll_stopped (rules : List (Run → Run)) (r : Run) (h : r.ctx.state ≠ .active) :
    Run.consumeAll rules r = r := by
  cases rules with
  | nil => rfl
  | cons rule rules => simp [Run.consumeAll, h]

/-! ### `feed` (R330) -/

/-- A context that is not `ACTIVE` consumes nothing. -/
theorem feed_stopped (a n : Nat) (r : Run) (h : r.ctx.state ≠ .active) : feed a n r = (r, 0) := by
  cases n with
  | zero => rfl
  | succ n => simp [feed, h]

theorem feed_succ (a n : Nat) (r : Run) (h : r.ctx.state = .active) :
    feed a (n + 1) r = ((feed (a + 1) n (r.consume (stepByte (r.mem.read a)))).1,
      (feed (a + 1) n (r.consume (stepByte (r.mem.read a)))).2 + 1) := by
  simp [feed, h]

/-- `feed` of two pieces one after the other. -/
theorem feed_add (a n k : Nat) (r : Run) :
    feed a (n + k) r = ((feed (a + n) k (feed a n r).1).1, (feed a n r).2 + (feed (a + n) k (feed a n r).1).2) := by
  induction n generalizing a r with
  | zero => simp [feed]
  | succ n ih =>
    by_cases h : r.ctx.state = .active
    · have := ih (a + 1) (r.consume (stepByte (r.mem.read a)))
      rw [Nat.succ_add, feed_succ a _ r h, feed_succ a n r h, this, show a + (n + 1) = a + 1 + n by omega]
      simp only [Nat.add_right_comm]
    · rw [feed_stopped _ _ r h, feed_stopped _ _ r h]
      simp [feed_stopped _ _ r h]

/-- `feed` stops short of its bytes only when the context is no longer `ACTIVE`. -/
theorem feed_all_of_active (a n : Nat) (r : Run) (h : (feed a n r).1.ctx.state = .active) : (feed a n r).2 = n := by
  induction n generalizing a r with
  | zero => rfl
  | succ n ih =>
    unfold feed at h ⊢
    split
    · rename_i hs
      rw [if_pos hs] at h
      exact congrArg (· + 1) (ih _ _ h)
    · rename_i hs; rw [if_neg hs] at h; exact absurd h hs

/-! ### `LZ_COMPRESS` (R200) -/

/-- The bytes written lie in the range R200 names, in every outcome. -/
theorem compressWritten_le (total size cap : Nat) : compressWritten total size cap ≤ min cap size := by
  unfold compressWritten; split <;> omega

/-- On success exactly the block. -/
theorem compressWritten_block (total size cap : Nat) (h1 : total < size) (h2 : total ≤ cap) :
    compressWritten total size cap = total := by
  unfold compressWritten; rw [if_neg (by omega)]

/-- Without a block, the range that may be scratch. -/
theorem compressWritten_scratch (total size cap : Nat) (h : size ≤ total ∨ cap < total) :
    compressWritten total size cap = min cap size := by
  unfold compressWritten; rw [if_pos h]

/-! ### Tables (R261) -/

theorem lenTableBytes_length (l : List Nat) : (lenTableBytes l).length = (l.length + 1) / 2 := by
  induction l using lenTableBytes.induct with
  | case1 a b r ih => simp [lenTableBytes, ih]; omega
  | case2 a => simp [lenTableBytes]
  | case3 => simp [lenTableBytes]

theorem codeTableBytes_length (l : List Nat) : (codeTableBytes l).length = 2 * l.length := by
  simp [codeTableBytes, List.length_flatMap]; omega

theorem hufDepths_length (w : List Nat) : (hufDepths w).length = w.length := by simp [hufDepths]

theorem limitLengths_length (n : Nat) (w : List Nat) (k : Nat) : (limitLengths n w k).1.length = w.length := by
  induction n generalizing w k with
  | zero => simp [limitLengths, hufDepths_length]
  | succ n ih =>
    unfold limitLengths
    split
    · simp [hufDepths_length]
    · rw [ih]; simp [halveWeights]

/-- The rounds of R265 are bounded by its loop. -/
theorem limitLengths_rounds (n : Nat) (w : List Nat) (k : Nat) :
    k ≤ (limitLengths n w k).2 ∧ (limitLengths n w k).2 ≤ k + n := by
  induction n generalizing w k with
  | zero => simp [limitLengths]
  | succ n ih =>
    unfold limitLengths
    split
    · simp
    · have := ih (halveWeights w) (k + 1); omega

theorem buildLengths_length (f : List Nat) : (buildLengths f).1.length = f.length := by
  unfold buildLengths; split
  · simp
  · exact limitLengths_length _ _ _

theorem readFreqs_length (m : Memory) (a n : Nat) : (readFreqs m a n).length = n := by simp [readFreqs]

theorem readLens_length (m : Memory) (a n : Nat) : (readLens m a n).length = n := by simp [readLens]

theorem Ctx.lens_length (c : Ctx) : c.lens.length = c.symbols := by
  simp only [Ctx.lens, List.length_map, List.length_take, Vector.length_toList]
  unfold Ctx.symbols; split <;> decide

/-- `symOf` finds a symbol of that length and code (R292). -/
theorem symOf_some {lens : List Nat} {L c s : Nat} (h : symOf lens L c = some s) :
    s < lens.length ∧ lens.getD s 0 = L ∧ canonCode lens s = c := by
  have h1 := List.mem_of_find?_eq_some h
  have h2 := List.find?_some h
  simp only [List.mem_range] at h1
  simp only [Bool.and_eq_true, beq_iff_eq] at h2
  exact ⟨h1, h2.1, h2.2⟩

theorem symOf_none {lens : List Nat} {L c : Nat} (h : symOf lens L c = none) (s : Nat) (hs : s < lens.length) :
    ¬ (lens.getD s 0 = L ∧ canonCode lens s = c) := by
  have := List.find?_eq_none.mp h s (List.mem_range.mpr hs)
  simpa using this

end Sys2Proof.Machine
end

