-- ==== Sys2Proof/Tests/Slice0.lean ====
section
/-!
SUPPORT. Tests: each well-formedness check refuses an ill-formed term, words written out from the encodings decode to
what they stand for, single steps give what the vectors of 95_test_vectors.md (T numbers) say, and every statement
with hypotheses has a state that meets them.
-/

namespace Sys2Proof.Tests

open Sys2Proof.Machine

/-! ### Well-formedness: one ill-formed term for each check -/

theorem test_wf_unknown_code_is_listed : (Instr.cmdUnknown 0x31).wellFormed = false := by decide
theorem test_wf_unknown_code : (Instr.cmdUnknown 0x04).wellFormed = true := by decide
theorem test_wf_dif_base_5 : (Instr.hdrDif 5 0 9).wellFormed = false := by decide
theorem test_wf_unrecognised_base_4 : (Instr.hdrUnrecognised 0xC 0 9).wellFormed = false := by decide
theorem test_wf_badflags_base_5 : (Instr.hdrBadFlags 5 3 9).wellFormed = false := by decide
theorem test_wf_badflags_legal : (Instr.hdrBadFlags 2 8 9).wellFormed = false := by decide
theorem test_wf_bytes_too_long (data : List Byte) (h : data.length = 2 ^ 32) :
    (Instr.bytes data).wellFormed = false := by simp [Instr.wellFormed, h]
theorem test_wf_rlt_empty : (Instr.rltLits []).wellFormed = false := by decide
theorem test_wf_rlt_129 : (Instr.rltLits (List.replicate 129 0)).wellFormed = false := by simp [Instr.wellFormed]
theorem test_wf_flt_empty : (Instr.fltLits []).wellFormed = false := by decide
theorem test_wf_flt_33 : (Instr.fltLits (List.replicate 33 0)).wellFormed = false := by decide
theorem test_wf_short_kind_0 : (Instr.fltMatchShort 0 5).wellFormed = false := by decide
theorem test_wf_short_kind_7 : (Instr.fltMatchShort 7 5).wellFormed = false := by decide
theorem test_wf_width_0 : (Instr.pkvElement 0 0).wellFormed = false := by decide
theorem test_wf_width_33 : (Instr.pkvElement 33 0).wellFormed = false := by decide

/-! ### Decoding: words written out from R92 to R110 -/

/-- R92: the codes of the command table. -/
theorem test_decode_commands :
    [0x01, 0x02, 0x03, 0x10, 0x11, 0x12, 0x13, 0x14, 0x20, 0x21, 0x30, 0x31, 0x40, 0x41, 0x22].map decodeCommand =
      [Instr.getType, .getSize, .uncompressAny, .ctxInit, .ctxRead, .ctxFinished, .ctxDiscard, .ctxQuery,
        .packGet, .packSet, .lzFind, .lzCompress, .hufBuild, .hufLoad, .cmdUnknown 0x22] := by decide

/-- R93, R95: byte 0, then the size, lowest byte first. -/
theorem test_decode_headers :
    [0x00, 0x10, 0x11, 0x24, 0x28, 0x30, 0x40].map (fun b => decodeOne .hdr [b, 0x78, 0x56, 0x34, 0x12]) =
      [some (Instr.hdrNone 0x12345678), some (.hdrLz 0x12345678), some (.hdrLzx 0x12345678),
        some (.hdrHuf4 0x12345678), some (.hdrHuf8 0x12345678), some (.hdrRl 0x12345678),
        some (.hdrFlz 0x12345678)] := by decide

/-- R94, R96, R97: 0xA8 is Dif over Huffman 8-bit, 0xD0 an unrecognised base type under the Dif bit, 0x2C Huffman with
flags 12. -/
theorem test_decode_refused_headers :
    [0xA8, 0xD0, 0x2C].map (fun b => decodeOne .hdr [b, 0x01, 0x00, 0x00, 0x00]) =
      [some (Instr.hdrDif 2 8 1), some (.hdrUnrecognised 0xD 0 1), some (.hdrBadFlags 2 12 1)] := by decide

/-- R156. -/
theorem test_decode_bytes : decode (.store 2) [0x41, 0x42, 0x43] = .ok (.bytes [0x41, 0x42], [0x43]) := by decide
/-- R98: 0nnnnnnn, then n+1 literals. -/
theorem test_decode_rlt_lits :
    decode .rlt [0x02, 0x41, 0x42, 0x43, 0x7F] = .ok (.rltLits [0x41, 0x42, 0x43], [0x7F]) := by decide
/-- R98: 1nnnnnnn, then the value. -/
theorem test_decode_rlt_run : decode .rlt [0xBD, 0x61] = .ok (.rltRun 61 0x61, []) := by decide
/-- R99, R100. -/
theorem test_decode_lzt_flags : decode .lzFlag [0x10] = .ok (.lztFlags 0x10, []) := by decide
theorem test_decode_lzt_lit : decode .lzLit [0x61] = .ok (.lztLit 0x61, []) := by decide
/-- R101: `BF FF` is length 14, offset 4096. -/
theorem test_decode_lzt_ref : decode .lzRef [0xBF, 0xFF] = .ok (.lztRef 11 4095, []) := by decide
/-- R102: length byte, then the offset, high byte first. -/
theorem test_decode_lzxt_ref : decode .lzxRef [0x0C, 0x01, 0x03] = .ok (.lzxtRef 12 0x0103, []) := by decide
/-- R104. -/
theorem test_decode_flt_lits : decode .flt [0x01, 0x41, 0x42] = .ok (.fltLits [0x41, 0x42], []) := by decide
/-- R105: `3F FF` is `MATCH 8192, 3`. -/
theorem test_decode_flt_short : decode .flt [0x3F, 0xFF] = .ok (.fltMatchShort 1 8191, []) := by decide
/-- R106: `E0 00 02` is `MATCH 3, 9`. -/
theorem test_decode_flt_long : decode .flt [0xE0, 0x00, 0x02] = .ok (.fltMatchLong 0 2, []) := by decide
/-- R107: the low nibble is the even symbol's length. -/
theorem test_decode_hft : decode .hft [0x53] = .ok (.hftByte 3 5, []) := by decide
/-- R108. -/
theorem test_decode_hfc : decode .hfc [0x72] = .ok (.hfcCode 0x72, []) := by decide
/-- R110: the caller supplies width and index. -/
theorem test_decode_pkv : decode (.pkv 12 3) [] = .ok (.pkvElement 12 3, []) := by decide
theorem test_decode_pkv_width : decode (.pkv 33 3) [] = .error .badWidth := by decide
/-- A token cut short is refused. -/
theorem test_decode_truncated : decode .rlt [0x02, 0x41, 0x42] = .error .truncated := by decide

/-! ### One table word -/

theorem test_word_command : decodeTableWord 8 0x30 = some .lzFind := by decide
theorem test_word_header : decodeTableWord 40 0x0000000924 = some (.hdrHuf4 9) := by decide
theorem test_word_run : decodeTableWord 16 0x6183 = some (.rltRun 3 0x61) := by decide
theorem test_word_long : decodeTableWord 24 0xE00002 = some (.fltMatchLong 0 2) := by decide

/-! ### Single steps -/

/-- Reset, with blocks of bytes in memory, operands, and a write of `CMD` pending. -/
def given (blocks : List (Nat × List Byte)) (g : Args) (c : Word) : State :=
  { State.reset with
    mem := blocks.foldl (fun m b => m.writeList b.1 b.2) ⟨[]⟩, arg := g, host := [.writeReg .cmd c] }

/-- The outcome is a next state with a property. -/
def answers (o : Outcome) (p : State → Bool) : Bool :=
  match o with
  | .next t => p t
  | .fault _ => false
  | .refused _ => false

theorem next_of_answers {o : Outcome} {p : State → Bool} (h : answers o p = true) :
    ∃ t, o = .next t ∧ p t = true := by
  cases o with
  | next t => exact ⟨t, rfl, h⟩
  | fault f => cases h
  | refused r => cases h

/-- The response of a command. -/
def response (status : Word) (errcode : Byte) (r0 r1 : Word) (t : State) : Bool :=
  decide (t.status = status ∧ t.errcode = errcode ∧ t.res.r0 = r0 ∧ t.res.r1 = r1)

/-- What stands at the destination of the vectors. -/
def at4000 (bs : List Byte) (t : State) : Bool := decide (t.mem.readList 0x4000 bs.length = bs)

/-- T1, byte 0 = 91. -/
theorem test_getType_dif_lzx :
    answers (step (given [(0x1000, [0x91, 0x00, 0x01, 0x00, 0x00])] ⟨0x1000, 5, 0, 0, 0, 0⟩ 0x01))
      (fun t => response 0 0 1 1 t && decide (t.res.r2 = 1)) = true := by decide
/-- T2: `srcLen = 0`. -/
theorem test_getType_truncated :
    answers (step (given [] ⟨0x1000, 0, 0, 0, 0, 0⟩ 0x01)) (response 1 1 0xFF 0) = true := by decide
/-- T3. -/
theorem test_getSize :
    answers (step (given [(0x1000, [0x10, 0x78, 0x56, 0x34, 0x12])] ⟨0x1000, 5, 0, 0, 0, 0⟩ 0x02))
      (response 0 0 0x12345678 0) = true := by decide
/-- T2: past the end of the address space. -/
theorem test_getSize_badArg :
    answers (step (given [] ⟨0xFFFFFFFC, 5, 0, 0, 0, 0⟩ 0x02)) (response 1 13 0 0) = true := by decide
/-- T8: a store block with a trailing byte. -/
theorem test_uncompress_store :
    answers (step (given [(0x1000, [0x00, 0x01, 0x00, 0x00, 0x00, 0x41, 0x42])] ⟨0x1000, 7, 0x4000, 1, 0, 0⟩ 0x03))
      (fun t => response 2 0 1 6 t && at4000 [0x41, 0x00] t) = true := by decide
/-- T30: FastLZ literals and a long match that overlaps itself. -/
theorem test_uncompress_fastlz :
    answers (step (given [(0x1000, [0x40, 0x0C, 0, 0, 0, 0x02, 0x61, 0x62, 0x63, 0xE0, 0x00, 0x02])]
        ⟨0x1000, 12, 0x4000, 12, 0, 0⟩ 0x03))
      (fun t => response 2 0 12 12 t &&
        at4000 [0x61, 0x62, 0x63, 0x61, 0x62, 0x63, 0x61, 0x62, 0x63, 0x61, 0x62, 0x63] t) = true := by decide +kernel
/-- T31: the short form. -/
theorem test_fastlz_short :
    answers (step (given [(0x1000, [0x40, 8, 0, 0, 0, 0x01, 0x41, 0x42, 0x80, 0x01])] ⟨0x1000, 10, 0x4000, 8, 0, 0⟩ 0x03))
      (fun t => response 2 0 8 10 t && at4000 [0x41, 0x42, 0x41, 0x42, 0x41, 0x42, 0x41, 0x42] t) = true := by
  decide +kernel
/-- T33: an offset before the output. -/
theorem test_fastlz_badOffset :
    answers (step (given [(0x1000, [0x40, 8, 0, 0, 0, 0x20, 0x00])] ⟨0x1000, 7, 0x4000, 8, 0, 0⟩ 0x03))
      (response 1 7 0 7) = true := by decide +kernel
/-- T45: Huffman with one 2-bit code. -/
theorem test_huf4_incomplete_table :
    answers (step (given [(0x1000, [0x24, 1, 0, 0, 0, 0x20, 0, 0, 0, 0, 0, 0, 0, 0])] ⟨0x1000, 14, 0x4000, 1, 0, 0⟩ 0x03))
      (fun t => response 2 0 1 14 t && at4000 [0x11] t) = true := by decide +kernel
/-- T44: an over-subscribed table. -/
theorem test_huf4_badTable :
    answers (step (given [(0x1000, [0x24, 2, 0, 0, 0, 0x11, 0x01, 0, 0, 0, 0, 0, 0, 0])] ⟨0x1000, 14, 0x4000, 2, 0, 0⟩ 0x03))
      (response 1 9 0 13) = true := by decide +kernel
/-- T49: a 15-bit code over two stream bytes. -/
theorem test_huf4_longest_code :
    answers (step (given [(0x1000, [0x24, 1, 0, 0, 0, 0x21, 0x43, 0x65, 0x87, 0xA9, 0xCB, 0xED, 0xFF, 0xFF, 0x7F])]
        ⟨0x1000, 15, 0x4000, 1, 0, 0⟩ 0x03))
      (fun t => response 2 0 1 15 t && at4000 [0x0F] t) = true := by decide +kernel
/-- R328: a context is opened in slot 3; slot 4 does not exist. -/
theorem test_ctxInit :
    answers (step (given [(0x1000, [0x30, 0x05, 0, 0, 0])] ⟨3, 1, 0x4000, 5, 0x1000, 5⟩ 0x10))
      (fun t => response 0 0 0 0 t && decide ((t.slots.map Ctx.state) = [.idle, .idle, .idle, .active])) = true := by
  decide
theorem test_ctxInit_slot_4 :
    answers (step (given [(0x1000, [0x30, 0x05, 0, 0, 0])] ⟨4, 1, 0x4000, 5, 0x1000, 5⟩ 0x10)) (response 1 13 0 0)
      = true := by decide

/-- A state whose slot 0 is a given context. -/
def holding (c : Ctx) (s : State) : State := { s with slots := c :: s.slots.tail }

/-- An `ACTIVE` context with its output at 0x4000. -/
def reading (kind : Kind) (mode : BitVec 4) (phase : Phase) (outPos outSize : Word) : Ctx :=
  { Ctx.reset with
    state := .active, kind := kind, mode := mode, phase := phase, dstBase := 0x4000, outPos := outPos, outSize := outSize }

/-- R331, R338: a chunk that ends inside a repeat run. -/
theorem test_ctxRead_split_run :
    answers (step (holding (reading .rl 0 .rlCtrl 0 5) (given [(0x1000, [0x82])] ⟨0, 0x1000, 1, 0, 0, 0⟩ 0x11)))
      (fun t => response 0 0 0 1 t && decide (t.slots.head?.map Ctx.phase = some .rlVal)) = true := by decide
/-- R331: an `IDLE` slot. -/
theorem test_ctxRead_idle :
    answers (step (given [] ⟨0, 0x1000, 1, 0, 0, 0⟩ 0x11)) (response 1 11 0 0) = true := by decide
/-- R334. -/
theorem test_ctxFinished :
    answers (step (holding { reading .rl 0 .rlCtrl 5 5 with state := .finished } (given [] ⟨0, 0, 0, 0, 0, 0⟩ 0x12)))
      (response 2 0 1 0) = true := by decide
/-- R335. -/
theorem test_ctxDiscard :
    answers (step (holding (reading .rl 0 .rlCtrl 0 5) (given [] ⟨0, 0, 0, 0, 0, 0⟩ 0x13)))
      (fun t => response 0 0 0 0 t && decide (t.slots.head?.map Ctx.state = some .idle)) = true := by decide
/-- R336: ERROR, code 7, phase LZ_REF2, kind LZ, mode EXT. -/
theorem test_ctxQuery :
    answers (step (holding { reading .lz 1 .lzRef2 3 9 with state := .error, err := 7, inCount := 8 }
      (given [] ⟨0, 0, 0, 0, 0, 0⟩ 0x14))) (fun t => response 0 0 0x12060703 3 t && decide (t.res.r2 = 8)) = true := by
  decide
/-- R132: 3-bit element 2 lies over the byte boundary. -/
theorem test_packGet :
    answers (step (given [(0x1000, [0xC0, 0x01])] ⟨0x1000, 2, 3, 2, 0, 0⟩ 0x20)) (response 0 0 7 0) = true := by decide
theorem test_packGet_range :
    answers (step (given [] ⟨0x1000, 2, 3, 5, 0, 0⟩ 0x20)) (response 1 12 0 0) = true := by decide
/-- R134: the bits around the element stay. -/
theorem test_packSet :
    answers (step (given [(0x4000, [0xFF, 0xFF])] ⟨0x4000, 2, 3, 2, 0xFFFFFFF8, 0⟩ 0x21))
      (fun t => response 0 0 0 0 t && at4000 [0x3F, 0xFE] t) = true := by decide
/-- R194, R195: `abcabc`, position 3. -/
theorem test_lzFind :
    answers (step (given [(0x1000, [0x61, 0x62, 0x63, 0x61, 0x62, 0x63])] ⟨0x1000, 6, 3, 0, 0, 0⟩ 0x30))
      (fun t => response 0 0 1 3 t && decide (t.res.r2 = 3)) = true := by decide
/-- R195: in a run the smallest offset wins. -/
theorem test_lzFind_run :
    answers (step (given [(0x1000, [0x61, 0x61, 0x61, 0x61, 0x61, 0x61])] ⟨0x1000, 6, 2, 0, 0, 0⟩ 0x30))
      (fun t => response 0 0 1 1 t && decide (t.res.r2 = 4)) = true := by decide
/-- R62, R197 to R200: forty equal bytes: a literal and back-references of 18, 18 and 3; the block is 13 bytes, so a
destination 16 below the source does not meet it, although its capacity of 40 would. -/
theorem test_lzCompress_below_source :
    answers (step (given [(0x4010, List.replicate 40 0x61)] ⟨0x4010, 40, 0x4000, 40, 0, 0⟩ 0x31))
      (fun t => response 0 0 13 0 t &&
        at4000 [0x10, 0x28, 0, 0, 0, 0x70, 0x61, 0xF0, 0x00, 0xF0, 0x00, 0x00, 0x00, 0, 0, 0, 0x61] t) = true := by
  decide +kernel
/-- R200: nothing gained. -/
theorem test_lzCompress_notSmaller :
    answers (step (given [(0x1000, [1, 2, 3])] ⟨0x1000, 3, 0x4000, 10, 0, 0⟩ 0x31)) (response 4 0 0 0) = true := by
  decide +kernel
/-- T52: three equal weights. -/
theorem test_hufBuild :
    answers (step (given [(0x2000, [1, 0, 0, 0, 1, 0, 0, 0, 1])] ⟨0x2000, 1, 0x4000, 0x3100, 0, 0⟩ 0x40))
      (fun t => response 0 0 3 2 t && at4000 [0x22, 0x01, 0, 0, 0, 0, 0, 0] t &&
        decide (t.mem.readList 0x3100 6 = [2, 0, 3, 0, 0, 0])) = true := by decide +kernel
/-- T51: one symbol. -/
theorem test_hufBuild_one :
    answers (step (given [(0x2014, [7])] ⟨0x2000, 1, 0x4000, 0x3100, 0, 0⟩ 0x40))
      (fun t => response 0 0 1 1 t && at4000 [0, 0, 0x10, 0, 0, 0, 0, 0] t) = true := by decide +kernel
/-- R268: the lengths of T52b. -/
theorem test_hufLoad :
    answers (step (given [(0x3000, [0x21, 0x02])] ⟨0x3000, 1, 0x4000, 0, 0, 0⟩ 0x41))
      (fun t => response 0 0 3 2 t && at4000 [0, 0, 2, 0, 3, 0, 0, 0] t) = true := by decide +kernel
theorem test_hufLoad_badTable :
    answers (step (given [(0x3000, [0x11, 0x01])] ⟨0x3000, 1, 0x4000, 0, 0, 0⟩ 0x41)) (response 1 9 0 0) = true := by
  decide +kernel
/-- R91. -/
theorem test_cmdUnknown :
    answers (step (given [] ⟨0, 0, 0, 0, 0, 0⟩ 0x7F)) (response 1 14 0 0) = true := by decide

/-! ### `withFetchWord`: the next step runs the word from reset -/

theorem test_fetch_command : answers (step (State.reset.withFetchWord 8 0x14)) (response 0 0 0 0) = true := by decide
theorem test_fetch_header :
    answers (step (State.reset.withFetchWord 40 0x0000000924))
      (fun t => decide (t.slots.head? = some (blockContext 0x24 9 0))) = true := by decide +kernel
theorem test_fetch_store :
    answers (step (State.reset.withFetchWord 40 0x0000000300)) (response 2 0 3 8) = true := by decide +kernel
theorem test_fetch_token :
    answers (step (State.reset.withFetchWord 16 0x6183)) (response 0 0 6 2) = true := by decide +kernel
theorem test_fetch_reference :
    answers (step (State.reset.withFetchWord 16 0xFF1F)) (response 0 0 4 2) = true := by decide +kernel
theorem test_fetch_match :
    answers (step (State.reset.withFetchWord 24 0xE00002)) (response 0 0 9 3) = true := by decide +kernel

/-! ### Every statement's hypotheses are met by a state

One theorem for each statement that has hypotheses, one conjunct or one theorem for each of its clauses, at a boundary
of its range where it has one. -/

/-- Reset, with blocks of bytes in memory and operands. -/
def ready (blocks : List (Nat × List Byte)) (g : Args) : State := { given blocks g 0 with host := [] }

theorem witness_DecodeOfEncode :
    (Instr.rltLits [0]).wellFormed = true ∧ (Instr.fltMatchShort 6 8191).wellFormed = true ∧
      (Instr.pkvElement 32 0xFFFFFFFF).wellFormed = true := by decide

theorem witness_EncodeOfDecode :
    (∀ n, Format.store 2 = .store n → n < 2 ^ 32) ∧
      decode (.store 2) [0x41, 0x42, 0x43] = .ok (.bytes [0x41, 0x42], [0x43]) :=
  ⟨fun n h => by cases h; decide, by decide⟩

theorem witness_EveryByteBeginsAToken :
    Format.rlt ∈ [Format.rlt, .lzFlag, .lzLit, .lzRef, .lzxRef, .flt, .hft, .hfc] ∧
      129 ≤ (List.replicate 129 (0x7F : Byte)).length := ⟨by decide, by simp⟩

theorem witness_StepRunsTheCommandWritten :
    (given [] ⟨0, 0, 0, 0, 0, 0⟩ 0xFFFFFF41).host = .writeReg .cmd 0xFFFFFF41 :: [] ∧
      decode .cmd [(0xFFFFFF41 : Word).setWidth 8] = .ok (.hufLoad, []) := ⟨rfl, by decide⟩

/-- Reset with one action of the host pending. -/
def acting (op : HostOp) : State := { State.reset with host := [op] }

theorem witness_StepOfTheOtherHostActions :
    State.reset.host = [] ∧ (acting (.writeReg .status 7)).host = .writeReg .status 7 :: [] ∧
      (acting (.writeReg .errcode 7)).host = .writeReg .errcode 7 :: [] ∧
      (acting (.writeReg (.res 3) 7)).host = .writeReg (.res 3) 7 :: [] ∧
      (acting (.writeReg (.arg 5) 7)).host = .writeReg (.arg 5) 7 :: [] ∧
      (acting (.writeMem (2 ^ 32 - 1) 7)).host = .writeMem (2 ^ 32 - 1) 7 :: [] ∧ 2 ^ 32 - 1 < 2 ^ 32 ∧
      (acting (.writeMem (2 ^ 32) 7)).host = .writeMem (2 ^ 32) 7 :: [] ∧ 2 ^ 32 ≤ 2 ^ 32 ∧
      (acting .reset).host = .reset :: [] := by decide

theorem witness_StepOfTheOtherHostActions_command :
    (acting (.writeReg .cmd 0xFFFFFF13)).host = .writeReg .cmd 0xFFFFFF13 :: [] ∧
      ∃ t, step (acting (.writeReg .cmd 0xFFFFFF13)) = .next t := ⟨rfl, ⟨_, rfl⟩⟩

theorem witness_ExecKeepsCommandAndOperands : ∃ t, exec .ctxDiscard State.reset = .next t :=
  ⟨_, rfl⟩

theorem witness_CommandsRewriteTheWholeResponse : formatOf .lzFind = .cmd := by decide

theorem witness_ContextFreeCommandsUseOperandsAndMemory :
    Instr.getSize ∈ contextFree ∧
      ({ State.reset with cmd := 5, slots := [] } : State).arg = State.reset.arg ∧
      ({ State.reset with cmd := 5, slots := [] } : State).mem = State.reset.mem ∧
      ({ State.reset with cmd := 5, slots := [] } : State).dFast = State.reset.dFast ∧
      ({ State.reset with cmd := 5, slots := [] } : State).freeCount = State.reset.freeCount ∧
      (∃ t, exec .getSize State.reset = .next t) := ⟨by decide, rfl, rfl, rfl, rfl, ⟨_, rfl⟩⟩

theorem witness_ContextFreeCommandsUseOperandsAndMemory_refused :
    Instr.lzCompress ∈ contextFree ∧
      exec .lzCompress (ready [] ⟨0x1000, 8, 0x1007, 8, 0, 0⟩) = .refused .overlappingRegions := ⟨by decide, rfl⟩

/-- Two `IDLE` slots that differ in a field no rule reads. -/
theorem witness_IdleSlotFieldsAreUnread :
    ({ State.reset with slots := [Ctx.reset] } : State).SameUpToIdle
        { State.reset with slots := [{ Ctx.reset with outPos := 9, nibHave := true }] } ∧
      (∃ t, exec .ctxQuery { State.reset with slots := [Ctx.reset] } = .next t) ∧
      exec (.lztLit 0) { State.reset with slots := [Ctx.reset] } = .refused .notBeingRead :=
  ⟨⟨rfl, .cons (.inr ⟨rfl, rfl⟩) .nil⟩, ⟨_, rfl⟩, rfl⟩

/-- The invariant holds of a state with a context inside a run and an error reported. -/
theorem inv_of_reading : State.Inv
    { holding { reading .rl 0 .rlVal 2 5 with cnt := 3 } (ready [(0xFFFFFFFF, [1])] ⟨0, 0, 0, 0, 0, 0⟩) with
      status := 1, errcode := 14 } := by
  refine ⟨by decide, ?_, by simp [State.ResponseOk]⟩
  intro c hc
  simp only [holding, ready, given, State.reset, Config.nctxDefault, List.replicate, List.tail_cons, List.mem_cons,
    List.not_mem_nil, or_false] at hc
  rcases hc with rfl | rfl | rfl | rfl
  · refine .inr ⟨by decide, by decide, ?_, by decide, by decide, fun _ => ⟨by decide, ?_⟩, by decide⟩
    · exact ⟨rfl, rfl⟩
    · exact ⟨by decide, by decide, by decide⟩
  all_goals exact .inl rfl

theorem witness_ExecKeepsInv : (Instr.rltRun 0 7).wellFormed = true ∧ State.reset.Inv ∧
    ∃ t, exec .ctxDiscard State.reset = .next t := by
  refine ⟨by decide, ⟨by decide, ?_, by unfold State.ResponseOk; decide⟩, ⟨_, rfl⟩⟩
  intro c hc
  exact .inl (by simp [State.reset] at hc; simp [hc, Ctx.reset])

theorem witness_StepKeepsInv : State.reset.Inv ∧ ∃ t, step State.reset = .next t :=
  ⟨witness_ExecKeepsInv.2.1, ⟨_, rfl⟩⟩

theorem witness_BadOperandsAndCommandsRaise :
    2 ^ 32 < (ready [] ⟨0xFFFFFFFF, 2, 0, 0, 0, 0⟩).arg.a0.toNat + (ready [] ⟨0xFFFFFFFF, 2, 0, 0, 0, 0⟩).arg.a1.toNat ∧
      Instr.packSet ∈ [Instr.getSize, .uncompressAny, .packGet, .packSet, .lzFind, .lzCompress] ∧
      2 ^ 32 < (0xFFFFFFF9 : Word).toNat + 8 ∧ 2 ^ 32 < (0xFFFFFFC1 : Word).toNat + 64 ∧
      State.reset.slots.length ≤ (4 : Word).toNat ∧ (0 : Word) ∉ [1, 2, 3] ∧ 2 ≤ (2 : Word).toNat ∧
      4 ≤ (4 : Word).toNat ∧ (0x04 : Byte) ∉ commandCodes := by decide

theorem witness_EarlyErrorsChangeNothing :
    formatOf .ctxRead = .cmd ∧ (∃ t, exec .ctxRead State.reset = .next t ∧
      decide (t.errcode ∈ [1, 2, 3, 4, 5, 11, 12, 13, 14]) = true) ∧ ¬ (Instr.ctxRead = .lzCompress ∧ (11 : Byte) = 5) :=
  ⟨by decide, next_of_answers (by decide), by decide⟩

/-- The functions of a state the statement takes are there to take. -/
theorem witness_RefusalsAreNamed (s : State) :
    ∃ (N : Nat) (len : Nat → Nat), N = (if s.arg.a1.getLsbD 0 then 16 else 256) ∧
      ∀ y, len y = (s.mem.read (s.arg.a0.toNat + y / 2)).toNat / 16 ^ (y % 2) % 16 := ⟨_, _, rfl, fun _ => rfl⟩

theorem witness_RefusalsAreNamed_compress :
    (0xFFFFFFF0 : Word).toNat + (16 : Word).toNat ≤ 2 ^ 32 ∧ (3 : Word).toNat < 4 ∧
      ¬ Apart (0xFFFFFFF0 : Word).toNat (16 : Word).toNat (0xFFFFFFFF : Word).toNat (min (1 : Word).toNat 16) := by decide

/-- Both alphabets at the end of the address space. -/
theorem witness_RefusalsAreNamed_build :
    (0xFFFFFFC0 : Word).toNat + 4 * 16 ≤ 2 ^ 32 ∧ (0x2000 : Word).toNat + 16 / 2 ≤ 2 ^ 32 ∧
      (0x2007 : Word).toNat + 2 * 16 ≤ 2 ^ 32 ∧ ¬ Apart 0x2000 (16 / 2) 0x2007 (2 * 16) ∧
      (0xFFFFFC00 : Word).toNat + 4 * 256 ≤ 2 ^ 32 ∧ (0x2000 : Word).toNat + 256 / 2 ≤ 2 ^ 32 ∧
      (0x207F : Word).toNat + 2 * 256 ≤ 2 ^ 32 ∧ ¬ Apart 0x2000 (256 / 2) 0x207F (2 * 256) := by decide

/-- An empty table, whose place meets the code table, and one that ends where the code table begins. -/
theorem witness_RefusalsAreNamed_load :
    (1 : Word).toNat < 2 ∧ (0x3000 : Word).toNat + 16 / 2 ≤ 2 ^ 32 ∧ (0x3007 : Word).toNat + 2 * 16 ≤ 2 ^ 32 ∧
      ((List.range 16).map (fun _ => if (0 : Nat) = 0 then 0 else 2 ^ (15 - 0))).sum ≤ 2 ^ 15 ∧
      ¬ Apart 0x3000 (16 / 2) 0x3007 (2 * 16) ∧ Apart 0x3000 (16 / 2) 0x3008 (2 * 16) := by decide

/-- A store block of one byte onto its own last byte. -/
theorem witness_RefusalsAreNamed_store :
    (ready [(0x1001, [1, 0, 0, 0, 0x41])] ⟨0x1000, 6, 0x1005, 1, 0, 0⟩).mem.read 0x1000 = 0x00 ∧
      sizeAt (ready [(0x1001, [1, 0, 0, 0, 0x41])] ⟨0x1000, 6, 0x1005, 1, 0, 0⟩).mem 0x1000 = 1 ∧
      5 + 1 ≤ (6 : Word).toNat ∧ 1 ≤ (1 : Word).toNat ∧ ([0x41] : List Byte).length = 1 ∧ ¬ Apart 0x1000 6 0x1005 1 := by
  decide

/-- A run-length block whose output of 5 meets its last byte. -/
theorem witness_RefusalsAreNamed_tokens :
    let s := ready [(0x1000, [0x30, 5, 0, 0, 0, 0x82, 7])] ⟨0x1000, 7, 0x1006, 5, 0, 0⟩
    (s.mem.read 0x1000).toNat = 0x30 ∧ sizeAt s.mem 0x1000 = 5 ∧ headerTests 0x30 5 7 5 0 = 0 ∧
      (feed (0x1000 + 5) (7 - 5) ⟨s.mem, blockContext 0x30 (BitVec.ofNat 32 5) 0x1006⟩).1.ctx.outPos.toNat = 5 ∧
      ¬ Apart 0x1000 7 0x1006 5 := by decide +kernel

/-- A chunk whose first byte is where the output goes. -/
theorem witness_RefusalsAreNamed_read :
    let s := holding (reading .rl 0 .rlCtrl 0 5) (ready [(0x4000, [0x82, 7])] ⟨0, 0x4000, 2, 0, 0, 0⟩)
    s.SlotIs (reading .rl 0 .rlCtrl 0 5) ∧ (reading .rl 0 .rlCtrl 0 5).state = .active ∧
      (feed 0x4000 2 ⟨s.mem, reading .rl 0 .rlCtrl 0 5⟩).2 = 2 ∧
      (feed 0x4000 2 ⟨s.mem, reading .rl 0 .rlCtrl 0 5⟩).1.ctx.outPos = 5 ∧ ¬ Apart 0x4000 2 (0x4000 + 0) 5 :=
  ⟨rfl, rfl, by decide +kernel, by decide +kernel, by decide⟩

theorem witness_RefusalsAreNamed_units :
    formatOf (.hdrRl 5) = .hdr ∧ State.reset.cmd ∉ [0x01, 0x02, 0x03, 0x10] ∧
      formatOf (.hfcCode 5) ∈ [Format.rlt, .lzFlag, .lzLit, .lzRef, .lzxRef, .flt, .hft, .hfc] ∧
      (∀ c, State.reset.SlotIs c → c.state = .active → c.nextFormat ≠ some (formatOf (.hfcCode 5))) ∧
      State.reset.cmd ∉ [0x20, 0x21] := by
  refine ⟨by decide, by decide, by decide, ?_, by decide⟩
  intro c hc ha
  have : c = Ctx.reset := by
    have : State.reset.slots[State.reset.arg.a0.toNat]? = some Ctx.reset := rfl
    rw [State.SlotIs, this] at hc; exact (Option.some.inj hc).symm
  rw [this] at ha; exact absurd ha (by decide)

theorem witness_GetTypeReports :
    (0x91 : Nat) = ((ready [(0xFFFFFFFF, [0x91])] ⟨0xFFFFFFFF, 1, 0, 0, 0, 0⟩).mem.read
      (ready [(0xFFFFFFFF, [0x91])] ⟨0xFFFFFFFF, 1, 0, 0, 0, 0⟩).arg.a0.toNat).toNat := by decide

/-- Each test of R322 decides somewhere, for both commands. -/
theorem witness_HeaderTestsDecideTheError :
    headerTests 0xD0 9 4 0 0 = 1 ∧ headerTests 0xD0 9 5 0 0 = 2 ∧ headerTests 0xC0 9 5 0 0 = 3 ∧
      headerTests 0x4F 9 5 0 0 = 4 ∧ headerTests 0x40 9 5 8 0 = 5 ∧ headerTests 0x4F 9 5 0 3 = 3 ∧
      (2 : Word) ∈ [1, 2, 3] ∧ (3 : Word).toNat < State.reset.slots.length ∧
      (0xFFFFFFF8 : Word).toNat + (8 : Word).toNat ≤ 2 ^ 32 := by decide

/-- The operands of a `CTX_INIT` of a FastLZ block of 9 bytes that ends the address space. -/
def initOperands : Args := ⟨3, 2, 0xFFFFFFF7, 9, 0x1000, 5⟩

theorem witness_CtxInitOpensAContext :
    initOperands.a0.toNat < State.reset.slots.length ∧ initOperands.a1 ∈ [1, 2, 3] ∧
      initOperands.a2.toNat + initOperands.a3.toNat ≤ 2 ^ 32 ∧ initOperands.a4.toNat + initOperands.a5.toNat ≤ 2 ^ 32 ∧
      headerTests ((ready [(0x1000, [0x40, 9])] initOperands).mem.read 0x1000).toNat
        (sizeAt (ready [(0x1000, [0x40, 9])] initOperands).mem 0x1000) 5 9 2 = 0 := by decide

theorem witness_HeadersOpenTheirDecoders :
    ((Instr.hdrFlz 9, 0x40, 2) : Instr × Nat × Word) ∈ [(Instr.hdrLz 9, 0x10, 2), (.hdrLzx 9, 0x11, 2),
        (.hdrHuf4 9, 0x24, 3), (.hdrHuf8 9, 0x28, 3), (.hdrRl 9, 0x30, 1), (.hdrFlz 9, 0x40, 2)] ∧
      ({ ready [] initOperands with cmd := 0x10 } : State).cmd = 0x10 ∧ initOperands.a1 = 2 ∧
      5 ≤ initOperands.a5.toNat ∧ (9 : Word).toNat ≤ initOperands.a3.toNat := by decide

theorem witness_RefusedHeadersRaise :
    5 ≤ (5 : Word).toNat ∧ (3 : Word).toNat < State.reset.slots.length ∧ (1 : Word) ∈ [1, 2, 3] ∧
      (Instr.hdrUnrecognised 0xD 0 1).wellFormed = true ∧ (Instr.hdrDif 4 15 1).wellFormed = true ∧
      (Instr.hdrBadFlags 3 1 1).wellFormed = true ∧ kindNumber (3 : BitVec 3).toNat = (1 : Word).toNat := by decide

theorem witness_HeaderInMemoryActsAsItsInstruction :
    (Instr.hdrRl 0x01020304).wellFormed = true ∧ formatOf (.hdrRl 0x01020304) = .hdr ∧
      (0x10 : Byte) ∈ [0x01, 0x02, 0x03, 0x10] ∧
      (ready [(0x1000, [0x30, 4, 3, 2, 1])] initOperands).mem.Holds 0x1000 (encode (.hdrRl 0x01020304)) := by
  refine ⟨by decide, by decide, by decide, ?_⟩
  unfold Memory.Holds; decide

/-- The operands of an `UNCOMPRESS_ANY` of a store block of one byte, exactly long enough, or a byte short. -/
theorem witness_StoreBlockIsCopied :
    ([0x41] : List Byte).length = (1 : Word).toNat ∧
      (ready [(0x1001, [1, 0, 0, 0, 0x41])] ⟨0x1000, 6, 0x1006, 1, 0, 0⟩).mem.read 0x1000 = 0x00 ∧
      sizeAt (ready [(0x1001, [1, 0, 0, 0, 0x41])] ⟨0x1000, 6, 0x1006, 1, 0, 0⟩).mem 0x1000 = (1 : Word).toNat ∧
      (ready [(0x1001, [1, 0, 0, 0, 0x41])] ⟨0x1000, 6, 0x1006, 1, 0, 0⟩).mem.Holds (0x1000 + 5) [0x41] ∧
      5 ≤ (5 : Word).toNat ∧ (5 : Word).toNat < 5 + (1 : Word).toNat ∧ (1 : Word).toNat ≤ (1 : Word).toNat ∧
      5 + (1 : Word).toNat ≤ (6 : Word).toNat ∧ Apart 0x1000 6 0x1006 1 := by
  refine ⟨by decide, by decide, by decide, ?_, by decide⟩
  unfold Memory.Holds; decide

/-- A state whose slot 0 is a given context and whose operands name it and a chunk at 0x1000. -/
def feeding (c : Ctx) (chunk : List Byte) : State :=
  holding c (ready [(0x1000, chunk)] ⟨0, 0x1000, BitVec.ofNat 32 chunk.length, 0, 0, 0⟩)

theorem witness_CtxReadByStateOfItsSlot :
    (feeding Ctx.reset [1]).SlotIs Ctx.reset ∧ Ctx.reset.state = .idle ∧
      (feeding { reading .rl 0 .rlCtrl 0 5 with state := .error, err := 8 } [1]).SlotIs
        { reading .rl 0 .rlCtrl 0 5 with state := .error, err := 8 } ∧
      (feeding { reading .rl 0 .rlCtrl 5 5 with state := .finished } [1]).SlotIs
        { reading .rl 0 .rlCtrl 5 5 with state := .finished } ∧
      (0x1000 : Word).toNat + (1 : Word).toNat ≤ 2 ^ 32 := ⟨rfl, rfl, rfl, rfl, by decide⟩

/-- A run-length context at the start of its payload is in order. -/
theorem ok_reading_rl : (reading .rl 0 .rlCtrl 0 5).Ok :=
  .inr ⟨by decide, by decide, ⟨rfl, rfl⟩, by decide, by decide, fun _ => ⟨rfl, trivial⟩, by decide⟩

theorem witness_CtxReadByStateOfItsSlot_active :
    (feeding (reading .rl 0 .rlCtrl 0 5) [0x82, 7]).SlotIs (reading .rl 0 .rlCtrl 0 5) ∧
      (reading .rl 0 .rlCtrl 0 5).state = .active ∧ (reading .rl 0 .rlCtrl 0 5).Ok ∧
      (0x1000 : Word).toNat + (2 : Word).toNat ≤ 2 ^ 32 ∧ Apart 0x1000 2 0x4000 5 :=
  ⟨rfl, rfl, ok_reading_rl, by decide, by decide⟩

theorem witness_ChunkingIsUnobservable :
    (feeding (reading .rl 0 .rlCtrl 0 5) [0x82, 7]).SlotIs (reading .rl 0 .rlCtrl 0 5) ∧
      (reading .rl 0 .rlCtrl 0 5).Ok ∧
      (feeding (reading .rl 0 .rlCtrl 0 5) [0x82, 7]).arg.a2.toNat = (1 : Word).toNat + (1 : Word).toNat ∧
      Apart 0x1000 2 0x4000 5 := ⟨rfl, ok_reading_rl, by decide, by decide⟩

theorem witness_OneShotEqualsStreaming :
    3 < State.reset.slots.length ∧ (0x1000 : Word).toNat + (7 : Word).toNat ≤ 2 ^ 32 ∧
      headerTests ((ready [(0x1000, [0x30, 5, 0, 0, 0, 0x82, 7])] ⟨0x1000, 7, 0x4000, 5, 0, 0⟩).mem.read 0x1000).toNat
        (sizeAt (ready [(0x1000, [0x30, 5, 0, 0, 0, 0x82, 7])] ⟨0x1000, 7, 0x4000, 5, 0, 0⟩).mem 0x1000) 7 5 0 = 0 ∧
      ((ready [(0x1000, [0x30, 5, 0, 0, 0, 0x82, 7])] ⟨0x1000, 7, 0x4000, 5, 0, 0⟩).mem.read 0x1000).toNat ≠ 0 ∧
      Apart 0x1000 7 0x4000 5 := by decide

theorem witness_CtxReadOfATokenRunsIt :
    (feeding (reading .rl 0 .rlCtrl 0 5) [0x82, 7]).SlotIs (reading .rl 0 .rlCtrl 0 5) ∧
      (reading .rl 0 .rlCtrl 0 5).Ok ∧ (Instr.rltRun 2 7).wellFormed = true ∧
      (reading .rl 0 .rlCtrl 0 5).nextFormat = some (formatOf (.rltRun 2 7)) ∧
      (feeding (reading .rl 0 .rlCtrl 0 5) [0x82, 7]).mem.Holds 0x1000 (encode (.rltRun 2 7)) ∧
      (feeding (reading .rl 0 .rlCtrl 0 5) [0x82, 7]).arg.a2.toNat = (encode (.rltRun 2 7)).length := by
  refine ⟨rfl, ok_reading_rl, by decide, by decide, ?_, by decide⟩
  unfold Memory.Holds; decide

theorem witness_CtxDiscardFreesTheSlot :
    State.reset.slots.length ≤ (4 : Word).toNat ∧ (3 : Word).toNat < State.reset.slots.length := by decide

theorem witness_CtxFinishedAndQueryReport :
    State.reset.slots.length ≤ (4 : Word).toNat ∧ State.reset.SlotIs Ctx.reset ∧ Ctx.reset.state = .idle ∧
      (feeding (reading .rl 0 .rlCtrl 0 5) []).SlotIs (reading .rl 0 .rlCtrl 0 5) ∧
      (reading .rl 0 .rlCtrl 0 5).state ≠ .idle := ⟨by decide, rfl, rfl, rfl, by decide⟩

/-- A run of 5 into a block of 4: the read that raises. -/
theorem witness_ContextErrorIsSticky_raised :
    (feeding (reading .rl 0 .rlCtrl 0 4) [0x82]).slots[0]? = some (reading .rl 0 .rlCtrl 0 4) ∧
      (reading .rl 0 .rlCtrl 0 4).state = .active ∧ (feeding (reading .rl 0 .rlCtrl 0 4) [0x82]).arg.a0.toNat = 0 ∧
      ∃ t, exec .ctxRead (feeding (reading .rl 0 .rlCtrl 0 4) [0x82]) = .next t ∧ decide (t.errcode ≠ 0) = true :=
  ⟨rfl, rfl, rfl, next_of_answers (by decide)⟩

theorem witness_ContextErrorIsSticky_again :
    formatOf .ctxQuery = .cmd ∧
      ∃ t, exec .ctxQuery (feeding { reading .rl 0 .rlCtrl 0 4 with state := .error, err := 8 } []) = .next t :=
  ⟨by decide, ⟨_, rfl⟩⟩

theorem witness_SlotStateMachine :
    State.reset.SlotIs Ctx.reset ∧ (∃ t, exec .ctxDiscard State.reset = .next t ∧ decide (t.errcode ≠ 13) = true) ∧
      (∃ t, exec .ctxRead State.reset = .next t ∧ decide (t.errcode = 11) = true) ∧
      (∃ t, exec .ctxInit State.reset = .next t ∧ decide (t.errcode = 13) = true) ∧
      ∃ t, exec .ctxInit (ready [(0x1000, [0x40, 9])] initOperands) = .next t ∧ decide (t.errcode = 0) = true :=
  ⟨rfl, next_of_answers (by decide), next_of_answers (by decide), next_of_answers (by decide),
    next_of_answers (by decide)⟩

theorem witness_WritesAreBounded :
    Instr.packSet.wellFormed = true ∧ State.reset.Inv ∧
      (∃ t, exec .packSet State.reset = .next t) ∧
      ∀ r ∈ (ready [] ⟨0x4000, 2, 3, 0, 0, 0⟩).writable .packSet, 0x4002 < r.1 ∨ r.1 + r.2 ≤ 0x4002 :=
  ⟨by decide, witness_ExecKeepsInv.2.1, ⟨_, rfl⟩, by decide⟩

theorem witness_LiteralRuns :
    (feeding (reading .rl 0 .rlCtrl 3 5) []).SlotIs (reading .rl 0 .rlCtrl 3 5) ∧
      (reading .rl 0 .rlCtrl 3 5).outPos.toNat + ([1, 2] : List Byte).length ≤ (reading .rl 0 .rlCtrl 3 5).outSize.toNat ∧
      (feeding (reading .lz 2 .flOp 0 1) []).SlotIs (reading .lz 2 .flOp 0 1) ∧
      (reading .lz 2 .flOp 0 1).outPos.toNat + ([1] : List Byte).length ≤ (reading .lz 2 .flOp 0 1).outSize.toNat :=
  ⟨rfl, by decide, rfl, by decide⟩

theorem witness_RleRepeatRun :
    (feeding (reading .rl 0 .rlCtrl 1 131) []).SlotIs (reading .rl 0 .rlCtrl 1 131) ∧
      (1 : Word).toNat + ((127 : BitVec 7).toNat + 3) ≤ (131 : Word).toNat := ⟨rfl, by decide⟩

theorem witness_RunsPastTheSizeOverrun :
    (feeding (reading .rl 0 .rlCtrl 3 5) []).SlotIs (reading .rl 0 .rlCtrl 3 5) ∧
      (Instr.rltRun 0 9).wellFormed = true ∧ (5 : Word).toNat < (3 : Word).toNat + ((0 : BitVec 7).toNat + 3) ∧
      (Instr.rltLits [1, 2, 3]).wellFormed = true ∧ (Instr.fltLits [1, 2, 3]).wellFormed = true ∧
      (feeding (reading .lz 2 .flOp 3 5) []).SlotIs (reading .lz 2 .flOp 3 5) := ⟨rfl, by decide, by decide, by decide,
        by decide, rfl⟩

theorem witness_LzFlagByteAndLiteral :
    (feeding (reading .lz 0 .lzFlag 3 4) []).SlotIs (reading .lz 0 .lzFlag 3 4) ∧ (3 : Word).toNat < (4 : Word).toNat ∧
      (feeding { reading .lz 0 .lzToken 3 4 with flags := 0x7F, nflag := 1 } []).SlotIs
        { reading .lz 0 .lzToken 3 4 with flags := 0x7F, nflag := 1 } ∧ (0x7F : Byte).getLsbD 7 = false :=
  ⟨rfl, by decide, rfl, by decide⟩

/-- A context before a back-reference with 3 bytes of output. -/
def beforeRef (mode : BitVec 4) (outSize : Word) : Ctx :=
  { reading .lz mode .lzToken 3 outSize with flags := 0x80, nflag := 1 }

theorem witness_LzBackReference :
    (feeding (beforeRef 0 6) []).SlotIs (beforeRef 0 6) ∧ (feeding (beforeRef 1 6) []).SlotIs (beforeRef 1 6) ∧
      (beforeRef 0 6).flags.getLsbD 7 = true ∧ (2 : BitVec 12).toNat + 1 ≤ (beforeRef 0 6).outPos.toNat ∧
      (2 : BitVec 16).toNat + 1 ≤ (beforeRef 1 6).outPos.toNat ∧
      (beforeRef 0 6).outPos.toNat + ((0 : BitVec 4).toNat + 3) ≤ (beforeRef 0 6).outSize.toNat ∧
      (beforeRef 1 6).outPos.toNat + ((0 : Byte).toNat + 3) ≤ (beforeRef 1 6).outSize.toNat :=
  ⟨rfl, rfl, by decide, by decide, by decide, by decide, by decide⟩

theorem witness_FastMatch :
    (feeding (reading .lz 2 .flOp 3 12) []).SlotIs (reading .lz 2 .flOp 3 12) ∧
      1 ≤ (6 : BitVec 3).toNat ∧ (6 : BitVec 3).toNat ≤ 6 ∧ (2 : BitVec 13).toNat + 1 ≤ (3 : Word).toNat ∧
      (3 : Word).toNat + ((6 : BitVec 3).toNat + 2) ≤ (12 : Word).toNat ∧
      (3 : Word).toNat + (9 + (0 : Byte).toNat) ≤ (12 : Word).toNat := ⟨rfl, by decide⟩

theorem witness_BadBackReferencesRaise :
    (feeding (beforeRef 0 5) []).SlotIs (beforeRef 0 5) ∧ (feeding (beforeRef 1 5) []).SlotIs (beforeRef 1 5) ∧
      (feeding (reading .lz 2 .flOp 3 5) []).SlotIs (reading .lz 2 .flOp 3 5) ∧
      (Instr.lztRef 0 3).wellFormed = true ∧ (Instr.lzxtRef 0 2).wellFormed = true ∧
      (Instr.fltMatchShort 1 3).wellFormed = true ∧ (Instr.fltMatchLong 0 2).wellFormed = true ∧
      (3 : Word).toNat < (5 : Word).toNat ∧ (3 : Word).toNat < (3 : BitVec 12).toNat + 1 ∧
      (5 : Word).toNat < (3 : Word).toNat + ((0 : Byte).toNat + 3) := ⟨rfl, rfl, rfl, by decide⟩

/-- The last table byte of a 4-bit context; with l = h = 1 the sum of R267 is exactly 1. -/
theorem witness_HuffmanTableByte :
    let c : Ctx := { reading .huff 4 .hfTable 0 5 with tpos := 7 }
    (feeding c []).SlotIs c ∧ c.outPos ≠ c.outSize ∧ c.tpos.toNat < 16 / 2 ∧
      (∀ j : Fin 256, ((c.len.setIfInBounds 14 (1 : BitVec 4)).setIfInBounds 15 1)[j] =
        if j.val = 2 * c.tpos.toNat then 1 else if j.val = 2 * c.tpos.toNat + 1 then 1 else c.len[j]) := by
  refine ⟨rfl, by decide, by decide, ?_⟩
  decide +kernel

/-- The bits of no code begin nothing. -/
theorem noCodeBegins_nil (lens : List Nat) : NoCodeBegins lens [] := by
  intro y hy hp
  have := hp.length_le
  simp [codeWord] at this
  exact hy.2 (by simpa using this)

/-- A Huffman context in its code stream, with codes for symbols 0 and 1 of length 1. -/
def inStream (mode : BitVec 4) (outSize : Word) : Ctx :=
  { reading .huff mode .hfData 0 outSize with
    tpos := 8, len := ((Vector.replicate 256 0).setIfInBounds 0 1).setIfInBounds 1 1 }

/-- T49c's stream byte: two bytes complete the output and six bits are left; the same byte fills eight of 100. -/
theorem witness_HuffmanByteSymbols :
    (feeding (inStream 8 2) []).SlotIs (inStream 8 2) ∧ (inStream 8 2).mode ≠ 4 ∧
      kraftSum (inStream 8 2).lens ≤ 2 ^ 15 ∧ ([] : List Bool).length = (inStream 8 2).codeLen.toNat ∧
      bitsValue [] = (inStream 8 2).code.toNat ∧ NoCodeBegins (inStream 8 2).lens [] ∧
      (∀ y ∈ [0, 1], HasCode (inStream 8 2).lens y) ∧
      [] ++ (List.range 8).map (fun k => (0x02 : Byte).getLsbD k) =
        [0, 1].flatMap (codeWord (inStream 8 2).lens) ++ [false, false, false, false, false, false] ∧
      (inStream 8 2).outPos.toNat + [0, 1].length = (inStream 8 2).outSize.toNat :=
  ⟨rfl, by decide, by decide +kernel, rfl, rfl, noCodeBegins_nil _, by decide +kernel, by decide +kernel, by decide⟩

theorem witness_HuffmanByteSymbols_pending :
    [] ++ (List.range 8).map (fun k => (0x02 : Byte).getLsbD k) =
        [0, 1, 0, 0, 0, 0, 0, 0].flatMap (codeWord (inStream 8 100).lens) ++ [] ∧
      (inStream 8 100).outPos.toNat + [0, 1, 0, 0, 0, 0, 0, 0].length < (inStream 8 100).outSize.toNat ∧
      NoCodeBegins (inStream 8 100).lens [] := ⟨by decide +kernel, by decide, noCodeBegins_nil _⟩

theorem witness_HuffmanNibbleSymbols :
    (feeding (inStream 4 1) []).SlotIs (inStream 4 1) ∧ (inStream 4 1).mode = 4 ∧
      kraftSum (inStream 4 1).lens ≤ 2 ^ 15 ∧ ([] : List Bool).length = (inStream 4 1).codeLen.toNat ∧
      bitsValue [] = (inStream 4 1).code.toNat ∧ NoCodeBegins (inStream 4 1).lens [] ∧
      (∀ y ∈ [0, 1], HasCode (inStream 4 1).lens y) ∧
      [] ++ (List.range 8).map (fun k => (0x02 : Byte).getLsbD k) =
        [0, 1].flatMap (codeWord (inStream 4 1).lens) ++ [false, false, false, false, false, false] ∧
      [0, 1] = (if (inStream 4 1).nibHave then [(inStream 4 1).nibHold.toNat] else []) ++ [0, 1] ∧
      (inStream 4 1).outPos.toNat + [0, 1].length / 2 = (inStream 4 1).outSize.toNat :=
  ⟨rfl, by decide, by decide +kernel, rfl, rfl, noCodeBegins_nil _, by decide +kernel, by decide +kernel, by decide,
    by decide⟩

/-- A nibble waits before the byte and another after it. -/
theorem witness_HuffmanNibbleSymbols_pending :
    [] ++ (List.range 8).map (fun k => (0x02 : Byte).getLsbD k) =
        [0, 1, 0, 0, 0, 0, 0, 0].flatMap (codeWord { inStream 4 100 with nibHave := true, nibHold := 9 }.lens) ++ [] ∧
      [9, 0, 1, 0, 0, 0, 0, 0, 0] = (if ({ inStream 4 100 with nibHave := true, nibHold := 9 } : Ctx).nibHave then
        [({ inStream 4 100 with nibHave := true, nibHold := 9 } : Ctx).nibHold.toNat] else []) ++ [0, 1, 0, 0, 0, 0, 0, 0] ∧
      (inStream 4 100).outPos.toNat + [9, 0, 1, 0, 0, 0, 0, 0, 0].length / 2 < (inStream 4 100).outSize.toNat :=
  ⟨by decide +kernel, by decide, by decide⟩

/-- No symbol has a code: seven bits pending and the eighth arrives. -/
theorem witness_UnmatchedBitsRaiseBadCode :
    let c : Ctx := { reading .huff 4 .hfData 0 1 with tpos := 8, code := 0x7F, codeLen := 7 }
    (feeding c []).SlotIs c ∧ (List.replicate 7 true).length = c.codeLen.toNat ∧
      bitsValue (List.replicate 7 true) = c.code.toNat ∧ 15 ≤ (List.replicate 7 true).length + 8 ∧
      NoCodeBegins c.lens ((List.replicate 7 true ++ (List.range 8).map (fun k => (0xFF : Byte).getLsbD k)).take 15) := by
  refine ⟨rfl, by decide, by decide, by decide, ?_⟩
  intro y hy
  have h0 : ∀ y < 16, (Ctx.lens { reading .huff 4 .hfData 0 1 with tpos := 8, code := 0x7F, codeLen := 7 }).getD y 0 = 0 :=
    by decide +kernel
  exact absurd (h0 y (by simpa [Ctx.lens_length, Ctx.symbols, reading, Config.hufN4] using hy.1)) hy.2

theorem witness_CanonicalCodesArePrefixFree :
    (∀ l ∈ [1, 2, 0, 2], l ≤ 15) ∧ kraftSum [1, 2, 0, 2] = 2 ^ 15 ∧ HasCode [1, 2, 0, 2] 0 ∧ HasCode [1, 2, 0, 2] 3 := by
  decide

/-- The lengths of T52b, and three of length 1. -/
theorem witness_HufLoadWritesTheCanonicalCodes :
    (1 : Word).toNat < 2 ∧ (0xFFFFFFF8 : Word).toNat + 16 / 2 ≤ 2 ^ 32 ∧ (0xFFFFFFD8 : Word).toNat + 2 * 16 ≤ 2 ^ 32 ∧
      ((List.range 16).map (fun y =>
        if [0x21, 0x02].getD (y / 2) 0 / 16 ^ (y % 2) % 16 = 0 then 0
        else 2 ^ (15 - [0x21, 0x02].getD (y / 2) 0 / 16 ^ (y % 2) % 16))).sum ≤ 2 ^ 15 ∧
      2 ^ 15 < ((List.range 16).map (fun y =>
        if [0x11, 0x01].getD (y / 2) 0 / 16 ^ (y % 2) % 16 = 0 then 0
        else 2 ^ (15 - [0x11, 0x01].getD (y / 2) 0 / 16 ^ (y % 2) % 16))).sum ∧
      Apart 0xFFFFFFF8 8 0xFFFFFFD8 32 := by decide

theorem witness_HufBuildWritesBothTables :
    (1 : Word).toNat < 2 ∧ (0x2000 : Word).toNat + 4 * 16 ≤ 2 ^ 32 ∧ Apart 0x2000 (4 * 16) 0x2040 (16 / 2) ∧
      Apart 0x2000 (4 * 16) 0x2048 (2 * 16) ∧ Apart 0x2040 (16 / 2) 0x2048 (2 * 16) := by decide

theorem witness_BuiltLengthsAreUsable :
    (List.replicate 16 (2 ^ 32 - 1)).length = 16 ∧ ∀ w ∈ List.replicate 16 (2 ^ 32 - 1), w < 2 ^ 32 := by decide

theorem witness_FrequentSymbolsHaveShortCodes :
    ([5, 1, 1, 1, 1, 0, 0, 0, 0, 0, 0, 0, 0, 0, 0, 0] : List Nat).length = 16 ∧
      (buildLengths [5, 1, 1, 1, 1, 0, 0, 0, 0, 0, 0, 0, 0, 0, 0, 0]).2 = 0 := ⟨rfl, by decide +kernel⟩

/-- T52's frequencies. -/
theorem witness_HufLoadReproducesHufBuild :
    (∃ t, exec .hufBuild (ready [(0x2000, [1, 0, 0, 0, 1, 0, 0, 0, 1])] ⟨0x2000, 1, 0x3000, 0x3100, 0, 0⟩) = .next t ∧
      decide (t.errcode = 0) = true) ∧
      (0x4000 : Word).toNat + 2 * 16 ≤ 2 ^ 32 ∧ Apart 0x3000 (16 / 2) 0x4000 (2 * 16) :=
  ⟨next_of_answers (by decide +kernel), by decide, by decide⟩

theorem witness_PackGetReadsTheElement :
    (0xFFFFFFFE : Word).toNat + (2 : Word).toNat ≤ 2 ^ 32 ∧ 2 ^ 32 < (0xFFFFFFFE : Word).toNat + (3 : Word).toNat ∧
      ¬ (1 ≤ (33 : Word).toNat ∧ (33 : Word).toNat ≤ 32) ∧
      (2 : Word).toNat ≤ ((3 : Word).toNat * (5 : Word).toNat + (3 : Word).toNat - 1) / 8 ∧
      ((3 : Word).toNat * (4 : Word).toNat + (3 : Word).toNat - 1) / 8 < (2 : Word).toNat := by decide

theorem witness_PackSetWritesTheElement :
    (0xFFFFFFFE : Word).toNat + (2 : Word).toNat ≤ 2 ^ 32 ∧ 2 ^ 32 < (0xFFFFFFFE : Word).toNat + (3 : Word).toNat ∧
      ¬ (1 ≤ (0 : Word).toNat ∧ (0 : Word).toNat ≤ 32) ∧
      (2 : Word).toNat ≤ ((16 : Word).toNat * (1 : Word).toNat + (16 : Word).toNat - 1) / 8 ∧
      ((16 : Word).toNat * (0 : Word).toNat + (16 : Word).toNat - 1) / 8 < (2 : Word).toNat := by decide

theorem witness_PackedElementActsUnderItsCommand :
    (0xFFFFFFFE : Word).toNat + (2 : Word).toNat ≤ 2 ^ 32 ∧ 1 ≤ (16 : Word).toNat ∧ (16 : Word).toNat ≤ 32 ∧
      ((16 : Word).toNat * (0 : Word).toNat + (16 : Word).toNat - 1) / 8 < (2 : Word).toNat ∧
      ({ State.reset with cmd := 0x20 } : State).cmd = 0x20 ∧
      ({ State.reset with cmd := 0x21 } : State).cmd = 0x21 := by decide

theorem witness_PackedValuesRoundTrip :
    (∃ t, exec .packSet (ready [] ⟨0x4000, 2, 3, 2, 7, 0⟩) = .next t ∧ decide (t.errcode = 0) = true) ∧
      ((3 : Word).toNat * (4 : Word).toNat + (3 : Word).toNat - 1) / 8 < (2 : Word).toNat :=
  ⟨next_of_answers (by decide), by decide⟩

/-- The last position of the source has no room for a match; the position behind it is out of range. -/
theorem witness_LzFindReportsTheBestMatch :
    (∃ fits : Nat → Nat → Prop, ∀ off len, fits off len ↔ 1 ≤ off ∧ off ≤ 6 ∧ len ≤ 0 ∧
        ∀ k < len, State.reset.mem.read (0x1000 + 6 + k) = State.reset.mem.read (0x1000 + 6 - off + k)) ∧
      min (min (6 : Word).toNat 4096) (2 ^ 32) = 6 ∧ min 18 ((6 : Word).toNat - (6 : Word).toNat) = 0 ∧
      (0xFFFFFFFA : Word).toNat + (6 : Word).toNat ≤ 2 ^ 32 ∧ (3 : Word).toNat < 4 ∧ 4 ≤ (4 : Word).toNat ∧
      (6 : Word).toNat < (7 : Word).toNat ∧ (6 : Word).toNat ≤ (6 : Word).toNat :=
  ⟨⟨_, fun _ _ => Iff.rfl⟩, by decide⟩

/-- `abcabc` at position 3, and a context whose output is `abc`. -/
theorem witness_ReportedMatchesDecode :
    (∃ t, exec .lzFind (ready [(0x1000, [0x61, 0x62, 0x63, 0x61, 0x62, 0x63])] ⟨0x1000, 6, 3, 0, 0, 0⟩) = .next t ∧
      decide (t.res.r0 = 1 ∧ t.res.r1 = 3 ∧ t.res.r2 = 3) = true) ∧
      (holding (beforeRef 0 6) (ready [(0x4000, [0x61, 0x62, 0x63])] ⟨0, 0, 0, 0, 0, 0⟩)).SlotIs (beforeRef 0 6) ∧
      (beforeRef 0 6).flags.getLsbD 7 = true ∧ (beforeRef 0 6).mode = 0 ∧ (beforeRef 0 6).outPos = 3 ∧
      (beforeRef 0 6).outSize = 6 ∧
      ∀ k < (3 : Word).toNat,
        (holding (beforeRef 0 6) (ready [(0x4000, [0x61, 0x62, 0x63])] ⟨0, 0, 0, 0, 0, 0⟩)).mem.read (0x4000 + k) =
          (ready [(0x1000, [0x61, 0x62, 0x63, 0x61, 0x62, 0x63])] ⟨0x1000, 6, 3, 0, 0, 0⟩).mem.read (0x1000 + k) :=
  ⟨next_of_answers (by decide), rfl, by decide, by decide, by decide, by decide, by decide⟩

/-- Three bytes that do not shrink; ten equal bytes that give a block of 9, into 8 and into 9 bytes. -/
theorem witness_LzCompressOutcomes :
    (3 : Word).toNat ≤ (compressedBlock (ready [(0x1000, [1, 2, 3])] ⟨0, 0, 0, 0, 0, 0⟩).mem 256 0x1000 3 false false).length ∧
      (compressedBlock (ready [(0x1000, List.replicate 10 0x61)] ⟨0, 0, 0, 0, 0, 0⟩).mem 256 0x1000 10 false false).length
        = 9 ∧
      Apart 0x1000 10 0x4000 (min (8 : Word).toNat (10 : Word).toNat) ∧ Apart 0x1000 10 0xFF7 9 ∧ (3 : Word).toNat < 4 := by
  decide +kernel

theorem witness_LzRoundTrip :
    (∃ t, exec .lzCompress (ready [(0x1000, List.replicate 10 0x61)] ⟨0x1000, 10, 0x4000, 10, 0, 0⟩) = .next t ∧
      decide (t.errcode = 0 ∧ t.res.r0 = 9) = true) ∧
      (0x5000 : Word).toNat + (10 : Word).toNat ≤ 2 ^ 32 ∧ Apart 0x4000 9 0x5000 10 :=
  ⟨next_of_answers (by decide +kernel), by decide, by decide⟩

end Sys2Proof.Tests
end

/-!
The statements about the state of the machine (10_state.md): what every command and every token keeps, and what they
do not read.
-/

namespace Sys2Proof.Machine

/-! ### Outcomes -/

/-- `P` holds of the next state, where the outcome is one. -/
def AllNext (P : State → Prop) : Outcome → Prop
  | .next t => P t
  | .fault _ => True
  | .refused _ => True

@[simp] theorem allNext_next (P : State → Prop) (t : State) : AllNext P (.next t) ↔ P t := Iff.rfl

@[simp] theorem allNext_refused (P : State → Prop) (r : Refusal) : AllNext P (.refused r) := trivial

theorem AllNext.of_eq {P : State → Prop} {o : Outcome} {t : State} (h : AllNext P o) (e : o = .next t) : P t := by
  subst e; exact h

theorem AllNext.mono {P Q : State → Prop} {o : Outcome} (h : AllNext P o) (hPQ : ∀ t, P t → Q t) :
    AllNext Q o := by
  cases o with
  | next t => exact hPQ t h
  | fault r => trivial
  | refused r => trivial

/-! ### The parts of the invariant -/

theorem State.Inv.mem_wf {s : State} (h : s.Inv) : s.mem.wf := h.1

theorem State.Inv.slots_ok {s : State} (h : s.Inv) : ∀ c ∈ s.slots, c.Ok := h.2.1

theorem State.Inv.response_ok {s : State} (h : s.Inv) : s.ResponseOk := h.2.2

/-- `raise` leaves a legal response (R37, R38): ERR alone, and a code of R361. -/
theorem State.raiseCode_responseOk (s : State) (code : Byte) (res : Results) (h1 : 1 ≤ code.toNat)
    (h2 : code.toNat ≤ 14) : (s.raiseCode code res).ResponseOk := by
  have hne : code ≠ 0 := by rintro rfl; simp at h1
  exact ⟨.inr (.inl rfl), ⟨fun _ => hne, fun _ => rfl⟩, h2⟩

/-- A command that does not raise leaves a legal response, as none gives FIN and NOTSMALLER together (R37). -/
theorem State.done_responseOk (s : State) (fin notSmaller : Bool) (res : Results)
    (h : fin = false ∨ notSmaller = false) : (s.done fin notSmaller res).ResponseOk := by
  unfold State.ResponseOk
  rw [State.done_status, State.done_errcode]
  revert fin notSmaller
  decide

theorem State.Inv.slotAt_ok {s : State} (h : s.Inv) {w : Word} {c : Ctx} (hc : s.slotAt w = some c) : c.Ok :=
  h.slots_ok c (List.mem_of_getElem? hc)

/-- The error a slot holds is one a command may report (R33, R361). -/
theorem Ctx.Ok.err_range {c : Ctx} (h : c.Ok) (he : c.state = .error) : 1 ≤ c.err.toNat ∧ c.err.toNat ≤ 14 := by
  rcases h with hi | ⟨_, _, _, _, herr, _, _⟩
  · rw [he] at hi; cases hi
  · have key : ∀ b ∈ payloadCodes, 1 ≤ b.toNat ∧ b.toNat ≤ 14 := by decide
    exact key _ (herr he)

/-- An accepted header of a token block has one of the base types 1 to 4 (R94, R156). -/
theorem Header.base_cases {h : Header} (hrec : h.recognised = true) (hb : h.base ≠ 0) :
    h.base = 1 ∨ h.base = 2 ∨ h.base = 3 ∨ h.base = 4 := by
  simp only [Header.recognised, decide_eq_true_eq] at hrec
  generalize h.base = b at *
  revert b
  decide

/-- The decoder an accepted header selects has a kind, a mode and a phase that occur together (R325). -/
theorem freshContext_typed {h : Header} (dst : Word)
    (hbase : h.base = 1 ∨ h.base = 2 ∨ h.base = 3 ∨ h.base = 4) (hlegal : legalFlags h.base h.flags = true) :
    (freshContext h dst).typed := by
  have hphase : (freshContext h dst).phase = headerPhase h := rfl
  have hkind : (freshContext h dst).kind = headerKind h := rfl
  have hmode : (freshContext h dst).mode = headerMode h := rfl
  simp only [headerPhase, headerKind, headerMode, kindOf] at hphase hkind hmode
  rcases hbase with e | e | e | e <;> simp only [e] at hphase hkind hmode <;>
    simp only [Ctx.typed, hphase, hkind, hmode]
  · cases h.flags.getLsbD 0 <;> simp
  · simpa [legalFlags, e] using hlegal
  · simp
  · simp

/-- A fresh context carries nothing over from a byte before (R327). -/
theorem freshContext_carried {h : Header} (dst : Word)
    (hbase : h.base = 1 ∨ h.base = 2 ∨ h.base = 3 ∨ h.base = 4) : (freshContext h dst).carried := by
  have hphase : (freshContext h dst).phase = headerPhase h := rfl
  have htpos : (freshContext h dst).tpos.toNat < (freshContext h dst).symbols / 2 := by
    change 0 < _
    rcases (freshContext h dst).symbols_le with hs | hs <;> rw [hs] <;> decide
  rcases hbase with e | e | e | e
  · rw [show headerPhase h = .lzFlag by simp [headerPhase, e]] at hphase
    simp only [Ctx.carried, hphase]
  · rw [show headerPhase h = .hfTable by simp [headerPhase, e]] at hphase
    exact (Ctx.carried_hfTable hphase).mpr ⟨htpos, rfl, rfl, rfl⟩
  · rw [show headerPhase h = .rlCtrl by simp [headerPhase, e]] at hphase
    simp only [Ctx.carried, hphase]
  · rw [show headerPhase h = .flOp by simp [headerPhase, e]] at hphase
    simp only [Ctx.carried, hphase]

/-- A context opened on an accepted token header satisfies the invariant (R322 to R327). -/
theorem freshContext_ok {h : Header} {avail cap : Nat} {want : Option Kind} (dst : Word)
    (hc : checkHeader h avail cap want = none) (hb : h.base ≠ 0) (hfit : dst.toNat + cap ≤ 2 ^ 32) :
    (freshContext h dst).Ok := by
  obtain ⟨-, hrec, -, -, hlegal, hsize⟩ := (checkHeader_eq_none_iff h avail cap want).mp hc
  have hbase := Header.base_cases hrec hb
  have hst : (freshContext h dst).state = if h.size = 0 then .finished else .active := rfl
  have hne : (freshContext h dst).state ≠ .error := by rw [hst]; split <;> decide
  have hfin : (freshContext h dst).state = .finished ↔ (0 : Word) = h.size := by
    rw [hst, eq_comm (b := h.size)]
    split
    · next hz => exact iff_of_true rfl hz
    · next hz => exact iff_of_false (by decide) hz
  exact .inr ⟨(Nat.add_le_add_left hsize _).trans hfit, Nat.zero_le _, freshContext_typed dst hbase hlegal, hfin,
    fun he => absurd he hne, fun _ => ⟨rfl, freshContext_carried dst hbase⟩, fun hn => nomatch hn⟩

/-! ### What a command keeps -/

/-- `CMD`, the operands, the number of slots, `D_FAST` and the host's actions are the same. -/
structure State.SameFrame (s t : State) : Prop where
  cmd : t.cmd = s.cmd
  arg : t.arg = s.arg
  length : t.slots.length = s.slots.length
  dFast : t.dFast = s.dFast
  host : t.host = s.host

/-- A change that leaves those alone and keeps the invariant. -/
structure State.Keeps (s t : State) : Prop extends s.SameFrame t where
  inv : s.Inv → t.Inv

namespace State.Keeps

variable {s t : State}

theorem refl (s : State) : s.Keeps s := ⟨⟨rfl, rfl, rfl, rfl, rfl⟩, id⟩

theorem raiseCode (h : s.Keeps t) (code : Byte) (res : Results)
    (hc : s.Inv → 1 ≤ code.toNat ∧ code.toNat ≤ 14) : s.Keeps (t.raiseCode code res) :=
  { h with inv := fun hi =>
      ⟨(h.inv hi).mem_wf, (h.inv hi).slots_ok, t.raiseCode_responseOk code res (hc hi).1 (hc hi).2⟩ }

theorem raise (h : s.Keeps t) (e : Err) : s.Keeps (t.raise e) := h.raiseCode _ _ fun _ => e.code_range

theorem done (h : s.Keeps t) (fin notSmaller : Bool) (res : Results) (hf : fin = false ∨ notSmaller = false) :
    s.Keeps (t.done fin notSmaller res) :=
  { h with inv := fun hi =>
      ⟨(h.inv hi).mem_wf, (h.inv hi).slots_ok, t.done_responseOk fin notSmaller res hf⟩ }

theorem setMem (h : s.Keeps t) (m : Memory) (hm : s.Inv → m.wf) : s.Keeps (t.setMem m) :=
  { h with inv := fun hi => ⟨hm hi, (h.inv hi).slots_ok, (h.inv hi).response_ok⟩ }

theorem setSlot (h : s.Keeps t) (i : Nat) (c : Ctx) (hc : s.Inv → c.Ok) : s.Keeps (t.setSlot i c) where
  cmd := h.cmd
  arg := h.arg
  length := by simpa using h.length
  dFast := h.dFast
  host := h.host
  inv hi := by
    refine ⟨(h.inv hi).mem_wf, fun d hd => ?_, (h.inv hi).response_ok⟩
    rcases List.mem_or_eq_of_mem_set hd with hd | rfl
    · exact (h.inv hi).slots_ok d hd
    · exact hc hi

theorem putRun (h : s.Keeps t) (i : Nat) (r : Run) (hr : s.Inv → r.mem.wf ∧ r.ctx.Ok) : s.Keeps (t.putRun i r) :=
  (h.setMem r.mem fun hi => (hr hi).1).setSlot i r.ctx fun hi => (hr hi).2

/-- A dropped slot is `IDLE`, and of such a slot the invariant says nothing. -/
theorem dropSlot (h : s.Keeps t) (i : Nat) : s.Keeps (t.dropSlot i) :=
  { h.setSlot i (freeSlot t.freeCount) fun _ => .inl rfl with }

theorem scratch (h : s.Keeps t) (a n : Nat) (ha : a + n ≤ 2 ^ 32) : s.Keeps (t.scratch a n) :=
  { h with inv := fun hi =>
      ⟨Memory.writeFree_wf _ _ _ _ ha (h.inv hi).mem_wf, (h.inv hi).slots_ok, (h.inv hi).response_ok⟩ }

end State.Keeps

/-! ### Every command keeps the frame and the invariant -/

section Commands

variable (s : State)

theorem getType_keeps (b : Byte) : s.Keeps (getType b s) := by
  unfold getType
  dsimp only
  split
  · exact (State.Keeps.refl s).raiseCode _ _ fun _ => Err.code_range _
  · split
    · exact (State.Keeps.refl s).raiseCode _ _ fun _ => Err.code_range _
    · split
      · exact (State.Keeps.refl s).raiseCode _ _ fun _ => Err.code_range _
      · exact (State.Keeps.refl s).done _ _ _ (.inl rfl)

theorem getSize_keeps (size : Word) : s.Keeps (getSize size s) := by
  unfold getSize
  split
  · exact (State.Keeps.refl s).raise _
  · split
    · exact (State.Keeps.refl s).raise _
    · exact (State.Keeps.refl s).done _ _ _ (.inl rfl)

/-- The store copy writes its data at `ARG2` (R156). -/
theorem storeCopy_keeps (data : List Byte) (hfit : s.arg.a2.toNat + data.length ≤ 2 ^ 32) :
    AllNext s.Keeps (storeCopy data s) := by
  unfold storeCopy
  split
  · exact (State.Keeps.refl s).raise _
  · split
    · trivial
    · exact ((State.Keeps.refl s).setMem _ fun hi => Memory.writeList_wf _ _ _ hfit hi.mem_wf).done _ _ _ (.inr rfl)

theorem execBytes_keeps (data : List Byte) : AllNext s.Keeps (execBytes data s) := by
  unfold execBytes
  split
  · exact (State.Keeps.refl s).raise _
  · next hr =>
    rw [not_or, Bool.not_eq_false, Bool.not_eq_false, regionFits_iff, regionFits_iff] at hr
    split
    · exact (State.Keeps.refl s).raise _
    · next hcap => exact storeCopy_keeps s data (by omega)

/-- What the context of `UNCOMPRESS_ANY` leaves is reported (R326). -/
theorem uncompressResult_keeps (r : Run) (consumed : Nat) (hr : s.Inv → r.mem.wf ∧ r.ctx.Ok) :
    s.Keeps (uncompressResult r consumed s) := by
  have hm := (State.Keeps.refl s).setMem r.mem fun hi => (hr hi).1
  unfold uncompressResult
  dsimp only
  split
  · next he => exact hm.raiseCode _ _ fun hi => (hr hi).2.err_range he
  · exact hm.raiseCode _ _ fun _ => Err.code_range _
  · exact hm.done _ _ _ (.inr rfl)
  · exact hm.done _ _ _ (.inr rfl)

theorem uncompressTokens_keeps (h : Header) (hok : (freshContext h s.arg.a2).Ok) :
    AllNext s.Keeps (uncompressTokens h s) := by
  unfold uncompressTokens
  dsimp only
  split
  · trivial
  · refine uncompressResult_keeps s _ _ fun hi => ?_
    obtain ⟨hm, hc, -, -⟩ :=
      feed_ok (s.arg.a0.toNat + 5) (s.arg.a1.toNat - 5) ⟨s.mem, freshContext h s.arg.a2⟩ hi.mem_wf hok
    exact ⟨hm, hc⟩

theorem uncompressAny_keeps (h : Header) : AllNext s.Keeps (uncompressAny h s) := by
  unfold uncompressAny
  split
  · exact (State.Keeps.refl s).raise _
  · next hr =>
    rw [not_or, Bool.not_eq_false, Bool.not_eq_false, regionFits_iff, regionFits_iff] at hr
    split
    · exact (State.Keeps.refl s).raise _
    · next hc =>
      obtain ⟨-, -, -, -, -, hsize⟩ := (checkHeader_eq_none_iff _ _ _ _).mp hc
      split
      · split
        · exact (State.Keeps.refl s).raise _
        · exact storeCopy_keeps s _ (by rw [Memory.readList_length]; omega)
      · next hb => exact uncompressTokens_keeps s h (freshContext_ok _ hc hb hr.2)

theorem ctxInit_keeps (h : Header) : s.Keeps (ctxInit h s) := by
  unfold ctxInit
  split
  · next kind _ _ =>
    split
    · exact (State.Keeps.refl s).raise _
    · next hr =>
      rw [not_or, Bool.not_eq_false, Bool.not_eq_false, regionFits_iff, regionFits_iff] at hr
      split
      · exact (State.Keeps.refl s).raise _
      · next hc =>
        have hb : h.base ≠ 0 := by
          obtain ⟨-, -, -, hkind, -, -⟩ := (checkHeader_eq_none_iff _ _ _ _).mp hc
          intro e
          simp [kindOf, e] at hkind
        exact ((State.Keeps.refl s).setSlot _ _ fun _ => freshContext_ok _ hc hb hr.1).done _ _ _ (.inr rfl)
  · exact (State.Keeps.refl s).raise _

/-- What the slot of `CTX_READ` holds after `feed` is put back and reported (R331). -/
theorem readResult_keeps (c : Ctx) (r : Run) (consumed : Nat) (hr : s.Inv → r.mem.wf ∧ r.ctx.Ok) :
    s.Keeps (readResult c r consumed s) := by
  have hp := (State.Keeps.refl s).putRun s.arg.a0.toNat r hr
  unfold readResult
  dsimp only
  split
  · next he => exact hp.raiseCode _ _ fun hi => (hr hi).2.err_range he
  · exact hp.done _ _ _ (.inr rfl)

theorem execCtxRead_keeps : AllNext s.Keeps (execCtxRead s) := by
  unfold execCtxRead
  split
  · exact (State.Keeps.refl s).raise _
  · next c hc =>
    split
    · exact (State.Keeps.refl s).raise _
    · split
      · exact (State.Keeps.refl s).raise _
      · next he => exact (State.Keeps.refl s).raiseCode _ _ fun hi => (hi.slotAt_ok hc).err_range he
      · exact (State.Keeps.refl s).done _ _ _ (.inr rfl)
      · dsimp only
        split
        · trivial
        · refine readResult_keeps s c _ _ fun hi => ?_
          obtain ⟨hm, hok, -, -⟩ := feed_ok s.arg.a1.toNat s.arg.a2.toNat ⟨s.mem, c⟩ hi.mem_wf (hi.slotAt_ok hc)
          exact ⟨hm, hok⟩

theorem execCtxFinished_keeps : AllNext s.Keeps (execCtxFinished s) := by
  unfold execCtxFinished
  split
  · exact (State.Keeps.refl s).raise _
  · exact (State.Keeps.refl s).done _ _ _ (.inr rfl)

theorem execCtxDiscard_keeps : AllNext s.Keeps (execCtxDiscard s) := by
  unfold execCtxDiscard
  split
  · exact (State.Keeps.refl s).raise _
  · exact ((State.Keeps.refl s).dropSlot _).done _ _ _ (.inl rfl)

theorem execCtxQuery_keeps : AllNext s.Keeps (execCtxQuery s) := by
  unfold execCtxQuery
  split
  · exact (State.Keeps.refl s).raise _
  · split
    · exact (State.Keeps.refl s).done _ _ _ (.inl rfl)
    · exact (State.Keeps.refl s).done _ _ _ (.inr rfl)

theorem packGet_keeps (bits index : Word) : AllNext s.Keeps (packGet bits index s) := by
  unfold packGet
  split
  · exact (State.Keeps.refl s).raise _
  · exact (State.Keeps.refl s).done _ _ _ (.inl rfl)

theorem packSet_keeps (bits index : Word) : AllNext s.Keeps (packSet bits index s) := by
  unfold packSet
  split
  · exact (State.Keeps.refl s).raise _
  · next hp =>
    obtain ⟨hfit, hbits, -, hlast⟩ := (packError_eq_none_iff _ _ _ _).mp hp
    refine ((State.Keeps.refl s).setMem _ fun hi =>
      Memory.packBytes_wf _ _ _ _ _ _ _ ?_ hi.mem_wf).done _ _ _ (.inl rfl)
    omega

theorem execPkvElement_keeps (bits index : Word) : AllNext s.Keeps (execPkvElement bits index s) := by
  unfold execPkvElement
  split
  · exact packGet_keeps s bits index
  · split
    · exact packSet_keeps s bits index
    · trivial

theorem execLzFind_keeps : AllNext s.Keeps (execLzFind s) := by
  unfold execLzFind
  split
  · exact (State.Keeps.refl s).raise _
  · split
    · exact (State.Keeps.refl s).raise _
    · split
      · exact (State.Keeps.refl s).done _ _ _ (.inl rfl)
      · exact (State.Keeps.refl s).done _ _ _ (.inl rfl)

theorem execLzCompress_keeps : AllNext s.Keeps (execLzCompress s) := by
  unfold execLzCompress
  split
  · exact (State.Keeps.refl s).raise _
  · next hr =>
    simp only [not_or, Bool.not_eq_false, regionFits_iff] at hr
    obtain ⟨-, hdst, -⟩ := hr
    have hscratch := (State.Keeps.refl s).scratch s.arg.a2.toNat (min s.arg.a3.toNat s.arg.a1.toNat) (by omega)
    dsimp only
    split
    · trivial
    · split
      · exact hscratch.done _ _ _ (.inl rfl)
      · split
        · exact hscratch.raise _
        · refine ((State.Keeps.refl s).setMem _ fun hi => Memory.writeList_wf _ _ _ ?_ hi.mem_wf).done _ _ _ (.inl rfl)
          omega

/-- The alphabet has 16 or 256 symbols (R262). -/
theorem alphabetSize_cases (opts : Word) : alphabetSize opts = 16 ∨ alphabetSize opts = 256 := by
  unfold alphabetSize
  split <;> simp [Config.hufN4, Config.hufN8]

theorem execHufBuild_keeps : AllNext s.Keeps (execHufBuild s) := by
  unfold execHufBuild
  split
  · exact (State.Keeps.refl s).raise _
  · next hl =>
    simp only [hufBuildLegal, Bool.not_eq_false, Bool.and_eq_true, regionFits_iff] at hl
    obtain ⟨⟨-, hlens⟩, hcodes⟩ := hl
    have hn := alphabetSize_cases s.arg.a1
    split
    · trivial
    · refine ((State.Keeps.refl s).setMem _ fun hi =>
        Memory.writeList_wf _ _ _ ?_ (Memory.writeList_wf _ _ _ ?_ hi.mem_wf)).done _ _ _ (.inl rfl)
      · rw [codeTableBytes_length, buildLengths_length, readFreqs_length]
        exact hcodes
      · rw [lenTableBytes_length, buildLengths_length, readFreqs_length]
        omega

theorem execHufLoad_keeps : AllNext s.Keeps (execHufLoad s) := by
  unfold execHufLoad
  split
  · exact (State.Keeps.refl s).raise _
  · next hr =>
    simp only [not_or, Bool.not_eq_false, regionFits_iff] at hr
    obtain ⟨-, -, hcodes⟩ := hr
    dsimp only
    split
    · exact (State.Keeps.refl s).raise _
    · split
      · trivial
      · refine ((State.Keeps.refl s).setMem _ fun hi => Memory.writeList_wf _ _ _ ?_ hi.mem_wf).done _ _ _ (.inl rfl)
        rw [codeTableBytes_length, readLens_length]
        exact hcodes

theorem runHeader_keeps (h : Header) : AllNext s.Keeps (runHeader h s) := by
  unfold runHeader
  split
  · exact getType_keeps s _
  · split
    · exact getSize_keeps s _
    · split
      · exact uncompressAny_keeps s h
      · split
        · exact ctxInit_keeps s h
        · trivial

theorem execGetType_keeps : AllNext s.Keeps (execGetType s) := getType_keeps s _

theorem execGetSize_keeps : AllNext s.Keeps (execGetSize s) := getSize_keeps s _

theorem execCtxInit_keeps : AllNext s.Keeps (execCtxInit s) := ctxInit_keeps s _

theorem execCmdUnknown_keeps (code : Byte) : AllNext s.Keeps (execCmdUnknown code s) := (State.Keeps.refl s).raise _

end Commands

/-! ### A token is what the decode engine does with its bytes

`runToken` is given the step rules of one token; `CTX_READ` lets `stepByte` select a rule for each byte. On a
well-formed token that the context stands before, both are the same, so that what `stepByte` keeps every token keeps. -/

@[simp] theorem Run.settle_mode (r : Run) : r.settle.ctx.mode = r.ctx.mode := by unfold Run.settle; split <;> rfl
@[simp] theorem Run.settle_phase (r : Run) : r.settle.ctx.phase = r.ctx.phase := by unfold Run.settle; split <;> rfl
@[simp] theorem Run.settle_cnt (r : Run) : r.settle.ctx.cnt = r.ctx.cnt := by unfold Run.settle; split <;> rfl

/-- `FINISHED` is detected in an `ACTIVE` context only. -/
theorem Run.settle_stopped {r : Run} (h : r.ctx.state ≠ .active) : r.settle = r := by
  unfold Run.settle
  rw [if_neg fun k => h k.1]

/-- Two lists of rules do the same when their first rules do, and the others do on what those leave. -/
theorem Run.consumeAll_cons_congr {rule rule' : Run → Run} {rules rules' : List (Run → Run)} {r : Run}
    (hhead : rule r.count = rule' r.count)
    (htail : Run.consumeAll rules (r.consume rule) = Run.consumeAll rules' (r.consume rule)) :
    Run.consumeAll (rule :: rules) r = Run.consumeAll (rule' :: rules') r := by
  have hc : r.consume rule' = r.consume rule := by simp only [Run.consume, hhead]
  by_cases h : r.ctx.state = .active
  · rw [Run.consumeAll_cons _ _ _ h, Run.consumeAll_cons _ _ _ h, hc, htail]
  · rw [Run.consumeAll_stopped _ _ h, Run.consumeAll_stopped _ _ h]

/-- A token's rules may be exchanged for others that do the same where its format is read. -/
theorem runToken_congr {f : Format} {rules rules' : List (Run → Run)} {s : State}
    (h : ∀ r : Run, r.ctx.nextFormat = some f → Run.consumeAll rules r = Run.consumeAll rules' r) :
    runToken f rules s = runToken f rules' s := by
  unfold runToken
  split
  · next c hc => rw [h ⟨s.mem, c⟩ ((s.reader_eq_some_iff f c).mp hc).2.2]
  · rfl

/-- The phases in which a context reads each format (R27, R111, R329). -/
theorem Ctx.nextFormat_cases {c : Ctx} {f : Format} (h : c.nextFormat = some f) :
    (f = .rlt ∧ c.phase = .rlCtrl) ∨ (f = .lzFlag ∧ c.phase = .lzFlag) ∨
    (f = .lzLit ∧ c.phase = .lzToken ∧ c.flags.getLsbD 7 = false) ∨
    (f = .lzRef ∧ c.phase = .lzToken ∧ c.flags.getLsbD 7 = true ∧ c.mode = 0) ∨
    (f = .lzxRef ∧ c.phase = .lzToken ∧ c.flags.getLsbD 7 = true ∧ c.mode = 1) ∨
    (f = .flt ∧ c.phase = .flOp) ∨ (f = .hft ∧ c.phase = .hfTable) ∨ (f = .hfc ∧ c.phase = .hfData) := by
  cases hp : c.phase <;> simp only [Ctx.nextFormat, hp] at h
  case lzToken =>
    split at h
    · next hflag => simp_all
    · next hflag =>
      split at h
      · simp_all
      · split at h <;> simp_all
  all_goals simp_all

/-! The bytes of a token, read back field by field (R98 to R107) -/

theorem rltControl_fields (b : BitVec 1) (n : BitVec 7) :
    ((b ++ n : Byte).getLsbD 7 = true ↔ b = 1) ∧ (b ++ n : Byte).extractLsb' 0 7 = n := by
  revert b n
  decide

theorem fltOperation_fields (k : BitVec 3) (o : BitVec 5) :
    fastKind (k ++ o : Byte) = k ∧ (k ++ o : Byte).extractLsb' 0 5 = o := by
  revert k o
  decide

theorem toNat_ofNat_pred {w n : Nat} (h1 : 1 ≤ n) (h2 : n ≤ 2 ^ w) : (BitVec.ofNat w (n - 1)).toNat + 1 = n := by
  rw [BitVec.toNat_ofNat, Nat.mod_eq_of_lt (by omega)]
  omega

/-! ### Literal runs -/

/-- A literal rule over a whole run: while `cnt` is not 0 the phase stays, so `stepByte` selects the same rule again. -/
theorem consumeAll_literals (lit : Byte → Run → Run) (p : Phase)
    (hstep : ∀ x r, r.ctx.phase = p → stepByte x r = lit x r) (hcnt : ∀ x r, (lit x r).ctx.cnt = r.ctx.cnt - 1)
    (hphase : ∀ x r, r.ctx.phase = p → r.ctx.cnt - 1 ≠ 0 → (lit x r).ctx.phase = p) (data : List Byte) (r : Run)
    (hp : data ≠ [] → r.ctx.phase = p) (hlen : r.ctx.cnt.toNat = data.length) :
    Run.consumeAll (data.map lit) r = Run.consumeAll (data.map stepByte) r := by
  induction data generalizing r with
  | nil => rfl
  | cons x xs ih =>
    have hp := hp (List.cons_ne_nil x xs)
    rw [List.length_cons] at hlen
    have hpred := cnt_pred r.ctx.cnt (by omega)
    refine Run.consumeAll_cons_congr (hstep x r.count hp).symm (ih _ (fun hxs => ?_) ?_)
    · have hpos := List.length_pos_of_ne_nil hxs
      have hne : r.ctx.cnt - 1 ≠ 0 := fun h0 => by rw [h0] at hpred; simp at hpred; omega
      rw [Run.consume, Run.settle_phase]
      exact hphase x r.count hp hne
    · rw [Run.consume, Run.settle_cnt, hcnt, Run.count_cnt]
      omega

theorem consumeAll_rlLit (data : List Byte) (r : Run) (hp : r.ctx.phase = .rlLit)
    (hlen : r.ctx.cnt.toNat = data.length) :
    Run.consumeAll (data.map rlLit) r = Run.consumeAll (data.map stepByte) r :=
  consumeAll_literals rlLit .rlLit (fun x r h => by simp only [stepByte, h]) (fun _ _ => rfl)
    (fun x r h hne => by simpa [rlLit, h] using hne) data r (fun _ => hp) hlen

theorem consumeAll_flLit (data : List Byte) (r : Run) (hp : r.ctx.phase = .flLit)
    (hlen : r.ctx.cnt.toNat = data.length) :
    Run.consumeAll (data.map flLit) r = Run.consumeAll (data.map stepByte) r :=
  consumeAll_literals flLit .flLit (fun x r h => by simp only [stepByte, h]) (fun _ _ => rfl)
    (fun x r h hne => by simpa [flLit, h] using hne) data r (fun _ => hp) hlen

/-- After the start of a literal run the context has stopped, or the run's bytes come next (R171). -/
theorem rlCtrlLits_cases (n : Nat) (r : Run) (hn : n < 512) :
    (rlCtrlLits n r).ctx.state = .error ∨
      (rlCtrlLits n r).ctx.phase = .rlLit ∧ (rlCtrlLits n r).ctx.cnt.toNat = n := by
  unfold rlCtrlLits
  split
  · exact .inl rfl
  · exact .inr ⟨rfl, cnt_toNat n hn⟩

/-- After the start of a repeat run the context has stopped, or the value byte comes next (R172). -/
theorem rlCtrlRun_cases (n : Nat) (r : Run) :
    (rlCtrlRun n r).ctx.state = .error ∨ (rlCtrlRun n r).ctx.phase = .rlVal := by
  unfold rlCtrlRun
  split
  · exact .inl rfl
  · exact .inr rfl

/-- The same as for RLE, in FastLZ (R228). -/
theorem flOpLits_cases (n : Nat) (r : Run) (hn : n < 512) :
    (flOpLits n r).ctx.state = .error ∨
      (flOpLits n r).ctx.phase = .flLit ∧ (flOpLits n r).ctx.cnt.toNat = n := by
  unfold flOpLits
  split
  · exact .inl rfl
  · exact .inr ⟨rfl, cnt_toNat n hn⟩

/-- A rule that stops the context ends a token there. -/
theorem Run.consumeAll_consume_error {rule : Run → Run} {r : Run} (rules : List (Run → Run))
    (h : (rule r.count).ctx.state = .error) : Run.consumeAll rules (r.consume rule) = rule r.count := by
  have hne : (rule r.count).ctx.state ≠ .active := by rw [h]; decide
  rw [Run.consume, Run.settle_stopped hne, Run.consumeAll_stopped _ _ hne]

/-! ### The tokens -/

section Tokens

variable (s : State)

theorem execRltLits_eq_engine (data : List Byte) (hwf : (Instr.rltLits data).wellFormed = true) :
    execRltLits data s = runToken .rlt ((encode (.rltLits data)).map stepByte) s := by
  simp only [Instr.wellFormed, decide_eq_true_eq] at hwf
  refine runToken_congr fun r hf => Run.consumeAll_cons_congr ?_ ?_
  · have hp : r.ctx.phase = .rlCtrl := by simpa using Ctx.nextFormat_cases hf
    obtain ⟨hbit, hfield⟩ := rltControl_fields 0#1 (BitVec.ofNat 7 (data.length - 1))
    have hn := toNat_ofNat_pred (w := 7) hwf.1 hwf.2
    simp only [stepByte, Run.count_phase, hp, rlCtrl, hbit, hfield, hn]
    rfl
  · rcases rlCtrlLits_cases data.length r.count (by omega) with he | ⟨hp, hc⟩
    · rw [Run.consumeAll_consume_error _ he, Run.consumeAll_consume_error _ he]
    · exact consumeAll_rlLit data _ (by rw [Run.consume, Run.settle_phase, hp])
        (by rw [Run.consume, Run.settle_cnt, hc])

theorem execRltRun_eq_engine (n : BitVec 7) (v : Byte) :
    execRltRun n v s = runToken .rlt ((encode (.rltRun n v)).map stepByte) s := by
  obtain ⟨hbit, hfield⟩ := rltControl_fields 1#1 n
  refine runToken_congr fun r hf => Run.consumeAll_cons_congr ?_ ?_
  · have hp : r.ctx.phase = .rlCtrl := by simpa using Ctx.nextFormat_cases hf
    simp only [stepByte, Run.count_phase, hp, rlCtrl, hbit.mpr rfl, hfield]
    rfl
  · rcases rlCtrlRun_cases (n.toNat + 3) r.count with he | hp
    · rw [Run.consumeAll_consume_error _ he, Run.consumeAll_consume_error _ he]
    · refine Run.consumeAll_cons_congr ?_ rfl
      simp only [stepByte, Run.count_phase, Run.consume, Run.settle_phase, hp]

theorem execLztFlags_eq_engine (f : Byte) :
    execLztFlags f s = runToken .lzFlag ((encode (.lztFlags f)).map stepByte) s := by
  refine runToken_congr fun r hf => Run.consumeAll_cons_congr ?_ rfl
  have hp : r.ctx.phase = .lzFlag := by simpa using Ctx.nextFormat_cases hf
  simp only [stepByte, Run.count_phase, hp]

theorem execLztLit_eq_engine (b : Byte) :
    execLztLit b s = runToken .lzLit ((encode (.lztLit b)).map stepByte) s := by
  refine runToken_congr fun r hf => Run.consumeAll_cons_congr ?_ rfl
  obtain ⟨hp, hflag⟩ : r.ctx.phase = .lzToken ∧ r.ctx.flags.getLsbD 7 = false := by
    simpa using Ctx.nextFormat_cases hf
  simp only [stepByte, Run.count_phase, Run.count_flags, hp, hflag]
  rfl

theorem execLztRef_eq_engine (l : BitVec 4) (o : BitVec 12) :
    execLztRef l o s = runToken .lzRef ((encode (.lztRef l o)).map stepByte) s := by
  refine runToken_congr fun r hf => ?_
  obtain ⟨hp, hflag, hmode⟩ : r.ctx.phase = .lzToken ∧ r.ctx.flags.getLsbD 7 = true ∧ r.ctx.mode = 0 := by
    simpa using Ctx.nextFormat_cases hf
  refine Run.consumeAll_cons_congr ?_ (Run.consumeAll_cons_congr ?_ rfl)
  · simp [stepByte, hp, hflag]
  · simp [stepByte, Run.consume, lzTokenRef, hmode]

theorem execLzxtRef_eq_engine (l : Byte) (o : BitVec 16) :
    execLzxtRef l o s = runToken .lzxRef ((encode (.lzxtRef l o)).map stepByte) s := by
  refine runToken_congr fun r hf => ?_
  obtain ⟨hp, hflag, hmode⟩ : r.ctx.phase = .lzToken ∧ r.ctx.flags.getLsbD 7 = true ∧ r.ctx.mode = 1 := by
    simpa using Ctx.nextFormat_cases hf
  refine Run.consumeAll_cons_congr ?_ (Run.consumeAll_cons_congr ?_ (Run.consumeAll_cons_congr ?_ rfl))
  · simp [stepByte, hp, hflag]
  · simp [stepByte, Run.consume, lzTokenRef, hmode]
  · simp [stepByte, Run.consume, lzRef1Ext]

theorem execFltLits_eq_engine (data : List Byte) (hwf : (Instr.fltLits data).wellFormed = true) :
    execFltLits data s = runToken .flt ((encode (.fltLits data)).map stepByte) s := by
  simp only [Instr.wellFormed, decide_eq_true_eq] at hwf
  refine runToken_congr fun r hf => Run.consumeAll_cons_congr ?_ ?_
  · have hp : r.ctx.phase = .flOp := by simpa using Ctx.nextFormat_cases hf
    obtain ⟨hkind, hfield⟩ := fltOperation_fields 0#3 (BitVec.ofNat 5 (data.length - 1))
    have hn := toNat_ofNat_pred (w := 5) hwf.1 hwf.2
    simp only [stepByte, Run.count_phase, hp, flOp, hkind, hfield, hn]
    rfl
  · rcases flOpLits_cases data.length r.count (by omega) with he | ⟨hp, hc⟩
    · rw [Run.consumeAll_consume_error _ he, Run.consumeAll_consume_error _ he]
    · exact consumeAll_flLit data _ (by rw [Run.consume, Run.settle_phase, hp])
        (by rw [Run.consume, Run.settle_cnt, hc])

theorem execFltMatchShort_eq_engine (k : BitVec 3) (o : BitVec 13)
    (hwf : (Instr.fltMatchShort k o).wellFormed = true) :
    execFltMatchShort k o s = runToken .flt ((encode (.fltMatchShort k o)).map stepByte) s := by
  simp only [Instr.wellFormed, decide_eq_true_eq] at hwf
  obtain ⟨hkind, -⟩ := fltOperation_fields k (o.extractLsb' 8 5)
  have h0 : k ≠ 0 := by rintro rfl; exact absurd hwf.1 (by decide)
  have h7 : k ≠ 7 := by rintro rfl; exact absurd hwf.2 (by decide)
  refine runToken_congr fun r hf => Run.consumeAll_cons_congr ?_ (Run.consumeAll_cons_congr ?_ rfl)
  · have hp : r.ctx.phase = .flOp := by simpa using Ctx.nextFormat_cases hf
    simp only [stepByte, Run.count_phase, hp, flOp, hkind, if_neg h0, if_neg h7]
  · simp [stepByte, Run.consume, flOpShort]

theorem execFltMatchLong_eq_engine (e : Byte) (o : BitVec 13) :
    execFltMatchLong e o s = runToken .flt ((encode (.fltMatchLong e o)).map stepByte) s := by
  obtain ⟨hkind, -⟩ := fltOperation_fields 7#3 (o.extractLsb' 8 5)
  refine runToken_congr fun r hf =>
    Run.consumeAll_cons_congr ?_ (Run.consumeAll_cons_congr ?_ (Run.consumeAll_cons_congr ?_ rfl))
  · have hp : r.ctx.phase = .flOp := by simpa using Ctx.nextFormat_cases hf
    simp only [stepByte, Run.count_phase, hp, flOp, hkind]
    rfl
  · simp [stepByte, Run.consume, flOpLong]
  · simp [stepByte, Run.consume, flExt]

theorem execHftByte_eq_engine (l h : BitVec 4) :
    execHftByte l h s = runToken .hft ((encode (.hftByte l h)).map stepByte) s := by
  refine runToken_congr fun r hf => Run.consumeAll_cons_congr ?_ rfl
  have hp : r.ctx.phase = .hfTable := by simpa using Ctx.nextFormat_cases hf
  simp only [stepByte, Run.count_phase, hp]

theorem execHfcCode_eq_engine (x : Byte) :
    execHfcCode x s = runToken .hfc ((encode (.hfcCode x)).map stepByte) s := by
  refine runToken_congr fun r hf => Run.consumeAll_cons_congr ?_ rfl
  have hp : r.ctx.phase = .hfData := by simpa using Ctx.nextFormat_cases hf
  simp only [stepByte, Run.count_phase, hp]

end Tokens

/-- Bytes the engine consumes keep the canonical form of memory and the invariant of the context. -/
theorem consumeAll_stepByte_ok (bs : List Byte) (r : Run) (hm : r.mem.wf) (hok : r.ctx.Ok) :
    (Run.consumeAll (bs.map stepByte) r).mem.wf ∧ (Run.consumeAll (bs.map stepByte) r).ctx.Ok := by
  induction bs generalizing r with
  | nil => exact ⟨hm, hok⟩
  | cons x xs ih =>
    by_cases hs : r.ctx.state = .active
    · have hpost : (stepByte x r.count).Post := stepByte_post x _ (hok.live hs r.mem hm).count
      rw [List.map_cons, Run.consumeAll_cons _ _ _ hs]
      exact ih _ hpost.settle.2 hpost.settle.1
    · rw [Run.consumeAll_stopped _ _ hs]
      exact ⟨hm, hok⟩

/-- A token changes memory and one slot, whatever its rules are. -/
theorem runToken_sameFrame (f : Format) (rules : List (Run → Run)) (s : State) :
    AllNext s.SameFrame (runToken f rules s) := by
  rcases runToken_cases f rules s with ⟨c, -, -, -, e⟩ | ⟨-, e⟩
  · rw [e]
    exact ⟨rfl, rfl, by simp, rfl, rfl⟩
  · rw [e]
    trivial

theorem runToken_stepByte_keeps (f : Format) (bs : List Byte) (s : State) :
    AllNext s.Keeps (runToken f (bs.map stepByte) s) := by
  rcases runToken_cases f (bs.map stepByte) s with ⟨c, hc, -, -, e⟩ | ⟨-, e⟩
  · rw [e]
    exact (State.Keeps.refl s).putRun _ _ fun hi => consumeAll_stepByte_ok bs _ hi.mem_wf (hi.slotAt_ok hc)
  · rw [e]
    trivial

/-! ### Every instruction -/

/-- What an instruction keeps: the frame always, the invariant when it is an instruction of the table. -/
structure State.KeepsUnder (s : State) (i : Instr) (t : State) : Prop extends s.SameFrame t where
  inv : i.wellFormed = true → s.Inv → t.Inv

theorem AllNext.keepsUnder {s : State} {i : Instr} {o : Outcome} (h : AllNext s.Keeps o) :
    AllNext (s.KeepsUnder i) o :=
  h.mono fun _ k => ⟨k.toSameFrame, fun _ => k.inv⟩

/-- A token, whose bytes the engine reads as the token when it is well formed. -/
theorem runToken_keepsUnder {i : Instr} {f : Format} {rules : List (Run → Run)} {s : State}
    (h : i.wellFormed = true → runToken f rules s = runToken f ((encode i).map stepByte) s) :
    AllNext (s.KeepsUnder i) (runToken f rules s) := by
  have hframe := runToken_sameFrame f rules s
  have hinv : i.wellFormed = true → AllNext s.Keeps (runToken f rules s) := fun hw =>
    h hw ▸ runToken_stepByte_keeps f (encode i) s
  generalize runToken f rules s = o at *
  cases o with
  | next t => exact ⟨hframe, fun hw => (hinv hw).inv⟩
  | fault r => trivial
  | refused r => trivial

theorem exec_keepsUnder (i : Instr) (s : State) : AllNext (s.KeepsUnder i) (exec i s) := by
  cases i with
  | getType => exact (execGetType_keeps s).keepsUnder
  | getSize => exact (execGetSize_keeps s).keepsUnder
  | uncompressAny => exact (uncompressAny_keeps s _).keepsUnder
  | ctxInit => exact (execCtxInit_keeps s).keepsUnder
  | ctxRead => exact (execCtxRead_keeps s).keepsUnder
  | ctxFinished => exact (execCtxFinished_keeps s).keepsUnder
  | ctxDiscard => exact (execCtxDiscard_keeps s).keepsUnder
  | ctxQuery => exact (execCtxQuery_keeps s).keepsUnder
  | packGet => exact (packGet_keeps s _ _).keepsUnder
  | packSet => exact (packSet_keeps s _ _).keepsUnder
  | lzFind => exact (execLzFind_keeps s).keepsUnder
  | lzCompress => exact (execLzCompress_keeps s).keepsUnder
  | hufBuild => exact (execHufBuild_keeps s).keepsUnder
  | hufLoad => exact (execHufLoad_keeps s).keepsUnder
  | cmdUnknown code => exact (execCmdUnknown_keeps s code).keepsUnder
  | hdrNone size | hdrLz size | hdrLzx size | hdrHuf4 size | hdrHuf8 size | hdrRl size | hdrFlz size =>
    exact (runHeader_keeps s _).keepsUnder
  | hdrDif base flags size | hdrUnrecognised tag flags size | hdrBadFlags base flags size =>
    exact (runHeader_keeps s _).keepsUnder
  | bytes data => exact (execBytes_keeps s data).keepsUnder
  | rltLits data => exact runToken_keepsUnder (execRltLits_eq_engine s data)
  | rltRun n v => exact runToken_keepsUnder fun _ => execRltRun_eq_engine s n v
  | lztFlags f => exact runToken_keepsUnder fun _ => execLztFlags_eq_engine s f
  | lztLit b => exact runToken_keepsUnder fun _ => execLztLit_eq_engine s b
  | lztRef l o => exact runToken_keepsUnder fun _ => execLztRef_eq_engine s l o
  | lzxtRef l o => exact runToken_keepsUnder fun _ => execLzxtRef_eq_engine s l o
  | fltLits data => exact runToken_keepsUnder (execFltLits_eq_engine s data)
  | fltMatchShort k o => exact runToken_keepsUnder (execFltMatchShort_eq_engine s k o)
  | fltMatchLong e o => exact runToken_keepsUnder fun _ => execFltMatchLong_eq_engine s e o
  | hftByte l h => exact runToken_keepsUnder fun _ => execHftByte_eq_engine s l h
  | hfcCode x => exact runToken_keepsUnder fun _ => execHfcCode_eq_engine s x
  | pkvElement bits index => exact (execPkvElement_keeps s bits index).keepsUnder

/-! ### Actions of the host -/

/-- A command code stands for an instruction of the table (R91, R92). -/
theorem decodeCommand_wellFormed (c : Byte) : (decodeCommand c).wellFormed = true := by
  revert c
  decide

theorem State.Inv.writeReg {s : State} (h : s.Inv) (r : Reg) (v : Word) : (s.writeReg r v).Inv := by
  cases r <;> exact h

theorem State.Inv.resetBlock {s : State} (h : s.Inv) : s.resetBlock.Inv := by
  refine ⟨h.mem_wf, fun c hc => ?_, .inl rfl, by simp, by simp⟩
  obtain ⟨_, _, rfl⟩ := List.mem_map.mp hc
  exact .inl rfl

theorem portAction_inv (op : HostOp) {s : State} (h : s.Inv) : AllNext State.Inv (portAction op s) := by
  unfold portAction
  split
  · next c _ =>
    exact (exec_keepsUnder (decodeCommand c) { s with cmd := c }).mono fun _ k =>
      k.inv (decodeCommand_wellFormed c) h
  · split
    · exact h.writeReg _ _
    · split
      · next ha => exact ⟨Memory.write_wf _ _ _ ha h.mem_wf, h.slots_ok, h.response_ok⟩
      · trivial
    · exact h.resetBlock

theorem step_inv {s : State} (h : s.Inv) : AllNext State.Inv (step s) := by
  unfold step
  split
  · exact h
  · exact portAction_inv _ h

/-- Settles O13: every arm of `exec` keeps the invariant (`exec_keepsUnder`). -/
theorem execKeepsInv : Obligations.ExecKeepsInv :=
  fun i s _ hwf hinv he => ((exec_keepsUnder i s).of_eq he).inv hwf hinv

/-- Settles O14: a command keeps the invariant by O13's lemma, the host's other actions keep each part of it. -/
theorem stepKeepsInv : Obligations.StepKeepsInv :=
  fun _ _ hinv he => (step_inv hinv).of_eq he

/-- Settles O8: every arm of `exec` keeps the frame (`exec_keepsUnder`). -/
theorem execKeepsCommandAndOperands : Obligations.ExecKeepsCommandAndOperands := by
  intro i s t he
  obtain ⟨⟨hcmd, harg, hlength, hdFast, hhost⟩, -⟩ := (exec_keepsUnder i s).of_eq he
  exact ⟨hcmd, harg, hlength, hdFast, hhost⟩

/-! ### Two states that differ in slots without a context (R22) -/

/-- Two outcomes are the same but for the unread fields of slots that hold no context. -/
inductive SameOutcome : Outcome → Outcome → Prop where
  | next {t t' : State} (h : t.SameUpToIdle t') : SameOutcome (.next t) (.next t')
  | fault (r : Fault) : SameOutcome (.fault r) (.fault r)
  | refused (r : Refusal) : SameOutcome (.refused r) (.refused r)

theorem Ctx.SameIfLive.refl (c : Ctx) : c.SameIfLive c := .inl rfl

/-- One entry replaced in both lists. -/
theorem forall₂_set {α : Type} {R : α → α → Prop} {l l' : List α} (h : List.Forall₂ R l l') (i : Nat)
    {a : α} (ha : R a a) : List.Forall₂ R (l.set i a) (l'.set i a) := by
  induction h generalizing i with
  | nil => exact .nil
  | cons hd htl ih =>
    cases i with
    | zero => exact .cons ha htl
    | succ i => exact .cons hd (ih i)

namespace State.SameUpToIdle

variable {s s' : State}

theorem cmd_eq (h : s.SameUpToIdle s') : s'.cmd = s.cmd := by rw [h.1]
theorem arg_eq (h : s.SameUpToIdle s') : s'.arg = s.arg := by rw [h.1]
theorem mem_eq (h : s.SameUpToIdle s') : s'.mem = s.mem := by rw [h.1]
theorem dFast_eq (h : s.SameUpToIdle s') : s'.dFast = s.dFast := by rw [h.1]
theorem freeCount_eq (h : s.SameUpToIdle s') : s'.freeCount = s.freeCount := by rw [h.1]

/-- An operand names no slot in both states, or slots that are the same if they hold a context. -/
theorem slotAt_cases (h : s.SameUpToIdle s') (w : Word) :
    (s.slotAt w = none ∧ s'.slotAt w = none) ∨
      ∃ c d, s.slotAt w = some c ∧ s'.slotAt w = some d ∧ c.SameIfLive d := by
  have hlen := h.2.length_eq
  by_cases hw : w.toNat < s.slots.length
  · exact .inr ⟨_, _, List.getElem?_eq_getElem hw, List.getElem?_eq_getElem (hlen ▸ hw),
      List.Forall₂.get h.2 hw (hlen ▸ hw)⟩
  · exact .inl ⟨(s.slotAt_eq_none_iff w).mpr (by omega), (s'.slotAt_eq_none_iff w).mpr (by omega)⟩

/-- The same change of the other fields. -/
theorem respond (h : s.SameUpToIdle s') (a : Word) (b : Byte) (r : Results) :
    (s.respond a b r).SameUpToIdle (s'.respond a b r) :=
  ⟨by rw [h.1]; rfl, h.2⟩

theorem raiseCode (h : s.SameUpToIdle s') (b : Byte) (r : Results) :
    (s.raiseCode b r).SameUpToIdle (s'.raiseCode b r) := h.respond _ _ _

theorem raise (h : s.SameUpToIdle s') (e : Err) : (s.raise e).SameUpToIdle (s'.raise e) := h.respond _ _ _

theorem done (h : s.SameUpToIdle s') (fin notSmaller : Bool) (r : Results) :
    (s.done fin notSmaller r).SameUpToIdle (s'.done fin notSmaller r) := h.respond _ _ _

theorem setMem (h : s.SameUpToIdle s') (m : Memory) : (s.setMem m).SameUpToIdle (s'.setMem m) :=
  ⟨by rw [h.1]; rfl, h.2⟩

theorem scratch (h : s.SameUpToIdle s') (a n : Nat) : (s.scratch a n).SameUpToIdle (s'.scratch a n) :=
  ⟨by rw [h.1]; rfl, h.2⟩

theorem setSlot (h : s.SameUpToIdle s') (i : Nat) (c : Ctx) : (s.setSlot i c).SameUpToIdle (s'.setSlot i c) :=
  ⟨by rw [h.1]; rfl, forall₂_set h.2 i (.refl c)⟩

theorem putRun (h : s.SameUpToIdle s') (i : Nat) (r : Run) : (s.putRun i r).SameUpToIdle (s'.putRun i r) :=
  (h.setMem r.mem).setSlot i r.ctx

theorem dropSlot (h : s.SameUpToIdle s') (i : Nat) : (s.dropSlot i).SameUpToIdle (s'.dropSlot i) := by
  have k := h.setSlot i (freeSlot s.freeCount)
  refine ⟨by rw [h.1]; rfl, ?_⟩
  rw [dropSlot_slots, dropSlot_slots, h.freeCount_eq]
  exact k.2

end State.SameUpToIdle

/-! Each instruction on two such states -/

section Idle

variable {s s' : State}

theorem getType_idle (h : s.SameUpToIdle s') (b : Byte) : (getType b s).SameUpToIdle (getType b s') := by
  simp only [getType, h.arg_eq]
  split
  · exact h.raiseCode _ _
  · split
    · exact h.raiseCode _ _
    · split
      · exact h.raiseCode _ _
      · exact h.done _ _ _

theorem getSize_idle (h : s.SameUpToIdle s') (size : Word) : (getSize size s).SameUpToIdle (getSize size s') := by
  simp only [getSize, h.arg_eq]
  split
  · exact h.raise _
  · split
    · exact h.raise _
    · exact h.done _ _ _

theorem storeCopy_idle (h : s.SameUpToIdle s') (data : List Byte) :
    SameOutcome (storeCopy data s) (storeCopy data s') := by
  simp only [storeCopy, h.arg_eq, h.mem_eq]
  split
  · exact .next (h.raise _)
  · split
    · exact .refused _
    · exact .next ((h.setMem _).done _ _ _)

theorem execBytes_idle (h : s.SameUpToIdle s') (data : List Byte) :
    SameOutcome (execBytes data s) (execBytes data s') := by
  simp only [execBytes, h.arg_eq]
  split
  · exact .next (h.raise _)
  · split
    · exact .next (h.raise _)
    · exact storeCopy_idle h data

theorem uncompressResult_idle (h : s.SameUpToIdle s') (r : Run) (consumed : Nat) :
    (uncompressResult r consumed s).SameUpToIdle (uncompressResult r consumed s') := by
  unfold uncompressResult
  dsimp only
  split
  · exact (h.setMem _).raiseCode _ _
  · exact (h.setMem _).raiseCode _ _
  · exact (h.setMem _).done _ _ _
  · exact (h.setMem _).done _ _ _

theorem uncompressTokens_idle (h : s.SameUpToIdle s') (hd : Header) :
    SameOutcome (uncompressTokens hd s) (uncompressTokens hd s') := by
  simp only [uncompressTokens, h.arg_eq, h.mem_eq]
  split
  · exact .refused _
  · exact .next (uncompressResult_idle h _ _)

theorem uncompressAny_idle (h : s.SameUpToIdle s') (hd : Header) :
    SameOutcome (uncompressAny hd s) (uncompressAny hd s') := by
  simp only [uncompressAny, h.arg_eq, h.mem_eq]
  split
  · exact .next (h.raise _)
  · split
    · exact .next (h.raise _)
    · split
      · split
        · exact .next (h.raise _)
        · exact storeCopy_idle h _
      · exact uncompressTokens_idle h hd

/-- `CTX_INIT` asks of a slot only whether it exists (R328). -/
theorem ctxInit_idle (h : s.SameUpToIdle s') (hd : Header) : (ctxInit hd s).SameUpToIdle (ctxInit hd s') := by
  unfold ctxInit
  rw [h.arg_eq]
  rcases h.slotAt_cases s.arg.a0 with ⟨e, e'⟩ | ⟨c, d, e, e', -⟩
  · rw [e, e']
    exact h.raise _
  · rw [e, e']
    cases kindOperand s.arg.a1 with
    | none => exact h.raise _
    | some kind =>
      dsimp only
      split
      · exact h.raise _
      · split
        · exact h.raise _
        · exact (h.setSlot _ _).done _ _ _

theorem readResult_idle (h : s.SameUpToIdle s') (c : Ctx) (r : Run) (consumed : Nat) :
    (readResult c r consumed s).SameUpToIdle (readResult c r consumed s') := by
  simp only [readResult, h.arg_eq]
  split
  · exact (h.putRun _ _).raiseCode _ _
  · exact (h.putRun _ _).done _ _ _

/-- `CTX_READ` of a slot without a context raises, whatever the slot's other fields hold (R331). -/
theorem execCtxRead_idle (h : s.SameUpToIdle s') : SameOutcome (execCtxRead s) (execCtxRead s') := by
  unfold execCtxRead
  rw [h.arg_eq, h.mem_eq]
  rcases h.slotAt_cases s.arg.a0 with ⟨e, e'⟩ | ⟨c, d, e, e', hcd⟩ <;> rw [e, e'] <;> dsimp only
  · exact .next (h.raise _)
  · split
    · exact .next (h.raise _)
    · rcases hcd with rfl | ⟨hc, hd⟩
      · split
        · exact .next (h.raise _)
        · exact .next (h.raiseCode _ _)
        · exact .next (h.done _ _ _)
        · split
          · exact .refused _
          · exact .next (readResult_idle h _ _ _)
      · rw [hc, hd]
        exact .next (h.raise _)

theorem execCtxFinished_idle (h : s.SameUpToIdle s') : SameOutcome (execCtxFinished s) (execCtxFinished s') := by
  unfold execCtxFinished
  rw [h.arg_eq]
  rcases h.slotAt_cases s.arg.a0 with ⟨e, e'⟩ | ⟨c, d, e, e', hcd⟩ <;> rw [e, e'] <;> dsimp only
  · exact .next (h.raise _)
  · have hstate : c.state = d.state := hcd.elim (congrArg Ctx.state) fun k => k.1.trans k.2.symm
    rw [hstate]
    exact .next (h.done _ _ _)

theorem execCtxDiscard_idle (h : s.SameUpToIdle s') : SameOutcome (execCtxDiscard s) (execCtxDiscard s') := by
  unfold execCtxDiscard
  rw [h.arg_eq]
  rcases h.slotAt_cases s.arg.a0 with ⟨e, e'⟩ | ⟨c, d, e, e', -⟩ <;> rw [e, e'] <;> dsimp only
  · exact .next (h.raise _)
  · exact .next ((h.dropSlot _).done _ _ _)

theorem execCtxQuery_idle (h : s.SameUpToIdle s') : SameOutcome (execCtxQuery s) (execCtxQuery s') := by
  unfold execCtxQuery
  rw [h.arg_eq]
  rcases h.slotAt_cases s.arg.a0 with ⟨e, e'⟩ | ⟨c, d, e, e', hcd⟩ <;> rw [e, e'] <;> dsimp only
  · exact .next (h.raise _)
  · rcases hcd with rfl | ⟨hc, hd⟩
    · split
      · exact .next (h.done _ _ _)
      · exact .next (h.done _ _ _)
    · rw [if_pos hc, if_pos hd]
      exact .next (h.done _ _ _)

theorem packGet_idle (h : s.SameUpToIdle s') (bits index : Word) :
    SameOutcome (packGet bits index s) (packGet bits index s') := by
  simp only [packGet, h.arg_eq, h.mem_eq]
  split
  · exact .next (h.raise _)
  · exact .next (h.done _ _ _)

theorem packSet_idle (h : s.SameUpToIdle s') (bits index : Word) :
    SameOutcome (packSet bits index s) (packSet bits index s') := by
  simp only [packSet, h.arg_eq, h.mem_eq]
  split
  · exact .next (h.raise _)
  · exact .next ((h.setMem _).done _ _ _)

theorem execPkvElement_idle (h : s.SameUpToIdle s') (bits index : Word) :
    SameOutcome (execPkvElement bits index s) (execPkvElement bits index s') := by
  simp only [execPkvElement, h.cmd_eq]
  split
  · exact packGet_idle h bits index
  · split
    · exact packSet_idle h bits index
    · exact .refused _

theorem execLzFind_idle (h : s.SameUpToIdle s') : SameOutcome (execLzFind s) (execLzFind s') := by
  simp only [execLzFind, h.arg_eq, h.mem_eq, h.dFast_eq]
  split
  · exact .next (h.raise _)
  · split
    · exact .next (h.raise _)
    · split
      · exact .next (h.done _ _ _)
      · exact .next (h.done _ _ _)

theorem execLzCompress_idle (h : s.SameUpToIdle s') : SameOutcome (execLzCompress s) (execLzCompress s') := by
  simp only [execLzCompress, h.arg_eq, h.mem_eq, h.dFast_eq]
  split
  · exact .next (h.raise _)
  · split
    · exact .refused _
    · split
      · exact .next ((h.scratch _ _).done _ _ _)
      · split
        · exact .next ((h.scratch _ _).raise _)
        · exact .next ((h.setMem _).done _ _ _)

theorem execHufBuild_idle (h : s.SameUpToIdle s') : SameOutcome (execHufBuild s) (execHufBuild s') := by
  simp only [execHufBuild, h.arg_eq, h.mem_eq]
  split
  · exact .next (h.raise _)
  · split
    · exact .refused _
    · exact .next ((h.setMem _).done _ _ _)

theorem execHufLoad_idle (h : s.SameUpToIdle s') : SameOutcome (execHufLoad s) (execHufLoad s') := by
  simp only [execHufLoad, h.arg_eq, h.mem_eq]
  split
  · exact .next (h.raise _)
  · split
    · exact .next (h.raise _)
    · split
      · exact .refused _
      · exact .next ((h.setMem _).done _ _ _)

theorem runHeader_idle (h : s.SameUpToIdle s') (hd : Header) : SameOutcome (runHeader hd s) (runHeader hd s') := by
  simp only [runHeader, h.cmd_eq]
  split
  · exact .next (getType_idle h _)
  · split
    · exact .next (getSize_idle h _)
    · split
      · exact uncompressAny_idle h hd
      · split
        · exact .next (ctxInit_idle h hd)
        · exact .refused _

/-- A token is read by an `ACTIVE` context, the same in both states. -/
theorem reader_idle (h : s.SameUpToIdle s') (f : Format) : s'.reader f = s.reader f := by
  unfold State.reader
  rw [h.arg_eq]
  rcases h.slotAt_cases s.arg.a0 with ⟨e, e'⟩ | ⟨c, d, e, e', rfl | ⟨hc, hd⟩⟩ <;> rw [e, e']
  simp only [hc, hd, reduceCtorEq, false_and, if_false]

theorem runToken_idle (h : s.SameUpToIdle s') (f : Format) (rules : List (Run → Run)) :
    SameOutcome (runToken f rules s) (runToken f rules s') := by
  unfold runToken
  rw [reader_idle h, h.arg_eq, h.mem_eq]
  split
  · exact .next (h.putRun _ _)
  · exact .refused _

theorem exec_idle (h : s.SameUpToIdle s') (i : Instr) : SameOutcome (exec i s) (exec i s') := by
  cases i with
  | getType =>
    simp only [exec, execGetType, h.arg_eq, h.mem_eq]
    exact .next (getType_idle h _)
  | getSize =>
    simp only [exec, execGetSize, h.arg_eq, h.mem_eq]
    exact .next (getSize_idle h _)
  | uncompressAny =>
    simp only [exec, execUncompressAny, h.arg_eq, h.mem_eq]
    exact uncompressAny_idle h _
  | ctxInit =>
    simp only [exec, execCtxInit, h.arg_eq, h.mem_eq]
    exact .next (ctxInit_idle h _)
  | ctxRead => exact execCtxRead_idle h
  | ctxFinished => exact execCtxFinished_idle h
  | ctxDiscard => exact execCtxDiscard_idle h
  | ctxQuery => exact execCtxQuery_idle h
  | packGet =>
    simp only [exec, execPackGet, h.arg_eq]
    exact packGet_idle h _ _
  | packSet =>
    simp only [exec, execPackSet, h.arg_eq]
    exact packSet_idle h _ _
  | lzFind => exact execLzFind_idle h
  | lzCompress => exact execLzCompress_idle h
  | hufBuild => exact execHufBuild_idle h
  | hufLoad => exact execHufLoad_idle h
  | cmdUnknown code => exact .next (h.raise _)
  | hdrNone size | hdrLz size | hdrLzx size | hdrHuf4 size | hdrHuf8 size | hdrRl size | hdrFlz size =>
    exact runHeader_idle h _
  | hdrDif base flags size | hdrUnrecognised tag flags size | hdrBadFlags base flags size =>
    exact runHeader_idle h _
  | bytes data => exact execBytes_idle h data
  | rltLits data | fltLits data => exact runToken_idle h _ _
  | rltRun n v | lztFlags f | lztLit b | lztRef l o | lzxtRef l o | fltMatchShort k o | fltMatchLong e o | hftByte l h'
  | hfcCode x => exact runToken_idle h _ _
  | pkvElement bits index => exact execPkvElement_idle h bits index

end Idle

/-- Settles O11: the two states go through the same branches of `exec` (`exec_idle`), as no branch looks at more than
`state` of a slot that holds no context. -/
theorem idleSlotFieldsAreUnread : Obligations.IdleSlotFieldsAreUnread := by
  intro i s s' h
  have key := exec_idle h i
  generalize exec i s = o at *
  generalize exec i s' = o' at *
  cases key with
  | next ht =>
    refine ⟨fun t e => ?_, fun r e => (nomatch e), fun r e => (nomatch e)⟩
    cases e
    exact ⟨_, rfl, ht⟩
  | fault r => exact ⟨fun t e => (nomatch e), fun r e => (nomatch e), fun r e => e⟩
  | refused r => exact ⟨fun t e => (nomatch e), fun r e => e, fun r e => (nomatch e)⟩

/-! ### The host's actions one by one (R35, R36, R40, R400, R402) -/

theorem step_of_no_host {s : State} (h : s.host = []) : step s = .next s := by
  simp only [step, h]

theorem step_of_host {s : State} {op : HostOp} {rest : List HostOp} (h : s.host = op :: rest) :
    step s = portAction op { s with host := rest } := by
  simp only [step, h]

theorem portAction_writeCmd (s : State) (v : Word) :
    portAction (.writeReg .cmd v) s = exec (decodeCommand (v.setWidth 8)) { s with cmd := v.setWidth 8 } := rfl

theorem portAction_writeArg (s : State) (j : Fin 6) (v : Word) :
    portAction (.writeReg (.arg j) v) s = .next { s with arg := s.arg.set j v } := rfl

theorem portAction_writeMem (s : State) (a : Nat) (b : Byte) (ha : a < 2 ^ 32) :
    portAction (.writeMem a b) s = .next (s.setMem (s.mem.write a b)) := by
  simp only [portAction, HostOp.command, if_pos ha]

theorem portAction_writeMem_outside (s : State) (a : Nat) (b : Byte) (ha : 2 ^ 32 ≤ a) :
    portAction (.writeMem a b) s = .fault .noSuchAddress := by
  simp only [portAction, HostOp.command, if_neg (Nat.not_lt.mpr ha)]

/-- An operand read after a write of an operand (R36). -/
theorem Args.get_set (g : Args) (j k : Fin 6) (v : Word) : (g.set j v).get k = if k = j then v else g.get k := by
  fin_cases j <;> fin_cases k <;> rfl

/-- The command read in format `CMD` is the one its code stands for (R91). -/
theorem decode_cmd_eq_ok {c : Byte} {i : Instr} (h : decode .cmd [c] = .ok (i, [])) : i = decodeCommand c := by
  have hok : (.ok (decodeCommand c, []) : Except DecodeError (Instr × List Byte)) = .ok (i, []) := h
  exact (Prod.mk.inj (Except.ok.inj hok)).1.symm

/-- A register narrower than 32 bits reads as its number (R36). -/
theorem setWidth_byte_toNat (b : Byte) : (b.setWidth 32 : Word).toNat = b.toNat := by
  rw [BitVec.toNat_setWidth]
  exact Nat.mod_eq_of_lt (b.isLt.trans (by decide))

/-- After a command `CMD` holds its code, the low 8 bits of the word written (R36). -/
theorem step_writeCmd_readReg {s t : State} {v : Word} {rest : List HostOp} (h : s.host = .writeReg .cmd v :: rest)
    (ht : step s = .next t) : (t.readReg .cmd).toNat = v.toNat % 2 ^ 8 := by
  rw [step_of_host h, portAction_writeCmd] at ht
  have hcmd : t.cmd = v.setWidth 8 := ((exec_keepsUnder _ _).of_eq ht).cmd
  rw [State.readReg, hcmd, setWidth_byte_toNat, BitVec.toNat_setWidth]

/-- Settles O5: the command decoded from the byte is the one `portAction` runs. -/
theorem stepRunsTheCommandWritten : Obligations.StepRunsTheCommandWritten := by
  intro s v rest i hhost hdecode
  rw [step_of_host hhost, portAction_writeCmd, decode_cmd_eq_ok hdecode]

/-- Settles O6, action by action. -/
theorem stepOfTheOtherHostActions : Obligations.StepOfTheOtherHostActions := by
  intro s rest
  refine ⟨step_of_no_host, fun v h => step_of_host h, fun v h => step_of_host h, fun j v h => step_of_host h,
    fun j v h => ?writeArg, fun a b h ha => ?writeMem, fun a b h ha => ?outside, fun h => ?reset,
    ⟨setWidth_byte_toNat _, rfl, setWidth_byte_toNat _, fun _ => rfl, fun _ => rfl⟩,
    fun v t h ht => step_writeCmd_readReg h ht⟩
  case writeArg => exact ⟨s.arg.set j v, step_of_host h, fun k => s.arg.get_set j k v⟩
  case writeMem =>
    exact ⟨s.mem.write a b, (step_of_host h).trans (portAction_writeMem _ a b ha), fun x => s.mem.read_write a b x⟩
  case outside => exact (step_of_host h).trans (portAction_writeMem_outside _ a b ha)
  case reset =>
    refine ⟨s.slots.map fun _ => Ctx.reset, step_of_host h, List.length_map _, fun c hc => ?_⟩
    obtain ⟨_, _, rfl⟩ := List.mem_map.mp hc
    rfl

/-! ### Reset and the response -/

theorem reset_slots_idle : ∀ c ∈ State.reset.slots, c.state = .idle := fun _ hc => by
  rw [List.eq_of_mem_replicate hc]
  rfl

/-- Settles O7: each register and each slot of `State.reset`. -/
theorem resetValues : Obligations.ResetValues :=
  ⟨rfl, rfl, rfl, by decide, by decide, List.length_replicate, reset_slots_idle⟩

/-- Settles O12: no memory is listed, no slot holds a context, and the response is 0. -/
theorem invAtReset : Obligations.InvAtReset :=
  ⟨reset_mem_wf, fun c hc => .inl (reset_slots_idle c hc), .inl rfl, by decide, by decide⟩

/-- Another response before a command leaves its outcome as it is (R36): no command reads those registers, and each one
answers through `State.respond`, which writes all of them over. -/
theorem exec_respond (i : Instr) (s : State) (a : Word) (b : Byte) (r : Results) (h : formatOf i = .cmd) :
    exec i (s.respond a b r) = exec i s :=
  match i, h with
  | .getType, _ | .getSize, _ | .uncompressAny, _ | .ctxInit, _ | .ctxRead, _ | .ctxFinished, _ | .ctxDiscard, _
  | .ctxQuery, _ | .packGet, _ | .packSet, _ | .lzFind, _ | .lzCompress, _ | .hufBuild, _ | .hufLoad, _
  | .cmdUnknown _, _ => rfl

/-- Settles O9: the changed response is a `State.respond` (`exec_respond`). -/
theorem commandsRewriteTheWholeResponse : Obligations.CommandsRewriteTheWholeResponse :=
  fun i s a b r h => exec_respond i s a b r h

end Sys2Proof.Machine

/-!
The statements about memory and operands (20_memory.md): the operands every command refuses with an error, the regions
it refuses outright, and the block `LZ_COMPRESS` writes.
-/

namespace Sys2Proof.Machine

/-! ### Operands that raise (R66, R91, R321)

One lemma per command: each of its bad operands, whatever the others are, ends in `E_BAD_ARG`. -/

/-- A reserved bit of `opts` is set exactly in a number from `2 ^ k` on (R91). -/
theorem optsLegal_eq_false_iff (w : Word) (k : Nat) : optsLegal w k = false ↔ 2 ^ k ≤ w.toNat := by simp [optsLegal]

section BadOperands

variable {s : State}

theorem execGetSize_badArg (h : 2 ^ 32 < s.arg.a0.toNat + s.arg.a1.toNat) :
    execGetSize s = .next (s.raise .badArg) := by
  rw [execGetSize, getSize, if_pos ((regionFits_eq_false_iff _ _).mpr h)]

theorem execGetType_badArg (h : 2 ^ 32 < s.arg.a0.toNat + s.arg.a1.toNat) :
    execGetType s = .next (s.raiseCode Err.badArg.code ⟨0xFF, 0, 0, 0⟩) := by
  rw [execGetType, getType, if_pos ((regionFits_eq_false_iff _ _).mpr h)]

theorem execUncompressAny_badArg
    (h : 2 ^ 32 < s.arg.a0.toNat + s.arg.a1.toNat ∨ 2 ^ 32 < s.arg.a2.toNat + s.arg.a3.toNat) :
    execUncompressAny s = .next (s.raise .badArg) := by
  rw [execUncompressAny, uncompressAny, if_pos (by simpa only [regionFits_eq_false_iff] using h)]

theorem packError_badArg {buf bufLen : Nat} (bits index : Nat) (h : 2 ^ 32 < buf + bufLen) :
    packError buf bufLen bits index = some .badArg := by
  rw [packError, if_pos ((regionFits_eq_false_iff _ _).mpr h)]

theorem execPackGet_badArg (h : 2 ^ 32 < s.arg.a0.toNat + s.arg.a1.toNat) :
    execPackGet s = .next (s.raise .badArg) := by
  simp only [execPackGet, packGet, packError_badArg _ _ h]

theorem execPackSet_badArg (h : 2 ^ 32 < s.arg.a0.toNat + s.arg.a1.toNat) :
    execPackSet s = .next (s.raise .badArg) := by
  simp only [execPackSet, packSet, packError_badArg _ _ h]

theorem execLzFind_badArg (h : 2 ^ 32 < s.arg.a0.toNat + s.arg.a1.toNat ∨ 4 ≤ s.arg.a3.toNat) :
    execLzFind s = .next (s.raise .badArg) := by
  rw [execLzFind, if_pos (by simp only [regionFits_eq_false_iff, optsLegal_eq_false_iff]; exact h)]

theorem execLzCompress_badArg
    (h : 2 ^ 32 < s.arg.a0.toNat + s.arg.a1.toNat ∨ 2 ^ 32 < s.arg.a2.toNat + s.arg.a3.toNat ∨
      4 ≤ s.arg.a4.toNat) :
    execLzCompress s = .next (s.raise .badArg) := by
  rw [execLzCompress, if_pos (by simp only [regionFits_eq_false_iff, optsLegal_eq_false_iff]; exact h)]

theorem execCtxInit_badArg
    (h : s.slots.length ≤ s.arg.a0.toNat ∨ s.arg.a1 ∉ [1, 2, 3] ∨ 2 ^ 32 < s.arg.a2.toNat + s.arg.a3.toNat ∨
      2 ^ 32 < s.arg.a4.toNat + s.arg.a5.toNat) :
    execCtxInit s = .next (s.raise .badArg) := by
  unfold execCtxInit ctxInit
  split
  · next c kind hslot hkind =>
    have hfits : 2 ^ 32 < s.arg.a2.toNat + s.arg.a3.toNat ∨ 2 ^ 32 < s.arg.a4.toNat + s.arg.a5.toNat := by
      rcases h with h | h | h
      · rw [(s.slotAt_eq_none_iff _).mpr h] at hslot; cases hslot
      · rw [(kindOperand_eq_none_iff _).mpr (by simpa using h)] at hkind; cases hkind
      · exact h
    rw [if_pos (by simpa only [regionFits_eq_false_iff] using hfits)]
  · rfl

theorem execCtxRead_badArg
    (h : s.slots.length ≤ s.arg.a0.toNat ∨ 2 ^ 32 < s.arg.a1.toNat + s.arg.a2.toNat) :
    execCtxRead s = .next (s.raise .badArg) := by
  unfold execCtxRead
  split
  · rfl
  · next c hslot =>
    rcases h with h | h
    · rw [(s.slotAt_eq_none_iff _).mpr h] at hslot; cases hslot
    · rw [if_pos ((regionFits_eq_false_iff _ _).mpr h)]

theorem execCtxFinished_badArg (h : s.slots.length ≤ s.arg.a0.toNat) :
    execCtxFinished s = .next (s.raise .badArg) := by
  simp only [execCtxFinished, (s.slotAt_eq_none_iff _).mpr h]

theorem execCtxDiscard_badArg (h : s.slots.length ≤ s.arg.a0.toNat) :
    execCtxDiscard s = .next (s.raise .badArg) := by
  simp only [execCtxDiscard, (s.slotAt_eq_none_iff _).mpr h]

theorem execCtxQuery_badArg (h : s.slots.length ≤ s.arg.a0.toNat) :
    execCtxQuery s = .next (s.raise .badArg) := by
  simp only [execCtxQuery, (s.slotAt_eq_none_iff _).mpr h]

/-- The tests of `HUF_BUILD` pass exactly on a legal `opts` and three tables inside the address space (R262). -/
theorem hufBuildLegal_iff (g : Args) :
    hufBuildLegal g = true ↔ g.a1.toNat < 2 ∧ g.a0.toNat + 4 * alphabetSize g.a1 ≤ 2 ^ 32 ∧
      g.a2.toNat + alphabetSize g.a1 / 2 ≤ 2 ^ 32 ∧ g.a3.toNat + 2 * alphabetSize g.a1 ≤ 2 ^ 32 := by
  simp only [hufBuildLegal, Bool.and_eq_true, optsLegal_iff, regionFits_iff, and_assoc, pow_one]

theorem execHufBuild_badArg
    (h : 2 ≤ s.arg.a1.toNat ∨ 2 ^ 32 < s.arg.a0.toNat + 4 * alphabetSize s.arg.a1 ∨
      2 ^ 32 < s.arg.a2.toNat + alphabetSize s.arg.a1 / 2 ∨ 2 ^ 32 < s.arg.a3.toNat + 2 * alphabetSize s.arg.a1) :
    execHufBuild s = .next (s.raise .badArg) := by
  have hbad : hufBuildLegal s.arg = false := by
    rw [← Bool.not_eq_true, hufBuildLegal_iff]
    omega
  rw [execHufBuild, if_pos hbad]

theorem execHufLoad_badArg
    (h : 2 ≤ s.arg.a1.toNat ∨ 2 ^ 32 < s.arg.a0.toNat + alphabetSize s.arg.a1 / 2 ∨
      2 ^ 32 < s.arg.a2.toNat + 2 * alphabetSize s.arg.a1) :
    execHufLoad s = .next (s.raise .badArg) := by
  rw [execHufLoad, if_pos (by simpa only [regionFits_eq_false_iff, optsLegal_eq_false_iff, pow_one] using h)]

end BadOperands

/-- A code outside the table is read as the unknown command (R91). -/
theorem decodeCommand_of_notMem {c : Byte} (h : c ∉ commandCodes) : decodeCommand c = .cmdUnknown c := by
  simp only [commandCodes, List.mem_cons, List.not_mem_nil, or_false, not_or] at h
  simp only [decodeCommand, h, if_false]

/-! The sizes of the tables of the alphabet `opts` selects (R260, R261), as the statements write them -/

theorem alphabetSize_eq (opts : Word) : alphabetSize opts = if opts.getLsbD 0 then 16 else 256 := rfl

theorem freqTableSize_eq (opts : Word) : (if opts.getLsbD 0 then 64 else 1024) = 4 * alphabetSize opts := by
  rw [alphabetSize_eq, mul_ite]

theorem lenTableSize_eq (opts : Word) : (if opts.getLsbD 0 then 8 else 128) = alphabetSize opts / 2 := by
  rw [alphabetSize_eq, apply_ite (· / 2)]

theorem codeTableSize_eq (opts : Word) : (if opts.getLsbD 0 then 32 else 512) = 2 * alphabetSize opts := by
  rw [alphabetSize_eq, mul_ite]

/-- Settles O15: the bad operands one by one, each by the lemma of its command. -/
theorem badOperandsAndCommandsRaise : Obligations.BadOperandsAndCommandsRaise := by
  intro s i
  refine ⟨fun hbad => ?operands, fun h => execGetType_badArg h,
    fun code hcode => ⟨congrArg (fun i => Except.ok (i, [])) (decodeCommand_of_notMem hcode), rfl⟩⟩
  case operands =>
    change exec i s = .next (s.raise .badArg)
    simp only [List.mem_cons, List.not_mem_nil, or_false, freqTableSize_eq, lenTableSize_eq, codeTableSize_eq] at hbad
    rcases hbad with ⟨hi, h⟩ | ⟨hi, h⟩ | ⟨rfl, h⟩ | ⟨rfl, h⟩ | ⟨rfl, h⟩ | ⟨rfl, h⟩ | ⟨rfl, h⟩ | ⟨rfl, h⟩ |
      ⟨rfl, h⟩ | ⟨hi, h⟩ | ⟨rfl, h⟩ | ⟨hi, h⟩ | ⟨rfl, h⟩ | ⟨rfl, h⟩
    · rcases hi with rfl | rfl | rfl | rfl | rfl | rfl
      · exact execGetSize_badArg h
      · exact execUncompressAny_badArg (.inl h)
      · exact execPackGet_badArg h
      · exact execPackSet_badArg h
      · exact execLzFind_badArg (.inl h)
      · exact execLzCompress_badArg (.inl h)
    · rcases hi with rfl | rfl | rfl
      · exact execUncompressAny_badArg (.inr h)
      · exact execLzCompress_badArg (.inr (.inl h))
      · exact execCtxInit_badArg (.inr (.inr (.inl h)))
    · exact execCtxInit_badArg (.inr (.inr (.inr h)))
    · exact execCtxRead_badArg (.inr h)
    · exact execHufBuild_badArg (.inr (.inl h))
    · exact execHufBuild_badArg (.inr (.inr (.inl h)))
    · exact execHufBuild_badArg (.inr (.inr (.inr h)))
    · exact execHufLoad_badArg (.inr (.inl h))
    · exact execHufLoad_badArg (.inr (.inr h))
    · rcases hi with rfl | rfl | rfl | rfl | rfl
      · exact execCtxInit_badArg (.inl h)
      · exact execCtxRead_badArg (.inl h)
      · exact execCtxFinished_badArg h
      · exact execCtxDiscard_badArg h
      · exact execCtxQuery_badArg h
    · exact execCtxInit_badArg (.inr (.inl (by simpa using h)))
    · rcases hi with rfl | rfl
      · exact execHufBuild_badArg (.inl h)
      · exact execHufLoad_badArg (.inl h)
    · exact execLzFind_badArg (.inr h)
    · exact execLzCompress_badArg (.inr (.inr h))

/-! ### Regions that meet (R62, R67)

One lemma per command: on operands that pass its tests it is refused exactly when what it writes meets what it reads. -/

theorem refused_iff_not_apart {a n b k : Nat} {o : Outcome} (ho : o ≠ .refused .overlappingRegions) :
    (if overlaps a n b k then .refused .overlappingRegions else o) = .refused .overlappingRegions ↔
      ¬ Apart a n b k := by
  rw [← overlaps_iff]
  split
  · next h => exact iff_of_true rfl h
  · next h => exact iff_of_false ho h

/-- `LZ_COMPRESS` on operands that pass its tests: the refusal, then the outcomes in their order (R200). -/
theorem execLzCompress_eq {s : State} {block : List Byte} (h1 : s.arg.a0.toNat + s.arg.a1.toNat ≤ 2 ^ 32)
    (h2 : s.arg.a2.toNat + s.arg.a3.toNat ≤ 2 ^ 32) (h3 : s.arg.a4.toNat < 4)
    (hblock : block = compressedBlock s.mem s.dFast s.arg.a0.toNat s.arg.a1.toNat (s.arg.a4.getLsbD 0)
      (s.arg.a4.getLsbD 1)) :
    execLzCompress s =
      if overlaps s.arg.a0.toNat s.arg.a1.toNat s.arg.a2.toNat
          (compressWritten block.length s.arg.a1.toNat s.arg.a3.toNat) then .refused .overlappingRegions
      else if s.arg.a1.toNat ≤ block.length then
        .next ((s.scratch s.arg.a2.toNat (min s.arg.a3.toNat s.arg.a1.toNat)).done false true noResults)
      else if s.arg.a3.toNat < block.length then
        .next ((s.scratch s.arg.a2.toNat (min s.arg.a3.toNat s.arg.a1.toNat)).raise .dstTooSmall)
      else
        .next ((s.setMem (s.mem.writeList s.arg.a2.toNat block)).done false false
          ⟨resultWord block.length, 0, 0, 0⟩) := by
  have hlegal : ¬ (regionFits s.arg.a0.toNat s.arg.a1.toNat = false ∨ regionFits s.arg.a2.toNat s.arg.a3.toNat = false
      ∨ optsLegal s.arg.a4 2 = false) := by
    simp only [regionFits_eq_false_iff, optsLegal_eq_false_iff]
    omega
  rw [execLzCompress, if_neg hlegal, hblock]
  rfl

theorem execLzCompress_refused_iff {s : State} {total : Nat} (h1 : s.arg.a0.toNat + s.arg.a1.toNat ≤ 2 ^ 32)
    (h2 : s.arg.a2.toNat + s.arg.a3.toNat ≤ 2 ^ 32) (h3 : s.arg.a4.toNat < 4)
    (htotal : total = (compressedBlock s.mem s.dFast s.arg.a0.toNat s.arg.a1.toNat (s.arg.a4.getLsbD 0)
      (s.arg.a4.getLsbD 1)).length) :
    execLzCompress s = .refused .overlappingRegions ↔
      ¬ Apart s.arg.a0.toNat s.arg.a1.toNat s.arg.a2.toNat
        (if total < s.arg.a1.toNat ∧ total ≤ s.arg.a3.toNat then total else min s.arg.a3.toNat s.arg.a1.toNat) := by
  have hwritten : compressWritten total s.arg.a1.toNat s.arg.a3.toNat =
      if total < s.arg.a1.toNat ∧ total ≤ s.arg.a3.toNat then total else min s.arg.a3.toNat s.arg.a1.toNat := by
    split
    · next h => exact compressWritten_block _ _ _ h.1 h.2
    · exact compressWritten_scratch _ _ _ (by omega)
  rw [execLzCompress_eq h1 h2 h3 rfl, ← htotal, hwritten]
  refine refused_iff_not_apart ?_
  split
  · exact nofun
  · split <;> exact nofun

/-- The three tables of `HUF_BUILD` lie apart from each other (R67, R262). -/
theorem hufBuildOverlap_eq_false_iff (g : Args) :
    hufBuildOverlap g = false ↔
      Apart g.a0.toNat (4 * alphabetSize g.a1) g.a2.toNat (alphabetSize g.a1 / 2) ∧
        Apart g.a0.toNat (4 * alphabetSize g.a1) g.a3.toNat (2 * alphabetSize g.a1) ∧
        Apart g.a2.toNat (alphabetSize g.a1 / 2) g.a3.toNat (2 * alphabetSize g.a1) := by
  rw [hufBuildOverlap, Bool.or_eq_false_iff, Bool.or_eq_false_iff, overlaps_eq_false_iff, overlaps_eq_false_iff,
    overlaps_eq_false_iff, and_assoc]

theorem execHufBuild_refused_iff {s : State} (h1 : s.arg.a1.toNat < 2)
    (h2 : s.arg.a0.toNat + 4 * alphabetSize s.arg.a1 ≤ 2 ^ 32)
    (h3 : s.arg.a2.toNat + alphabetSize s.arg.a1 / 2 ≤ 2 ^ 32)
    (h4 : s.arg.a3.toNat + 2 * alphabetSize s.arg.a1 ≤ 2 ^ 32) :
    execHufBuild s = .refused .overlappingRegions ↔
      ¬ (Apart s.arg.a0.toNat (4 * alphabetSize s.arg.a1) s.arg.a2.toNat (alphabetSize s.arg.a1 / 2) ∧
        Apart s.arg.a0.toNat (4 * alphabetSize s.arg.a1) s.arg.a3.toNat (2 * alphabetSize s.arg.a1) ∧
        Apart s.arg.a2.toNat (alphabetSize s.arg.a1 / 2) s.arg.a3.toNat (2 * alphabetSize s.arg.a1)) := by
  have hlegal : ¬ hufBuildLegal s.arg = false := by simpa using (hufBuildLegal_iff s.arg).mpr ⟨h1, h2, h3, h4⟩
  rw [execHufBuild, if_neg hlegal, ← hufBuildOverlap_eq_false_iff, Bool.not_eq_false]
  split
  · next h => exact iff_of_true rfl h
  · next h => exact iff_of_false nofun h

/-! The lengths `HUF_LOAD` reads (R137, R268) -/

/-- Element `y` of a packed table of nibbles: the low nibble of its byte first (R109, R137). -/
theorem packedValue_nibble (m : Memory) (a y : Nat) :
    packedValue m a (4 * y) 4 = (m.read (a + y / 2)).toNat / 16 ^ (y % 2) % 16 := by
  refine Nat.eq_of_testBit_eq fun i => ?_
  rw [(testBit_packedValue m a (4 * y) 4 i).1, show 16 ^ (y % 2) = 2 ^ (4 * (y % 2)) from (pow_mul 2 4 _).symm,
    show 16 = 2 ^ 4 from rfl, Nat.testBit_mod_two_pow, Nat.testBit_div_two_pow]
  by_cases hi : i < 4
  · rw [streamBit, show (4 * y + i) / 8 = y / 2 by omega, show (4 * y + i) % 8 = i + 4 * (y % 2) by omega]
    rfl
  · simp only [hi, decide_false, Bool.false_and]

theorem kraftSum_readLens (m : Memory) (a n : Nat) (len : Nat → Nat)
    (hlen : ∀ y, len y = (m.read (a + y / 2)).toNat / 16 ^ (y % 2) % 16) :
    kraftSum (readLens m a n) =
      ((List.range n).map (fun y => if len y = 0 then 0 else 2 ^ (15 - len y))).sum := by
  simp only [kraftSum, readLens, packedValue_nibble, ← hlen, List.map_map, Function.comp_def, Config.hufMaxLen]

theorem execHufLoad_refused_iff {s : State} (h1 : s.arg.a1.toNat < 2)
    (h2 : s.arg.a0.toNat + alphabetSize s.arg.a1 / 2 ≤ 2 ^ 32)
    (h3 : s.arg.a2.toNat + 2 * alphabetSize s.arg.a1 ≤ 2 ^ 32)
    (hkraft : kraftSum (readLens s.mem s.arg.a0.toNat (alphabetSize s.arg.a1)) ≤ 2 ^ 15) :
    execHufLoad s = .refused .overlappingRegions ↔
      ¬ Apart s.arg.a0.toNat (alphabetSize s.arg.a1 / 2) s.arg.a2.toNat (2 * alphabetSize s.arg.a1) := by
  have hlegal : ¬ (optsLegal s.arg.a1 1 = false ∨ regionFits s.arg.a0.toNat (alphabetSize s.arg.a1 / 2) = false
      ∨ regionFits s.arg.a2.toNat (2 * alphabetSize s.arg.a1) = false) := by
    simp only [regionFits_eq_false_iff, optsLegal_eq_false_iff]
    omega
  have hok : ¬ kraftOK (readLens s.mem s.arg.a0.toNat (alphabetSize s.arg.a1)) = false := by
    rw [Bool.not_eq_false, kraftOK, decide_eq_true_eq]
    exact hkraft
  unfold execHufLoad
  rw [if_neg hlegal, if_neg hok]
  exact refused_iff_not_apart nofun

/-! ### The header tests (R322 to R327) -/

theorem kindCode_ne_zero (k : Kind) : kindCode k ≠ 0 := by cases k <;> decide

theorem kindCode_inj {k k' : Kind} : kindCode k = kindCode k' ↔ k = k' := by
  cases k <;> cases k' <;> decide

/-- The kind test over numbers, where 0 stands for no kind, is that over kinds. -/
theorem kindCode_elim_ne_iff (k want : Option Kind) :
    (want.elim 0 kindCode ≠ 0 ∧ k.elim 0 kindCode ≠ want.elim 0 kindCode) ↔ (want ≠ none ∧ k ≠ want) := by
  cases want with
  | none => simp
  | some w =>
    cases k with
    | none => simp [kindCode_ne_zero, (kindCode_ne_zero w).symm]
    | some k => simp [kindCode_ne_zero, kindCode_inj]

/-- The header tests over numbers are those of the machine over fields (R322). -/
theorem headerTests_eq (h : Header) (avail cap : Nat) (want : Option Kind) :
    headerTests h.b0.toNat h.size.toNat avail cap (want.elim 0 kindCode) =
      (checkHeader h avail cap want).elim 0 Err.code := by
  have hkind : ∀ base : BitVec 3, kindNumber base.toNat = (kindOf base).elim 0 kindCode := by decide
  have hflags : ∀ (base : BitVec 3) (flags : BitVec 4),
      ¬ legalFlagsNumber base.toNat flags.toNat ↔ legalFlags base flags = false := by decide
  have hrec : 4 < h.base.toNat ↔ h.recognised = false := by simp [Header.recognised]
  simp only [headerTests, checkHeader, ← Header.base_toNat, ← Header.flags_toNat, ← Header.dif_iff, hkind, hflags, hrec,
    kindCode_elim_ne_iff, apply_ite (fun e : Option Err => e.elim 0 Err.code), Option.elim_some, Option.elim_none]
  rfl

/-- The tests over numbers pass exactly when those of the machine do. -/
theorem headerTests_eq_zero_iff (h : Header) (avail cap : Nat) (want : Option Kind) :
    headerTests h.b0.toNat h.size.toNat avail cap (want.elim 0 kindCode) = 0 ↔ checkHeader h avail cap want = none := by
  rw [headerTests_eq]
  cases checkHeader h avail cap want with
  | none => simp
  | some e => cases e <;> simp [Err.code]

/-- Byte 0 of a header without Dif whose flags are legal (R95). -/
theorem Header.b0_cases {h : Header} (hdif : h.dif = false) (hlegal : legalFlags h.base h.flags = true) :
    h.b0 = 0x00 ∨ h.b0 = 0x10 ∨ h.b0 = 0x11 ∨ h.b0 = 0x24 ∨ h.b0 = 0x28 ∨ h.b0 = 0x30 ∨ h.b0 = 0x40 := by
  have key : ∀ b : Byte, b.getLsbD 7 = false → legalFlags (b.extractLsb' 4 3) (b.extractLsb' 0 4) = true →
      b = 0x00 ∨ b = 0x10 ∨ b = 0x11 ∨ b = 0x24 ∨ b = 0x28 ∨ b = 0x30 ∨ b = 0x40 := by decide +kernel
  exact key h.b0 hdif hlegal

/-- Among those, 0 is the only one of a store block (R156). -/
theorem Header.base_eq_zero_iff {h : Header} (hdif : h.dif = false) (hlegal : legalFlags h.base h.flags = true) :
    h.base = 0 ↔ h.b0 = 0 := by
  have hbase : h.base = h.b0.extractLsb' 4 3 := rfl
  rcases Header.b0_cases hdif hlegal with e | e | e | e | e | e | e <;> rw [hbase, e] <;> decide

/-- The context an accepted token header opens is that of the tables (R325, R327). -/
theorem freshContext_eq_blockContext {h : Header} (dst : Word) (hdif : h.dif = false)
    (hlegal : legalFlags h.base h.flags = true) (hb : h.b0 ≠ 0) :
    freshContext h dst = blockContext h.b0.toNat h.size dst := by
  obtain ⟨b0, size⟩ := h
  rcases Header.b0_cases hdif hlegal with e | e | e | e | e | e | e
  · exact absurd e hb
  all_goals
    simp only at e
    simp [e, freshContext, blockContext, headerKind, headerMode, headerPhase, kindOf, Header.base, Header.flags]

theorem storeHeader_base (size : Word) : Header.base ⟨0x00, size⟩ = 0 := by simp [Header.base]

/-- A store header that fits passes the tests (R322). -/
theorem checkHeader_store {avail cap : Nat} {size : Word} (h1 : 5 ≤ avail) (h2 : size.toNat ≤ cap) :
    checkHeader ⟨0x00, size⟩ avail cap none = none := by
  refine (checkHeader_eq_none_iff _ _ _ _).mpr ⟨h1, ?_, ?_, .inl rfl, ?_, h2⟩ <;>
    simp [Header.recognised, Header.dif, Header.base, Header.flags, legalFlags]

/-- Source and destination lie in the address space (R66). -/
theorem regionFits_both {a n b k : Nat} (h1 : a + n ≤ 2 ^ 32) (h2 : b + k ≤ 2 ^ 32) :
    ¬ (regionFits a n = false ∨ regionFits b k = false) := by
  simp only [regionFits_eq_false_iff]
  omega

/-- `UNCOMPRESS_ANY` on regions in the address space and an accepted header: the store copy, or the token decoders
(R326). -/
theorem uncompressAny_accepted {h : Header} {s : State} (h1 : s.arg.a0.toNat + s.arg.a1.toNat ≤ 2 ^ 32)
    (h2 : s.arg.a2.toNat + s.arg.a3.toNat ≤ 2 ^ 32)
    (hcheck : checkHeader h s.arg.a1.toNat s.arg.a3.toNat none = none) :
    uncompressAny h s =
      if h.base = 0 then
        if s.arg.a1.toNat < 5 + h.size.toNat then .next (s.raise .truncatedPayload)
        else storeCopy (s.mem.readList (s.arg.a0.toNat + 5) h.size.toNat) s
      else uncompressTokens h s := by
  rw [uncompressAny, if_neg (regionFits_both h1 h2), hcheck]

theorem storeCopy_refused_iff {data : List Byte} {s : State} (h : 5 + data.length ≤ s.arg.a1.toNat) :
    storeCopy data s = .refused .overlappingRegions ↔
      ¬ Apart s.arg.a0.toNat s.arg.a1.toNat s.arg.a2.toNat data.length := by
  rw [storeCopy, if_neg (Nat.not_lt.mpr h)]
  exact refused_iff_not_apart nofun

theorem execBytes_refused_iff {data : List Byte} {s : State} (h1 : s.arg.a0.toNat + s.arg.a1.toNat ≤ 2 ^ 32)
    (h2 : s.arg.a2.toNat + s.arg.a3.toNat ≤ 2 ^ 32) (h3 : 5 + data.length ≤ s.arg.a1.toNat)
    (h4 : data.length ≤ s.arg.a3.toNat) :
    execBytes data s = .refused .overlappingRegions ↔
      ¬ Apart s.arg.a0.toNat s.arg.a1.toNat s.arg.a2.toNat data.length := by
  rw [execBytes, if_neg (regionFits_both h1 h2), if_neg (Nat.not_lt.mpr h4)]
  exact storeCopy_refused_iff h3

theorem uncompressAny_store_refused_iff {size : Word} {s : State} (h1 : s.arg.a0.toNat + s.arg.a1.toNat ≤ 2 ^ 32)
    (h2 : s.arg.a2.toNat + s.arg.a3.toNat ≤ 2 ^ 32) (h3 : 5 + size.toNat ≤ s.arg.a1.toNat)
    (h4 : size.toNat ≤ s.arg.a3.toNat) :
    uncompressAny ⟨0x00, size⟩ s = .refused .overlappingRegions ↔
      ¬ Apart s.arg.a0.toNat s.arg.a1.toNat s.arg.a2.toNat size.toNat := by
  rw [uncompressAny_accepted h1 h2 (checkHeader_store (by omega) h4), if_pos (storeHeader_base size),
    if_neg (Nat.not_lt.mpr h3), storeCopy_refused_iff (by rwa [Memory.readList_length]), Memory.readList_length]

theorem uncompressTokens_refused_iff (h : Header) (s : State) :
    uncompressTokens h s = .refused .overlappingRegions ↔
      ¬ Apart s.arg.a0.toNat s.arg.a1.toNat s.arg.a2.toNat (feed (s.arg.a0.toNat + 5) (s.arg.a1.toNat - 5)
        ⟨s.mem, freshContext h s.arg.a2⟩).1.ctx.outPos.toNat :=
  refused_iff_not_apart nofun

theorem execUncompressAny_tokens_refused_iff {s : State} (h1 : s.arg.a0.toNat + s.arg.a1.toNat ≤ 2 ^ 32)
    (h2 : s.arg.a2.toNat + s.arg.a3.toNat ≤ 2 ^ 32) (hb : (s.mem.read s.arg.a0.toNat).toNat ≠ 0)
    (htests : headerTests (s.mem.read s.arg.a0.toNat).toNat (sizeAt s.mem s.arg.a0.toNat) s.arg.a1.toNat s.arg.a3.toNat 0
      = 0) :
    execUncompressAny s = .refused .overlappingRegions ↔
      ¬ Apart s.arg.a0.toNat s.arg.a1.toNat s.arg.a2.toNat (feed (s.arg.a0.toNat + 5) (s.arg.a1.toNat - 5)
        ⟨s.mem, blockContext (s.mem.read s.arg.a0.toNat).toNat (BitVec.ofNat 32 (sizeAt s.mem s.arg.a0.toNat))
          s.arg.a2⟩).1.ctx.outPos.toNat := by
  rw [← readHeader_size_toNat] at htests ⊢
  rw [← readHeader_b0] at hb htests ⊢
  rw [execUncompressAny]
  generalize readHeader s.mem s.arg.a0.toNat = h at *
  have hcheck := (headerTests_eq_zero_iff h _ _ none).mp htests
  obtain ⟨-, -, hdif, -, hlegal, -⟩ := (checkHeader_eq_none_iff h _ _ _).mp hcheck
  have hb0 : h.b0 ≠ 0 := fun e => hb (by rw [e]; rfl)
  rw [uncompressAny_accepted h1 h2 hcheck, if_neg (mt (Header.base_eq_zero_iff hdif hlegal).mp hb0),
    uncompressTokens_refused_iff, freshContext_eq_blockContext _ hdif hlegal hb0, BitVec.ofNat_toNat, BitVec.setWidth_eq]

theorem execCtxRead_refused_iff {s : State} {c : Ctx} (hslot : s.SlotIs c) (hactive : c.state = .active)
    (h : s.arg.a1.toNat + s.arg.a2.toNat ≤ 2 ^ 32) :
    execCtxRead s = .refused .overlappingRegions ↔
      ¬ Apart s.arg.a1.toNat (feed s.arg.a1.toNat s.arg.a2.toNat ⟨s.mem, c⟩).2 (c.dstBase.toNat + c.outPos.toNat)
        ((feed s.arg.a1.toNat s.arg.a2.toNat ⟨s.mem, c⟩).1.ctx.outPos - c.outPos).toNat := by
  have hfits : ¬ regionFits s.arg.a1.toNat s.arg.a2.toNat = false := by
    rw [regionFits_eq_false_iff]
    omega
  have hat : s.slotAt s.arg.a0 = some c := hslot
  simp only [execCtxRead, hat, if_neg hfits, hactive]
  exact refused_iff_not_apart nofun

/-! ### Units that nothing is reading (R114, R329) -/

/-- Every header row is run as the header it encodes. -/
theorem exec_of_hdr {i : Instr} (h : formatOf i = .hdr) : ∃ hd, ∀ s, exec i s = runHeader hd s :=
  match i, h with
  | .hdrNone _, _ | .hdrLz _, _ | .hdrLzx _, _ | .hdrHuf4 _, _ | .hdrHuf8 _, _ | .hdrRl _, _ | .hdrFlz _, _
  | .hdrDif _ _ _, _ | .hdrUnrecognised _ _ _, _ | .hdrBadFlags _ _ _, _ => ⟨_, fun _ => rfl⟩

/-- The four commands that read a header (log 11). -/
theorem runHeader_notBeingRead (hd : Header) {s : State} (h : s.cmd ∉ [0x01, 0x02, 0x03, 0x10]) :
    runHeader hd s = .refused .notBeingRead := by
  simp only [List.mem_cons, List.not_mem_nil, or_false, not_or] at h
  simp only [runHeader, h, if_false]

/-- Every token is run by the context that reads its format. -/
theorem exec_of_token {i : Instr}
    (h : formatOf i ∈ [Format.rlt, .lzFlag, .lzLit, .lzRef, .lzxRef, .flt, .hft, .hfc]) :
    ∃ rules, ∀ s, exec i s = runToken (formatOf i) rules s := by
  cases i with
  | rltLits _ | rltRun _ _ | lztFlags _ | lztLit _ | lztRef _ _ | lzxtRef _ _ | fltLits _ | fltMatchShort _ _
  | fltMatchLong _ _ | hftByte _ _ | hfcCode _ => exact ⟨_, fun _ => rfl⟩
  | _ => simp [formatOf] at h

theorem runToken_notBeingRead {f : Format} (rules : List (Run → Run)) {s : State}
    (h : ∀ c, s.SlotIs c → c.state = .active → c.nextFormat ≠ some f) :
    runToken f rules s = .refused .notBeingRead := by
  rcases runToken_cases f rules s with ⟨c, hslot, hactive, hnext, -⟩ | ⟨-, hrefused⟩
  · exact absurd hnext (h c hslot hactive)
  · exact hrefused

/-- The two commands that read a packed element (log 13). -/
theorem execPkvElement_notBeingRead (bits index : Word) {s : State} (h : s.cmd ∉ [0x20, 0x21]) :
    execPkvElement bits index s = .refused .notBeingRead := by
  simp only [List.mem_cons, List.not_mem_nil, or_false, not_or] at h
  simp only [execPkvElement, h, if_false]

/-- Settles O17: each command by the lemma that compares what it writes with what it reads. -/
theorem refusalsAreNamed : Obligations.RefusalsAreNamed := by
  intro s i N len hN hlen
  rw [← alphabetSize_eq] at hN
  subst hN
  refine ⟨fun total h1 h2 h3 => execLzCompress_refused_iff h1 h2 h3, execHufBuild_refused_iff,
    fun h1 h2 h3 hsum => execHufLoad_refused_iff h1 h2 h3 (by rwa [kraftSum_readLens _ _ _ len hlen]),
    fun size h1 h2 h3 h4 hi => ?store, fun b size written h1 h2 hb hsize hne htests hwritten => ?tokens,
    fun c fed hslot hactive h hfed => ?read, fun hf h => ?header, fun hf h => ?token,
    fun bits index hi h => ?element⟩
  case store =>
    rcases hi with ⟨rfl, hb, hsize⟩ | ⟨w, rfl, hcmd, rfl⟩ | ⟨data, rfl, rfl⟩
    · rw [← readHeader_size_toNat] at hsize
      subst hsize
      have hhdr : readHeader s.mem s.arg.a0.toNat = ⟨0x00, (readHeader s.mem s.arg.a0.toNat).size⟩ :=
        congrArg (Header.mk · _) hb
      change uncompressAny (readHeader s.mem s.arg.a0.toNat) s = _ ↔ _
      rw [hhdr]
      exact uncompressAny_store_refused_iff h1 h2 h3 h4
    · have hrun : exec (.hdrNone w) s = uncompressAny ⟨0x00, w⟩ s := by
        change runHeader ⟨0x00, w⟩ s = _
        simp [runHeader, hcmd]
      rw [hrun]
      exact uncompressAny_store_refused_iff h1 h2 h3 h4
    · exact execBytes_refused_iff h1 h2 h3 h4
  case tokens =>
    subst hb hsize hwritten
    exact execUncompressAny_tokens_refused_iff h1 h2 hne htests
  case read =>
    subst hfed
    exact execCtxRead_refused_iff hslot hactive h
  case header =>
    obtain ⟨hd, hrun⟩ := exec_of_hdr hf
    rw [hrun, runHeader_notBeingRead hd h]
  case token =>
    obtain ⟨rules, hrun⟩ := exec_of_token hf
    rw [hrun, runToken_notBeingRead rules h]
  case element =>
    subst hi
    exact execPkvElement_notBeingRead bits index h

/-! ### The greedy parse (R192 to R197) -/

theorem agree_le (m : Memory) (p q lim : Nat) : agree m p q lim ≤ lim := by
  induction lim generalizing p q with
  | zero => exact Nat.le_refl 0
  | succ lim ih =>
    have := ih (p + 1) (q + 1)
    unfold agree
    split <;> omega

/-- A back-reference stands for as many bytes as the match has (R101, R102). -/
theorem coveredBytes_refToken {extended : Bool} {len : Nat} (off : Nat) (h1 : 3 ≤ len)
    (h2 : len ≤ matchMax extended) : coveredBytes (refToken extended off len) = len := by
  cases extended with
  | false =>
    change len ≤ 18 at h2
    change (BitVec.ofNat 4 (len - 3)).toNat + 3 = len
    rw [BitVec.toNat_ofNat, Nat.mod_eq_of_lt (by omega)]
    omega
  | true =>
    change len ≤ 258 at h2
    change (BitVec.ofNat 8 (len - 3)).toNat + 3 = len
    rw [BitVec.toNat_ofNat, Nat.mod_eq_of_lt (by omega)]
    omega

section Parse

variable (m : Memory) (dFast src size : Nat) (extended fast : Bool)

theorem matchLen_le (pos off : Nat) :
    matchLen m src size extended pos off ≤ min (matchMax extended) (size - pos) := agree_le _ _ _ _

/-- The best match of `n` offsets has one of them, or none, and no more bytes than fit (R192, R194). -/
theorem bestMatch_le (pos n : Nat) :
    (bestMatch m src size extended pos n).1 ≤ n ∧
      (bestMatch m src size extended pos n).2 ≤ min (matchMax extended) (size - pos) := by
  induction n with
  | zero => exact ⟨Nat.le_refl 0, Nat.zero_le _⟩
  | succ n ih =>
    unfold bestMatch
    dsimp only
    split
    · exact ⟨Nat.le_refl _, matchLen_le m src size extended pos (n + 1)⟩
    · exact ⟨ih.1.trans (Nat.le_succ n), ih.2⟩

/-- The token of the greedy parse at `pos` (R197). -/
def greedyToken (pos : Nat) : Instr :=
  match findMatch m dFast src size extended fast pos with
  | some (off, len) => refToken extended off len
  | none => .lztLit (m.read (src + pos))

variable {m dFast src size extended fast}

/-- A match found reaches back no further than to the start and is 3 long or more, inside the source and the format
(R191 to R194). -/
theorem findMatch_some {pos off len : Nat} (h : findMatch m dFast src size extended fast pos = some (off, len)) :
    off ≤ pos ∧ 3 ≤ len ∧ len ≤ matchMax extended ∧ len ≤ size - pos := by
  unfold findMatch at h
  dsimp only at h
  split at h
  · next hlong =>
    obtain ⟨hoff, hlen⟩ := bestMatch_le m src size extended pos (candidates dFast extended fast pos)
    have hcand : candidates dFast extended fast pos ≤ pos := by
      unfold candidates
      split <;> omega
    rw [Option.some.inj h] at hoff hlen hlong
    simp only [Config.lzMin] at hlong
    omega
  · cases h

theorem greedyToken_of_some {pos off len : Nat}
    (h : findMatch m dFast src size extended fast pos = some (off, len)) :
    greedyToken m dFast src size extended fast pos = refToken extended off len := by
  simp only [greedyToken, h]

theorem greedyToken_of_none {pos : Nat} (h : findMatch m dFast src size extended fast pos = none) :
    greedyToken m dFast src size extended fast pos = .lztLit (m.read (src + pos)) := by
  simp only [greedyToken, h]

variable (m dFast src size extended fast)

/-- A token stands for a byte or more, and for no byte behind the source. -/
theorem coveredBytes_greedyToken {pos : Nat} (hpos : pos < size) :
    1 ≤ coveredBytes (greedyToken m dFast src size extended fast pos) ∧
      pos + coveredBytes (greedyToken m dFast src size extended fast pos) ≤ size := by
  cases h : findMatch m dFast src size extended fast pos with
  | none =>
    rw [greedyToken_of_none h]
    exact ⟨Nat.le_refl 1, hpos⟩
  | some best =>
    obtain ⟨-, hmin, hmax, hsize⟩ := findMatch_some h
    rw [greedyToken_of_some h, coveredBytes_refToken _ hmin hmax]
    omega

/-- The parse takes the greedy token at `pos` and goes on behind the bytes it stands for (R197). -/
theorem parseTokens_succ (n : Nat) {pos : Nat} (hpos : pos < size) :
    parseTokens m dFast src size extended fast (n + 1) pos =
      greedyToken m dFast src size extended fast pos ::
        parseTokens m dFast src size extended fast n
          (pos + coveredBytes (greedyToken m dFast src size extended fast pos)) := by
  rw [parseTokens, if_pos hpos]
  cases h : findMatch m dFast src size extended fast pos with
  | none => rw [greedyToken_of_none h]; rfl
  | some best =>
    obtain ⟨-, hmin, hmax, -⟩ := findMatch_some h
    rw [greedyToken_of_some h, coveredBytes_refToken _ hmin hmax]

theorem parseTokens_end (n : Nat) {pos : Nat} (hpos : size ≤ pos) :
    parseTokens m dFast src size extended fast n pos = [] := by
  cases n with
  | zero => rfl
  | succ n => rw [parseTokens, if_neg (Nat.not_lt.mpr hpos)]

/-- The tokens stand for the rest of the source, when there may be as many of them as bytes (R197). -/
theorem sum_coveredBytes_parseTokens (n pos : Nat) (hpos : pos ≤ size) (hn : size ≤ pos + n) :
    pos + ((parseTokens m dFast src size extended fast n pos).map coveredBytes).sum = size := by
  induction n generalizing pos with
  | zero => exact Nat.le_antisymm hpos hn
  | succ n ih =>
    rcases Nat.lt_or_ge pos size with hlt | hge
    · obtain ⟨hone, hend⟩ := coveredBytes_greedyToken m dFast src size extended fast hlt
      rw [parseTokens_succ _ _ _ _ _ _ _ hlt, List.map_cons, List.sum_cons, ← Nat.add_assoc]
      exact ih _ hend (by omega)
    · rw [parseTokens_end _ _ _ _ _ _ _ hge]
      exact Nat.le_antisymm hpos hge

/-- Each token of the parse is the greedy one at its position, the bytes before it counted (R197). -/
theorem getElem_parseTokens (n pos k : Nat) (hk : k < (parseTokens m dFast src size extended fast n pos).length) :
    ∃ p, p = pos + (((parseTokens m dFast src size extended fast n pos).take k).map coveredBytes).sum ∧ p < size ∧
      (parseTokens m dFast src size extended fast n pos)[k] = greedyToken m dFast src size extended fast p := by
  induction n generalizing pos k with
  | zero => exact absurd hk (Nat.not_lt_zero k)
  | succ n ih =>
    rcases Nat.lt_or_ge pos size with hlt | hge
    · simp only [parseTokens_succ _ _ _ _ _ _ _ hlt] at hk ⊢
      cases k with
      | zero => exact ⟨pos, rfl, hlt, rfl⟩
      | succ k =>
        obtain ⟨p, hp, hin, htok⟩ := ih _ k (Nat.lt_of_succ_lt_succ hk)
        refine ⟨p, ?_, hin, htok⟩
        rw [hp, List.take_succ_cons, List.map_cons, List.sum_cons, Nat.add_assoc]
    · simp only [parseTokens_end _ _ _ _ _ _ _ hge] at hk
      exact absurd hk (Nat.not_lt_zero k)

end Parse

/-! `LZ_FIND` on operands that pass its tests (R194) -/

section Find

variable {s : State} (h1 : s.arg.a0.toNat + s.arg.a1.toNat ≤ 2 ^ 32) (h2 : s.arg.a3.toNat < 4)
  (h3 : s.arg.a2.toNat ≤ s.arg.a1.toNat)
include h1 h2 h3

theorem execLzFind_of_some {off len : Nat} (h : findMatch s.mem s.dFast s.arg.a0.toNat s.arg.a1.toNat
      (s.arg.a3.getLsbD 0) (s.arg.a3.getLsbD 1) s.arg.a2.toNat = some (off, len)) :
    execLzFind s = .next (s.done false false ⟨1, resultWord off, resultWord len, 0⟩) := by
  rw [execLzFind, if_neg (by simp only [regionFits_eq_false_iff, optsLegal_eq_false_iff]; omega),
    if_neg (Nat.not_lt.mpr h3)]
  simp only [optBit0, optBit1, h]

theorem execLzFind_of_none (h : findMatch s.mem s.dFast s.arg.a0.toNat s.arg.a1.toNat
      (s.arg.a3.getLsbD 0) (s.arg.a3.getLsbD 1) s.arg.a2.toNat = none) :
    execLzFind s = .next (s.done false false noResults) := by
  rw [execLzFind, if_neg (by simp only [regionFits_eq_false_iff, optsLegal_eq_false_iff]; omega),
    if_neg (Nat.not_lt.mpr h3)]
  simp only [optBit0, optBit1, h]

end Find

theorem resultWord_toNat {n : Nat} (h : n < 2 ^ 32) : (resultWord n).toNat = n := by
  rw [resultWord, BitVec.toNat_ofNat, Nat.mod_eq_of_lt h]

/-- The state with the operands of an `LZ_FIND` at `pos` of the source of an `LZ_COMPRESS`, as `State.ParsesAs` runs it
(R197). -/
def State.searchAt (s : State) (pos : Nat) : State :=
  s.setArgs ⟨s.arg.a0, s.arg.a1, BitVec.ofNat 32 pos, s.arg.a4, 0, 0⟩

/-- The greedy token at a position of the source is the one `LZ_FIND` reports there (R197). -/
theorem greedyToken_parsesAs {s : State} {pos : Nat} (h1 : s.arg.a0.toNat + s.arg.a1.toNat ≤ 2 ^ 32)
    (h2 : s.arg.a4.toNat < 4) (hpos : pos < s.arg.a1.toNat) :
    s.ParsesAs pos (greedyToken s.mem s.dFast s.arg.a0.toNat s.arg.a1.toNat (s.arg.a4.getLsbD 0)
      (s.arg.a4.getLsbD 1) pos) := by
  have hword : (s.searchAt pos).arg.a2.toNat = pos := resultWord_toNat (hpos.trans s.arg.a1.isLt)
  have hin : (s.searchAt pos).arg.a2.toNat ≤ (s.searchAt pos).arg.a1.toNat := hword.le.trans hpos.le
  cases hfind : findMatch s.mem s.dFast s.arg.a0.toNat s.arg.a1.toNat (s.arg.a4.getLsbD 0) (s.arg.a4.getLsbD 1)
      (s.searchAt pos).arg.a2.toNat with
  | none =>
    refine ⟨_, execLzFind_of_none (s := s.searchAt pos) h1 h2 hin hfind, rfl, ?_⟩
    rw [hword] at hfind
    rw [greedyToken_of_none hfind]
    rfl
  | some best =>
    obtain ⟨off, len⟩ := best
    refine ⟨_, execLzFind_of_some (s := s.searchAt pos) h1 h2 hin hfind, rfl, ?_⟩
    rw [hword] at hfind
    obtain ⟨hoff, -, -, hlen⟩ := findMatch_some hfind
    simp only [State.done_res, resultWord_toNat (show off < 2 ^ 32 by omega),
      resultWord_toNat (show len < 2 ^ 32 by omega), if_true]
    exact greedyToken_of_some hfind

/-! ### The serialisation (R198) -/

theorem isRef_iff (i : Instr) : isRef i = true ↔ IsReference i := by
  cases i <;> simp [isRef, IsReference]

/-- A sum of distinct powers of two, one for each `i < n` that `f` selects, the first one highest, has the selected
bits. -/
theorem testBit_sum_selected (f : Nat → Bool) (n j : Nat) (hj : j < n) :
    ((List.range n).map fun i => if f i then 2 ^ (n - 1 - i) else 0).sum.testBit (n - 1 - j) = f j := by
  induction n with
  | zero => exact absurd hj (Nat.not_lt_zero j)
  | succ n ih =>
    have hdouble : ∀ i ∈ List.range n, (if f i then 2 ^ (n - i) else 0) = 2 * if f i then 2 ^ (n - 1 - i) else 0 := by
      intro i hi
      rw [mul_ite, ← pow_succ', show n - 1 - i + 1 = n - i by have := List.mem_range.mp hi; omega]
    have hsum : ((List.range (n + 1)).map fun i => if f i then 2 ^ (n - i) else 0).sum =
        Nat.bit (f n) ((List.range n).map fun i => if f i then 2 ^ (n - 1 - i) else 0).sum := by
      rw [List.range_succ, List.map_append, List.sum_append, List.map_congr_left hdouble, List.sum_map_mul_left,
        Nat.bit_val, List.map_singleton, List.sum_singleton, Nat.sub_self, pow_zero]
      cases f n <;> rfl
    rw [Nat.add_sub_cancel, hsum]
    rcases Nat.lt_succ_iff_lt_or_eq.mp hj with hlt | rfl
    · rw [show n - j = n - 1 - j + 1 by omega, Nat.testBit_bit_succ, ih hlt]
    · rw [Nat.sub_self, Nat.testBit_bit_zero]

/-- Bit `7 - j` of a flag byte is the kind of token `j` of its group (R99, R198). -/
theorem getLsbD_flagByte (group : List Instr) {j : Nat} (hj : j < 8) :
    (flagByte group).getLsbD (7 - j) = true ↔ ∃ i, group[j]? = some i ∧ IsReference i := by
  have hbit : (flagByte group).getLsbD (7 - j) = (group[j]?.map isRef).getD false := by
    rw [flagByte, BitVec.getLsbD_ofNat, testBit_sum_selected _ 8 j hj, decide_eq_true (by omega), Bool.true_and]
  rw [hbit]
  cases group[j]? with
  | none => simp
  | some i => simp [isRef_iff]

/-- The payload is the groups of 8 in their order, when there may be as many of them as tokens. -/
theorem serialise_eq (n : Nat) (toks : List Instr) (hn : toks.length ≤ n) :
    serialise n toks = (List.range ((toks.length + 7) / 8)).flatMap fun g =>
      flagByte ((toks.drop (8 * g)).take 8) :: ((toks.drop (8 * g)).take 8).flatMap encode := by
  induction n generalizing toks with
  | zero => rw [List.eq_nil_of_length_eq_zero (Nat.le_zero.mp hn)]; rfl
  | succ n ih =>
    unfold serialise
    split
    · next hnil => rw [hnil]; rfl
    · next hne =>
      have hpos : 0 < toks.length := List.length_pos_iff.mpr hne
      have hgroups : (toks.length + 7) / 8 = ((toks.drop 8).length + 7) / 8 + 1 := by
        rw [List.length_drop]
        omega
      rw [ih _ (by rw [List.length_drop]; omega), hgroups, List.range_succ_eq_map, List.flatMap_cons,
        List.flatMap_map]
      simp only [List.drop_drop, Nat.mul_succ, Nat.mul_zero, List.drop_zero, Nat.add_comm]
      rfl

/-- The block, header and groups, for the tokens of the parse (R199, R200). -/
theorem compressedBlock_eq (m : Memory) (dFast src : Nat) (size : Word) (extended fast : Bool) (toks : List Instr)
    (htoks : toks = parseTokens m dFast src size.toNat extended fast size.toNat 0) :
    compressedBlock m dFast src size.toNat extended fast =
      [if extended then 0x11 else 0x10, byteOfWord size 0, byteOfWord size 1, byteOfWord size 2, byteOfWord size 3] ++
        (List.range ((toks.length + 7) / 8)).flatMap fun g =>
          flagByte ((toks.drop (8 * g)).take 8) :: ((toks.drop (8 * g)).take 8).flatMap encode := by
  rw [compressedBlock, ← htoks, serialise_eq _ _ (Nat.le_refl _), BitVec.ofNat_toNat, BitVec.setWidth_eq]
  cases extended <;> rfl

/-- Settles O58: the block is the greedy parse in groups; with operands that pass and regions apart the command comes to
the outcome its size selects. -/
theorem lzCompressOutcomes : Obligations.LzCompressOutcomes := by
  intro s block h1 h2 h3 hblock
  have hexec := execLzCompress_eq h1 h2 h3 hblock
  refine ⟨?parse, fun hsize hapart => ?notSmaller, fun hsize hcap hapart => ?tooSmall,
    fun hsize hcap hapart => ?written⟩
  case parse =>
    refine ⟨_, fun g => _, fun k hk => ?_, ?_, fun g j hj => ?_,
      hblock.trans (compressedBlock_eq _ _ _ _ _ _ _ rfl)⟩
    · obtain ⟨p, hp, hin, htok⟩ := getElem_parseTokens _ _ _ _ _ _ _ 0 k hk
      rw [htok, ← Nat.zero_add (List.sum _), ← hp]
      exact greedyToken_parsesAs h1 h3 hin
    · rw [← Nat.zero_add (List.sum _)]
      exact sum_coveredBytes_parseTokens _ _ _ _ _ _ _ 0 (Nat.zero_le _) (by omega)
    · rw [getLsbD_flagByte _ hj, List.getElem?_take_of_lt hj, List.getElem?_drop]
  case notSmaller =>
    refine ⟨_, s.freeCount + 1, ?_, s.mem.writeFree_sameOutside _ s.freeCount _⟩
    change execLzCompress s = _
    rw [hexec, compressWritten_scratch _ _ _ (.inl hsize), (overlaps_eq_false_iff _ _ _ _).mpr hapart, if_pos hsize]
    rfl
  case tooSmall =>
    refine ⟨_, s.freeCount + 1, ?_, s.mem.writeFree_sameOutside _ s.freeCount _⟩
    change execLzCompress s = _
    rw [hexec, compressWritten_scratch _ _ _ (.inr hcap), (overlaps_eq_false_iff _ _ _ _).mpr hapart,
      if_neg (Nat.not_le.mpr hsize), if_pos hcap]
    rfl
  case written =>
    refine ⟨_, ?_, s.mem.writeList_holds _ _, s.mem.writeList_sameOutside _ _⟩
    change execLzCompress s = _
    rw [hexec, compressWritten_block _ _ _ hsize hcap, (overlaps_eq_false_iff _ _ _ _).mpr hapart,
      if_neg (Nat.not_le.mpr hsize), if_neg (Nat.not_lt.mpr hcap)]
    rfl

end Sys2Proof.Machine

/-!
The statements about the encodings (30_encoding.md): the decoder and the encoder are each other's inverse, what a header
and a packed element do as instructions, and what each token does to the context that reads it.
-/

namespace Sys2Proof.Machine

/-! ### Fields and bytes (R61, R93) -/

theorem wordOfBytes_byteOfWord (w : Word) :
    wordOfBytes (byteOfWord w 0) (byteOfWord w 1) (byteOfWord w 2) (byteOfWord w 3) = w := by
  unfold wordOfBytes byteOfWord
  rw [BitVec.extractLsb'_append_extractLsb'_eq_extractLsb' (by rfl),
    BitVec.extractLsb'_append_extractLsb'_eq_extractLsb' (by rfl),
    BitVec.extractLsb'_append_extractLsb'_eq_extractLsb' (by rfl)]
  exact BitVec.extractLsb'_eq_self

theorem byteOfWord_wordOfBytes (b0 b1 b2 b3 : Byte) :
    byteOfWord (wordOfBytes b0 b1 b2 b3) 0 = b0 ∧ byteOfWord (wordOfBytes b0 b1 b2 b3) 1 = b1 ∧
      byteOfWord (wordOfBytes b0 b1 b2 b3) 2 = b2 ∧ byteOfWord (wordOfBytes b0 b1 b2 b3) 3 = b3 := by
  unfold wordOfBytes byteOfWord
  refine ⟨BitVec.extractLsb'_append_eq_right, ?_, ?_, ?_⟩
  · rw [BitVec.extractLsb'_append_eq_of_le (by decide)]
    exact BitVec.extractLsb'_append_eq_right
  · rw [BitVec.extractLsb'_append_eq_of_le (by decide), BitVec.extractLsb'_append_eq_of_le (by decide)]
    exact BitVec.extractLsb'_append_eq_right
  · rw [BitVec.extractLsb'_append_eq_of_le (by decide), BitVec.extractLsb'_append_eq_of_le (by decide)]
    exact BitVec.extractLsb'_append_eq_left

/-! ### Headers (R93 to R97) -/

theorem decode_header_bytes (h : Header) (rest : List Byte) :
    decode .hdr (h.bytes ++ rest) = .ok (decodeHeader h, rest) := by
  change Except.ok (decodeHeader ⟨h.b0, wordOfBytes _ _ _ _⟩, rest) = _
  rw [wordOfBytes_byteOfWord]

theorem Header.bytes_wordOfBytes (b0 b1 b2 b3 b4 : Byte) :
    Header.bytes ⟨b0, wordOfBytes b1 b2 b3 b4⟩ = [b0, b1, b2, b3, b4] := by
  obtain ⟨h1, h2, h3, h4⟩ := byteOfWord_wordOfBytes b1 b2 b3 b4
  simp only [Header.bytes, h1, h2, h3, h4]

/-- Byte 0 of a header is its tag and its flags, the tag its Dif bit and its base type (R93, R94). -/
theorem Header.b0_eq_headerByte (h : Header) :
    headerByte h.tag h.flags = h.b0 ∧ headerByte (BitVec.ofBool h.dif ++ h.base) h.flags = h.b0 ∧
      h.tag.extractLsb' 0 3 = h.base := by
  have key : ∀ b : Byte, headerByte (b.extractLsb' 4 4) (b.extractLsb' 0 4) = b ∧
      headerByte (BitVec.ofBool (b.getLsbD 7) ++ b.extractLsb' 4 3) (b.extractLsb' 0 4) = b ∧
      (b.extractLsb' 4 4).extractLsb' 0 3 = b.extractLsb' 4 3 := by decide
  exact key h.b0

/-- The fields of a byte 0 that is put together from them (R93, R94). -/
theorem headerByte_fields (tag flags : BitVec 4) (size : Word) :
    (Header.mk (headerByte tag flags) size).tag = tag ∧ (Header.mk (headerByte tag flags) size).flags = flags ∧
      (Header.mk (headerByte tag flags) size).base = tag.extractLsb' 0 3 ∧
      (Header.mk (headerByte tag flags) size).dif = tag.getLsbD 3 := by
  have key : ∀ tag flags : BitVec 4, (headerByte tag flags).extractLsb' 4 4 = tag ∧
      (headerByte tag flags).extractLsb' 0 4 = flags ∧ (headerByte tag flags).extractLsb' 4 3 = tag.extractLsb' 0 3 ∧
      (headerByte tag flags).getLsbD 7 = tag.getLsbD 3 := by decide
  exact key tag flags

theorem decodeHeader_unrecognised {h : Header} (hrec : h.recognised = false) :
    decodeHeader h = .hdrUnrecognised h.tag h.flags h.size := by
  rw [decodeHeader, if_pos hrec]

theorem decodeHeader_dif {h : Header} (hrec : h.recognised = true) (hdif : h.dif = true) :
    decodeHeader h = .hdrDif h.base h.flags h.size := by
  rw [decodeHeader, if_neg (by simp [hrec]), if_pos (c := Header.dif _ = true) hdif]

theorem decodeHeader_badFlags {h : Header} (hrec : h.recognised = true) (hdif : h.dif = false)
    (hflags : legalFlags h.base h.flags = false) : decodeHeader h = .hdrBadFlags h.base h.flags h.size := by
  have hb0 : ∀ b, h.b0 = b → legalFlags (b.extractLsb' 4 3) (b.extractLsb' 0 4) = false := fun b hb => hb ▸ hflags
  have hne : ∀ b : Byte, legalFlags (b.extractLsb' 4 3) (b.extractLsb' 0 4) = true → h.b0 ≠ b :=
    fun b hb e => by rw [hb0 b e] at hb; cases hb
  rw [decodeHeader, if_neg (by simp [hrec]), if_neg (by simp [hdif]), if_neg (hne _ (by decide)),
    if_neg (hne _ (by decide)), if_neg (hne _ (by decide)), if_neg (hne _ (by decide)), if_neg (hne _ (by decide)),
    if_neg (hne _ (by decide)), if_neg (hne _ (by decide))]

/-- The seven values of byte 0 that select a decoder (R95, R325). -/
theorem decodeHeader_accepted (size : Word) :
    decodeHeader ⟨0x00, size⟩ = .hdrNone size ∧ decodeHeader ⟨0x10, size⟩ = .hdrLz size ∧
      decodeHeader ⟨0x11, size⟩ = .hdrLzx size ∧ decodeHeader ⟨0x24, size⟩ = .hdrHuf4 size ∧
      decodeHeader ⟨0x28, size⟩ = .hdrHuf8 size ∧ decodeHeader ⟨0x30, size⟩ = .hdrRl size ∧
      decodeHeader ⟨0x40, size⟩ = .hdrFlz size := by
  simp [decodeHeader, Header.recognised, Header.base, Header.dif]

/-! The headers no decoder accepts: what the tests find in each -/

theorem recognised_of_hdrUnrecognised {tag flags : BitVec 4} {size : Word}
    (h : (Instr.hdrUnrecognised tag flags size).wellFormed = true) :
    (Header.mk (headerByte tag flags) size).recognised = false := by
  obtain ⟨-, -, hb, -⟩ := headerByte_fields tag flags size
  simp only [Instr.wellFormed, decide_eq_true_eq] at h
  rw [Header.recognised, hb, decide_eq_false_iff_not]
  omega

theorem headerByte_base {base : BitVec 3} (dif : BitVec 1) (flags : BitVec 4) (size : Word) (h : base.toNat ≤ 4) :
    (Header.mk (headerByte (dif ++ base) flags) size).recognised = true ∧
      (Header.mk (headerByte (dif ++ base) flags) size).dif = dif.getLsbD 0 ∧
      (Header.mk (headerByte (dif ++ base) flags) size).base = base ∧
      (Header.mk (headerByte (dif ++ base) flags) size).flags = flags := by
  obtain ⟨-, hf, hb, hd⟩ := headerByte_fields (dif ++ base) flags size
  rw [BitVec.extractLsb'_append_eq_right] at hb
  rw [BitVec.getLsbD_append] at hd
  exact ⟨by rwa [Header.recognised, hb, decide_eq_true_eq], hd, hb, hf⟩

/-- Every header row has a header: its bytes, its meaning, and the row it is read as. -/
theorem header_of_hdr {i : Instr} (h : formatOf i = .hdr) :
    ∃ hd : Header, encode i = hd.bytes ∧ (∀ s, exec i s = runHeader hd s) ∧
      (i.wellFormed = true → decodeHeader hd = i) := by
  cases i with
  | hdrNone size | hdrLz size | hdrLzx size | hdrHuf4 size | hdrHuf8 size | hdrRl size | hdrFlz size =>
    exact ⟨_, rfl, fun _ => rfl, fun _ => by simp only [decodeHeader_accepted]⟩
  | hdrDif base flags size =>
    refine ⟨_, rfl, fun _ => rfl, fun hwf => ?_⟩
    obtain ⟨hrec, hdif, hb, hf⟩ := headerByte_base 1#1 flags size (by simpa [Instr.wellFormed] using hwf)
    rw [decodeHeader_dif hrec hdif, hb, hf]
  | hdrUnrecognised tag flags size =>
    refine ⟨_, rfl, fun _ => rfl, fun hwf => ?_⟩
    obtain ⟨ht, hf, -, -⟩ := headerByte_fields tag flags size
    rw [decodeHeader_unrecognised (recognised_of_hdrUnrecognised hwf), ht, hf]
  | hdrBadFlags base flags size =>
    refine ⟨_, rfl, fun _ => rfl, fun hwf => ?_⟩
    simp only [Instr.wellFormed, Bool.and_eq_true, decide_eq_true_eq, Bool.not_eq_true'] at hwf
    obtain ⟨hrec, hdif, hb, hf⟩ := headerByte_base 0#1 flags size hwf.1
    rw [decodeHeader_badFlags hrec hdif (by rw [hb, hf]; exact hwf.2), hb, hf]
  | _ => cases h

/-- The row a header is read as is a row, and has the header's bytes. -/
theorem decodeHeader_sound (h : Header) :
    (decodeHeader h).wellFormed = true ∧ formatOf (decodeHeader h) = .hdr ∧ encode (decodeHeader h) = h.bytes := by
  obtain ⟨htag, hdiff, hbase⟩ := Header.b0_eq_headerByte h
  by_cases hrec : h.recognised = true
  swap
  · rw [Bool.not_eq_true] at hrec
    rw [decodeHeader_unrecognised hrec]
    refine ⟨?_, rfl, by rw [encode, htag]⟩
    rw [Header.recognised, decide_eq_false_iff_not] at hrec
    rw [Instr.wellFormed, hbase, decide_eq_true_eq]
    omega
  have hle : h.base.toNat ≤ 4 := by simpa [Header.recognised] using hrec
  by_cases hdif : h.dif = true
  · rw [decodeHeader_dif hrec hdif]
    rw [hdif] at hdiff
    exact ⟨by rwa [Instr.wellFormed, decide_eq_true_eq], rfl, congrArg (fun b => Header.bytes ⟨b, h.size⟩) hdiff⟩
  rw [Bool.not_eq_true] at hdif
  by_cases hflags : legalFlags h.base h.flags = true
  · have hh : ∀ b : Byte, h.b0 = b → h = ⟨b, h.size⟩ := fun b e => e ▸ rfl
    rcases Header.b0_cases hdif hflags with e | e | e | e | e | e | e <;> rw [hh _ e] <;>
      simp only [decodeHeader_accepted] <;> exact ⟨rfl, rfl, rfl⟩
  · rw [Bool.not_eq_true] at hflags
    rw [decodeHeader_badFlags hrec hdif hflags]
    rw [hdif] at hdiff
    exact ⟨by simp [Instr.wellFormed, hle, hflags], rfl, congrArg (fun b => Header.bytes ⟨b, h.size⟩) hdiff⟩

/-! ### Commands (R91, R92) -/

theorem decodeCommand_sound (c : Byte) :
    formatOf (decodeCommand c) = .cmd ∧ encode (decodeCommand c) = [c] := by
  by_cases hc : c ∈ commandCodes
  · revert c
    decide
  · rw [decodeCommand_of_notMem hc]
    exact ⟨rfl, rfl⟩

/-! ### Literal data (R98, R104, R156) -/

theorem decodeRun_append {n : Nat} {data : List Byte} (mk : List Byte → Instr) (rest : List Byte)
    (h : data.length = n) :
    decodeRun n mk (data ++ rest) = .ok (mk data, rest) := by
  subst h
  simp [decodeRun]

theorem decodeRun_eq_ok {n : Nat} {mk : List Byte → Instr} {bs rest : List Byte} {i : Instr}
    (h : decodeRun n mk bs = .ok (i, rest)) : ∃ data, data.length = n ∧ i = mk data ∧ bs = data ++ rest := by
  unfold decodeRun at h
  split at h
  · cases h
  · next hlen =>
    cases h
    exact ⟨bs.take n, by simp; omega, rfl, (List.take_append_drop n bs).symm⟩

/-! ### Tokens (R98 to R107): fields from bytes, and bytes from fields -/

theorem decodeRlt_run {c : Byte} (h : c.getLsbD 7 = true) (v : Byte) (rest : List Byte) :
    decodeRlt (c :: v :: rest) = .ok (.rltRun (c.extractLsb' 0 7) v, rest) := if_pos h

theorem decodeRlt_lits {c : Byte} (h : ¬ c.getLsbD 7 = true) (rest : List Byte) :
    decodeRlt (c :: rest) = decodeRun ((c.extractLsb' 0 7).toNat + 1) .rltLits rest := if_neg h

theorem decodeFlt_lits {c : Byte} (h : fastKind c = 0) (rest : List Byte) :
    decodeFlt (c :: rest) = decodeRun ((c.extractLsb' 0 5).toNat + 1) .fltLits rest := if_pos h

theorem decodeFlt_long {c : Byte} (h : fastKind c = 7) (e b1 : Byte) (rest : List Byte) :
    decodeFlt (c :: e :: b1 :: rest) = .ok (.fltMatchLong e (fastOffField c b1), rest) := by
  have h0 : fastKind c ≠ 0 := by rw [h]; decide
  exact (if_neg h0).trans (if_pos h)

theorem decodeFlt_short {c : Byte} (h0 : fastKind c ≠ 0) (h7 : fastKind c ≠ 7) (b1 : Byte) (rest : List Byte) :
    decodeFlt (c :: b1 :: rest) = .ok (.fltMatchShort (fastKind c) (fastOffField c b1), rest) :=
  (if_neg h0).trans (if_neg h7)

theorem plainFields_of_token (l : BitVec 4) (o : BitVec 12) :
    plainLenField (l ++ o.extractLsb' 8 4) = l ∧ plainOffField (l ++ o.extractLsb' 8 4) (o.extractLsb' 0 8) = o := by
  refine ⟨BitVec.extractLsb'_append_eq_left, ?_⟩
  rw [plainOffField, BitVec.extractLsb'_append_eq_right (a := l)]
  exact BitVec.extractLsb'_append_extractLsb' (w := 4) (len := 8)

theorem plainFields_to_token (b0 b1 : Byte) :
    (plainLenField b0 ++ (plainOffField b0 b1).extractLsb' 8 4 : Byte) = b0 ∧
      (plainOffField b0 b1).extractLsb' 0 8 = b1 := by
  refine ⟨?_, BitVec.extractLsb'_append_eq_right⟩
  rw [plainOffField, BitVec.extractLsb'_append_eq_left (b := b1)]
  exact BitVec.extractLsb'_append_extractLsb' (w := 4) (len := 4)

theorem extOffField_of_token (o : BitVec 16) : extOffField (o.extractLsb' 8 8) (o.extractLsb' 0 8) = o :=
  BitVec.extractLsb'_append_extractLsb' (w := 8) (len := 8)

theorem extOffField_to_token (b1 b2 : Byte) :
    (extOffField b1 b2).extractLsb' 8 8 = b1 ∧ (extOffField b1 b2).extractLsb' 0 8 = b2 :=
  ⟨BitVec.extractLsb'_append_eq_left, BitVec.extractLsb'_append_eq_right⟩

theorem fastOffField_of_token (k : BitVec 3) (o : BitVec 13) :
    fastOffField (k ++ o.extractLsb' 8 5) (o.extractLsb' 0 8) = o := by
  rw [fastOffField, BitVec.extractLsb'_append_eq_right (a := k)]
  exact BitVec.extractLsb'_append_extractLsb' (w := 5) (len := 8)

theorem fastFields_to_token (c b1 : Byte) :
    (fastKind c ++ (fastOffField c b1).extractLsb' 8 5 : Byte) = c ∧ (fastOffField c b1).extractLsb' 0 8 = b1 := by
  refine ⟨?_, BitVec.extractLsb'_append_eq_right⟩
  rw [fastOffField, BitVec.extractLsb'_append_eq_left (b := b1)]
  exact BitVec.extractLsb'_append_extractLsb' (w := 3) (len := 5)

/-- A control byte is its bit 7 and its count (R98). -/
theorem control_eq (c : Byte) : (BitVec.ofBool (c.getLsbD 7) ++ c.extractLsb' 0 7 : Byte) = c := by
  revert c
  decide

/-- The count field of a literal run as `encode` writes it. -/
theorem ofNat_length_pred {w : Nat} {data : List Byte} {n : BitVec w} (h : data.length = n.toNat + 1) :
    BitVec.ofNat w (data.length - 1) = n := by
  rw [h, Nat.add_sub_cancel, BitVec.ofNat_toNat, BitVec.setWidth_eq]

/-- Settles O1: each format by the fields of its bytes. -/
theorem decodeOfEncode : Obligations.DecodeOfEncode := by
  intro i rest hwf
  by_cases hhdr : formatOf i = .hdr
  · obtain ⟨hd, hbytes, -, hdec⟩ := header_of_hdr hhdr
    rw [hhdr, hbytes, decode_header_bytes, hdec hwf]
  cases i with
  | cmdUnknown c =>
    simp only [Instr.wellFormed, decide_eq_true_eq] at hwf
    exact congrArg (fun j => Except.ok (j, rest)) (decodeCommand_of_notMem hwf)
  | bytes data => exact decodeRun_append _ _ rfl
  | rltLits data =>
    simp only [Instr.wellFormed, decide_eq_true_eq] at hwf
    obtain ⟨hbit, hfield⟩ := rltControl_fields 0#1 (BitVec.ofNat 7 (data.length - 1))
    refine (decodeRlt_lits (mt hbit.mp (by decide)) _).trans ?_
    rw [hfield]
    exact decodeRun_append _ _ (toNat_ofNat_pred (w := 7) hwf.1 hwf.2).symm
  | rltRun n v =>
    obtain ⟨hbit, hfield⟩ := rltControl_fields 1#1 n
    refine (decodeRlt_run (hbit.mpr rfl) v rest).trans ?_
    rw [hfield]
  | lztRef l o =>
    obtain ⟨hl, ho⟩ := plainFields_of_token l o
    change Except.ok (Instr.lztRef (plainLenField _) (plainOffField _ _), rest) = _
    rw [hl, ho]
  | lzxtRef l o =>
    change Except.ok (Instr.lzxtRef l (extOffField _ _), rest) = _
    rw [extOffField_of_token]
  | fltLits data =>
    simp only [Instr.wellFormed, decide_eq_true_eq] at hwf
    obtain ⟨hkind, hfield⟩ := fltOperation_fields 0#3 (BitVec.ofNat 5 (data.length - 1))
    refine (decodeFlt_lits hkind _).trans ?_
    rw [hfield]
    exact decodeRun_append _ _ (toNat_ofNat_pred (w := 5) hwf.1 hwf.2).symm
  | fltMatchShort k o =>
    simp only [Instr.wellFormed, decide_eq_true_eq] at hwf
    obtain ⟨hkind, -⟩ := fltOperation_fields k (o.extractLsb' 8 5)
    have h0 : k ≠ 0 := by rintro rfl; exact absurd hwf.1 (by decide)
    have h7 : k ≠ 7 := by rintro rfl; exact absurd hwf.2 (by decide)
    refine (decodeFlt_short (by rwa [hkind]) (by rwa [hkind]) _ rest).trans ?_
    rw [hkind, fastOffField_of_token]
  | fltMatchLong e o =>
    obtain ⟨hkind, -⟩ := fltOperation_fields 7#3 (o.extractLsb' 8 5)
    refine (decodeFlt_long hkind _ _ rest).trans ?_
    rw [fastOffField_of_token]
  | hftByte l h =>
    change Except.ok (Instr.hftByte _ _, rest) = _
    rw [BitVec.extractLsb'_append_eq_left (a := h), BitVec.extractLsb'_append_eq_right (a := h)]
  | pkvElement bits index =>
    simp only [Instr.wellFormed, decide_eq_true_eq] at hwf
    exact if_pos hwf
  | hdrNone _ | hdrLz _ | hdrLzx _ | hdrHuf4 _ | hdrHuf8 _ | hdrRl _ | hdrFlz _ | hdrDif _ _ _
  | hdrUnrecognised _ _ _ | hdrBadFlags _ _ _ => exact absurd rfl hhdr
  | _ => rfl

/-! ### What is decoded -/

theorem decodeRlt_sound {bs rest : List Byte} {i : Instr} (h : decodeRlt bs = .ok (i, rest)) :
    i.wellFormed = true ∧ formatOf i = .rlt ∧ encode i ++ rest = bs := by
  cases bs with
  | nil => cases h
  | cons c tail =>
    have hc := control_eq c
    by_cases hbit : c.getLsbD 7 = true
    · cases tail with
      | nil =>
        have hr : decodeRlt [c] = .error .truncated := if_pos hbit
        exact nomatch hr.symm.trans h
      | cons v tail =>
        rw [decodeRlt_run hbit] at h
        cases h
        rw [hbit] at hc
        exact ⟨rfl, rfl, congrArg (· :: v :: rest) hc⟩
    · rw [decodeRlt_lits hbit] at h
      obtain ⟨data, hlen, rfl, rfl⟩ := decodeRun_eq_ok h
      rw [Bool.not_eq_true] at hbit
      rw [hbit] at hc
      have hn := (c.extractLsb' 0 7).isLt
      refine ⟨by rw [Instr.wellFormed, decide_eq_true_eq]; omega, rfl, ?_⟩
      rw [encode, ofNat_length_pred hlen]
      exact congrArg (· :: (data ++ rest)) hc

theorem decodeFlt_sound {bs rest : List Byte} {i : Instr} (h : decodeFlt bs = .ok (i, rest)) :
    i.wellFormed = true ∧ formatOf i = .flt ∧ encode i ++ rest = bs := by
  cases bs with
  | nil => cases h
  | cons c tail =>
    by_cases h0 : fastKind c = 0
    · rw [decodeFlt_lits h0] at h
      obtain ⟨data, hlen, rfl, rfl⟩ := decodeRun_eq_ok h
      have hc : (fastKind c ++ c.extractLsb' 0 5 : Byte) = c :=
        BitVec.extractLsb'_append_extractLsb' (w := 3) (len := 5)
      rw [h0] at hc
      have hn := (c.extractLsb' 0 5).isLt
      refine ⟨by rw [Instr.wellFormed, decide_eq_true_eq]; omega, rfl, ?_⟩
      rw [encode, ofNat_length_pred hlen]
      exact congrArg (· :: (data ++ rest)) hc
    by_cases h7 : fastKind c = 7
    · match tail with
      | e :: b1 :: tail =>
        rw [decodeFlt_long h7] at h
        cases h
        obtain ⟨hc, hb1⟩ := fastFields_to_token c b1
        rw [h7] at hc
        refine ⟨rfl, rfl, ?_⟩
        rw [encode, hb1]
        exact congrArg (· :: e :: b1 :: rest) hc
      | [] =>
        have hr : decodeFlt [c] = .error .truncated := (if_neg h0).trans (if_pos h7)
        exact nomatch hr.symm.trans h
      | [e] =>
        have hr : decodeFlt [c, e] = .error .truncated := (if_neg h0).trans (if_pos h7)
        exact nomatch hr.symm.trans h
    · match tail with
      | b1 :: tail =>
        rw [decodeFlt_short h0 h7] at h
        cases h
        obtain ⟨hc, hb1⟩ := fastFields_to_token c b1
        refine ⟨by rw [Instr.wellFormed, decide_eq_true_eq]; exact fastKind_short c h0 h7, rfl, ?_⟩
        rw [encode, hb1]
        exact congrArg (· :: b1 :: rest) hc
      | [] =>
        have hr : decodeFlt [c] = .error .truncated := (if_neg h0).trans (if_neg h7)
        exact nomatch hr.symm.trans h

/-- Settles O2: each format by the bytes its fields give back. -/
theorem encodeOfDecode : Obligations.EncodeOfDecode := by
  intro f bs rest i hstore h
  cases f with
  | cmd =>
    match bs with
    | c :: tail =>
      cases h
      obtain ⟨hformat, hbytes⟩ := decodeCommand_sound c
      exact ⟨decodeCommand_wellFormed c, hformat, by rw [hbytes]; rfl⟩
  | hdr =>
    match bs with
    | b0 :: b1 :: b2 :: b3 :: b4 :: tail =>
      cases h
      obtain ⟨hwf, hformat, hbytes⟩ := decodeHeader_sound ⟨b0, wordOfBytes b1 b2 b3 b4⟩
      exact ⟨hwf, hformat, by rw [hbytes, Header.bytes_wordOfBytes]; rfl⟩
  | store n =>
    obtain ⟨data, hlen, rfl, rfl⟩ := decodeRun_eq_ok h
    subst hlen
    exact ⟨decide_eq_true (hstore _ rfl), rfl, rfl⟩
  | rlt => exact decodeRlt_sound h
  | lzFlag | lzLit | hfc =>
    match bs with
    | x :: tail =>
      cases h
      exact ⟨rfl, rfl, rfl⟩
  | lzRef =>
    match bs with
    | b0 :: b1 :: tail =>
      cases h
      obtain ⟨h0, h1⟩ := plainFields_to_token b0 b1
      exact ⟨rfl, rfl, by rw [encode, h0, h1]; rfl⟩
  | lzxRef =>
    match bs with
    | b0 :: b1 :: b2 :: tail =>
      cases h
      obtain ⟨h1, h2⟩ := extOffField_to_token b1 b2
      exact ⟨rfl, rfl, by rw [encode, h1, h2]; rfl⟩
  | flt => exact decodeFlt_sound h
  | hft =>
    match bs with
    | x :: tail =>
      cases h
      have hx : (x.extractLsb' 4 4 ++ x.extractLsb' 0 4 : Byte) = x :=
        BitVec.extractLsb'_append_extractLsb' (w := 4) (len := 4)
      exact ⟨rfl, rfl, congrArg (· :: rest) hx⟩
  | pkv bits index =>
    have hd : decode (.pkv bits index) bs =
      if Config.bitsMin ≤ bits.toNat ∧ bits.toNat ≤ Config.bitsMax then .ok (.pkvElement bits index, bs)
      else .error .badWidth := by cases bs <;> rfl
    rw [hd] at h
    split at h
    · next hwidth =>
      cases h
      exact ⟨decide_eq_true hwidth, rfl, rfl⟩
    · cases h

/-- A literal run is there when its bytes are. -/
theorem decodeRun_of_le {n : Nat} {bs : List Byte} (mk : List Byte → Instr) (h : n ≤ bs.length) :
    ∃ i rest, decodeRun n mk bs = .ok (i, rest) :=
  ⟨_, _, if_neg (Nat.not_lt.mpr h)⟩

/-- Settles O3: a literal run is the longest token, of 1 + 128 bytes. -/
theorem everyByteBeginsAToken : Obligations.EveryByteBeginsAToken := by
  intro f bs hf hlen
  obtain ⟨c, e, b1, tail, rfl⟩ : ∃ c e b1 tail, bs = c :: e :: b1 :: tail := by
    match bs with
    | c :: e :: b1 :: tail => exact ⟨c, e, b1, tail, rfl⟩
    | [] | [_] | [_, _] => simp at hlen
  simp only [List.mem_cons, List.not_mem_nil, or_false] at hf
  rcases hf with rfl | rfl | rfl | rfl | rfl | rfl | rfl | rfl
  case inl =>
    by_cases hbit : c.getLsbD 7 = true
    · exact ⟨_, _, decodeRlt_run hbit e _⟩
    · have hn := (c.extractLsb' 0 7).isLt
      obtain ⟨i, rest, h⟩ := decodeRun_of_le (n := (c.extractLsb' 0 7).toNat + 1) (bs := e :: b1 :: tail) .rltLits
        (by simp only [List.length_cons] at hlen ⊢; omega)
      exact ⟨i, rest, (decodeRlt_lits hbit _).trans h⟩
  case inr.inr.inr.inr.inr.inl =>
    by_cases h0 : fastKind c = 0
    · have hn := (c.extractLsb' 0 5).isLt
      obtain ⟨i, rest, h⟩ := decodeRun_of_le (n := (c.extractLsb' 0 5).toNat + 1) (bs := e :: b1 :: tail) .fltLits
        (by simp only [List.length_cons] at hlen ⊢; omega)
      exact ⟨i, rest, (decodeFlt_lits h0 _).trans h⟩
    · by_cases h7 : fastKind c = 7
      · exact ⟨_, _, decodeFlt_long h7 e b1 _⟩
      · exact ⟨_, _, decodeFlt_short h0 h7 e _⟩
  all_goals exact ⟨_, _, rfl⟩

/-- Settles O4: five words, decoded by evaluation. -/
theorem wordsDecode : Obligations.WordsDecode := by
  unfold Obligations.WordsDecode
  decide

/-! ### Headers as instructions (R114, R151, R322) -/

/-- A header that stands in memory is the one that is read there (R151). -/
theorem readHeader_of_holds {m : Memory} {a : Nat} {hd : Header} (h : m.Holds a hd.bytes) : readHeader m a = hd := by
  have hb : ∀ (k : Nat) (hk : k < hd.bytes.length), m.read (a + k) = hd.bytes[k] := h
  have h0 : m.read a = hd.b0 := hb 0 (show 0 < 5 by decide)
  have h1 : m.read (a + 1) = byteOfWord hd.size 0 := hb 1 (show 1 < 5 by decide)
  have h2 : m.read (a + 2) = byteOfWord hd.size 1 := hb 2 (show 2 < 5 by decide)
  have h3 : m.read (a + 3) = byteOfWord hd.size 2 := hb 3 (show 3 < 5 by decide)
  have h4 : m.read (a + 4) = byteOfWord hd.size 3 := hb 4 (show 4 < 5 by decide)
  rw [readHeader, h0, h1, h2, h3, h4, wordOfBytes_byteOfWord]

/-- Settles O24: the header read from memory is the one the row encodes, and the row runs as that header. -/
theorem headerInMemoryActsAsItsInstruction : Obligations.HeaderInMemoryActsAsItsInstruction := by
  intro s i a _ hhdr hcmd ha hmem
  obtain ⟨hd, hbytes, hrun, -⟩ := header_of_hdr hhdr
  rw [hbytes] at hmem
  have hread := readHeader_of_holds hmem
  rw [hrun]
  simp only [List.mem_cons, List.not_mem_nil, or_false] at hcmd
  rcases hcmd with hcmd | hcmd | hcmd | hcmd <;> rw [hcmd] at ha ⊢ <;> simp at ha <;> subst ha hread <;>
    simp only [runHeader, hcmd] <;> rfl

/-- The kind of a base type and the `kind` operand agree when their numbers do (R92, R325). -/
theorem kindOf_eq_kindOperand {base : BitVec 3} {w : Word} (h : kindNumber base.toNat = w.toNat)
    (hbase : base.toNat ≤ 4) : kindOf base = kindOperand w := by
  obtain rfl : w = BitVec.ofNat 32 (kindNumber base.toNat) := by rw [h, BitVec.ofNat_toNat, BitVec.setWidth_eq]
  clear h
  revert base
  decide

/-- The two commands that judge a header raise what its tests find (R322, R326, R328). -/
theorem runHeader_raise {hd : Header} {s : State} {e : Err}
    (hcmd : s.cmd = 0x03 ∧ s.arg.a0.toNat + s.arg.a1.toNat ≤ 2 ^ 32 ∧ 5 ≤ s.arg.a1.toNat ∨
      s.cmd = 0x10 ∧ s.arg.a4.toNat + s.arg.a5.toNat ≤ 2 ^ 32 ∧ 5 ≤ s.arg.a5.toNat ∧
        s.arg.a0.toNat < s.slots.length ∧ s.arg.a1 ∈ [1, 2, 3])
    (hdst : s.arg.a2.toNat + s.arg.a3.toNat ≤ 2 ^ 32)
    (hcheck : ∀ avail want, 5 ≤ avail → (want = none ∨ s.cmd = 0x10 ∧ want = kindOperand s.arg.a1) →
      checkHeader hd avail s.arg.a3.toNat want = some e) :
    runHeader hd s = .next (s.raise e) := by
  rcases hcmd with ⟨hcmd, hsrc, h5⟩ | ⟨hcmd, hsrc, h5, hslot, hkind⟩
  · have hrun : runHeader hd s = uncompressAny hd s := by simp [runHeader, hcmd]
    rw [hrun, uncompressAny, if_neg (regionFits_both hsrc hdst), hcheck _ _ h5 (.inl rfl)]
  · have hrun : runHeader hd s = .next (ctxInit hd s) := by simp [runHeader, hcmd]
    obtain ⟨c, hc⟩ : ∃ c, s.slotAt s.arg.a0 = some c := ⟨_, List.getElem?_eq_getElem hslot⟩
    obtain ⟨k, hk⟩ : ∃ k, kindOperand s.arg.a1 = some k := by
      simp only [List.mem_cons, List.not_mem_nil, or_false] at hkind
      rcases hkind with h | h | h <;> rw [h] <;> exact ⟨_, rfl⟩
    have hc' := hcheck _ _ h5 (.inr ⟨hcmd, rfl⟩)
    rw [hk] at hc'
    rw [hrun]
    simp only [ctxInit, hc, hk, if_neg (regionFits_both hdst hsrc), hc']

/-- Settles O23: the first header test that fails is that of the row. -/
theorem refusedHeadersRaise : Obligations.RefusedHeadersRaise := by
  intro s size tag base flags hcmd hdst
  refine ⟨fun hwf => ?unrecognised, fun hwf => ?dif, fun hwf hkind => ?badFlags⟩
  case unrecognised =>
    refine runHeader_raise (e := .badType) hcmd hdst fun avail want h5 _ => ?_
    rw [checkHeader, if_neg (Nat.not_lt.mpr h5), if_pos (recognised_of_hdrUnrecognised hwf)]
  case dif =>
    obtain ⟨hrec, hdif, -, -⟩ := headerByte_base 1#1 flags size (by simpa [Instr.wellFormed] using hwf)
    refine runHeader_raise (e := .unsupportedType) hcmd hdst fun avail want h5 _ => ?_
    rw [checkHeader, if_neg (Nat.not_lt.mpr h5), if_neg (by simp [hrec]), if_pos (c := Header.dif _ = true) hdif]
  case badFlags =>
    simp only [Instr.wellFormed, Bool.and_eq_true, decide_eq_true_eq, Bool.not_eq_true'] at hwf
    obtain ⟨hrec, hdif, hb, hf⟩ := headerByte_base 0#1 flags size hwf.1
    refine runHeader_raise (e := .badFlags) hcmd hdst fun avail want h5 hwant => ?_
    have hkindOf : want = none ∨ kindOf base = want := by
      refine hwant.imp_right fun ⟨hc, hw⟩ => ?_
      rw [hw]
      exact kindOf_eq_kindOperand (hkind hc) hwf.1
    rw [checkHeader, if_neg (Nat.not_lt.mpr h5), if_neg (by simp [hrec]), if_neg (by simp [hdif]), hb,
      if_neg (by rcases hkindOf with h | h <;> simp [h]), hf, if_pos hwf.2]

/-! ### The packed element (R110, R131 to R134) -/

/-- `PACK_GET` on an element inside the buffer: each bit of the value is its stream bit, zero-extended (R132, R133). -/
theorem packGet_inside {bits index : Word} {s : State} (hfit : s.arg.a0.toNat + s.arg.a1.toNat ≤ 2 ^ 32)
    (h1 : 1 ≤ bits.toNat) (h32 : bits.toNat ≤ 32)
    (hin : (bits.toNat * index.toNat + bits.toNat - 1) / 8 < s.arg.a1.toNat) :
    ∃ v : Word, packGet bits index s = .next { s with status := 0, errcode := 0, res := ⟨v, 0, 0, 0⟩ } ∧
      ∀ k < 32, v.getLsbD k = (decide (k < bits.toNat) &&
        (s.mem.read (s.arg.a0.toNat + (bits.toNat * index.toNat + k) / 8)).getLsbD
          ((bits.toNat * index.toNat + k) % 8)) := by
  refine ⟨resultWord (packedValue s.mem s.arg.a0.toNat (bits.toNat * index.toNat) bits.toNat), ?_, fun k hk => ?_⟩
  · rw [packGet, (packError_eq_none_iff _ _ _ _).mpr ⟨hfit, h1, h32, hin⟩]
    exact congrArg Host.Outcome.next (s.done_eq false _)
  · have hbit := (testBit_packedValue s.mem s.arg.a0.toNat (bits.toNat * index.toNat) bits.toNat k).1
    rw [resultWord, BitVec.getLsbD_ofNat, hbit, decide_eq_true hk, Bool.true_and, streamBit]

/-- The buffer bytes an element touches: bit `8 * j + k` of the buffer lies in one of them (R134). -/
theorem packRange_of_bit {off bits j k : Nat} (hk : k < 8) (h1 : off ≤ 8 * j + k) (h2 : 8 * j + k < off + bits) :
    off / 8 ≤ j ∧ j < off / 8 + ((off + bits - 1) / 8 + 1 - off / 8) := by omega

/-- `PACK_SET` on an element inside the buffer: the element's bits are the value's, every other bit stays (R134). -/
theorem packSet_inside {bits index : Word} {s : State} (hfit : s.arg.a0.toNat + s.arg.a1.toNat ≤ 2 ^ 32)
    (h1 : 1 ≤ bits.toNat) (h32 : bits.toNat ≤ 32)
    (hin : (bits.toNat * index.toNat + bits.toNat - 1) / 8 < s.arg.a1.toNat) :
    ∃ m, packSet bits index s = .next { s with mem := m, status := 0, errcode := 0, res := ⟨0, 0, 0, 0⟩ } ∧
      ∀ a k, k < 8 → (m.read a).getLsbD k =
        if s.arg.a0.toNat ≤ a ∧ bits.toNat * index.toNat ≤ 8 * (a - s.arg.a0.toNat) + k ∧
            8 * (a - s.arg.a0.toNat) + k < bits.toNat * index.toNat + bits.toNat then
          s.arg.a4.getLsbD (8 * (a - s.arg.a0.toNat) + k - bits.toNat * index.toNat)
        else (s.mem.read a).getLsbD k := by
  refine ⟨packBytes s.mem s.arg.a0.toNat (bits.toNat * index.toNat) bits.toNat s.arg.a4
    (bits.toNat * index.toNat / 8)
    ((bits.toNat * index.toNat + bits.toNat - 1) / 8 + 1 - bits.toNat * index.toNat / 8), ?_, fun a k hk => ?_⟩
  · rw [packSet, (packError_eq_none_iff _ _ _ _).mpr ⟨hfit, h1, h32, hin⟩]
    exact congrArg Host.Outcome.next (State.done_eq _ false _)
  · rw [Memory.read_packBytes]
    generalize bits.toNat * index.toNat = off
    by_cases helem : s.arg.a0.toNat ≤ a ∧ off ≤ 8 * (a - s.arg.a0.toNat) + k ∧
        8 * (a - s.arg.a0.toNat) + k < off + bits.toNat
    · have hrange := packRange_of_bit hk helem.2.1 helem.2.2
      rw [if_pos helem, if_pos (by omega), getLsbD_packByte _ _ _ _ _ _ _ (Nat.le_refl 8), if_pos ⟨hk, helem.2⟩]
    · rw [if_neg helem]
      split
      · next hbyte =>
        rw [getLsbD_packByte _ _ _ _ _ _ _ (Nat.le_refl 8), if_neg fun h => helem ⟨by omega, h.2⟩]
      · rfl

/-- Settles O54: under each of the two commands the element is accessed as that command accesses it. -/
theorem packedElementActsUnderItsCommand : Obligations.PackedElementActsUnderItsCommand := by
  intro s bits index hfit h1 h32 hin
  refine ⟨fun hcmd => ?_, fun hcmd => ?_⟩
  · have hrun : exec (.pkvElement bits index) s = packGet bits index s := if_pos hcmd
    rw [hrun]
    exact packGet_inside hfit h1 h32 hin
  · have hne : s.cmd ≠ 0x20 := by rw [hcmd]; decide
    have hrun : exec (.pkvElement bits index) s = packSet bits index s := (if_neg hne).trans (if_pos hcmd)
    rw [hrun]
    exact packSet_inside hfit h1 h32 hin

/-! ### One token (R329, R330)

A token runs byte by byte. While the output is not complete the bytes only hand the run on; at the last byte `FINISHED`
is detected. -/

/-- A token that the slot `ARG0` names stands before changes memory and that slot. -/
theorem runToken_of_slot {s : State} {c c' : Ctx} {f : Format} {rules : List (Run → Run)} {m : Memory}
    (hslot : s.SlotIs c) (hactive : c.state = .active) (hnext : c.nextFormat = some f)
    (hrun : Run.consumeAll rules ⟨s.mem, c⟩ = ⟨m, c'⟩) :
    runToken f rules s = .next { s with mem := m, slots := s.slots.set s.arg.a0.toNat c' } := by
  rw [runToken, (s.reader_eq_some_iff f c).mpr ⟨hslot, hactive, hnext⟩]
  simp only [hrun]
  rfl

/-- Detection of `FINISHED` by the output position (R330). -/
theorem Run.settle_active {r : Run} (h : r.ctx.state = .active) :
    r.settle = ⟨r.mem, { r.ctx with state := stateAt r.ctx r.ctx.outPos.toNat }⟩ := by
  unfold Run.settle stateAt
  by_cases hp : r.ctx.outPos = r.ctx.outSize
  · rw [if_pos ⟨h, hp⟩, if_pos (by rw [hp])]
  · rw [if_neg fun k => hp k.2, if_neg fun k => hp (BitVec.eq_of_toNat_eq k), ← h]

theorem Run.settle_of_ne {r : Run} (h : r.ctx.outPos ≠ r.ctx.outSize) : r.settle = r := by
  rw [Run.settle, if_neg fun k => h k.2]

theorem Run.settle_inside {r : Run} (h : r.ctx.outPos.toNat < r.ctx.outSize.toNat) : r.settle = r :=
  Run.settle_of_ne fun k => absurd h (by rw [k]; exact Nat.lt_irrefl _)

/-- A byte that does not complete the output hands the run on. -/
theorem Run.consumeAll_inside {rule : Run → Run} {r r' : Run} (rules : List (Run → Run)) (h : r.ctx.state = .active)
    (hr' : rule r.count = r') (hin : r'.ctx.outPos.toNat < r'.ctx.outSize.toNat) :
    Run.consumeAll (rule :: rules) r = Run.consumeAll rules r' := by
  rw [Run.consumeAll_cons _ _ _ h, Run.consume, hr', Run.settle_inside hin]

/-- The last byte of a token that leaves the context without error. -/
theorem Run.consumeAll_last {rule : Run → Run} {r r' : Run} (h : r.ctx.state = .active)
    (hr' : rule r.count = r') (hactive : r'.ctx.state = .active) :
    Run.consumeAll [rule] r = ⟨r'.mem, { r'.ctx with state := stateAt r'.ctx r'.ctx.outPos.toNat }⟩ := by
  rw [Run.consumeAll_cons _ _ _ h, Run.consumeAll_nil, Run.consume, hr', Run.settle_active hactive]

/-! ### Runs of bytes (R171 to R174, R228, R231) -/

/-- One literal byte of a run, after whose last byte the phase is `p`. -/
def Run.literal (p : Phase) (x : Byte) (r : Run) : Run := ⟨(r.emit x).mem, (r.emit x).ctx.countDown p⟩

theorem rlLit_eq_literal : rlLit = Run.literal .rlCtrl := rfl

theorem flLit_eq_literal : flLit = Run.literal .flOp := rfl

/-- The bytes of a literal run: each is written, and after the last the phase is `p`. -/
theorem consumeAll_literal (p : Phase) (data : List Byte) (r : Run) (hactive : r.ctx.state = .active)
    (hcnt : r.ctx.cnt.toNat = data.length) (hne : data ≠ [])
    (hfit : r.ctx.outPos.toNat + data.length ≤ r.ctx.outSize.toNat) :
    Run.consumeAll (data.map (Run.literal p)) r = ⟨r.mem.writeList r.ctx.outAddr data, { r.ctx with
      outPos := r.ctx.outPos + BitVec.ofNat 32 data.length
      inCount := r.ctx.inCount + BitVec.ofNat 64 data.length
      cnt := 0, phase := p, state := stateAt r.ctx (r.ctx.outPos.toNat + data.length) }⟩ := by
  induction data generalizing r with
  | nil => exact absurd rfl hne
  | cons x xs ih =>
    rw [List.length_cons] at hcnt hfit
    have hroom : r.ctx.outPos.toNat < r.ctx.outSize.toNat := by omega
    have hpos : (r.count.literal p x).ctx.outPos.toNat = r.ctx.outPos.toNat + 1 := r.count.emit_outPos_toNat x hroom
    have hpred : (r.count.literal p x).ctx.cnt.toNat = xs.length := by
      have := cnt_pred r.ctx.cnt (by omega)
      change (r.ctx.cnt - 1).toNat = _
      omega
    by_cases hxs : xs = []
    · subst hxs
      have h0 : r.ctx.cnt - 1 = 0 := BitVec.eq_of_toNat_eq hpred
      rw [List.map_singleton, Run.consumeAll_last hactive rfl hactive, hpos]
      simp only [Run.literal, Ctx.countDown, Run.emit_cnt, Run.count_cnt, h0, if_true]
      rfl
    · have hlen := List.length_pos_of_ne_nil hxs
      have hout : r.ctx.outPos + 1 + BitVec.ofNat 32 xs.length = r.ctx.outPos + BitVec.ofNat 32 (x :: xs).length := by
        rw [List.length_cons]
        bv_omega
      have hin : r.ctx.inCount + 1 + BitVec.ofNat 64 xs.length = r.ctx.inCount + BitVec.ofNat 64 (x :: xs).length := by
        rw [List.length_cons]
        bv_omega
      have haddr : (r.count.literal p x).ctx.outAddr = r.ctx.outAddr + 1 := by
        rw [Ctx.outAddr, hpos]
        rfl
      have hsize : (r.count.literal p x).ctx.outSize.toNat = r.ctx.outSize.toNat := rfl
      rw [List.map_cons, Run.consumeAll_inside _ hactive rfl (by omega),
        ih (r.count.literal p x) hactive hpred hxs (by omega), haddr, hpos,
        ← hout, ← hin, List.length_cons, Nat.add_comm xs.length, ← Nat.add_assoc]
      rfl

/-- A literal run is started, and its bytes follow (R171, R228). -/
theorem consumeAll_literalRun {start : Run → Run} {p lit : Phase} {m : Memory} {c : Ctx} {data : List Byte}
    (hstart : ∀ r : Run, r.ctx.wouldOverrun data.length = false →
      start r = ⟨r.mem, { r.ctx with cnt := BitVec.ofNat 9 data.length, phase := lit }⟩)
    (hactive : c.state = .active) (hne : 1 ≤ data.length) (hlen : data.length ≤ 128)
    (hfit : c.outPos.toNat + data.length ≤ c.outSize.toNat) :
    Run.consumeAll (start :: data.map (Run.literal p)) ⟨m, c⟩ = ⟨m.writeList c.outAddr data, { c with
      outPos := c.outPos + BitVec.ofNat 32 data.length
      inCount := c.inCount + BitVec.ofNat 64 (data.length + 1)
      cnt := 0, phase := p, state := stateAt c (c.outPos.toNat + data.length) }⟩ := by
  have hover : (Run.count ⟨m, c⟩).ctx.wouldOverrun data.length = false := by
    rw [← Bool.not_eq_true, Ctx.wouldOverrun_iff]
    exact Nat.not_lt.mpr hfit
  have hin : c.inCount + 1 + BitVec.ofNat 64 data.length = c.inCount + BitVec.ofNat 64 (data.length + 1) := by bv_omega
  rw [Run.consumeAll_inside _ hactive (hstart _ hover) (by change c.outPos.toNat < c.outSize.toNat; omega),
    consumeAll_literal p data _ hactive (cnt_toNat _ (by omega)) (by rintro rfl; simp at hne) hfit, ← hin]
  rfl

theorem rlCtrlLits_of_fits {n : Nat} {r : Run} (h : r.ctx.wouldOverrun n = false) :
    rlCtrlLits n r = ⟨r.mem, { r.ctx with cnt := BitVec.ofNat 9 n, phase := .rlLit }⟩ := by
  rw [rlCtrlLits, if_neg (by simp [h])]

theorem flOpLits_of_fits {n : Nat} {r : Run} (h : r.ctx.wouldOverrun n = false) :
    flOpLits n r = ⟨r.mem, { r.ctx with cnt := BitVec.ofNat 9 n, phase := .flLit }⟩ := by
  rw [flOpLits, if_neg (by simp [h])]

/-- Settles O35: both forms start a run of the bytes that follow. -/
theorem literalRuns : Obligations.LiteralRuns := by
  intro s c i data start hslot hactive hi hphase hne hfit
  refine ⟨s.mem.writeList (c.dstBase.toNat + c.outPos.toNat) data, ?_, s.mem.writeList_holds _ _,
    s.mem.writeList_sameOutside _ _⟩
  rcases hi with ⟨rfl, rfl, hlen⟩ | ⟨rfl, rfl, hlen⟩
  · exact runToken_of_slot hslot hactive (by rw [Ctx.nextFormat, hphase])
      (consumeAll_literalRun (fun _ => rlCtrlLits_of_fits) hactive hne hlen hfit)
  · exact runToken_of_slot hslot hactive (by rw [Ctx.nextFormat, hphase])
      (consumeAll_literalRun (fun _ => flOpLits_of_fits) hactive hne (by omega) hfit)

/-- Settles O36: the control byte sets the count, the value byte writes the copies. -/
theorem rleRepeatRun : Obligations.RleRepeatRun := by
  intro s c n v hslot hactive hphase hfit
  have hn := n.isLt
  have hcnt := cnt_toNat (n.toNat + 3) (by omega)
  have hpos := toNat_add_ofNat c.outPos (n.toNat + 3) c.outSize hfit
  have hin : c.inCount + 1 + 1 = c.inCount + 2 := by bv_omega
  refine ⟨s.mem.fill (c.dstBase.toNat + c.outPos.toNat) v (n.toNat + 3), ?_, fun k hk => ?_, fun x hx => ?_⟩
  · refine runToken_of_slot hslot hactive (by rw [Ctx.nextFormat, hphase]) ?_
    have hover : ¬ (Run.count ⟨s.mem, c⟩).ctx.wouldOverrun (n.toNat + 3) = true := by
      rw [Ctx.wouldOverrun_iff]
      exact Nat.not_lt.mpr hfit
    rw [Run.consumeAll_inside (rule := rlCtrlRun _) _ hactive (if_neg hover)
        (by change c.outPos.toNat < c.outSize.toNat; omega),
      Run.consumeAll_last hactive rfl hactive]
    simp only [rlVal, Run.emitMany, Run.count, hcnt, hpos, hin]
    rfl
  · rw [Memory.read_fill, if_pos (by omega)]
  · rw [Memory.read_fill, if_neg (by omega)]

/-! ### LZ (R221 to R227) -/

/-- The phase after a token, by the tokens the flag byte covered before it (R221). -/
theorem nflag_last (n : BitVec 4) : n - 1 = 0 ↔ n = 1 := by
  revert n
  decide

/-- Settles O38: one byte each; the literal completes the output or not. -/
theorem lzFlagByteAndLiteral : Obligations.LzFlagByteAndLiteral := by
  intro s c b hslot hactive hroom
  refine ⟨fun hphase => ?_, fun hphase hflag => ⟨s.mem.write (c.dstBase.toNat + c.outPos.toNat) b, ?_, fun a => ?_⟩⟩
  · exact runToken_of_slot hslot hactive (by rw [Ctx.nextFormat, hphase])
      (Run.consumeAll_inside (rule := lzFlag b) [] hactive rfl hroom)
  · refine runToken_of_slot hslot hactive (by simp only [Ctx.nextFormat, hphase, hflag, if_true]) ?_
    have hpos : (lzTokenLit b (Run.count ⟨s.mem, c⟩)).ctx.outPos.toNat = c.outPos.toNat + 1 :=
      Run.emit_outPos_toNat ⟨s.mem, c⟩ b hroom
    rw [Run.consumeAll_last hactive rfl hactive, hpos]
    simp only [lzTokenLit, Ctx.nextTok, Ctx.takeFlag, Run.emit, Run.count, nflag_last]
    rfl
  · rw [Memory.read_write]

/-- A back-reference that fits is the copy (R222). -/
theorem Run.copy_of_fits {r : Run} {off len : Nat} (after : Ctx → Ctx) (hoff : off ≤ r.ctx.outPos.toNat)
    (hfit : r.ctx.outPos.toNat + len ≤ r.ctx.outSize.toNat) :
    r.copy off len after = ⟨r.mem.copyUp r.ctx.outAddr off len,
      after { r.ctx with outPos := r.ctx.outPos + BitVec.ofNat 32 len }⟩ := by
  have hover : ¬ r.ctx.wouldOverrun len = true := by rw [Ctx.wouldOverrun_iff]; omega
  rw [Run.copy, if_neg (Nat.not_lt.mpr hoff), if_neg hover]

/-! The bytes before the last one of a back-reference (R224, R226) -/

theorem consumeAll_lzTokenRef {x : Byte} {rules : List (Run → Run)} {m : Memory} {c : Ctx} (h : c.state = .active)
    (hroom : c.outPos.toNat < c.outSize.toNat) :
    Run.consumeAll (lzTokenRef x :: rules) ⟨m, c⟩ = Run.consumeAll rules ⟨m, { c with
      inCount := c.inCount + 1, flags := c.flags <<< 1, nflag := c.nflag - 1, b0 := x, phase := .lzRef1 }⟩ :=
  Run.consumeAll_inside rules h rfl hroom

theorem consumeAll_lzRef1Ext {x : Byte} {rules : List (Run → Run)} {m : Memory} {c : Ctx} (h : c.state = .active)
    (hroom : c.outPos.toNat < c.outSize.toNat) :
    Run.consumeAll (lzRef1Ext x :: rules) ⟨m, c⟩ = Run.consumeAll rules ⟨m, { c with
      inCount := c.inCount + 1, b1 := x, phase := .lzRef2 }⟩ :=
  Run.consumeAll_inside rules h rfl hroom

/-- The last byte of a back-reference that fits: `FINISHED` is detected by the output position. -/
theorem Run.consumeAll_copy {rule : Run → Run} {r : Run} {off len : Nat} {after : Ctx → Ctx}
    (hactive : r.ctx.state = .active) (hrule : rule r.count = r.count.copy off len after)
    (hoff : off ≤ r.ctx.outPos.toNat) (hfit : r.ctx.outPos.toNat + len ≤ r.ctx.outSize.toNat)
    (hstate : ∀ c, (after c).state = c.state) (hpos : ∀ c, (after c).outPos = c.outPos)
    (hsize : ∀ c, (after c).outSize = c.outSize) :
    Run.consumeAll [rule] r = ⟨r.mem.copyUp r.ctx.outAddr off len,
      { after { r.count.ctx with outPos := r.ctx.outPos + BitVec.ofNat 32 len } with
        state := stateAt r.ctx (r.ctx.outPos.toNat + len) }⟩ := by
  rw [Run.consumeAll_last hactive (hrule.trans (Run.copy_of_fits (r := r.count) after hoff hfit))
    ((hstate _).trans hactive)]
  simp only [stateAt, hpos, hsize, Run.count_outPos, Run.count_outSize, toNat_add_ofNat _ _ _ hfit]
  rfl

/-- The last byte of an LZ back-reference that fits (R225, R227): the copy, and the flag byte's next token comes. -/
theorem consumeAll_lzCopy {rule : Run → Run} {m : Memory} {c : Ctx} {off len : Nat} (h : c.state = .active)
    (hrule : rule (Run.count ⟨m, c⟩) = (Run.count ⟨m, c⟩).copy off len Ctx.nextTok) (hoff : off ≤ c.outPos.toNat)
    (hfit : c.outPos.toNat + len ≤ c.outSize.toNat) :
    Run.consumeAll [rule] ⟨m, c⟩ = ⟨m.copyUp c.outAddr off len, { c with
      outPos := c.outPos + BitVec.ofNat 32 len, inCount := c.inCount + 1
      phase := if c.nflag = 0 then .lzFlag else .lzToken, state := stateAt c (c.outPos.toNat + len) }⟩ :=
  Run.consumeAll_copy h hrule hoff hfit (fun _ => rfl) (fun _ => rfl) (fun _ => rfl)

/-- What memory holds after a copy of earlier output (R68, R222). -/
theorem Memory.read_copyUp_output (m : Memory) {base pos off : Nat} (len : Nat) (h1 : 1 ≤ off) (h2 : off ≤ pos) :
    (∀ k < len, (m.copyUp (base + pos) off len).read (base + pos + k)
      = (m.copyUp (base + pos) off len).read (base + pos + k - off)) ∧
      m.SameOutside (m.copyUp (base + pos) off len) (base + pos) len := by
  refine ⟨fun k hk => ?_, m.copyUp_sameOutside _ _ _⟩
  have h := m.read_copyUp (base + pos) off len h1 (by omega) (base + pos + k)
  rwa [if_pos (by omega)] at h

/-- Settles O39: the first bytes select the reference, the last one copies. -/
theorem lzBackReference : Obligations.LzBackReference := by
  intro s c i len off b0 b1 used hslot hactive hphase hflag hi hoff hfit
  have h1 : 1 ≤ off := by rcases hi with ⟨l, o, -, -, -, rfl, -⟩ | ⟨l, o, -, -, -, rfl, -⟩ <;> omega
  have hroom : c.outPos.toNat < c.outSize.toNat := by
    rcases hi with ⟨l, o, -, -, rfl, -⟩ | ⟨l, o, -, -, rfl, -⟩ <;> omega
  obtain ⟨hcopy, hframe⟩ := s.mem.read_copyUp_output (base := c.dstBase.toNat) len h1 hoff
  refine ⟨_, ?_, hcopy, hframe⟩
  rcases hi with ⟨l, o, rfl, hmode, rfl, rfl, rfl, rfl, rfl⟩ | ⟨l, o, rfl, hmode, rfl, rfl, rfl, rfl, rfl⟩
  · obtain ⟨hl, ho⟩ := plainFields_of_token l o
    have hin : c.inCount + 1 + 1 = c.inCount + BitVec.ofNat 64 2 := by bv_omega
    refine runToken_of_slot hslot hactive (by simp [Ctx.nextFormat, hphase, hflag, hmode]) ?_
    refine (consumeAll_lzTokenRef hactive hroom).trans ((consumeAll_lzCopy
      (off := o.toNat + 1) (len := l.toNat + 3) ?_ ?_ ?_ ?_).trans ?_)
    exacts [hactive, by simp only [lzRef1Plain, Run.count_b0, hl, ho], hoff, hfit, by simp only [hin, nflag_last]; rfl]
  · have hin : c.inCount + 1 + 1 + 1 = c.inCount + BitVec.ofNat 64 3 := by bv_omega
    refine runToken_of_slot hslot hactive (by simp [Ctx.nextFormat, hphase, hflag, hmode]) ?_
    refine (consumeAll_lzTokenRef hactive hroom).trans ((consumeAll_lzRef1Ext ?_ ?_).trans
      ((consumeAll_lzCopy (off := o.toNat + 1) (len := b0.toNat + 3) ?_ ?_ ?_ ?_).trans ?_))
    exacts [hactive, hroom, hactive, by simp only [lzRef2, Run.count_b0, Run.count_b1, extOffField_of_token], hoff,
      hfit,
      by simp only [hin, nflag_last]; rfl]

/-! ### FastLZ (R229 to R233) -/

theorem consumeAll_flOpShort {x : Byte} {rules : List (Run → Run)} {m : Memory} {c : Ctx} (h : c.state = .active)
    (hroom : c.outPos.toNat < c.outSize.toNat) :
    Run.consumeAll (flOpShort x :: rules) ⟨m, c⟩ = Run.consumeAll rules ⟨m, { c with
      inCount := c.inCount + 1, b0 := x, cnt := BitVec.ofNat 9 ((fastKind x).toNat + 2), phase := .flOff }⟩ :=
  Run.consumeAll_inside rules h rfl hroom

theorem consumeAll_flOpLong {x : Byte} {rules : List (Run → Run)} {m : Memory} {c : Ctx} (h : c.state = .active)
    (hroom : c.outPos.toNat < c.outSize.toNat) :
    Run.consumeAll (flOpLong x :: rules) ⟨m, c⟩ = Run.consumeAll rules ⟨m, { c with
      inCount := c.inCount + 1, b0 := x, phase := .flExt }⟩ :=
  Run.consumeAll_inside rules h rfl hroom

theorem consumeAll_flExt {x : Byte} {rules : List (Run → Run)} {m : Memory} {c : Ctx} (h : c.state = .active)
    (hroom : c.outPos.toNat < c.outSize.toNat) :
    Run.consumeAll (flExt x :: rules) ⟨m, c⟩ = Run.consumeAll rules ⟨m, { c with
      inCount := c.inCount + 1, cnt := BitVec.ofNat 9 (9 + x.toNat), phase := .flOff }⟩ :=
  Run.consumeAll_inside rules h rfl hroom

/-- The offset byte of a match that fits (R233): the copy, and the next operation byte comes. -/
theorem consumeAll_flOff {x : Byte} {m : Memory} {c : Ctx} {o : BitVec 13} {len : Nat} (hactive : c.state = .active)
    (ho : fastOffField c.b0 x = o) (hcnt : c.cnt.toNat = len) (hoff : o.toNat + 1 ≤ c.outPos.toNat)
    (hfit : c.outPos.toNat + len ≤ c.outSize.toNat) :
    Run.consumeAll [flOff x] ⟨m, c⟩ = ⟨m.copyUp c.outAddr (o.toNat + 1) len, { c with
      outPos := c.outPos + BitVec.ofNat 32 len, inCount := c.inCount + 1
      cnt := 0, phase := .flOp, state := stateAt c (c.outPos.toNat + len) }⟩ := by
  subst hcnt ho
  exact Run.consumeAll_copy (after := fun c => { c with cnt := 0, phase := .flOp }) hactive rfl hoff hfit
    (fun _ => rfl) (fun _ => rfl) (fun _ => rfl)

/-- Settles O40: the first bytes keep the length, the last one copies. -/
theorem fastMatch : Obligations.FastMatch := by
  intro s c i len off b0 used hslot hactive hphase hi hoff hfit
  have h1 : 1 ≤ off := by rcases hi with ⟨k, o, -, -, -, -, rfl, -⟩ | ⟨e, o, -, -, rfl, -⟩ <;> omega
  have hroom : c.outPos.toNat < c.outSize.toNat := by
    rcases hi with ⟨k, o, -, -, -, rfl, -⟩ | ⟨e, o, -, rfl, -⟩ <;> omega
  have hnext : c.nextFormat = some .flt := by rw [Ctx.nextFormat, hphase]
  obtain ⟨hcopy, hframe⟩ := s.mem.read_copyUp_output (base := c.dstBase.toNat) len h1 hoff
  refine ⟨_, ?_, hcopy, hframe⟩
  rcases hi with ⟨k, o, rfl, -, hk, rfl, rfl, rfl, rfl⟩ | ⟨e, o, rfl, rfl, rfl, rfl, rfl⟩
  · obtain ⟨hkind, -⟩ := fltOperation_fields k (o.extractLsb' 8 5)
    have hin : c.inCount + 1 + 1 = c.inCount + BitVec.ofNat 64 2 := by bv_omega
    have hcnt := cnt_toNat (k.toNat + 2) (by omega)
    refine runToken_of_slot hslot hactive hnext ?_
    refine (consumeAll_flOpShort hactive hroom).trans ((consumeAll_flOff
      (o := o) (len := k.toNat + 2) ?_ ?_ ?_ ?_ ?_).trans ?_)
    exacts [hactive, fastOffField_of_token k o, by rw [hkind]; exact hcnt, hoff, hfit, by rw [hin]; rfl]
  · have he := e.isLt
    have hin : c.inCount + 1 + 1 + 1 = c.inCount + BitVec.ofNat 64 3 := by bv_omega
    have hcnt := cnt_toNat (9 + e.toNat) (by omega)
    refine runToken_of_slot hslot hactive hnext ?_
    refine (consumeAll_flOpLong hactive hroom).trans ((consumeAll_flExt ?_ ?_).trans
      ((consumeAll_flOff (o := o) (len := 9 + e.toNat) ?_ ?_ ?_ ?_ ?_).trans ?_))
    exacts [hactive, hroom, hactive, fastOffField_of_token 7 o, hcnt, hoff, hfit, by rw [hin]; rfl]

/-! ### The table of code lengths (R291) -/

/-- Two lengths stored, entry by entry. -/
theorem setIfInBounds_pair {n : Nat} {α : Type} (v w : Vector α n) (i : Nat) (a b : α)
    (h : ∀ j : Fin n, w[j] = if j.val = i then a else if j.val = i + 1 then b else v[j]) :
    (v.setIfInBounds i a).setIfInBounds (i + 1) b = w := by
  ext j hj
  have hw : w[j] = if j = i then a else if j = i + 1 then b else v[j] := h ⟨j, hj⟩
  rw [hw, Vector.getElem_setIfInBounds, Vector.getElem_setIfInBounds]
  by_cases hb : j = i + 1
  · rw [if_pos hb.symm, if_neg (by omega), if_pos hb]
  · rw [if_neg (Ne.symm hb), if_neg hb]
    by_cases ha : j = i
    · rw [if_pos ha.symm, if_pos ha]
    · rw [if_neg (Ne.symm ha), if_neg ha]

/-- The Kraft sum of a context's alphabet, over the entries of its table (R267). -/
theorem kraftSum_lens (c : Ctx) : kraftSum c.lens = ((List.range c.symbols).map fun j =>
    if c.len.toList.getD j 0 = 0 then 0 else 2 ^ (15 - (c.len.toList.getD j 0).toNat)).sum := by
  have hle : c.symbols ≤ 256 := by rcases c.symbols_le with h | h <;> omega
  have hlen : c.len.toList.length = 256 := Vector.length_toList
  rw [kraftSum]
  congr 1
  refine List.ext_getElem (by simp [c.lens_length]) fun j hj _ => ?_
  have hj : j < c.symbols := by simpa [c.lens_length] using hj
  have hget : c.len.toList.getD j 0 = c.len.toList[j] := List.getD_eq_getElem _ _ (by omega)
  have hzero : ∀ b : BitVec 4, b.toNat = 0 ↔ b = 0 := by decide
  simp only [Ctx.lens, List.getElem_map, List.getElem_range, List.getElem_take, hget, hzero]
  rfl

/-- Settles O42: two lengths are stored; the last byte of the table is judged. -/
theorem huffmanTableByte : Obligations.HuffmanTableByte := by
  intro s c l h lens N hslot hactive hphase hne hN htpos hlens kraft c'
  have hsym : c.symbols = N := hN.symm
  have hput : (Run.count ⟨s.mem, c⟩).ctx.putTableByte (h ++ l) = c' := by
    have hl : ((h ++ l : Byte).extractLsb' 0 4) = l := BitVec.extractLsb'_append_eq_right
    have hh : ((h ++ l : Byte).extractLsb' 4 4) = h := BitVec.extractLsb'_append_eq_left
    have hv := setIfInBounds_pair c.len lens (2 * c.tpos.toNat) l h hlens
    simp only [Ctx.putTableByte, Ctx.setLen, hl, hh, Run.count, hv, c']
  have hstep : c'.tpos.toNat = c.tpos.toNat + 1 := by
    have := c.symbols_le
    change (c.tpos + 1).toNat = _
    bv_omega
  have hkraft : kraftOK c'.lens = decide (kraft ≤ 2 ^ 15) := by
    rw [kraftOK, kraftSum_lens c', show c'.symbols = N from hsym]
    rfl
  have hrun : hfTable (h ++ l) (Run.count ⟨s.mem, c⟩) = ⟨s.mem,
      if c.tpos.toNat + 1 < N / 2 then c'
      else if kraft ≤ 2 ^ 15 then { c' with phase := .hfData }
      else { c' with err := 9, state := .error }⟩ := by
    simp only [hfTable, hput, hstep, show c'.symbols = N from hsym, hkraft, decide_eq_true_eq]
    by_cases hlast : c.tpos.toNat + 1 < N / 2
    · rw [if_pos hlast, if_neg (by omega)]
      rfl
    · rw [if_neg hlast, if_pos (by omega)]
      by_cases hk : kraft ≤ 2 ^ 15
      · rw [if_pos hk, if_pos hk]
        rfl
      · rw [if_neg hk, if_neg hk]
        rfl
  refine runToken_of_slot hslot hactive (by rw [Ctx.nextFormat, hphase]) ?_
  rw [Run.consumeAll_cons _ _ _ hactive, Run.consumeAll_nil, Run.consume, hrun]
  exact Run.settle_of_ne (by split_ifs <;> exact hne)

/-! ### The decode engine and what stands in memory (R329 to R331)

What a step rule does to a context does not depend on what memory holds, so a context that satisfies the invariant
steps to one that does over any memory. -/

/-- What a step rule does to the context is the same over any two memories, and it counts no byte. -/
def MemoryBlind (rule : Run → Run) : Prop :=
  ∀ m m' c, (rule ⟨m, c⟩).ctx = (rule ⟨m', c⟩).ctx ∧ (rule ⟨m, c⟩).ctx.inCount = c.inCount

theorem MemoryBlind.id : MemoryBlind fun r => r := fun _ _ _ => ⟨rfl, rfl⟩

theorem MemoryBlind.comp {rule rule' : Run → Run} (h : MemoryBlind rule) (h' : MemoryBlind rule') :
    MemoryBlind fun r => rule' (rule r) := by
  intro m m' c
  obtain ⟨hctx, hcount⟩ := h m m' c
  obtain ⟨hctx', hcount'⟩ := h' (rule ⟨m, c⟩).mem (rule ⟨m', c⟩).mem (rule ⟨m, c⟩).ctx
  exact ⟨hctx'.trans (by rw [hctx]), hcount'.trans hcount⟩

theorem MemoryBlind.ite {p : Ctx → Prop} [DecidablePred p] {rule rule' : Run → Run} (h : MemoryBlind rule)
    (h' : MemoryBlind rule') : MemoryBlind fun r => if p r.ctx then rule r else rule' r := by
  intro m m' c
  by_cases hp : p c
  · simpa only [if_pos hp] using h m m' c
  · simpa only [if_neg hp] using h' m m' c

theorem memoryBlind_raise (e : Err) : MemoryBlind (Run.raise · e) := fun _ _ _ => ⟨rfl, rfl⟩

theorem memoryBlind_copy (off len : Ctx → Nat) {after : Ctx → Ctx} (h : ∀ c, (after c).inCount = c.inCount) :
    MemoryBlind fun r => r.copy (off r.ctx) (len r.ctx) after :=
  (memoryBlind_raise .badOffset).ite (p := fun c => c.outPos.toNat < off c)
    ((memoryBlind_raise .overrun).ite (p := fun c => c.wouldOverrun (len c) = true)
      fun _ _ _ => ⟨rfl, h _⟩)

theorem memoryBlind_rlCtrl (x : Byte) : MemoryBlind (rlCtrl x) :=
   MemoryBlind.ite (p := fun _ => x.getLsbD 7 = true)
    ((memoryBlind_raise .overrun).ite (p := fun c => c.wouldOverrun _ = true) fun _ _ _ => ⟨rfl, rfl⟩)
    ((memoryBlind_raise .overrun).ite (p := fun c => c.wouldOverrun _ = true) fun _ _ _ => ⟨rfl, rfl⟩)

theorem memoryBlind_flOp (x : Byte) : MemoryBlind (flOp x) :=
   MemoryBlind.ite (p := fun _ => fastKind x = 0)
    ((memoryBlind_raise .overrun).ite (p := fun c => c.wouldOverrun _ = true) fun _ _ _ => ⟨rfl, rfl⟩)
    (MemoryBlind.ite (p := fun _ => fastKind x = 7) (fun _ _ _ => ⟨rfl, rfl⟩) fun _ _ _ => ⟨rfl, rfl⟩)

theorem memoryBlind_hfTable (x : Byte) : MemoryBlind (hfTable x) :=
   MemoryBlind.ite (p := fun c => (c.putTableByte x).tpos.toNat = (c.putTableByte x).symbols / 2)
    (MemoryBlind.ite (p := fun c => kraftOK (c.putTableByte x).lens = true)
      (fun _ _ _ => ⟨rfl, rfl⟩) fun _ _ _ => ⟨rfl, rfl⟩) fun _ _ _ => ⟨rfl, rfl⟩

theorem memoryBlind_emitSym (y : Nat) : MemoryBlind (Run.emitSym · y) :=
   MemoryBlind.ite (p := fun c => c.mode = 4)
    (MemoryBlind.ite (p := fun c => c.nibHave = true)
      (fun _ _ _ => ⟨rfl, rfl⟩) fun _ _ _ => ⟨rfl, rfl⟩) fun _ _ _ => ⟨rfl, rfl⟩

theorem memoryBlind_hfBits (bs : List Bool) : MemoryBlind (hfBits bs) := by
  induction bs with
  | nil => exact .id
  | cons b bs ih =>
    intro m m' c
    unfold hfBits
    simp only []
    split
    · next y _ =>
      exact (memoryBlind_emitSym y).comp (MemoryBlind.id.ite (p := fun c => c.outPos = c.outSize) ih) m m'
        (c.pushBit b).clearCode
    · split
      · exact ⟨rfl, rfl⟩
      · exact ih m m' (c.pushBit b)

theorem memoryBlind_lzRef1 (x : Byte) :
    MemoryBlind fun r => if r.ctx.mode = 1 then lzRef1Ext x r else lzRef1Plain x r :=
  MemoryBlind.ite (rule := lzRef1Ext x) (p := fun c => c.mode = 1) (fun _ _ _ => ⟨rfl, rfl⟩)
    (memoryBlind_copy (fun c => (plainOffField c.b0 x).toNat + 1) (fun c => (plainLenField c.b0).toNat + 3)
      fun _ => rfl)

theorem memoryBlind_stepByte (x : Byte) : MemoryBlind (stepByte x) := by
  intro m m' c
  have select : ∀ rule, (∀ m, stepByte x ⟨m, c⟩ = rule ⟨m, c⟩) → MemoryBlind rule →
      (stepByte x ⟨m, c⟩).ctx = (stepByte x ⟨m', c⟩).ctx ∧ (stepByte x ⟨m, c⟩).ctx.inCount = c.inCount :=
    fun rule hrule h => by rw [hrule, hrule]; exact h m m' c
  cases hp : c.phase with
  | rlCtrl => exact select (rlCtrl x) (fun _ => by simp only [stepByte, hp]) (memoryBlind_rlCtrl x)
  | rlLit => exact select (rlLit x) (fun _ => by simp only [stepByte, hp]) fun _ _ _ => ⟨rfl, rfl⟩
  | rlVal => exact select (rlVal x) (fun _ => by simp only [stepByte, hp]) fun _ _ _ => ⟨rfl, rfl⟩
  | lzFlag => exact select (lzFlag x) (fun _ => by simp only [stepByte, hp]) fun _ _ _ => ⟨rfl, rfl⟩
  | lzToken =>
    exact select (fun r => if r.ctx.flags.getLsbD 7 = true then lzTokenRef x r else lzTokenLit x r)
      (fun _ => by simp only [stepByte, hp])
      (MemoryBlind.ite (rule := lzTokenRef x) (rule' := lzTokenLit x) (p := fun c => c.flags.getLsbD 7 = true)
        (fun _ _ _ => ⟨rfl, rfl⟩) fun _ _ _ => ⟨rfl, rfl⟩)
  | lzRef1 => exact select _ (fun _ => by simp only [stepByte, hp]) (memoryBlind_lzRef1 x)
  | lzRef2 =>
    exact select (lzRef2 x) (fun _ => by simp only [stepByte, hp])
      (memoryBlind_copy (fun c => (extOffField c.b1 x).toNat + 1) (fun c => c.b0.toNat + 3) fun _ => rfl)
  | flOp => exact select (flOp x) (fun _ => by simp only [stepByte, hp]) (memoryBlind_flOp x)
  | flLit => exact select (flLit x) (fun _ => by simp only [stepByte, hp]) fun _ _ _ => ⟨rfl, rfl⟩
  | flExt => exact select (flExt x) (fun _ => by simp only [stepByte, hp]) fun _ _ _ => ⟨rfl, rfl⟩
  | flOff =>
    exact select (flOff x) (fun _ => by simp only [stepByte, hp])
      (memoryBlind_copy (fun c => (fastOffField c.b0 x).toNat + 1) (fun c => c.cnt.toNat)
        (after := fun c => { c with cnt := 0, phase := .flOp }) fun _ => rfl)
  | hfTable => exact select (hfTable x) (fun _ => by simp only [stepByte, hp]) (memoryBlind_hfTable x)
  | hfData => exact select (hfData x) (fun _ => by simp only [stepByte, hp]) (memoryBlind_hfBits (byteBits x))

/-- What one payload byte does to memory, where there is room for output (R329): it writes only the output it adds. -/
theorem stepByte_advance_of_room (x : Byte) (r : Run) (hroom : r.ctx.outPos.toNat < r.ctx.outSize.toNat)
    (hcarried : r.ctx.carried) : r.Advance (stepByte x r) := by
  unfold stepByte
  split
  case h_1 => unfold rlCtrl; split; exacts [rlCtrlRun_advance _ r, rlCtrlLits_advance _ r]
  case h_2 => exact rlLit_advance x r hroom
  case h_3 hp =>
    simp only [Ctx.carried, hp] at hcarried
    exact rlVal_advance x r hcarried.2.2
  case h_5 => split; exacts [.of_same rfl rfl rfl rfl rfl rfl, lzTokenLit_advance x r hroom]
  case h_8 =>
    unfold flOp
    split
    · exact flOpLits_advance _ r
    · split <;> exact .of_same rfl rfl rfl rfl rfl rfl
  case h_9 => exact flLit_advance x r hroom
  case h_12 => exact hfTable_advance x r
  case h_13 => exact hfBits_advance _ r hroom
  case h_6 =>
    split
    · exact .of_same rfl rfl rfl rfl rfl rfl
    · exact r.copy_advance _ _ _ (fun _ => rfl) (fun _ => rfl) (fun _ => rfl) (fun _ => rfl) (fun _ => rfl)
  case h_7 | h_11 =>
    exact r.copy_advance _ _ _ (fun _ => rfl) (fun _ => rfl) (fun _ => rfl) (fun _ => rfl) (fun _ => rfl)
  case h_4 | h_10 => exact .of_same rfl rfl rfl rfl rfl rfl

theorem memoryBlind_settle : MemoryBlind Run.settle :=
  MemoryBlind.ite (rule := fun r => { r with ctx := { r.ctx with state := .finished } })
    (p := fun c => c.state = .active ∧ c.outPos = c.outSize) (fun _ _ _ => ⟨rfl, rfl⟩) .id

/-- After a step the slot still holds a context (R337). -/
theorem Run.Post.settle_ne_idle {r : Run} (h : r.Post) : r.settle.ctx.state ≠ .idle := by
  unfold Run.settle
  split
  · exact nofun
  · rcases h.outcome with ⟨hs, -⟩ | ⟨hs, -⟩ <;> rw [hs] <;> exact nofun

/-- What one payload byte does to a context that satisfies the invariant, over any memory (R330). -/
theorem Run.consume_stepByte (x : Byte) {r : Run} (hok : r.ctx.Ok) (hactive : r.ctx.state = .active) :
    (r.consume (stepByte x)).ctx.Ok ∧ r.Advance (r.consume (stepByte x)) ∧
      (r.consume (stepByte x)).ctx.inCount = r.ctx.inCount + 1 ∧ (r.consume (stepByte x)).ctx.state ≠ .idle := by
  have hlive : Run.Live ⟨⟨[]⟩, r.ctx⟩ := hok.live hactive ⟨[]⟩ (by decide)
  have hpost : (stepByte x (Run.count ⟨⟨[]⟩, r.ctx⟩)).Post := stepByte_post x _ hlive.count
  obtain ⟨hctx, hcount⟩ := (memoryBlind_stepByte x).comp memoryBlind_settle r.mem ⟨[]⟩ r.count.ctx
  have hstep : r.count.Advance (stepByte x r.count) := stepByte_advance_of_room x _ hlive.room hlive.carried
  exact ⟨(congrArg Ctx.Ok hctx).mpr hpost.settle.1,
    (Run.Advance.of_same rfl rfl rfl rfl rfl rfl : r.Advance r.count).trans (hstep.trans (Run.settle_advance _)),
    hcount,
    (congrArg (fun c : Ctx => c.state ≠ .idle) hctx).mpr hpost.settle_ne_idle⟩

/-- What `feed` does to a context that satisfies the invariant, over any memory (R330, R331). -/
theorem feed_advance (a n : Nat) (r : Run) (hok : r.ctx.Ok) (hidle : r.ctx.state ≠ .idle) :
    (feed a n r).1.ctx.Ok ∧ r.Advance (feed a n r).1 ∧ (feed a n r).2 ≤ n ∧
      (feed a n r).1.ctx.inCount = r.ctx.inCount + BitVec.ofNat 64 (feed a n r).2 ∧
      (feed a n r).1.ctx.state ≠ .idle := by
  induction n generalizing a r with
  | zero => exact ⟨hok, .refl r, Nat.le_refl _, by simp [feed], hidle⟩
  | succ n ih =>
    by_cases hactive : r.ctx.state = .active
    · obtain ⟨hok', hadv, hcount, hidle'⟩ := Run.consume_stepByte (r.mem.read a) hok hactive
      obtain ⟨hok'', hadv', hle, hcount', hidle''⟩ := ih (a + 1) _ hok' hidle'
      rw [feed_succ a n r hactive]
      refine ⟨hok'', hadv.trans hadv', Nat.succ_le_succ hle, ?_, hidle''⟩
      rw [hcount', hcount]
      bv_omega
    · rw [feed_stopped a _ r hactive]
      exact ⟨hok, .refl r, Nat.zero_le _, by simp, hidle⟩

/-- A context that is not `IDLE` has its output inside its declared size. -/
theorem Ctx.Ok.outPos_le {c : Ctx} (h : c.Ok) (hidle : c.state ≠ .idle) : c.outPos.toNat ≤ c.outSize.toNat := by
  rcases h with h | ⟨-, h, -⟩
  · exact absurd h hidle
  · exact h

/-- Bytes apart from the destination stay while the engine runs. -/
theorem Run.Advance.holds {r r' : Run} {a : Nat} {bs : List Byte} (h : r.Advance r')
    (hfits : r'.ctx.outPos.toNat ≤ r'.ctx.outSize.toNat)
    (hapart : Apart a bs.length r.ctx.dstBase.toNat r.ctx.outSize.toNat) (hmem : r.mem.Holds a bs) :
    r'.mem.Holds a bs := by
  intro k hk
  have hpos := h.outPos
  rw [h.outSize] at hfits
  rw [h.mem (a + k) (by simp only [Apart, Ctx.outAddr] at *; omega)]
  exact hmem k hk

/-- `feed` over bytes that stand in memory apart from the destination is the engine over those bytes. -/
theorem feed_eq_consumeAll (bs : List Byte) (a : Nat) (r : Run) (hok : r.ctx.Ok) (hidle : r.ctx.state ≠ .idle)
    (hmem : r.mem.Holds a bs) (hapart : Apart a bs.length r.ctx.dstBase.toNat r.ctx.outSize.toNat) :
    (feed a bs.length r).1 = Run.consumeAll (bs.map stepByte) r := by
  induction bs generalizing a r with
  | nil => rfl
  | cons x xs ih =>
    by_cases hactive : r.ctx.state = .active
    · have hx : r.mem.read a = x := hmem 0 (Nat.zero_lt_succ _)
      have htail : r.mem.Holds (a + 1) xs := fun k hk => by
        rw [Nat.add_right_comm, Nat.add_assoc]
        exact hmem (k + 1) (Nat.succ_lt_succ hk)
      have hapart' : Apart (a + 1) xs.length r.ctx.dstBase.toNat r.ctx.outSize.toNat :=
        hapart.mono (Nat.le_succ a) (by rw [List.length_cons]; omega) (Nat.le_refl _) (Nat.le_refl _)
      obtain ⟨hok', hadv, -, hidle'⟩ := Run.consume_stepByte x hok hactive
      rw [List.length_cons, feed_succ a _ r hactive, List.map_cons, Run.consumeAll_cons _ _ _ hactive, hx]
      exact ih (a + 1) _ hok' hidle' (hadv.holds (hok'.outPos_le hidle') hapart' htail)
        (by rwa [hadv.dstBase, hadv.outSize])
    · rw [feed_stopped a _ r hactive, Run.consumeAll_stopped _ _ hactive]

/-- Every well-formed token is run as the engine runs its bytes. -/
theorem exec_token_eq_engine {i : Instr} (hwf : i.wellFormed = true)
    (h : formatOf i ∈ [Format.rlt, .lzFlag, .lzLit, .lzRef, .lzxRef, .flt, .hft, .hfc]) (s : State) :
    exec i s = runToken (formatOf i) ((encode i).map stepByte) s := by
  cases i with
  | rltLits data => exact execRltLits_eq_engine s data hwf
  | rltRun n v => exact execRltRun_eq_engine s n v
  | lztFlags f => exact execLztFlags_eq_engine s f
  | lztLit b => exact execLztLit_eq_engine s b
  | lztRef l o => exact execLztRef_eq_engine s l o
  | lzxtRef l o => exact execLzxtRef_eq_engine s l o
  | fltLits data => exact execFltLits_eq_engine s data hwf
  | fltMatchShort k o => exact execFltMatchShort_eq_engine s k o hwf
  | fltMatchLong e o => exact execFltMatchLong_eq_engine s e o
  | hftByte lo hi => exact execHftByte_eq_engine s lo hi
  | hfcCode x => exact execHfcCode_eq_engine s x
  | _ => simp [formatOf] at h

/-- The formats a context reads are those of the tokens. -/
theorem Ctx.nextFormat_mem {c : Ctx} {f : Format} (h : c.nextFormat = some f) :
    f ∈ [Format.rlt, .lzFlag, .lzLit, .lzRef, .lzxRef, .flt, .hft, .hfc] := by
  rcases Ctx.nextFormat_cases h with ⟨rfl, -⟩ | ⟨rfl, -⟩ | ⟨rfl, -⟩ | ⟨rfl, -⟩ | ⟨rfl, -⟩ | ⟨rfl, -⟩ | ⟨rfl, -⟩ |
    ⟨rfl, -⟩ <;> decide

/-- `CTX_READ` on an `ACTIVE` slot whose chunk does not meet the output it adds (R331). -/
theorem execCtxRead_active {s : State} {c : Ctx} (hslot : s.SlotIs c) (hactive : c.state = .active)
    (hfits : s.arg.a1.toNat + s.arg.a2.toNat ≤ 2 ^ 32)
    (hapart : Apart s.arg.a1.toNat (feed s.arg.a1.toNat s.arg.a2.toNat ⟨s.mem, c⟩).2 c.outAddr
      ((feed s.arg.a1.toNat s.arg.a2.toNat ⟨s.mem, c⟩).1.ctx.outPos - c.outPos).toNat) :
    execCtxRead s = .next (readResult c (feed s.arg.a1.toNat s.arg.a2.toNat ⟨s.mem, c⟩).1
      (feed s.arg.a1.toNat s.arg.a2.toNat ⟨s.mem, c⟩).2 s) := by
  have hregion : ¬ regionFits s.arg.a1.toNat s.arg.a2.toNat = false := by
    rw [regionFits_eq_false_iff]
    omega
  have hat : s.slotAt s.arg.a0 = some c := hslot
  simp only [execCtxRead, hat, if_neg hregion, hactive, (overlaps_eq_false_iff _ _ _ _).mpr hapart]
  rfl

/-- The report of a read is that of the slot it leaves (R331). -/
theorem readResult_eq {r : Run} (before : Ctx) (consumed : Nat) (s : State)
    (herr : r.ctx.state ≠ .error → r.ctx.err = 0) :
    readResult before r consumed s = { s.putRun s.arg.a0.toNat r with
      status := if r.ctx.state = .error then 1 else if r.ctx.state = .finished then 2 else 0
      errcode := r.ctx.err, res := ⟨r.ctx.outPos - before.outPos, resultWord consumed, 0, 0⟩ } := by
  unfold readResult
  by_cases he : r.ctx.state = .error
  · rw [if_pos he, if_pos he]
    rfl
  · rw [if_neg he, if_neg he, herr he, State.done_eq]
    simp only [decide_eq_true_eq]

/-- The error field of a context that is not in `ERROR` is 0 (R33). -/
theorem Ctx.Ok.err_eq_zero {c : Ctx} (h : c.Ok) (hidle : c.state ≠ .idle) (he : c.state ≠ .error) : c.err = 0 := by
  rcases h with h | ⟨-, -, -, -, -, herr, -⟩
  · exact absurd h hidle
  · exact (herr he).1

/-- Settles O29: the token is the engine over its bytes, and so is `feed` over the chunk that holds them. -/
theorem ctxReadOfATokenRunsIt : Obligations.CtxReadOfATokenRunsIt := by
  intro s c i hslot hactive hok hwf hnext hmem hlen hfits hapart
  have hidle : c.state ≠ .idle := by rw [hactive]; exact nofun
  rw [hlen] at hapart
  have hfeed := feed_eq_consumeAll (encode i) s.arg.a1.toNat ⟨s.mem, c⟩ hok hidle hmem hapart
  obtain ⟨hok', hadv, hle, hcount, hidle'⟩ := feed_advance s.arg.a1.toNat (encode i).length ⟨s.mem, c⟩ hok hidle
  have hpos : c.outPos.toNat ≤ _ := hadv.outPos
  have hsize := hok'.outPos_le hidle'
  rw [hadv.outSize] at hsize
  have hread := execCtxRead_active hslot hactive hfits
  rw [hlen, readResult_eq _ _ _ (hok'.err_eq_zero hidle')] at hread
  generalize feed s.arg.a1.toNat (encode i).length ⟨s.mem, c⟩ = fed at *
  have hout : Apart s.arg.a1.toNat fed.2 c.outAddr (fed.1.ctx.outPos - c.outPos).toNat := by
    refine hapart.mono (Nat.le_refl _) (by omega) (Nat.le_add_right _ _) ?_
    rw [Ctx.outAddr, BitVec.toNat_sub_of_le hpos]
    change fed.1.ctx.outPos.toNat ≤ c.outSize.toNat at hsize
    omega
  have hin : (fed.1.ctx.inCount - c.inCount).setWidth 32 = resultWord fed.2 := by
    rw [hcount, add_sub_cancel_left]
    exact BitVec.setWidth_ofNat_of_le (by decide) _
  refine ⟨_, fed.1.ctx, (exec_token_eq_engine hwf (Ctx.nextFormat_mem hnext) s).trans
    (runToken_of_slot hslot hactive hnext hfeed.symm), List.getElem?_set_self ?_, ?_⟩
  · exact (List.getElem?_eq_some_iff.mp hslot).1
  · rw [hin]
    exact hread hout

/-! ### Bits and numbers (R266, R293) -/

/-- The `L` low bits of a number, the most significant first. -/
def bitsOf (L v : Nat) : List Bool := (List.range L).map fun i => v.testBit (L - 1 - i)

theorem codeWord_eq_bitsOf (lens : List Nat) (y : Nat) :
    codeWord lens y = bitsOf (lens.getD y 0) (canonCode lens y) := rfl

@[simp] theorem bitsOf_length (L v : Nat) : (bitsOf L v).length = L := by simp [bitsOf]

@[simp] theorem codeWord_length (lens : List Nat) (y : Nat) : (codeWord lens y).length = lens.getD y 0 :=
  bitsOf_length _ _

theorem bitsOf_succ (L v : Nat) : bitsOf (L + 1) v = bitsOf L (v / 2) ++ [v.testBit 0] := by
  simp only [bitsOf, List.range_succ, List.map_append, List.map_singleton, Nat.add_sub_cancel, Nat.sub_self]
  congr 1
  refine List.map_congr_left fun i hi => ?_
  have hi := List.mem_range.mp hi
  rw [← Nat.testBit_succ]
  congr 1
  omega

@[simp] theorem bitsValue_nil : bitsValue [] = 0 := rfl

@[simp] theorem bitsValue_append_singleton (p : List Bool) (b : Bool) :
    bitsValue (p ++ [b]) = 2 * bitsValue p + b.toNat := by simp [bitsValue]

theorem bitsValue_lt (p : List Bool) : bitsValue p < 2 ^ p.length := by
  induction p using List.reverseRecOn with
  | nil => simp
  | append_singleton p b ih =>
    have := b.toNat_lt
    rw [bitsValue_append_singleton, List.length_append, List.length_singleton, pow_succ]
    omega

theorem bitsOf_bitsValue (p : List Bool) : bitsOf p.length (bitsValue p) = p := by
  induction p using List.reverseRecOn with
  | nil => rfl
  | append_singleton p b ih =>
    have hdiv : (2 * bitsValue p + b.toNat) / 2 = bitsValue p := by have := b.toNat_lt; omega
    have hbit : (2 * bitsValue p + b.toNat).testBit 0 = b := by cases b <;> simp
    rw [List.length_append, List.length_singleton, bitsOf_succ, bitsValue_append_singleton, hdiv, hbit, ih]

theorem bitsValue_bitsOf {L v : Nat} (h : v < 2 ^ L) : bitsValue (bitsOf L v) = v := by
  induction L generalizing v with
  | zero =>
    have : v = 0 := by simpa using h
    rw [this]
    rfl
  | succ L ih =>
    rw [pow_succ] at h
    rw [bitsOf_succ, bitsValue_append_singleton, ih (by omega), Nat.testBit_zero]
    rcases Nat.mod_two_eq_zero_or_one v with h2 | h2 <;> simp [h2] <;> omega

/-- The first bits of a number are those of its quotient. -/
theorem bitsValue_append_div (p q : List Bool) : bitsValue (p ++ q) / 2 ^ q.length = bitsValue p := by
  induction q using List.reverseRecOn with
  | nil => simp
  | append_singleton q b ih =>
    have hdiv : (2 * bitsValue (p ++ q) + b.toNat) / 2 = bitsValue (p ++ q) := by have := b.toNat_lt; omega
    rw [← List.append_assoc, bitsValue_append_singleton, List.length_append, List.length_singleton, pow_succ',
      ← Nat.div_div_eq_div_mul, hdiv, ih]

/-! ### Canonical codes (R266, R267)

Every symbol of length `L` takes `2 ^ (15 - L)` of the `2 ^ 15` sequences of 15 bits, the ones that begin with its
code. Canonical codes hand these out in order, by length and then by symbol. -/

/-- What the symbols of length at most `L` take of the `2 ^ 15` sequences. -/
def spanUpTo (lens : List Nat) (L : Nat) : Nat :=
  (lens.map fun l => if l = 0 ∨ L < l then 0 else 2 ^ (15 - l)).sum

theorem spanUpTo_zero (lens : List Nat) : spanUpTo lens 0 = 0 := by
  have h : ∀ l : Nat, (l = 0 ∨ 0 < l) := fun l => by omega
  simp [spanUpTo, h]

theorem spanUpTo_succ (lens : List Nat) (L : Nat) :
    spanUpTo lens (L + 1) = spanUpTo lens L + lens.count (L + 1) * 2 ^ (15 - (L + 1)) := by
  induction lens with
  | nil => simp [spanUpTo]
  | cons l ls ih =>
    simp only [spanUpTo, List.map_cons, List.sum_cons, List.count_cons] at ih ⊢
    rw [ih]
    by_cases h : l = L + 1
    · subst h
      simp
      ring
    · have h1 : (l = 0 ∨ L + 1 < l) ↔ (l = 0 ∨ L < l) := by omega
      simp [h, h1]
      ring

theorem spanUpTo_mono (lens : List Nat) {L L' : Nat} (h : L ≤ L') : spanUpTo lens L ≤ spanUpTo lens L' := by
  induction L', h using Nat.le_induction with
  | base => exact le_refl _
  | succ L' _ ih => exact ih.trans (by rw [spanUpTo_succ]; exact Nat.le_add_right _ _)

theorem spanUpTo_le_kraftSum (lens : List Nat) (L : Nat) : spanUpTo lens L ≤ kraftSum lens := by
  refine List.sum_le_sum fun l _ => ?_
  by_cases h0 : l = 0
  · simp [h0]
  · by_cases hL : L < l
    · simp [hL]
    · rw [if_neg (by omega), if_neg h0]
      exact le_refl _

/-- The first code of each length begins where the shorter codes end. -/
theorem nextCode_succ_mul (lens : List Nat) {L : Nat} (h : L < 15) :
    nextCode lens (L + 1) * 2 ^ (15 - (L + 1)) = spanUpTo lens L := by
  induction L with
  | zero => simp [nextCode, spanUpTo_zero]
  | succ L ih =>
    have hpow : 2 ^ (15 - (L + 1)) = 2 * 2 ^ (15 - (L + 1 + 1)) := by
      rw [← pow_succ']
      congr 1
      omega
    rw [spanUpTo_succ, ← ih (by omega), hpow, nextCode, if_neg (by omega), lenCount]
    ring

/-- Where the sequences that begin with a symbol's code begin. -/
def codeStart (lens : List Nat) (y : Nat) : Nat := canonCode lens y * 2 ^ (15 - lens.getD y 0)

theorem spanUpTo_le_codeStart {lens : List Nat} {y L : Nat} (h : L < lens.getD y 0) (h15 : lens.getD y 0 ≤ 15) :
    spanUpTo lens L ≤ codeStart lens y := by
  obtain ⟨K, hK⟩ : ∃ K, lens.getD y 0 = K + 1 := ⟨lens.getD y 0 - 1, by omega⟩
  calc spanUpTo lens L ≤ spanUpTo lens K := spanUpTo_mono lens (by omega)
    _ = nextCode lens (lens.getD y 0) * 2 ^ (15 - lens.getD y 0) := by rw [hK, nextCode_succ_mul lens (by omega)]
    _ ≤ codeStart lens y := Nat.mul_le_mul_right _ (Nat.le_add_right _ _)

/-- Symbols below one of the same length are fewer the smaller it is. -/
theorem count_take_lt {lens : List Nat} {a n : Nat} (ha : a < lens.length) (h : a < n) :
    (lens.take a).count (lens.getD a 0) < (lens.take n).count (lens.getD a 0) := by
  have hget : lens.getD a 0 = lens[a] := List.getD_eq_getElem _ _ ha
  have hstep : (lens.take (a + 1)).count lens[a] = (lens.take a).count lens[a] + 1 := by
    rw [← List.take_concat_get' _ _ ha, List.count_append, List.count_singleton_self]
  have hsub : (lens.take (a + 1)).Sublist (lens.take n) := (List.take_prefix_take_left (by omega)).sublist
  have := hsub.count_le lens[a]
  rw [hget]
  omega

theorem canonCode_lt_of_lt {lens : List Nat} {a b : Nat} (ha : a < lens.length) (h : a < b)
    (hlen : lens.getD a 0 = lens.getD b 0) : canonCode lens a < canonCode lens b := by
  have := count_take_lt ha h
  simp only [canonCode, ← hlen]
  omega

theorem codeEnd_le_spanUpTo {lens : List Nat} {a : Nat} (ha : HasCode lens a) (h15 : lens.getD a 0 ≤ 15) :
    codeStart lens a + 2 ^ (15 - lens.getD a 0) ≤ spanUpTo lens (lens.getD a 0) := by
  obtain ⟨hlt, hne⟩ := ha
  obtain ⟨K, hK⟩ : ∃ K, lens.getD a 0 = K + 1 := ⟨lens.getD a 0 - 1, by omega⟩
  have hcount := count_take_lt hlt hlt
  rw [List.take_length] at hcount
  have hcode : canonCode lens a + 1 ≤ nextCode lens (lens.getD a 0) + lens.count (lens.getD a 0) := by
    rw [canonCode]
    omega
  calc codeStart lens a + 2 ^ (15 - lens.getD a 0)
      = (canonCode lens a + 1) * 2 ^ (15 - lens.getD a 0) := by rw [codeStart]; ring
    _ ≤ (nextCode lens (lens.getD a 0) + lens.count (lens.getD a 0)) * 2 ^ (15 - lens.getD a 0) :=
      Nat.mul_le_mul_right _ hcode
    _ = spanUpTo lens (lens.getD a 0) := by rw [hK, Nat.add_mul, nextCode_succ_mul lens (by omega), ← spanUpTo_succ]

/-- Codes fit their lengths when the Kraft sum is not above 1 (R267). -/
theorem canonCode_lt {lens : List Nat} {a : Nat} (ha : HasCode lens a) (h15 : lens.getD a 0 ≤ 15)
    (hkraft : kraftSum lens ≤ 2 ^ 15) : canonCode lens a < 2 ^ lens.getD a 0 := by
  have hend := (codeEnd_le_spanUpTo ha h15).trans ((spanUpTo_le_kraftSum lens _).trans hkraft)
  have hpow : 2 ^ 15 = 2 ^ lens.getD a 0 * 2 ^ (15 - lens.getD a 0) := by
    rw [← pow_add, Nat.add_sub_cancel' h15]
  have hpos : 0 < 2 ^ (15 - lens.getD a 0) := Nat.two_pow_pos _
  rw [codeStart, hpow] at hend
  exact Nat.lt_of_mul_lt_mul_right (by omega : canonCode lens a * _ < 2 ^ lens.getD a 0 * 2 ^ (15 - lens.getD a 0))

/-- A code begins another one only when the two symbols are the same (R267). -/
theorem eq_of_codeWord_prefix {lens : List Nat} {a b : Nat} (h15 : ∀ y, lens.getD y 0 ≤ 15)
    (hkraft : kraftSum lens ≤ 2 ^ 15) (ha : HasCode lens a) (hb : HasCode lens b)
    (h : codeWord lens a <+: codeWord lens b) : a = b := by
  obtain ⟨q, hq⟩ := h
  have hlen : lens.getD a 0 + q.length = lens.getD b 0 := by simpa using congrArg List.length hq
  have hdiv : canonCode lens b / 2 ^ q.length = canonCode lens a := by
    have := bitsValue_append_div (codeWord lens a) q
    rwa [hq, codeWord_eq_bitsOf, codeWord_eq_bitsOf, bitsValue_bitsOf (canonCode_lt hb (h15 b) hkraft),
      bitsValue_bitsOf (canonCode_lt ha (h15 a) hkraft)] at this
  by_cases h0 : q = []
  · have hval : canonCode lens a = canonCode lens b := by simpa [h0] using hdiv.symm
    have heq : lens.getD a 0 = lens.getD b 0 := by simpa [h0] using hlen
    by_contra hne
    rcases Nat.lt_or_gt_of_ne hne with hlt | hlt
    · exact absurd (canonCode_lt_of_lt ha.1 hlt heq) (by omega)
    · exact absurd (canonCode_lt_of_lt hb.1 hlt heq.symm) (by omega)
  · have hpos := List.length_pos_of_ne_nil h0
    have hpow : 2 ^ (15 - lens.getD a 0) = 2 ^ q.length * 2 ^ (15 - lens.getD b 0) := by
      have := h15 b
      rw [← pow_add]
      congr 1
      omega
    have hbound : canonCode lens b < 2 ^ q.length * (canonCode lens a + 1) := by
      rw [← hdiv]
      exact Nat.lt_mul_div_succ _ (Nat.two_pow_pos _)
    have hafter : 2 ^ q.length * (canonCode lens a + 1) ≤ canonCode lens b := by
      refine Nat.le_of_mul_le_mul_right (c := 2 ^ (15 - lens.getD b 0)) ?_ (Nat.two_pow_pos _)
      calc 2 ^ q.length * (canonCode lens a + 1) * 2 ^ (15 - lens.getD b 0)
          = codeStart lens a + 2 ^ (15 - lens.getD a 0) := by rw [codeStart, hpow]; ring
        _ ≤ codeStart lens b :=
          (codeEnd_le_spanUpTo ha (h15 a)).trans (spanUpTo_le_codeStart (by omega) (h15 b))
    exact absurd hbound (Nat.not_lt.mpr hafter)

/-! ### The code stream: bits into codes (R292, R293) -/

theorem Ctx.lens_getD_le (c : Ctx) (y : Nat) : c.lens.getD y 0 ≤ 15 := by
  have hall : ∀ l ∈ c.lens, l ≤ 15 := fun l hl => by
    obtain ⟨b, -, rfl⟩ := List.mem_map.mp hl
    omega
  by_cases h : y < c.lens.length
  · rw [List.getD_eq_getElem _ _ h]
    exact hall _ (List.getElem_mem h)
  · rw [List.getD_eq_default _ _ (Nat.le_of_not_lt h)]
    exact Nat.zero_le _

theorem noCodeBegins_empty (lens : List Nat) : NoCodeBegins lens [] := fun y hy hp => by
  have := hp.length_le
  rw [codeWord_length] at this
  exact hy.2 (Nat.le_zero.mp this)

theorem NoCodeBegins.of_prefix {lens : List Nat} {p q : List Bool} (h : NoCodeBegins lens q) (hp : p <+: q) :
    NoCodeBegins lens p := fun y hy hy' => h y hy (hy'.trans hp)

/-- A symbol of that length and code has those bits as its code. -/
theorem codeWord_of_symOf {lens : List Nat} {p : List Bool} {y : Nat}
    (h : symOf lens p.length (bitsValue p) = some y) : y < lens.length ∧ codeWord lens y = p := by
  obtain ⟨hy, hlen, hcode⟩ := symOf_some h
  exact ⟨hy, by rw [codeWord_eq_bitsOf, hlen, hcode, bitsOf_bitsValue]⟩

/-- Bits that no code begins are no symbol's. -/
theorem symOf_of_noCodeBegins {lens : List Nat} {p : List Bool} (h : NoCodeBegins lens p) (hne : p ≠ []) :
    symOf lens p.length (bitsValue p) = none := by
  by_contra hs
  obtain ⟨y, hy⟩ := Option.ne_none_iff_exists'.mp hs
  obtain ⟨hlt, hword⟩ := codeWord_of_symOf hy
  refine h y ⟨hlt, fun h0 => hne ?_⟩ (by rw [hword])
  rw [← hword, codeWord_eq_bitsOf, h0]
  rfl

section
variable {lens : List Nat} (h15 : ∀ y, lens.getD y 0 ≤ 15) (hkraft : kraftSum lens ≤ 2 ^ 15)
include h15 hkraft

theorem symOf_codeWord {y : Nat} (hy : HasCode lens y) :
    symOf lens (codeWord lens y).length (bitsValue (codeWord lens y)) = some y := by
  obtain ⟨z, hz⟩ : ∃ z, symOf lens (codeWord lens y).length (bitsValue (codeWord lens y)) = some z := by
    refine Option.ne_none_iff_exists'.mp fun hnone => symOf_none hnone y hy.1 ⟨(codeWord_length _ _).symm, ?_⟩
    rw [codeWord_eq_bitsOf, bitsValue_bitsOf (canonCode_lt hy (h15 y) hkraft)]
  obtain ⟨hlt, hword⟩ := codeWord_of_symOf hz
  have hlen : lens.getD z 0 = lens.getD y 0 := by simpa using congrArg List.length hword
  rw [hz, eq_of_codeWord_prefix h15 hkraft ⟨hlt, hlen ▸ hy.2⟩ hy (by rw [hword])]

/-- No code begins a proper part of a code. -/
theorem noCodeBegins_of_codeWord {y : Nat} {p q : List Bool} (hy : HasCode lens y) (h : p ++ q = codeWord lens y)
    (hne : q ≠ []) : NoCodeBegins lens p := fun z hz hp => by
  have hzy : z = y := eq_of_codeWord_prefix h15 hkraft hz hy (hp.trans ⟨q, h⟩)
  have hle := hp.length_le
  rw [hzy, ← h, List.length_append] at hle
  exact hne (List.eq_nil_of_length_eq_zero (by omega))

end

/-- Bits that no code begins, continued by a code and more: they are a proper part of that code. -/
theorem exists_codeWord_tail {lens : List Nat} {y : Nat} {p bits more : List Bool} (hy : HasCode lens y) (hp : NoCodeBegins lens p)
    (h : p ++ bits = codeWord lens y ++ more) : ∃ q, q ≠ [] ∧ codeWord lens y = p ++ q ∧ bits = q ++ more := by
  rcases List.append_eq_append_iff.mp h with ⟨q, hword, hbits⟩ | ⟨q, hword, -⟩
  · refine ⟨q, ?_, hword, hbits⟩
    rintro rfl
    exact hp y hy (by rw [hword, List.append_nil])
  · exact absurd ⟨q, hword.symm⟩ (hp y hy)

/-- A context that has read the bits `p` since the last symbol. -/
def Ctx.withCode (c : Ctx) (p : List Bool) : Ctx :=
  { c with code := BitVec.ofNat 15 (bitsValue p), codeLen := BitVec.ofNat 4 p.length }

/-- A run whose context has read the bits `p` since the last symbol. -/
def Run.withCode (r : Run) (p : List Bool) : Run := ⟨r.mem, r.ctx.withCode p⟩

theorem Ctx.withCode_self {c : Ctx} {p : List Bool} (hlen : p.length = c.codeLen.toNat)
    (hval : bitsValue p = c.code.toNat) : c.withCode p = c := by
  rw [Ctx.withCode, hlen, hval, BitVec.ofNat_toNat, BitVec.ofNat_toNat, BitVec.setWidth_eq, BitVec.setWidth_eq]

theorem Ctx.clearCode_eq_withCode (c : Ctx) (p : List Bool) : (c.withCode p).clearCode = c.withCode [] := rfl

@[simp] theorem Ctx.withCode_lens (c : Ctx) (p : List Bool) : (c.withCode p).lens = c.lens := rfl

theorem Ctx.withCode_codeLen_toNat (c : Ctx) {p : List Bool} (h : p.length ≤ 15) :
    (c.withCode p).codeLen.toNat = p.length := by
  change (BitVec.ofNat 4 p.length).toNat = _
  rw [BitVec.toNat_ofNat]
  omega

theorem Ctx.withCode_code_toNat (c : Ctx) {p : List Bool} (h : p.length ≤ 15) :
    (c.withCode p).code.toNat = bitsValue p := by
  have hlt : bitsValue p < 2 ^ 15 := (bitsValue_lt p).trans_le (Nat.pow_le_pow_right (by omega) h)
  change (BitVec.ofNat 15 (bitsValue p)).toNat = _
  rw [BitVec.toNat_ofNat, Nat.mod_eq_of_lt hlt]

/-- One more bit is read. -/
theorem Ctx.pushBit_withCode (c : Ctx) {p : List Bool} (b : Bool) (h : p.length ≤ 14) :
    (c.withCode p).pushBit b = c.withCode (p ++ [b]) := by
  have hcl := c.withCode_codeLen_toNat (p := p) (by omega)
  have hcv := c.withCode_code_toNat (p := p) (by omega)
  obtain ⟨hlen, hval, -⟩ := (c.withCode p).pushBit_range b (by omega) (by rw [hcl, hcv]; exact bitsValue_lt p)
  refine (Ctx.withCode_self (c := (c.withCode p).pushBit b) ?_ ?_).symm
  · rw [hlen, hcl, List.length_append, List.length_singleton]
  · rw [hval, hcv, bitsValue_append_singleton]

/-! A symbol in 8-bit mode; in 4-bit mode the first nibble of a byte, and the second -/

theorem Run.emitSym_byte {r : Run} (y : Nat) (hm : r.ctx.mode ≠ 4) : r.emitSym y = r.emit (BitVec.ofNat 8 y) := by
  rw [Run.emitSym, if_neg hm]

theorem Run.emitSym_low {r : Run} (y : Nat) (hm : r.ctx.mode = 4) (hn : r.ctx.nibHave = false) :
    r.emitSym y = ⟨r.mem, { r.ctx with nibHold := BitVec.ofNat 4 y, nibHave := true }⟩ := by
  rw [Run.emitSym, if_pos hm, if_neg (by simp [hn])]

theorem Run.emitSym_high {r : Run} (y : Nat) (hm : r.ctx.mode = 4) (hn : r.ctx.nibHave = true) :
    r.emitSym y = ⟨r.mem.write r.ctx.outAddr (BitVec.ofNat 4 y ++ r.ctx.nibHold),
      { r.ctx with outPos := r.ctx.outPos + 1, nibHave := false }⟩ := by
  rw [Run.emitSym, if_pos hm, if_pos hn]
  rfl

theorem Run.emitSym_withCode (r : Run) (p : List Bool) (y : Nat) :
    (r.withCode p).emitSym y = (r.emitSym y).withCode p := by
  by_cases hm : r.ctx.mode = 4
  · cases hn : r.ctx.nibHave with
    | false => rw [Run.emitSym_low y hm hn, Run.emitSym_low (r := r.withCode p) y hm hn]; rfl
    | true => rw [Run.emitSym_high y hm hn, Run.emitSym_high (r := r.withCode p) y hm hn]; rfl
  · rw [Run.emitSym_byte y hm, Run.emitSym_byte (r := r.withCode p) y hm]
    rfl

/-- A bit that leaves the code unfinished. -/
theorem hfBits_cons_pending {r : Run} {p bits : List Bool} {b : Bool}
    (hno : NoCodeBegins r.ctx.lens (p ++ [b])) (hlen : (p ++ [b]).length ≤ 14) :
    hfBits (b :: bits) (r.withCode p) = hfBits bits (r.withCode (p ++ [b])) := by
  have hcl := r.ctx.withCode_codeLen_toNat (p := p ++ [b]) (by omega)
  have hcv := r.ctx.withCode_code_toNat (p := p ++ [b]) (by omega)
  have hpush := r.ctx.pushBit_withCode (p := p) b (by simp at hlen; omega)
  rw [hfBits, Run.withCode, hpush, Ctx.withCode_lens, hcl, hcv, symOf_of_noCodeBegins hno (by simp)]
  dsimp only
  rw [if_neg (by change ¬ _ = 15; omega)]
  rfl

/-- A bit that completes the code of a symbol. -/
theorem hfBits_cons_symbol {r : Run} {p bits : List Bool} {b : Bool} {y : Nat} (hy : HasCode r.ctx.lens y)
    (hkraft : kraftSum r.ctx.lens ≤ 2 ^ 15) (hword : p ++ [b] = codeWord r.ctx.lens y) :
    hfBits (b :: bits) (r.withCode p) = if (r.emitSym y).ctx.outPos = (r.emitSym y).ctx.outSize
      then (r.emitSym y).withCode [] else hfBits bits ((r.emitSym y).withCode []) := by
  have hlen : (p ++ [b]).length ≤ 15 := by rw [hword, codeWord_length]; exact r.ctx.lens_getD_le y
  have hcl := r.ctx.withCode_codeLen_toNat hlen
  have hcv := r.ctx.withCode_code_toNat hlen
  have hpush := r.ctx.pushBit_withCode (p := p) b (by simp at hlen; omega)
  have hemit : Run.emitSym ⟨r.mem, r.ctx.withCode []⟩ y = (r.emitSym y).withCode [] := r.emitSym_withCode [] y
  rw [hfBits, Run.withCode, hpush, Ctx.withCode_lens, hcl, hcv, hword, symOf_codeWord r.ctx.lens_getD_le hkraft hy]
  dsimp only
  rw [Ctx.clearCode_eq_withCode, hemit]
  rfl

/-- Bits that no code begins are kept. -/
theorem hfBits_pending {r : Run} {p q : List Bool} (bits : List Bool) (hno : NoCodeBegins r.ctx.lens (p ++ q))
    (hlen : (p ++ q).length ≤ 14) : hfBits (q ++ bits) (r.withCode p) = hfBits bits (r.withCode (p ++ q)) := by
  induction q generalizing p with
  | nil => rw [List.append_nil, List.nil_append]
  | cons b q ih =>
    have hsplit : p ++ b :: q = p ++ [b] ++ q := by simp
    rw [hsplit] at hno hlen ⊢
    rw [List.cons_append, hfBits_cons_pending (hno.of_prefix (List.prefix_append _ _))
      (by rw [List.length_append] at hlen; omega), ih hno hlen]

/-- The rest of a symbol's code is read: the symbol is output. -/
theorem hfBits_symbol {r : Run} {p q : List Bool} (bits : List Bool) {y : Nat} (hy : HasCode r.ctx.lens y)
    (hkraft : kraftSum r.ctx.lens ≤ 2 ^ 15) (hword : codeWord r.ctx.lens y = p ++ q) (hne : q ≠ []) :
    hfBits (q ++ bits) (r.withCode p) = if (r.emitSym y).ctx.outPos = (r.emitSym y).ctx.outSize
      then (r.emitSym y).withCode [] else hfBits bits ((r.emitSym y).withCode []) := by
  obtain ⟨front, b, rfl⟩ : ∃ front b, q = front ++ [b] := ⟨_, _, (List.dropLast_append_getLast hne).symm⟩
  have h15 := r.ctx.lens_getD_le y
  have hlen := congrArg List.length hword
  rw [codeWord_length, ← List.append_assoc, List.length_append, List.length_singleton] at hlen
  have hno : NoCodeBegins r.ctx.lens (p ++ front) := noCodeBegins_of_codeWord r.ctx.lens_getD_le hkraft hy
    (q := [b]) (by rw [hword, List.append_assoc]) (by simp)
  rw [List.append_assoc, hfBits_pending _ hno (by omega)]
  exact hfBits_cons_symbol hy hkraft (by rw [hword, List.append_assoc])

/-! ### The symbols of a stream byte (R295, R296) -/

/-- Symbols output one after another. -/
def Run.emitSyms (r : Run) (syms : List Nat) : Run := syms.foldl Run.emitSym r

theorem Run.emitSyms_cons (r : Run) (y : Nat) (ys : List Nat) : r.emitSyms (y :: ys) = (r.emitSym y).emitSyms ys := rfl

/-- How many bytes `n` more symbols write: in 4-bit mode two nibbles make one, the waiting one among them. -/
def Ctx.bytesOf (c : Ctx) (n : Nat) : Nat := if c.mode = 4 then (c.nibHave.toNat + n) / 2 else n

theorem Run.emitSym_outSize (r : Run) (y : Nat) : (r.emitSym y).ctx.outSize = r.ctx.outSize := by
  unfold Run.emitSym
  split_ifs <;> rfl

theorem Run.emitSym_lens (r : Run) (y : Nat) : (r.emitSym y).ctx.lens = r.ctx.lens := by
  unfold Run.emitSym
  split_ifs <;> rfl

theorem Run.emitSym_outPos_toNat {r : Run} (y : Nat) (h : r.ctx.outPos.toNat < r.ctx.outSize.toNat) :
    (r.emitSym y).ctx.outPos.toNat = r.ctx.outPos.toNat + r.ctx.bytesOf 1 := by
  have hone := r.emit_outPos_toNat 0 h
  by_cases hm : r.ctx.mode = 4
  · cases hn : r.ctx.nibHave with
    | false => simp [Run.emitSym_low y hm hn, Ctx.bytesOf, hm, hn]
    | true => rw [Run.emitSym_high y hm hn, Ctx.bytesOf, if_pos hm, hn]; exact hone
  · rw [Run.emitSym_byte y hm, Ctx.bytesOf, if_neg hm]
    exact hone

theorem Run.bytesOf_succ (r : Run) (y n : Nat) :
    r.ctx.bytesOf (n + 1) = r.ctx.bytesOf 1 + (r.emitSym y).ctx.bytesOf n := by
  by_cases hm : r.ctx.mode = 4
  · cases hn : r.ctx.nibHave with
    | false => simp [Run.emitSym_low y hm hn, Ctx.bytesOf, hm, hn, Nat.add_comm]
    | true =>
      simp only [Run.emitSym_high y hm hn, Ctx.bytesOf, hm, hn, if_true, Bool.toNat_true, Bool.toNat_false]
      omega
  · rw [Run.emitSym_byte y hm, Ctx.bytesOf, Ctx.bytesOf, Ctx.bytesOf, Run.emit_mode, if_neg hm, if_neg hm, if_neg hm,
      Nat.add_comm]

/-- A stream byte whose bits, after the pending ones, are the codes of `syms` and then `rest`: the symbols are output,
and `rest` is kept, or dropped when they complete the output. -/
theorem hfBits_symbols {r : Run} {p bits rest : List Bool} {syms : List Nat} (hkraft : kraftSum r.ctx.lens ≤ 2 ^ 15)
    (hp : NoCodeBegins r.ctx.lens p) (hsyms : ∀ y ∈ syms, HasCode r.ctx.lens y)
    (hbits : p ++ bits = syms.flatMap (codeWord r.ctx.lens) ++ rest)
    (hroom : ∀ n < syms.length, r.ctx.outPos.toNat + r.ctx.bytesOf n < r.ctx.outSize.toNat)
    (hend : r.ctx.outPos.toNat + r.ctx.bytesOf syms.length = r.ctx.outSize.toNat ∧ syms ≠ [] ∨
      r.ctx.outPos.toNat + r.ctx.bytesOf syms.length < r.ctx.outSize.toNat ∧ NoCodeBegins r.ctx.lens rest ∧
        rest.length ≤ 14) :
    hfBits bits (r.withCode p) = (r.emitSyms syms).withCode
      (if r.ctx.outPos.toNat + r.ctx.bytesOf syms.length = r.ctx.outSize.toNat then [] else rest) := by
  induction syms generalizing r p bits with
  | nil =>
    obtain ⟨-, hne⟩ | ⟨hlt, hno, hlen⟩ := hend
    · exact absurd rfl hne
    · rw [List.flatMap_nil, List.nil_append] at hbits
      rw [if_neg (by omega), ← hbits]
      rw [← hbits] at hno hlen
      have := hfBits_pending [] hno hlen
      rwa [List.append_nil] at this
  | cons y ys ih =>
    have hy := hsyms y List.mem_cons_self
    have hroom0 : r.ctx.outPos.toNat < r.ctx.outSize.toNat := Nat.lt_of_le_of_lt (Nat.le_add_right _ _)
      (hroom 0 (by simp))
    have hpos := r.emitSym_outPos_toNat y hroom0
    have hsize := r.emitSym_outSize y
    have hlens := r.emitSym_lens y
    have hstep : ∀ n, r.ctx.outPos.toNat + r.ctx.bytesOf (n + 1) =
        (r.emitSym y).ctx.outPos.toNat + (r.emitSym y).ctx.bytesOf n := fun n => by
      rw [r.bytesOf_succ y n, hpos, Nat.add_assoc]
    rw [List.flatMap_cons, List.append_assoc] at hbits
    obtain ⟨q, hq, hword, rfl⟩ := exists_codeWord_tail hy hp hbits
    rw [hfBits_symbol _ hy hkraft hword hq, Run.emitSyms_cons, List.length_cons, hstep, ← hsize]
    rw [List.length_cons, hstep, ← hsize] at hend
    have hnone : (r.emitSym y).ctx.bytesOf 0 = 0 := by
      have : r.ctx.bytesOf 1 = r.ctx.bytesOf 1 + (r.emitSym y).ctx.bytesOf 0 := r.bytesOf_succ y 0
      omega
    by_cases hdone : (r.emitSym y).ctx.outPos = (r.emitSym y).ctx.outSize
    · have hys : ys = [] := by
        by_contra hne
        have := hroom 1 (by simpa using List.length_pos_of_ne_nil hne)
        rw [← hpos, ← hsize, hdone] at this
        exact absurd this (Nat.lt_irrefl _)
      subst hys
      rw [if_pos hdone, if_pos (by rw [hdone, List.length_nil, hnone]; rfl)]
      rfl
    · rw [if_neg hdone]
      refine ih (by rwa [hlens]) (noCodeBegins_empty _) ?_ ?_ ?_ ?_
      · exact fun z hz => hlens.symm ▸ hsyms z (List.mem_cons_of_mem _ hz)
      · rw [hlens]
        rfl
      · intro n hn
        rw [← hstep, hsize]
        exact hroom (n + 1) (by simpa using hn)
      · rw [hlens]
        refine hend.imp_left fun h => ⟨h.1, ?_⟩
        rintro rfl
        rw [List.length_nil, hnone] at h
        exact hdone (BitVec.eq_of_toNat_eq h.1)

/-- What symbols write in 8-bit mode (R295). -/
theorem Run.emitSyms_bytes {r : Run} {syms : List Nat} (hm : r.ctx.mode ≠ 4)
    (hroom : r.ctx.outPos.toNat + syms.length ≤ r.ctx.outSize.toNat) :
    r.emitSyms syms = ⟨r.mem.writeList r.ctx.outAddr (syms.map (BitVec.ofNat 8)),
      { r.ctx with outPos := r.ctx.outPos + BitVec.ofNat 32 syms.length }⟩ := by
  induction syms generalizing r with
  | nil => simp [Run.emitSyms, Memory.writeList]
  | cons y ys ih =>
    rw [List.length_cons] at hroom
    have hpos := r.emit_outPos_toNat (BitVec.ofNat 8 y) (by omega)
    have hout : r.ctx.outPos + 1 + BitVec.ofNat 32 ys.length = r.ctx.outPos + BitVec.ofNat 32 (y :: ys).length := by
      rw [List.length_cons]
      bv_omega
    have haddr : (r.emit (BitVec.ofNat 8 y)).ctx.outAddr = r.ctx.outAddr + 1 := by
      rw [Ctx.outAddr, hpos]
      rfl
    rw [Run.emitSyms_cons, Run.emitSym_byte y hm, ih (r := r.emit _) hm (by rw [hpos, Run.emit_outSize]; omega), haddr,
      ← hout]
    rfl

/-- The nibbles that wait or are output: the waiting one first. -/
def Ctx.nibblesBefore (c : Ctx) (syms : List Nat) : List Nat :=
  (if c.nibHave then [c.nibHold.toNat] else []) ++ syms

/-- The second nibble of a byte is its high one (R60, R296). -/
theorem nibble_append (y : Nat) (hold : BitVec 4) :
    (BitVec.ofNat 4 y ++ hold : Byte) = BitVec.ofNat 8 (hold.toNat + 16 * y) := by
  have hlt := hold.isLt
  refine BitVec.eq_of_toNat_eq ?_
  rw [BitVec.toNat_append, BitVec.toNat_ofNat, BitVec.toNat_ofNat, ← Nat.shiftLeft_add_eq_or_of_lt hlt,
    Nat.shiftLeft_eq]
  omega

/-- What symbols write in 4-bit mode (R296), and the nibble that waits after them. -/
theorem Run.emitSyms_nibbles {r : Run} {syms : List Nat} (hm : r.ctx.mode = 4) (hsyms : ∀ y ∈ syms, y < 16)
    (hroom : r.ctx.outPos.toNat + (r.ctx.nibblesBefore syms).length / 2 ≤ r.ctx.outSize.toNat) :
    ∃ hold : BitVec 4, r.emitSyms syms = ⟨r.mem.writeList r.ctx.outAddr (nibbleBytes (r.ctx.nibblesBefore syms)),
        { r.ctx with
          outPos := r.ctx.outPos + BitVec.ofNat 32 ((r.ctx.nibblesBefore syms).length / 2)
          nibHave := decide ((r.ctx.nibblesBefore syms).length % 2 = 1), nibHold := hold }⟩ ∧
      ((r.ctx.nibblesBefore syms).length % 2 = 1 → hold = BitVec.ofNat 4 ((r.ctx.nibblesBefore syms).getLastD 0)) := by
  induction syms generalizing r with
  | nil =>
    have hbytes : nibbleBytes (r.ctx.nibblesBefore []) = [] := by
      cases hn : r.ctx.nibHave <;> simp [Ctx.nibblesBefore, hn, nibbleBytes]
    have hhalf : (r.ctx.nibblesBefore []).length / 2 = 0 := by
      cases hn : r.ctx.nibHave <;> simp [Ctx.nibblesBefore, hn]
    have hodd : decide ((r.ctx.nibblesBefore []).length % 2 = 1) = r.ctx.nibHave := by
      cases hn : r.ctx.nibHave <;> simp [Ctx.nibblesBefore, hn]
    refine ⟨r.ctx.nibHold, ?_, fun h => ?_⟩
    · rw [hbytes, hhalf, hodd, BitVec.add_zero]
      rfl
    · have hn : r.ctx.nibHave = true := by rw [← hodd, h]; rfl
      simp [Ctx.nibblesBefore, hn]
  | cons y ys ih =>
    have hy := hsyms y List.mem_cons_self
    have hys := fun z hz => hsyms z (List.mem_cons_of_mem y hz)
    rw [Run.emitSyms_cons]
    cases hn : r.ctx.nibHave with
    | false =>
      have hnibs : (r.emitSym y).ctx.nibblesBefore ys = r.ctx.nibblesBefore (y :: ys) := by
        rw [Run.emitSym_low y hm hn]
        simp [Ctx.nibblesBefore, hn, Nat.mod_eq_of_lt hy]
      rw [← hnibs] at hroom ⊢
      rw [Run.emitSym_low y hm hn] at hroom ⊢
      exact ih hm hys hroom
    | true =>
      have hbefore : (r.emitSym y).ctx.nibblesBefore ys = ys := by
        rw [Run.emitSym_high y hm hn]
        rfl
      have hnibs : r.ctx.nibblesBefore (y :: ys) = r.ctx.nibHold.toNat :: y :: ys := by
        simp [Ctx.nibblesBefore, hn]
      have hhalf : (r.ctx.nibHold.toNat :: y :: ys).length / 2 = 1 + ys.length / 2 := by
        rw [List.length_cons, List.length_cons]
        omega
      have hodd : (r.ctx.nibHold.toNat :: y :: ys).length % 2 = ys.length % 2 := by
        rw [List.length_cons, List.length_cons]
        omega
      have hlastD : ys.length % 2 = 1 → (r.ctx.nibHold.toNat :: y :: ys).getLastD 0 = ys.getLastD 0 := fun h => by
        cases ys with
        | nil => simp at h
        | cons z zs => simp
      have hout : r.ctx.outPos + 1 + BitVec.ofNat 32 (ys.length / 2) =
          r.ctx.outPos + BitVec.ofNat 32 (1 + ys.length / 2) := by bv_omega
      rw [hnibs, hhalf] at hroom
      have hpos : (r.emitSym y).ctx.outPos.toNat = r.ctx.outPos.toNat + 1 := by
        rw [Run.emitSym_high y hm hn]
        exact r.emit_outPos_toNat 0 (by omega)
      have haddr : (r.emitSym y).ctx.outAddr = r.ctx.outAddr + 1 := by
        rw [Ctx.outAddr, hpos, Run.emitSym_high y hm hn]
        rfl
      obtain ⟨hold, hrun, hlast⟩ := ih (r := r.emitSym y) (by rw [Run.emitSym_high y hm hn]; exact hm) hys
        (by rw [hbefore, hpos, Run.emitSym_outSize]; omega)
      rw [hbefore] at hrun hlast
      rw [hnibs, hhalf, hodd]
      refine ⟨hold, ?_, fun h => (hlast h).trans (by rw [hlastD h])⟩
      rw [hrun, haddr, Run.emitSym_high y hm hn, nibble_append, ← hout]
      rfl

/-- The bits are kept, or dropped when the output is complete. -/
theorem Ctx.withCode_ite (c : Ctx) (done : Prop) [Decidable done] (rest : List Bool) :
    c.withCode (if done then [] else rest) = { c with
      code := if done then 0 else BitVec.ofNat 15 (bitsValue rest)
      codeLen := if done then 0 else BitVec.ofNat 4 rest.length } := by
  by_cases h : done
  · rw [if_pos h, if_pos h, if_pos h]
    rfl
  · rw [if_neg h, if_neg h, if_neg h]
    rfl

/-- A stream byte as an instruction, by what its symbols write: `m` and `c'`. -/
theorem exec_hfcCode {s : State} {c c' : Ctx} {m : Memory} {x : Byte} {pending rest : List Bool} {syms : List Nat}
    {done : Nat} (hslot : s.SlotIs c) (hactive : c.state = .active) (hphase : c.phase = .hfData)
    (hkraft : kraftSum c.lens ≤ 2 ^ 15) (hlen : pending.length = c.codeLen.toNat)
    (hval : bitsValue pending = c.code.toNat) (hno : NoCodeBegins c.lens pending)
    (hsyms : ∀ y ∈ syms, HasCode c.lens y)
    (hbits : pending ++ (List.range 8).map (fun k => x.getLsbD k) = syms.flatMap (codeWord c.lens) ++ rest)
    (hdone : done = c.outPos.toNat + c.bytesOf syms.length)
    (hroom : ∀ n < syms.length, c.outPos.toNat + c.bytesOf n < c.outSize.toNat)
    (hend : done = c.outSize.toNat ∧ syms ≠ [] ∨ done < c.outSize.toNat ∧ NoCodeBegins c.lens rest ∧ rest.length ≤ 14)
    (hemit : (Run.count ⟨s.mem, c⟩).emitSyms syms = ⟨m, c'⟩) (hstate : c'.state = .active)
    (hsize : c'.outSize = c.outSize) (hpos : c'.outPos.toNat = done) :
    exec (.hfcCode x) s = .next { s with
      mem := m
      slots := s.slots.set s.arg.a0.toNat { c' with
        code := if done = c.outSize.toNat then 0 else BitVec.ofNat 15 (bitsValue rest)
        codeLen := if done = c.outSize.toNat then 0 else BitVec.ofNat 4 rest.length
        state := stateAt c done } } := by
  have hrun : hfData x (Run.count ⟨s.mem, c⟩) = ⟨m, c'.withCode (if done = c.outSize.toNat then [] else rest)⟩ := by
    have hcount : (Run.count ⟨s.mem, c⟩).withCode pending = Run.count ⟨s.mem, c⟩ :=
      congrArg (Run.mk s.mem) (Ctx.withCode_self (c := (Run.count ⟨s.mem, c⟩).ctx) hlen hval)
    have h := hfBits_symbols (r := Run.count ⟨s.mem, c⟩) hkraft hno hsyms hbits hroom (hdone ▸ hend)
    rw [hcount, hemit] at h
    refine (h : hfData x _ = _).trans ?_
    rw [hdone]
    rfl
  refine runToken_of_slot hslot hactive (by rw [Ctx.nextFormat, hphase]) ?_
  rw [Run.consumeAll_last hactive hrun hstate, Ctx.withCode_ite]
  simp only [hpos, stateAt, hsize]

/-- Settles O43: the symbols are written one after another, each when its code is complete. -/
theorem huffmanByteSymbols : Obligations.HuffmanByteSymbols := by
  intro s c x pending rest syms hslot hactive hphase hmode hkraft hlen _ hval hno hsyms hbits hend
  have hbytes : ∀ n, c.bytesOf n = n := fun n => if_neg hmode
  have hfit : c.outPos.toNat + syms.length ≤ c.outSize.toNat := by
    rcases hend with h | h <;> omega
  refine ⟨s.mem.writeList c.outAddr (syms.map (BitVec.ofNat 8)), ?_, s.mem.writeList_holds _ _, ?_⟩
  · exact exec_hfcCode hslot hactive hphase hkraft hlen hval hno hsyms hbits (by rw [hbytes])
      (fun n hn => by rw [hbytes]; omega) hend (Run.emitSyms_bytes (r := Run.count ⟨s.mem, c⟩) hmode hfit) hactive rfl
      (toNat_add_ofNat _ _ _ hfit)
  · have h := s.mem.writeList_sameOutside c.outAddr (syms.map (BitVec.ofNat 8))
    rwa [List.length_map] at h

theorem nibbleBytes_length : ∀ nibs : List Nat, (nibbleBytes nibs).length = nibs.length / 2
  | [] => rfl
  | [_] => by simp [nibbleBytes]
  | lo :: hi :: r => by
    rw [nibbleBytes, List.length_cons, nibbleBytes_length r, List.length_cons, List.length_cons]
    omega

/-- Settles O44: as in 8-bit mode, two symbols to a byte. -/
theorem huffmanNibbleSymbols : Obligations.HuffmanNibbleSymbols := by
  intro s c x pending rest syms nibs hslot hactive hphase hmode hkraft hlen _ hval hno hsyms hbits hnibs hend
  have hcount : nibs.length = c.nibHave.toNat + syms.length := by
    rw [hnibs]
    cases c.nibHave <;> simp [Nat.add_comm]
  have hbytes : ∀ n, c.bytesOf n = (c.nibHave.toNat + n) / 2 := fun n => if_pos hmode
  have hfit : c.outPos.toNat + nibs.length / 2 ≤ c.outSize.toNat := by
    rcases hend with h | h <;> omega
  have hsmall : ∀ y ∈ syms, y < 16 := fun y hy => by
    have := (hsyms y hy).1
    rwa [c.lens_length, Ctx.symbols, if_pos hmode] at this
  obtain ⟨hold, hemit, hlast⟩ := Run.emitSyms_nibbles (r := Run.count ⟨s.mem, c⟩) hmode hsmall
    (by rw [show (Run.count ⟨s.mem, c⟩).ctx.nibblesBefore syms = nibs from hnibs.symm]; exact hfit)
  rw [show (Run.count ⟨s.mem, c⟩).ctx.nibblesBefore syms = nibs from hnibs.symm] at hemit hlast
  refine ⟨_, _, exec_hfcCode hslot hactive hphase hkraft hlen hval hno hsyms hbits
    (done := c.outPos.toNat + nibs.length / 2) (by rw [hbytes, hcount]) (fun n hn => ?_) ?_ hemit hactive rfl
    (toNat_add_ofNat _ _ _ hfit), rfl, hlast, s.mem.writeList_holds _ _, ?_⟩
  · rw [hbytes]
    omega
  · exact hend.imp_left fun h => ⟨h.1, h.2.2⟩
  · have h := s.mem.writeList_sameOutside c.outAddr (nibbleBytes nibs)
    rwa [nibbleBytes_length] at h

end Sys2Proof.Machine

/-!
The statements about packed values (40_bit_unpacker.md): `PACK_GET` and `PACK_SET` with their tests in order, and what
`PACK_GET` reads after `PACK_SET`.
-/

namespace Sys2Proof.Machine

/-! ### The tests (R132, R134) -/

theorem packError_badWidth {bits : Nat} (buf bufLen index : Nat) (h : ¬ (1 ≤ bits ∧ bits ≤ 32)) :
    packError buf bufLen bits index = some .badArg := by
  have hwidth : bits < Config.bitsMin ∨ Config.bitsMax < bits := by
    simp only [Config.bitsMin, Config.bitsMax]
    omega
  rw [packError, if_pos hwidth, ite_self]

theorem packError_range {buf bufLen bits index : Nat} (hfit : buf + bufLen ≤ 2 ^ 32) (h1 : 1 ≤ bits)
    (h32 : bits ≤ 32) (hout : bufLen ≤ (bits * index + bits - 1) / 8) :
    packError buf bufLen bits index = some .range := by
  have hwidth : ¬ (bits < Config.bitsMin ∨ Config.bitsMax < bits) := by
    simp only [Config.bitsMin, Config.bitsMax]
    omega
  rw [packError, if_neg fun h => Nat.not_lt.mpr hfit ((regionFits_eq_false_iff _ _).mp h), if_neg hwidth, if_pos hout]

theorem packError_badOperand {buf bufLen bits : Nat} (index : Nat)
    (h : 2 ^ 32 < buf + bufLen ∨ ¬ (1 ≤ bits ∧ bits ≤ 32)) : packError buf bufLen bits index = some .badArg :=
  h.elim (packError_badArg bits index) (packError_badWidth buf bufLen index)

section Access

variable {s : State} {bits index : Word} {e : Err}

theorem packGet_raise (h : packError s.arg.a0.toNat s.arg.a1.toNat bits.toNat index.toNat = some e) :
    packGet bits index s = .next (s.raise e) := by
  rw [packGet, h]

theorem packSet_raise (h : packError s.arg.a0.toNat s.arg.a1.toNat bits.toNat index.toNat = some e) :
    packSet bits index s = .next (s.raise e) := by
  rw [packSet, h]

/-! ### Elements as stream bits (R131) -/

/-- `PACK_GET` on an element inside the buffer completes with the element's stream bits, zero-extended (R132, R133). -/
theorem packGet_streamBits (hfit : s.arg.a0.toNat + s.arg.a1.toNat ≤ 2 ^ 32) (h1 : 1 ≤ bits.toNat)
    (h32 : bits.toNat ≤ 32) (hin : (bits.toNat * index.toNat + bits.toNat - 1) / 8 < s.arg.a1.toNat) :
    ∃ u, packGet bits index s = .next u ∧ u.errcode = 0 ∧ ∀ k < 32, u.res.r0.getLsbD k =
      (decide (k < bits.toNat) && streamBit s.mem s.arg.a0.toNat (bits.toNat * index.toNat + k)) := by
  obtain ⟨v, hrun, hbit⟩ := packGet_inside hfit h1 h32 hin
  exact ⟨_, hrun, rfl, hbit⟩

/-- A `PACK_SET` that completes had an element inside the buffer (R134). -/
theorem packError_of_packSet_completes {t : State} (hrun : packSet bits index s = .next t) (hok : t.errcode = 0) :
    packError s.arg.a0.toNat s.arg.a1.toNat bits.toNat index.toNat = none := by
  cases herr : packError s.arg.a0.toNat s.arg.a1.toNat bits.toNat index.toNat with
  | none => rfl
  | some e =>
    rw [packSet_raise herr] at hrun
    cases hrun
    have hcode := e.code_range.1
    rw [← State.raise_errcode s e, hok] at hcode
    exact absurd hcode (by decide)

/-- After a `PACK_SET` that completes, the stream bits of the element are the value's, the others stay (R134). -/
theorem packSet_streamBits {t : State} (hrun : packSet bits index s = .next t) (hok : t.errcode = 0) (p : Nat) :
    streamBit t.mem s.arg.a0.toNat p =
      if bits.toNat * index.toNat ≤ p ∧ p < bits.toNat * index.toNat + bits.toNat then
        s.arg.a4.getLsbD (p - bits.toNat * index.toNat)
      else streamBit s.mem s.arg.a0.toNat p := by
  obtain ⟨hfit, h1, h32, hin⟩ := (packError_eq_none_iff _ _ _ _).mp (packError_of_packSet_completes hrun hok)
  obtain ⟨m, hset, hbit⟩ := packSet_inside hfit h1 h32 hin
  cases hrun.symm.trans hset
  have hpos : 8 * (s.arg.a0.toNat + p / 8 - s.arg.a0.toNat) + p % 8 = p := by omega
  have h := hbit (s.arg.a0.toNat + p / 8) (p % 8) (Nat.mod_lt p (by decide))
  simpa only [streamBit, hpos, Nat.le_add_right, true_and] using h

theorem packSet_arg {t : State} (hrun : packSet bits index s = .next t) : t.arg = s.arg := by
  unfold packSet at hrun
  split at hrun <;> cases hrun <;> rfl

end Access

/-- The bits of two elements of one width meet only where the elements are the same (R131). -/
theorem elementIndex_unique {bits i j k : Nat} (hk : k < bits) (hlo : bits * i ≤ bits * j + k)
    (hhi : bits * j + k < bits * i + bits) : j = i := by
  have hpos : 0 < bits := Nat.zero_lt_of_lt hk
  have hj : (bits * j + k) / bits = j := by
    rw [Nat.mul_add_div hpos, Nat.div_eq_of_lt hk, Nat.add_zero]
  have hi : (bits * j + k) / bits = i :=
    Nat.div_eq_of_lt_le (by rwa [Nat.mul_comm i]) (by rwa [Nat.add_one_mul, Nat.mul_comm i])
  exact hj.symm.trans hi

/-- Bit `k` of a word cut to its low `n` bits. -/
theorem getLsbD_cutWord (w : Word) (n : Nat) {k : Nat} (hk : k < 32) :
    (BitVec.ofNat 32 (w.toNat % 2 ^ n)).getLsbD k = (decide (k < n) && w.getLsbD k) := by
  rw [BitVec.getLsbD_ofNat, Nat.testBit_mod_two_pow, decide_eq_true hk, Bool.true_and]
  rfl

/-! ### The statements -/

/-- Settles O52: the tests as `packError` orders them, then the element's bits. -/
theorem packGetReadsTheElement : Obligations.PackGetReadsTheElement := by
  rintro s _ _ rfl rfl
  refine ⟨fun hbad => ?_, fun hfit h1 h32 => ⟨fun hout => ?_, fun hin => ?_⟩⟩
  · exact packGet_raise (packError_badOperand _ hbad)
  · exact packGet_raise (packError_range hfit h1 h32 hout)
  · exact packGet_inside hfit h1 h32 hin

/-- Settles O53: the same tests, then the element's bits and the frame. -/
theorem packSetWritesTheElement : Obligations.PackSetWritesTheElement := by
  rintro s _ _ rfl rfl
  refine ⟨fun hbad => ?_, fun hfit h1 h32 => ⟨fun hout => ?_, fun hin => ?_⟩⟩
  · exact packSet_raise (packError_badOperand _ hbad)
  · exact packSet_raise (packError_range hfit h1 h32 hout)
  · exact packSet_inside hfit h1 h32 hin

/-- Settles O55: bit by bit, element `j` reads the bits `PACK_SET` wrote if it is the element set, else bits that
`PACK_SET` left. -/
theorem packedValuesRoundTrip : Obligations.PackedValuesRoundTrip := by
  intro s t j hrun hok hin
  obtain ⟨hfit, h1, h32, -⟩ := (packError_eq_none_iff _ _ _ _).mp (packError_of_packSet_completes hrun hok)
  have harg : t.arg = s.arg := packSet_arg hrun
  obtain ⟨u, hu, hu0, hubit⟩ := packGet_streamBits (s := { t with arg := { s.arg with a3 := j } }) (index := j)
    hfit h1 h32 hin
  obtain ⟨v, hv, hv0, hvbit⟩ := packGet_streamBits (s := { s with arg := { s.arg with a3 := j } }) (index := j)
    hfit h1 h32 hin
  refine ⟨u, v, by rw [harg]; exact hu, hv, hu0, hv0, BitVec.eq_of_getLsbD_eq fun k hk => ?_⟩
  rw [hubit k hk, packSet_streamBits hrun hok]
  by_cases hkw : k < s.arg.a2.toNat
  · by_cases hj : j = s.arg.a3
    · rw [if_pos hj, getLsbD_cutWord _ _ hk, hj, if_pos (by omega), Nat.add_sub_cancel_left]
    · rw [if_neg hj, hvbit k hk, if_neg fun h => hj (BitVec.eq_of_toNat_eq (elementIndex_unique hkw h.1 h.2))]
  · rw [decide_eq_false hkw, Bool.false_and]
    split
    · rw [getLsbD_cutWord _ _ hk, decide_eq_false hkw, Bool.false_and]
    · rw [hvbit k hk, decide_eq_false hkw, Bool.false_and]

end Sys2Proof.Machine

/-!
The statements about headers and store blocks (41_header_and_store.md): what `GET_TYPE` and `GET_SIZE` report, and the
copy of a store block.
-/

namespace Sys2Proof.Machine

/-! ### Header inspection (R152, R153) -/

theorem Header.recognised_eq_false_iff (h : Header) : h.recognised = false ↔ 4 < h.b0.toNat / 16 % 8 := by
  rw [← Bool.not_eq_true, Header.recognised_iff, Nat.not_le]

/-- The Dif flag bit is the top bit of byte 0 (R94). -/
theorem Header.dif_toNat (h : Header) : h.dif.toNat = h.b0.toNat / 128 := by
  cases hdif : h.dif with
  | true => exact ((Header.dif_iff h).mp hdif).symm
  | false =>
    have hne : h.b0.toNat / 128 ≠ 1 := fun e => by rw [(Header.dif_iff h).mpr e] at hdif; cases hdif
    have hlt := h.b0.isLt
    rw [Bool.toNat_false]
    omega

/-- The fields `GET_TYPE` reports, as result registers (R94, R152). -/
theorem Header.fields_setWidth (h : Header) :
    h.base.setWidth 32 = BitVec.ofNat 32 (h.b0.toNat / 16 % 8) ∧
      (BitVec.ofBool h.dif).setWidth 32 = BitVec.ofNat 32 (h.b0.toNat / 128) ∧
      h.flags.setWidth 32 = BitVec.ofNat 32 (h.b0.toNat % 16) := by
  simp only [← BitVec.ofNat_toNat, Header.base_toNat, Header.flags_toNat, BitVec.toNat_ofBool, Header.dif_toNat,
    and_self]

/-- `GET_TYPE` with its tests and its report over numbers (R152). -/
theorem getType_eq (b : Byte) (s : State) :
    getType b s =
      if 2 ^ 32 < s.arg.a0.toNat + s.arg.a1.toNat then s.raiseCode Err.badArg.code ⟨0xFF, 0, 0, 0⟩
      else if s.arg.a1.toNat < 1 then s.raiseCode Err.truncatedHeader.code ⟨0xFF, 0, 0, 0⟩
      else if 4 < b.toNat / 16 % 8 then s.raiseCode Err.badType.code ⟨0xFF, 0, 0, 0⟩
      else s.done false false
        ⟨BitVec.ofNat 32 (b.toNat / 16 % 8), BitVec.ofNat 32 (b.toNat / 128), BitVec.ofNat 32 (b.toNat % 16),
          0⟩ := by
  obtain ⟨hbase, hdif, hflags⟩ := Header.fields_setWidth ⟨b, 0⟩
  simp only [getType, regionFits_eq_false_iff, Header.recognised_eq_false_iff, hbase, hdif, hflags]

/-- Settles O18: the tests and the report of `getType_eq`, each outcome as a record update. -/
theorem getTypeReports : Obligations.GetTypeReports := by
  rintro s _ rfl
  change Host.Outcome.next (getType (s.mem.read s.arg.a0.toNat) s) = _
  rw [getType_eq]
  simp only [State.raiseCode_eq, State.done_eq]
  rfl

/-- `GET_SIZE` with its tests over numbers (R153). -/
theorem getSize_eq (size : Word) (s : State) :
    getSize size s =
      if 2 ^ 32 < s.arg.a0.toNat + s.arg.a1.toNat then s.raise .badArg
      else if s.arg.a1.toNat < 5 then s.raise .truncatedHeader
      else s.done false false ⟨size, 0, 0, 0⟩ := by
  simp only [getSize, regionFits_eq_false_iff]

/-- Settles O19: the tests of `getSize_eq`, and the size field as the number its bytes are. -/
theorem getSizeReports : Obligations.GetSizeReports := by
  intro s
  have hsize : (readHeader s.mem s.arg.a0.toNat).size = BitVec.ofNat 32 (sizeAt s.mem s.arg.a0.toNat) := by
    rw [← readHeader_size_toNat, BitVec.ofNat_toNat, BitVec.setWidth_eq]
  change Host.Outcome.next (getSize (readHeader s.mem s.arg.a0.toNat).size s) = _
  rw [getSize_eq, hsize]
  simp only [State.raise_eq, State.done_eq]
  rfl

/-! ### Store blocks (R156, R326) -/

/-- Bytes that stand in memory are the ones read there. -/
theorem Memory.readList_of_holds {m : Memory} {a : Nat} {bs : List Byte} (h : m.Holds a bs) :
    m.readList a bs.length = bs :=
  List.ext_getElem (m.readList_length a _) fun k h1 h2 => by rw [Memory.getElem_readList, h k h2]

section Store

variable {data : List Byte} {size : Word} {s : State}

/-- The length test of `UNCOMPRESS_ANY` on a store block is that of the copy: an accepted store header leads to the copy
of the bytes after it. -/
theorem uncompressAny_store (h1 : s.arg.a0.toNat + s.arg.a1.toNat ≤ 2 ^ 32)
    (h2 : s.arg.a2.toNat + s.arg.a3.toNat ≤ 2 ^ 32) (h5 : 5 ≤ s.arg.a1.toNat) (hcap : size.toNat ≤ s.arg.a3.toNat)
    (hlen : data.length = size.toNat) (hmem : s.mem.Holds (s.arg.a0.toNat + 5) data) :
    uncompressAny ⟨0x00, size⟩ s = storeCopy data s := by
  have hdata : s.mem.readList (s.arg.a0.toNat + 5) size.toNat = data := hlen ▸ Memory.readList_of_holds hmem
  rw [uncompressAny_accepted h1 h2 (checkHeader_store h5 hcap), if_pos (storeHeader_base size), hdata]
  split
  · next hshort => rw [storeCopy, if_pos (hlen ▸ hshort)]
  · rfl

theorem execBytes_eq_storeCopy (h1 : s.arg.a0.toNat + s.arg.a1.toNat ≤ 2 ^ 32)
    (h2 : s.arg.a2.toNat + s.arg.a3.toNat ≤ 2 ^ 32) (hcap : data.length ≤ s.arg.a3.toNat) :
    execBytes data s = storeCopy data s := by
  rw [execBytes, if_neg (regionFits_both h1 h2), if_neg (Nat.not_lt.mpr hcap)]

theorem storeCopy_truncated (h : s.arg.a1.toNat < 5 + data.length) :
    storeCopy data s = .next (s.raise .truncatedPayload) := by
  rw [storeCopy, if_pos h]

theorem storeCopy_apart (h : 5 + data.length ≤ s.arg.a1.toNat)
    (hapart : Apart s.arg.a0.toNat s.arg.a1.toNat s.arg.a2.toNat data.length) :
    storeCopy data s = .next ((s.setMem (s.mem.writeList s.arg.a2.toNat data)).done true false
      ⟨resultWord data.length, resultWord (5 + data.length), 0, 0⟩) := by
  rw [storeCopy, if_neg (Nat.not_lt.mpr h), (overlaps_eq_false_iff _ _ _ _).mpr hapart]
  rfl

end Store

/-- A store header in memory is the header whose byte 0 is 0 (R151, R156). -/
theorem readHeader_store {m : Memory} {a : Nat} {size : Word} (hb : m.read a = 0x00) (hsize : sizeAt m a = size.toNat) :
    readHeader m a = ⟨0x00, size⟩ := by
  have hfield : (readHeader m a).size = size := BitVec.eq_of_toNat_eq ((readHeader_size_toNat m a).trans hsize)
  rw [← hb, ← hfield, ← readHeader_b0]

/-- Settles O25: each of the three instructions comes to the store copy of the data; then the length test, or the
copy. -/
theorem storeBlockIsCopied : Obligations.StoreBlockIsCopied := by
  intro s i size data hlen hi h1 h2 h5 hcap
  have hrun : exec i s = storeCopy data s := by
    rcases hi with ⟨⟨rfl, hb, hsize⟩ | ⟨rfl, hcmd⟩, hmem⟩ | rfl
    · change uncompressAny (readHeader s.mem s.arg.a0.toNat) s = _
      rw [readHeader_store hb hsize, uncompressAny_store h1 h2 h5 hcap hlen hmem]
    · change runHeader ⟨0x00, size⟩ s = _
      simp only [runHeader, hcmd]
      exact uncompressAny_store h1 h2 h5 hcap hlen hmem
    · exact execBytes_eq_storeCopy h1 h2 (hlen ▸ hcap)
  have hwritten : resultWord data.length = size := by rw [hlen, resultWord, BitVec.ofNat_toNat, BitVec.setWidth_eq]
  have hconsumed : resultWord (5 + data.length) = 5 + size := by
    rw [resultWord, BitVec.ofNat_add, ← resultWord, ← resultWord, hwritten]
    rfl
  rw [hrun, ← hlen]
  refine ⟨fun hshort => storeCopy_truncated hshort, fun hfull hapart =>
    ⟨_, ?_, s.mem.writeList_holds _ _, s.mem.writeList_sameOutside _ _⟩⟩
  rw [storeCopy_apart hfull hapart, hwritten, hconsumed]
  rfl

end Sys2Proof.Machine

/-!
The statement about runs that would pass the declared size (42_rle_decoder.md): each of the three forms is refused at
its first byte.
-/

namespace Sys2Proof.Machine

/-! ### The first byte of a run without room (R171, R172, R228) -/

theorem rlCtrlLits_of_overrun {n : Nat} {r : Run} (h : r.ctx.wouldOverrun n = true) :
    rlCtrlLits n r = r.raise .overrun := by
  rw [rlCtrlLits, if_pos h]

theorem rlCtrlRun_of_overrun {n : Nat} {r : Run} (h : r.ctx.wouldOverrun n = true) :
    rlCtrlRun n r = r.raise .overrun := by
  rw [rlCtrlRun, if_pos h]

theorem flOpLits_of_overrun {n : Nat} {r : Run} (h : r.ctx.wouldOverrun n = true) :
    flOpLits n r = r.raise .overrun := by
  rw [flOpLits, if_pos h]

/-- A run that is refused when it starts: its first byte is counted, and the bytes after it are not consumed. -/
theorem consumeAll_overrun {start : Run → Run} {rules : List (Run → Run)} {n : Nat} {m : Memory} {c : Ctx}
    (hstart : ∀ {r : Run}, r.ctx.wouldOverrun n = true → start r = r.raise .overrun) (hactive : c.state = .active)
    (hover : c.outSize.toNat < c.outPos.toNat + n) :
    Run.consumeAll (start :: rules) ⟨m, c⟩ =
      ⟨m, { c with inCount := c.inCount + 1, err := 8, state := .error }⟩ := by
  have hraise : start (Run.count ⟨m, c⟩) = (Run.count ⟨m, c⟩).raise .overrun :=
    hstart ((Ctx.wouldOverrun_iff _ _).mpr hover)
  rw [Run.consumeAll_cons _ _ _ hactive, Run.consumeAll_consume_error _ (by rw [hraise]; rfl), hraise]
  rfl

/-- Settles O37: each form begins with a byte that tests the whole run (`consumeAll_overrun`). -/
theorem runsPastTheSizeOverrun : Obligations.RunsPastTheSizeOverrun := by
  intro s c i n hslot hactive _ hi hover
  rcases hi with ⟨data, rfl, rfl, hphase⟩ | ⟨k, v, rfl, rfl, hphase⟩ | ⟨data, rfl, rfl, hphase⟩
  · exact runToken_of_slot hslot hactive (by rw [Ctx.nextFormat, hphase])
      (consumeAll_overrun rlCtrlLits_of_overrun hactive hover)
  · exact runToken_of_slot hslot hactive (by rw [Ctx.nextFormat, hphase])
      (consumeAll_overrun rlCtrlRun_of_overrun hactive hover)
  · exact runToken_of_slot hslot hactive (by rw [Ctx.nextFormat, hphase])
      (consumeAll_overrun flOpLits_of_overrun hactive hover)

end Sys2Proof.Machine

/-!
The statements about the matcher (43_lz77_matcher.md): what the search reports, how long a block can become, and that
the decoder gives back what the greedy parse was made of.
-/

namespace Sys2Proof.Machine

/-! ### The search (R192 to R195) -/

/-- A length is at most the number of agreeing bytes exactly when that many bytes agree and the limit allows them. -/
theorem le_agree_iff (m : Memory) (p q lim n : Nat) :
    n ≤ agree m p q lim ↔ n ≤ lim ∧ ∀ k < n, m.read (p + k) = m.read (q + k) := by
  induction lim generalizing p q n with
  | zero =>
    refine ⟨fun h => ⟨h, fun k hk => ?_⟩, fun h => h.1⟩
    exact absurd (Nat.lt_of_lt_of_le hk h) (Nat.not_lt_zero k)
  | succ lim ih =>
    cases n with
    | zero => simp
    | succ n =>
      rw [Nat.forall_lt_succ_left, agree]
      by_cases h : m.read p = m.read q
      · rw [if_pos h, Nat.add_comm 1, Nat.succ_le_succ_iff, Nat.succ_le_succ_iff, ih]
        simp only [Nat.add_zero, h, true_and, Nat.add_assoc, Nat.add_comm 1]
      · simp [h]

section Search

variable (m : Memory) (dFast src size : Nat) (extended fast : Bool) (pos : Nat)

/-- `matchLen` is the largest length that fits and matches (R192). -/
theorem le_matchLen_iff (off len : Nat) :
    len ≤ matchLen m src size extended pos off ↔ len ≤ min (matchMax extended) (size - pos) ∧
      ∀ k < len, m.read (src + pos + k) = m.read (src + pos - off + k) := le_agree_iff _ _ _ _ _

theorem bestMatch_succ (n : Nat) :
    bestMatch m src size extended pos (n + 1) =
      if (bestMatch m src size extended pos n).2 < matchLen m src size extended pos (n + 1) then
        (n + 1, matchLen m src size extended pos (n + 1))
      else bestMatch m src size extended pos n := rfl

/-- No offset searched has a longer match than the best one (R194). -/
theorem matchLen_le_bestMatch {n off : Nat} (h1 : 1 ≤ off) (h2 : off ≤ n) :
    matchLen m src size extended pos off ≤ (bestMatch m src size extended pos n).2 := by
  induction n with
  | zero => omega
  | succ n ih =>
    rw [bestMatch_succ]
    rcases Nat.lt_or_eq_of_le h2 with hlt | rfl
    · have hn := ih (by omega)
      split
      · next hlonger => exact hn.trans hlonger.le
      · exact hn
    · split
      · exact Nat.le_refl _
      · next hlonger => exact Nat.not_lt.mp hlonger

/-- The best match, when there is one, has the length of its offset, and every smaller offset has a shorter one
(R195). -/
theorem bestMatch_smallest {n : Nat} (h : 0 < (bestMatch m src size extended pos n).2) :
    1 ≤ (bestMatch m src size extended pos n).1 ∧
      matchLen m src size extended pos (bestMatch m src size extended pos n).1
        = (bestMatch m src size extended pos n).2 ∧
      ∀ off, 1 ≤ off → off < (bestMatch m src size extended pos n).1 →
        matchLen m src size extended pos off < (bestMatch m src size extended pos n).2 := by
  induction n with
  | zero => exact absurd h (Nat.lt_irrefl 0)
  | succ n ih =>
    rw [bestMatch_succ] at h ⊢
    split at h
    · next hlonger =>
      rw [if_pos hlonger]
      exact ⟨Nat.le_add_left 1 n, rfl, fun off h1 h2 =>
        (matchLen_le_bestMatch m src size extended pos h1 (Nat.le_of_lt_succ h2)).trans_lt hlonger⟩
    · next hlonger =>
      rw [if_neg hlonger]
      exact ih h

variable {m dFast src size extended fast pos}

/-- A match found is the longest among the offsets searched, and the first of that length (R194, R195). -/
theorem findMatch_best {off len : Nat} (h : findMatch m dFast src size extended fast pos = some (off, len)) :
    1 ≤ off ∧ off ≤ candidates dFast extended fast pos ∧ 3 ≤ len ∧ matchLen m src size extended pos off = len ∧
      (∀ off', 1 ≤ off' → off' ≤ candidates dFast extended fast pos →
        matchLen m src size extended pos off' ≤ len) ∧
      ∀ off', 1 ≤ off' → off' < off → matchLen m src size extended pos off' < len := by
  unfold findMatch at h
  dsimp only at h
  split at h
  · next hmin =>
    have hlongest := fun off' => matchLen_le_bestMatch m src size extended pos (off := off')
      (n := candidates dFast extended fast pos)
    have hin := (bestMatch_le m src size extended pos (candidates dFast extended fast pos)).1
    simp only [Config.lzMin] at hmin
    obtain ⟨hone, hlen, hsmallest⟩ := bestMatch_smallest m src size extended pos (Nat.lt_of_lt_of_le (by decide) hmin)
    rw [Option.some.inj h] at hmin hlongest hin hone hlen hsmallest
    exact ⟨hone, hin, hmin, hlen, hlongest, hsmallest⟩
  · cases h

/-- When none is found, no offset searched has a match of 3 bytes (R194). -/
theorem findMatch_none (h : findMatch m dFast src size extended fast pos = none) {off : Nat} (h1 : 1 ≤ off)
    (h2 : off ≤ candidates dFast extended fast pos) : matchLen m src size extended pos off < 3 := by
  unfold findMatch at h
  dsimp only at h
  split at h
  · cases h
  · next hmin => exact (matchLen_le_bestMatch m src size extended pos h1 h2).trans_lt (Nat.not_le.mp hmin)

end Search

/-- The number of offsets searched, as the statement of the search writes it (R191, R193). -/
theorem candidates_eq (dFast : Nat) (extended fast : Bool) {pos : Nat} (h : pos < 2 ^ 32) :
    candidates dFast extended fast pos =
      min (min pos (if extended then 65536 else 4096)) (if fast then dFast else 2 ^ 32) := by
  cases fast with
  | true => rfl
  | false =>
    refine Eq.trans ?_ (Nat.min_eq_left ((Nat.min_le_left _ _).trans h.le)).symm
    rfl

theorem execLzFind_range {s : State} (h1 : s.arg.a0.toNat + s.arg.a1.toNat ≤ 2 ^ 32) (h2 : s.arg.a3.toNat < 4)
    (h3 : s.arg.a1.toNat < s.arg.a2.toNat) : execLzFind s = .next (s.raise .range) := by
  rw [execLzFind, if_neg (by simp only [regionFits_eq_false_iff, optsLegal_eq_false_iff]; omega), if_pos h3]

/-- Settles O56: a length fits at an offset exactly when it is at most `matchLen` there, and the search takes the
largest `matchLen` at its smallest offset. -/
theorem lzFindReportsTheBestMatch : Obligations.LzFindReportsTheBestMatch := by
  intro s far lim fits hfar hlim hfits
  have hfits' : ∀ off len, fits off len ↔ 1 ≤ off ∧ off ≤ candidates s.dFast (s.arg.a3.getLsbD 0)
      (s.arg.a3.getLsbD 1) s.arg.a2.toNat ∧
      len ≤ matchLen s.mem s.arg.a0.toNat s.arg.a1.toNat (s.arg.a3.getLsbD 0) s.arg.a2.toNat off := by
    intro off len
    rw [hfits, le_matchLen_iff, candidates_eq _ _ _ s.arg.a2.isLt, ← hfar, hlim]
    rfl
  refine ⟨execLzFind_badArg, fun h1 h2 => ⟨execLzFind_range h1 h2, fun h3 => ?_⟩⟩
  cases hfind : findMatch s.mem s.dFast s.arg.a0.toNat s.arg.a1.toNat (s.arg.a3.getLsbD 0) (s.arg.a3.getLsbD 1)
      s.arg.a2.toNat with
  | none =>
    refine .inl ⟨fun off hfit => ?_, execLzFind_of_none h1 h2 h3 hfind⟩
    obtain ⟨hone, hin, hlen⟩ := (hfits' off 3).mp hfit
    exact absurd hlen (Nat.not_le.mpr (findMatch_none hfind hone hin))
  | some best =>
    obtain ⟨off, len⟩ := best
    obtain ⟨hone, hin, hmin, hlen, hlongest, hsmallest⟩ := findMatch_best hfind
    refine .inr ⟨off, len, hmin, (hfits' off len).mpr ⟨hone, hin, hlen.ge⟩, fun off' len' hfit => ?_,
      fun off' hlt hfit => ?_, execLzFind_of_some h1 h2 h3 hfind⟩
    · obtain ⟨hone', hin', hlen'⟩ := (hfits' off' len').mp hfit
      exact hlen'.trans (hlongest off' hone' hin')
    · obtain ⟨hone', -, hlen'⟩ := (hfits' off' len).mp hfit
      exact absurd hlen' (Nat.not_le.mpr (hsmallest off' hone' hlt))

/-! ### The tokens of a source (R190, R196, R197) -/

/-- The source of a search, and the mode its tokens are written in (R190, R191). -/
structure Source where
  /-- Where the source stands. -/
  mem : Memory
  /-- Its address. -/
  addr : Nat
  /-- Its length. -/
  size : Nat
  /-- `opts[0]`. -/
  extended : Bool

/-- `src[i]` (R190). -/
def Source.byte (S : Source) (i : Nat) : Byte := S.mem.read (S.addr + i)

/-- A back-reference that a decoder whose output is the source up to `pos` accepts, and that writes the source's next
bytes (R196). -/
structure Source.IsMatch (S : Source) (pos off len : Nat) : Prop where
  offset_pos : 1 ≤ off
  offset_le : off ≤ pos
  offset_window : off ≤ matchWindow S.extended
  length_min : 3 ≤ len
  length_max : len ≤ matchMax S.extended
  length_end : pos + len ≤ S.size
  same : ∀ k < len, S.byte (pos + k) = S.byte (pos - off + k)

/-- The token stands for bytes of the source from `pos` on: the byte there, or a match. -/
inductive Source.Encodes (S : Source) (pos : Nat) : Instr → Prop
  | literal (h : pos < S.size) : S.Encodes pos (.lztLit (S.byte pos))
  | reference {off len : Nat} (h : S.IsMatch pos off len) : S.Encodes pos (refToken S.extended off len)

/-- The tokens stand, one after the other, for bytes of the source from `pos` on (R197). -/
def Source.Parses (S : Source) : Nat → List Instr → Prop
  | _, [] => True
  | pos, i :: toks => S.Encodes pos i ∧ S.Parses (pos + coveredBytes i) toks

/-- What the search finds is a match (R196). -/
theorem findMatch_isMatch {m : Memory} {dFast src size : Nat} {extended fast : Bool} {pos off len : Nat}
    (h : findMatch m dFast src size extended fast pos = some (off, len)) :
    Source.IsMatch ⟨m, src, size, extended⟩ pos off len := by
  obtain ⟨hoff, hmin, hmax, hend⟩ := findMatch_some h
  obtain ⟨hone, hin, -, hlen, -, -⟩ := findMatch_best h
  obtain ⟨-, hsame⟩ := (le_matchLen_iff m src size extended pos off len).mp hlen.ge
  have hwindow : candidates dFast extended fast pos ≤ matchWindow extended := by
    unfold candidates
    split <;> omega
  refine ⟨hone, hoff, hin.trans hwindow, hmin, hmax, by change pos + len ≤ size; omega, fun k hk => ?_⟩
  have hk := hsame k hk
  rwa [Nat.add_assoc, Nat.add_sub_assoc hoff, Nat.add_assoc] at hk

theorem greedyToken_encodes (m : Memory) (dFast src size : Nat) (extended fast : Bool) {pos : Nat}
    (hpos : pos < size) :
    Source.Encodes ⟨m, src, size, extended⟩ pos (greedyToken m dFast src size extended fast pos) := by
  cases h : findMatch m dFast src size extended fast pos with
  | none =>
    rw [greedyToken_of_none h]
    exact .literal hpos
  | some best =>
    rw [greedyToken_of_some h]
    exact .reference (findMatch_isMatch h)

/-- The greedy parse stands for the source (R197). -/
theorem parseTokens_parses (m : Memory) (dFast src size : Nat) (extended fast : Bool) (n pos : Nat) :
    Source.Parses ⟨m, src, size, extended⟩ pos (parseTokens m dFast src size extended fast n pos) := by
  induction n generalizing pos with
  | zero => exact trivial
  | succ n ih =>
    rcases Nat.lt_or_ge pos size with hlt | hge
    · rw [parseTokens_succ _ _ _ _ _ _ _ hlt]
      exact ⟨greedyToken_encodes m dFast src size extended fast hlt, ih _⟩
    · rw [parseTokens_end _ _ _ _ _ _ _ hge]
      exact trivial

section Encoded

variable {S : Source} {pos : Nat} {i : Instr}

theorem Source.Encodes.pos_lt (h : S.Encodes pos i) : pos < S.size := by
  cases h with
  | literal h => exact h
  | reference h => have := h.length_min; have := h.length_end; omega

/-- A token is never longer than the bytes it stands for (R202). -/
theorem Source.Encodes.length_encode_le (h : S.Encodes pos i) : (encode i).length ≤ coveredBytes i := by
  cases h with
  | literal h => exact Nat.le_refl 1
  | @reference off len h =>
    rw [coveredBytes_refToken off h.length_min h.length_max]
    have hshort : (encode (refToken S.extended off len)).length ≤ 3 := by
      cases S.extended <;> simp [refToken, encode]
    exact hshort.trans h.length_min

theorem Source.Encodes.covered_pos (h : S.Encodes pos i) : 1 ≤ coveredBytes i := by
  cases h with
  | literal h => exact Nat.le_refl 1
  | reference h => rw [coveredBytes_refToken _ h.length_min h.length_max]; have := h.length_min; omega

/-- There are no more tokens, and no more bytes of tokens, than bytes they stand for (R202). -/
theorem Source.Parses.length_le {toks : List Instr} (h : S.Parses pos toks) :
    toks.length ≤ (toks.map coveredBytes).sum ∧ (toks.flatMap encode).length ≤ (toks.map coveredBytes).sum := by
  induction toks generalizing pos with
  | nil => exact ⟨Nat.le_refl 0, Nat.le_refl 0⟩
  | cons i toks ih =>
    obtain ⟨hi, htoks⟩ := h
    obtain ⟨hcount, hbytes⟩ := ih htoks
    have := hi.covered_pos
    have := hi.length_encode_le
    simp only [List.length_cons, List.map_cons, List.sum_cons, List.flatMap_cons, List.length_append]
    omega

theorem Source.parses_append {a b : List Instr} :
    S.Parses pos (a ++ b) ↔ S.Parses pos a ∧ S.Parses (pos + (a.map coveredBytes).sum) b := by
  induction a generalizing pos with
  | nil => simp [Source.Parses]
  | cons i a ih =>
    simp only [List.cons_append, Source.Parses, ih, List.map_cons, List.sum_cons, and_assoc, Nat.add_assoc]

end Encoded

/-! ### The size of a block (R202) -/

/-- A payload has one flag byte for each group of 8 tokens and the bytes of the tokens (R198). -/
theorem length_serialise_le (n : Nat) (toks : List Instr) :
    (serialise n toks).length ≤ (toks.length + 7) / 8 + (toks.flatMap encode).length := by
  induction n generalizing toks with
  | zero => exact Nat.zero_le _
  | succ n ih =>
    unfold serialise
    split
    · exact Nat.zero_le _
    · next hne =>
      have hpos : 0 < toks.length := List.length_pos_iff.mpr hne
      have hrest := ih (toks.drop 8)
      have hsplit : (toks.flatMap encode).length =
          ((toks.take 8).flatMap encode).length + ((toks.drop 8).flatMap encode).length := by
        rw [← List.length_append, ← List.flatMap_append, List.take_append_drop]
      have hflag : (encode (.lztFlags (flagByte (toks.take 8)))).length = 1 := rfl
      rw [List.length_drop] at hrest
      rw [List.length_append, List.length_append, hflag]
      omega

/-- Settles O59: no token is longer than what it stands for, and each stands for a byte or more. -/
theorem compressedSizeIsBounded : Obligations.CompressedSizeIsBounded := by
  intro m dFast src size extended fast
  have hheader : (encode (if extended then .hdrLzx (BitVec.ofNat 32 size) else .hdrLz (BitVec.ofNat 32 size))).length
      = 5 := by cases extended <;> rfl
  have hsum := sum_coveredBytes_parseTokens m dFast src size extended fast size 0 (Nat.zero_le _) (by omega)
  obtain ⟨hcount, hbytes⟩ := (parseTokens_parses m dFast src size extended fast size 0).length_le
  have hpayload := length_serialise_le (parseTokens m dFast src size extended fast size 0).length
    (parseTokens m dFast src size extended fast size 0)
  rw [compressedBlock, List.length_append, hheader]
  omega

/-! ### A context that decodes the tokens of a source (R196, R221 to R227) -/

/-- The context has written the source up to `pos` at `base`, from `used` payload bytes, and goes on unless that is the
whole source. -/
structure Run.Decoded (S : Source) (base pos used : Nat) (r : Run) : Prop where
  state : r.ctx.state = if pos = S.size then .finished else .active
  mode : r.ctx.mode = if S.extended then 1 else 0
  dstBase : r.ctx.dstBase.toNat = base
  outSize : r.ctx.outSize.toNat = S.size
  outPos : r.ctx.outPos.toNat = pos
  inCount : r.ctx.inCount = BitVec.ofNat 64 used
  output : ∀ k < pos, r.mem.read (base + k) = S.byte k

/-- The context has used one flag bit, and comes to the next token or, after the last one covered, to a flag byte
(R221, R223, R224). -/
structure Ctx.UsesFlag (c c' : Ctx) : Prop where
  flags : c'.flags = c.flags <<< 1
  nflag : c'.nflag = c.nflag - 1
  phase : c'.phase = if c.nflag = 1 then .lzFlag else .lzToken

section Token

variable {S : Source} {base pos used : Nat}

/-- While source bytes are missing the context is `ACTIVE`. -/
theorem Run.Decoded.active {r : Run} (h : r.Decoded S base pos used) (hpos : pos < S.size) : r.ctx.state = .active := by
  rw [h.state, if_neg hpos.ne]

/-- A token that leaves the identity of the context, adds `n` bytes to the output and counts `k` bytes goes on
decoding, when the output is the source's. -/
theorem Run.Decoded.step {r r' : Run} {n k : Nat} (h : r.Decoded S base pos used) (hn : pos + n ≤ S.size)
    (hmode : r'.ctx.mode = r.ctx.mode) (hbase : r'.ctx.dstBase = r.ctx.dstBase) (hsize : r'.ctx.outSize = r.ctx.outSize)
    (hpos : r'.ctx.outPos = r.ctx.outPos + BitVec.ofNat 32 n)
    (hused : r'.ctx.inCount = r.ctx.inCount + BitVec.ofNat 64 k)
    (hstate : r'.ctx.state = stateAt r.ctx (r.ctx.outPos.toNat + n))
    (hout : ∀ k < pos + n, r'.mem.read (base + k) = S.byte k) : r'.Decoded S base (pos + n) (used + k) where
  state := by rw [hstate, stateAt, h.outPos, h.outSize]
  mode := hmode.trans h.mode
  dstBase := hbase ▸ h.dstBase
  outSize := hsize ▸ h.outSize
  outPos := by rw [hpos, toNat_add_ofNat _ _ r.ctx.outSize (by rw [h.outPos, h.outSize]; exact hn), h.outPos]
  inCount := by rw [hused, h.inCount, BitVec.ofNat_add]
  output := hout

/-- A copy of a match writes the source's next bytes: each byte copied stands `off` below, and is the source's by then
(R68, R196). -/
theorem Source.IsMatch.output {off len : Nat} (h : S.IsMatch pos off len) {m m' : Memory}
    (hcopy : ∀ k < len, m'.read (base + pos + k) = m'.read (base + pos + k - off))
    (hframe : m.SameOutside m' (base + pos) len) (hout : ∀ k < pos, m.read (base + k) = S.byte k) :
    ∀ k < pos + len, m'.read (base + k) = S.byte k := by
  have hoff := h.offset_le
  have hone := h.offset_pos
  intro k
  induction k using Nat.strongRecOn with
  | ind k ih =>
    intro hk
    rcases Nat.lt_or_ge k pos with hlt | hge
    · rw [hframe _ (.inl (Nat.add_lt_add_left hlt base)), hout k hlt]
    · obtain ⟨j, rfl⟩ := Nat.exists_eq_add_of_le hge
      have hj : j < len := Nat.lt_of_add_lt_add_left hk
      have hback : base + pos + j - off = base + (pos - off + j) := by omega
      rw [← Nat.add_assoc, hcopy j hj, hback, ih (pos - off + j) (by omega) (by omega), h.same j hj]

/-- The fields of a match's token give its length and its offset back (R101, R102). -/
theorem Source.IsMatch.fields {off len : Nat} (h : S.IsMatch pos off len) :
    (S.extended = false → (BitVec.ofNat 4 (len - 3)).toNat + 3 = len ∧ (BitVec.ofNat 12 (off - 1)).toNat + 1 = off) ∧
      (S.extended = true →
        (BitVec.ofNat 8 (len - 3)).toNat + 3 = len ∧ (BitVec.ofNat 16 (off - 1)).toNat + 1 = off) := by
  obtain ⟨hone, -, hwindow, hmin, hmax, -, -⟩ := h
  refine ⟨fun hmode => ?_, fun hmode => ?_⟩
  all_goals
    rw [hmode] at hwindow hmax
    simp only [matchWindow, matchMax, Config.lzWin, Config.lzMaxLen, Config.lzxWin, Config.lzxMaxLen,
      if_true, Bool.false_eq_true, if_false] at hwindow hmax
    refine ⟨?_, toNat_ofNat_pred hone hwindow⟩
    rw [BitVec.toNat_ofNat]
    omega

variable {s : State} {c : Ctx} {i : Instr}

/-- A context that stands before a match writes it (R224 to R227). -/
theorem exec_refToken {off len : Nat} (hD : Run.Decoded S base pos used ⟨s.mem, c⟩) (h : S.IsMatch pos off len)
    (hslot : s.SlotIs c) (hphase : c.phase = .lzToken) (hflag : c.flags.getLsbD 7 = true) :
    ∃ r' : Run, exec (refToken S.extended off len) s =
        .next { s with mem := r'.mem, slots := s.slots.set s.arg.a0.toNat r'.ctx } ∧
      r'.Decoded S base (pos + len) (used + (encode (refToken S.extended off len)).length) ∧ c.UsesFlag r'.ctx := by
  have hmode := hD.mode
  have hoff : off ≤ c.outPos.toNat := hD.outPos ▸ h.offset_le
  have hfit : c.outPos.toNat + len ≤ c.outSize.toNat := by
    have := h.length_end
    rwa [hD.outPos, hD.outSize]
  have hactive : c.state = .active := hD.active (by have := h.length_min; have := h.length_end; omega)
  obtain ⟨hplain, hext⟩ := h.fields
  have finish : ∀ {b0 b1 : Byte} {m : Memory} {k : Nat},
      (∀ k < len, m.read (c.dstBase.toNat + c.outPos.toNat + k)
        = m.read (c.dstBase.toNat + c.outPos.toNat + k - off)) →
      s.mem.SameOutside m (c.dstBase.toNat + c.outPos.toNat) len →
      Run.Decoded S base (pos + len) (used + k) ⟨m, { c with
          outPos := c.outPos + BitVec.ofNat 32 len, inCount := c.inCount + BitVec.ofNat 64 k
          flags := c.flags <<< 1, nflag := c.nflag - 1, b0 := b0, b1 := b1
          phase := if c.nflag = 1 then .lzFlag else .lzToken, state := stateAt c (c.outPos.toNat + len) }⟩ := by
    intro b0 b1 m k hcopy hframe
    rw [hD.dstBase, hD.outPos] at hcopy hframe
    exact hD.step h.length_end rfl rfl rfl rfl rfl rfl (h.output hcopy hframe hD.output)
  cases hx : S.extended with
  | false =>
    obtain ⟨hlen, hback⟩ := hplain hx
    rw [hx] at hmode
    obtain ⟨m, hexec, hcopy, hframe⟩ := lzBackReference s c _ len off _ _ 2 hslot hactive hphase hflag
      (.inl ⟨_, _, rfl, hmode, hlen.symm, hback.symm, rfl, rfl, rfl⟩) hoff hfit
    exact ⟨⟨_, _⟩, hexec, finish hcopy hframe, ⟨rfl, rfl, rfl⟩⟩
  | true =>
    obtain ⟨hlen, hback⟩ := hext hx
    rw [hx] at hmode
    obtain ⟨m, hexec, hcopy, hframe⟩ := lzBackReference s c _ len off _ _ 3 hslot hactive hphase hflag
      (.inr ⟨_, _, rfl, hmode, hlen.symm, hback.symm, rfl, rfl, rfl⟩) hoff hfit
    exact ⟨⟨_, _⟩, hexec, finish hcopy hframe, ⟨rfl, rfl, rfl⟩⟩

/-- A context that stands before a token for the source's next bytes writes them (R223 to R227). -/
theorem exec_of_encodes (hD : Run.Decoded S base pos used ⟨s.mem, c⟩) (h : S.Encodes pos i) (hslot : s.SlotIs c)
    (hphase : c.phase = .lzToken) (hflag : c.flags.getLsbD 7 = isRef i) :
    ∃ r' : Run, exec i s = .next { s with mem := r'.mem, slots := s.slots.set s.arg.a0.toNat r'.ctx } ∧
      r'.Decoded S base (pos + coveredBytes i) (used + (encode i).length) ∧ c.UsesFlag r'.ctx := by
  cases h with
  | literal hpos =>
    obtain ⟨m, hexec, hread⟩ := (lzFlagByteAndLiteral s c (S.byte pos) hslot (hD.active hpos)
      (by rw [hD.outPos, hD.outSize]; exact hpos)).2 hphase hflag
    refine ⟨⟨_, _⟩, hexec, hD.step hpos rfl rfl rfl rfl rfl rfl fun k hk => ?_, ⟨rfl, rfl, rfl⟩⟩
    rw [hread, hD.dstBase, hD.outPos]
    rcases Nat.lt_or_eq_of_le (Nat.le_of_lt_succ hk) with hlt | rfl
    · rw [if_neg (by omega)]
      exact hD.output k hlt
    · rw [if_pos rfl]
  | @reference off len hmatch =>
    rw [coveredBytes_refToken off hmatch.length_min hmatch.length_max]
    refine exec_refToken hD hmatch hslot hphase (hflag.trans ?_)
    cases S.extended <;> rfl

end Token

/-- What a search that reports a match found (R194). -/
theorem findMatch_of_found {s t : State} (h : exec .lzFind s = .next t) (hfound : t.res.r0 = 1) :
    findMatch s.mem s.dFast s.arg.a0.toNat s.arg.a1.toNat (s.arg.a3.getLsbD 0) (s.arg.a3.getLsbD 1) s.arg.a2.toNat
      = some (t.res.r1.toNat, t.res.r2.toNat) := by
  change execLzFind s = _ at h
  have hres : ∀ {u : State}, execLzFind s = .next u → u.res.r0 = 1 := fun hu => by
    rw [h] at hu
    cases hu
    exact hfound
  have hlegal : ¬ (2 ^ 32 < s.arg.a0.toNat + s.arg.a1.toNat ∨ 4 ≤ s.arg.a3.toNat) :=
    fun hbad => absurd (hres (execLzFind_badArg hbad)) (show ¬ (0 : Word) = 1 by decide)
  have hin : ¬ s.arg.a1.toNat < s.arg.a2.toNat :=
    fun hout => absurd (hres (execLzFind_range (by omega) (by omega) hout)) (show ¬ (0 : Word) = 1 by decide)
  cases hfind : findMatch s.mem s.dFast s.arg.a0.toNat s.arg.a1.toNat (s.arg.a3.getLsbD 0) (s.arg.a3.getLsbD 1)
      s.arg.a2.toNat with
  | none =>
    exact absurd (hres (execLzFind_of_none (by omega) (by omega) (by omega) hfind)) (show ¬ (0 : Word) = 1 by decide)
  | some best =>
    obtain ⟨off, len⟩ := best
    obtain ⟨hoff, -, -, hlen⟩ := findMatch_some hfind
    have hpos := s.arg.a2.isLt
    have hsize := s.arg.a1.isLt
    rw [execLzFind_of_some (by omega) (by omega) (by omega) hfind] at h
    cases h
    rw [State.done_res, resultWord_toNat (by omega), resultWord_toNat (by omega)]

/-- Settles O57: what the search found is a match, and a context that stands there writes it (`exec_refToken`). -/
theorem reportedMatchesDecode : Obligations.ReportedMatchesDecode := by
  intro s t u c off len i hfind hfound hoff hlen rfl hslot hactive hphase hflag hmode hpos hsize hout
  let S : Source := ⟨s.mem, s.arg.a0.toNat, s.arg.a1.toNat, s.arg.a3.getLsbD 0⟩
  have hmatch : S.IsMatch s.arg.a2.toNat off len := by
    rw [hoff, hlen]
    exact findMatch_isMatch (findMatch_of_found hfind hfound)
  have hend : s.arg.a2.toNat + len ≤ s.arg.a1.toNat := hmatch.length_end
  have hmin := hmatch.length_min
  have hD : Run.Decoded S c.dstBase.toNat s.arg.a2.toNat c.inCount.toNat ⟨u.mem, c⟩ :=
    { state := hactive.trans (if_neg (show ¬ s.arg.a2.toNat = s.arg.a1.toNat by omega)).symm
      mode := hmode, dstBase := rfl, outSize := by rw [hsize], outPos := by rw [hpos]
      inCount := by rw [BitVec.ofNat_toNat, BitVec.setWidth_eq], output := hout }
  obtain ⟨r, hexec, hr, -⟩ := exec_refToken hD hmatch hslot hphase hflag
  refine ⟨hmatch.offset_pos, hmatch.offset_le, hmin, hend, hmatch.offset_window, hmatch.length_max, fun k hk => ?_,
    _, r.ctx, hexec, List.getElem?_set_self (List.getElem?_eq_some_iff.mp hslot).1, ?_, hr.outPos, hr.output⟩
  · rw [Nat.add_assoc, Nat.add_sub_assoc hmatch.offset_le, Nat.add_assoc]
    exact hmatch.same k hk
  · rw [hr.state]
    split <;> exact nofun

/-! ### The decode engine over a payload (R198, R221, R330) -/

/-- The engine over bytes and then over others. -/
theorem Run.consumeAll_append (a b : List (Run → Run)) (r : Run) :
    Run.consumeAll (a ++ b) r = Run.consumeAll b (Run.consumeAll a r) := by
  induction a generalizing r with
  | nil => rfl
  | cons rule a ih =>
    by_cases h : r.ctx.state = .active
    · rw [List.cons_append, Run.consumeAll_cons _ _ _ h, Run.consumeAll_cons _ _ _ h, ih]
    · rw [Run.consumeAll_stopped _ _ h, Run.consumeAll_stopped _ _ h, Run.consumeAll_stopped _ _ h]

/-- A machine whose slot 0, the one `ARG0` names, and whose memory are those of the run. -/
def Run.inSlot (r : Run) : State := { State.reset with mem := r.mem, slots := [r.ctx] }

/-- What a token does as an instruction, the engine does with its bytes (R329, log 12). -/
theorem Run.consumeAll_of_exec {i : Instr} {r r' : Run} (hwf : i.wellFormed = true)
    (hformat : formatOf i ∈ [Format.rlt, .lzFlag, .lzLit, .lzRef, .lzxRef, .flt, .hft, .hfc])
    (h : exec i r.inSlot = .next { r.inSlot with
      mem := r'.mem, slots := r.inSlot.slots.set r.inSlot.arg.a0.toNat r'.ctx }) :
    Run.consumeAll ((encode i).map stepByte) r = r' := by
  rw [exec_token_eq_engine hwf hformat] at h
  rcases runToken_cases (formatOf i) ((encode i).map stepByte) r.inSlot with ⟨c, hslot, -, -, hrun⟩ | ⟨-, hrun⟩
  · rw [hrun] at h
    obtain rfl : r.ctx = c := Option.some.inj hslot
    have hstate := Host.Outcome.next.inj h
    have hmem := congrArg State.mem hstate
    have hctx := List.cons.inj (congrArg State.slots hstate)
    cases r'
    exact congr (congrArg Run.mk hmem) hctx.1
  · rw [hrun] at h
    cases h

/-- The context comes to the tokens of a group: the flag byte covers them, and its next bits are their kinds (R198,
R221). -/
structure Ctx.Expects (c : Ctx) (group : List Instr) : Prop where
  phase : c.phase = if c.nflag = 0 then .lzFlag else .lzToken
  room : group.length ≤ c.nflag.toNat
  width : c.nflag.toNat ≤ 8
  kinds : ∀ (j : Nat) (h : j < group.length), c.flags.getLsbD (7 - j) = isRef group[j]

/-- A token takes the context to the next one of the group. -/
theorem Ctx.Expects.next {c c' : Ctx} {i : Instr} {group : List Instr} (h : c.Expects (i :: group))
    (huse : c.UsesFlag c') : c'.Expects group ∧ c'.nflag.toNat = c.nflag.toNat - 1 := by
  have hroom := h.room
  have hwidth := h.width
  rw [List.length_cons] at hroom
  have hnflag : c'.nflag.toNat = c.nflag.toNat - 1 := by rw [huse.nflag, nflag_pred _ (by omega)]
  refine ⟨⟨by rw [huse.phase, huse.nflag]; simp only [nflag_last], by omega, by omega, fun j hj => ?_⟩, hnflag⟩
  have hkind := h.kinds (j + 1) (Nat.succ_lt_succ hj)
  rw [huse.flags, BitVec.getLsbD_shiftLeft, ← List.getElem_cons_succ i group j (Nat.succ_lt_succ hj), ← hkind,
    show 7 - j - 1 = 7 - (j + 1) by omega]
  simp
  omega

section Payload

variable {S : Source} {base pos used : Nat} {r : Run}

theorem Source.Encodes.token {i : Instr} (h : S.Encodes pos i) : i.wellFormed = true ∧
    formatOf i ∈ [Format.rlt, .lzFlag, .lzLit, .lzRef, .lzxRef, .flt, .hft, .hfc] := by
  cases h with
  | literal _ => simp [Instr.wellFormed, formatOf]
  | reference _ => cases S.extended <;> simp [refToken, Instr.wellFormed, formatOf]

/-- The engine over the bytes of a token (R223 to R227). -/
theorem consumeAll_token {i : Instr} (hD : r.Decoded S base pos used) (h : S.Encodes pos i)
    (hphase : r.ctx.phase = .lzToken) (hflag : r.ctx.flags.getLsbD 7 = isRef i) :
    (Run.consumeAll ((encode i).map stepByte) r).Decoded S base (pos + coveredBytes i) (used + (encode i).length) ∧
      r.ctx.UsesFlag (Run.consumeAll ((encode i).map stepByte) r).ctx := by
  obtain ⟨r', hexec, hr'⟩ := exec_of_encodes (s := r.inSlot) hD h rfl hphase hflag
  rwa [Run.consumeAll_of_exec h.token.1 h.token.2 hexec]

/-- The engine over the tokens of a group (R221). -/
theorem consumeAll_group (group : List Instr) (hD : r.Decoded S base pos used) (hX : r.ctx.Expects group)
    (hP : S.Parses pos group) :
    (Run.consumeAll ((group.flatMap encode).map stepByte) r).Decoded S base (pos + (group.map coveredBytes).sum)
        (used + (group.flatMap encode).length) ∧
      (Run.consumeAll ((group.flatMap encode).map stepByte) r).ctx.Expects [] ∧
      (Run.consumeAll ((group.flatMap encode).map stepByte) r).ctx.nflag.toNat = r.ctx.nflag.toNat - group.length := by
  induction group generalizing r pos used with
  | nil => exact ⟨hD, hX, rfl⟩
  | cons i group ih =>
    obtain ⟨hi, hgroup⟩ := hP
    have hroom := hX.room
    rw [List.length_cons] at hroom
    have hphase : r.ctx.phase = .lzToken := by
      rw [hX.phase, if_neg fun h0 => by rw [h0] at hroom; exact absurd hroom (Nat.not_succ_le_zero _)]
    obtain ⟨hD', huse⟩ := consumeAll_token hD hi hphase (hX.kinds 0 (Nat.zero_lt_succ _))
    obtain ⟨hX', hnflag⟩ := hX.next huse
    obtain ⟨hend, hexpect, hleft⟩ := ih hD' hX' hgroup
    rw [List.flatMap_cons, List.map_append, Run.consumeAll_append, List.map_cons, List.sum_cons, List.length_append,
      ← Nat.add_assoc, ← Nat.add_assoc]
    refine ⟨hend, hexpect, ?_⟩
    rw [hleft, hnflag, List.length_cons, Nat.sub_sub, Nat.add_comm 1]

/-- The engine over a flag byte (R221). -/
theorem consumeAll_flagByte {group : List Instr} (hD : r.Decoded S base pos used) (hpos : pos < S.size)
    (hphase : r.ctx.phase = .lzFlag) (hlen : group.length ≤ 8) :
    ∃ r', Run.consumeAll ((encode (.lztFlags (flagByte group))).map stepByte) r = r' ∧
      r'.Decoded S base pos (used + 1) ∧ r'.ctx.Expects group ∧ r'.ctx.nflag = 8 := by
  have hexec := (lzFlagByteAndLiteral r.inSlot r.ctx (flagByte group) rfl (hD.active hpos)
    (by rw [hD.outPos, hD.outSize]; exact hpos)).1 hphase
  refine ⟨⟨r.mem, _⟩, Run.consumeAll_of_exec rfl (by simp [formatOf]) hexec, ?_,
    ⟨rfl, hlen, Nat.le_refl 8, fun j hj => ?_⟩, rfl⟩
  · exact { hD with inCount := by rw [BitVec.ofNat_add, ← hD.inCount]; rfl }
  · rw [Bool.eq_iff_iff, isRef_iff, getLsbD_flagByte group (hj.trans_le hlen)]
    simp [List.getElem?_eq_getElem hj]

/-- The engine over a payload writes what its tokens stand for (R198). -/
theorem consumeAll_serialise (n : Nat) (toks : List Instr) (hn : toks.length ≤ n) (hD : r.Decoded S base pos used)
    (hphase : toks ≠ [] → r.ctx.phase = .lzFlag) (hP : S.Parses pos toks) :
    (Run.consumeAll ((serialise n toks).map stepByte) r).Decoded S base (pos + (toks.map coveredBytes).sum)
      (used + (serialise n toks).length) := by
  induction n generalizing toks r pos used with
  | zero =>
    rw [List.eq_nil_of_length_eq_zero (Nat.le_zero.mp hn)]
    exact hD
  | succ n ih =>
    unfold serialise
    split
    · next hnil =>
      rw [hnil]
      exact hD
    · next hne =>
      have htoks := hP
      rw [← List.take_append_drop 8 toks, Source.parses_append] at hP
      obtain ⟨hgroup, hrest⟩ := hP
      have hpos : pos < S.size := by
        obtain ⟨i, tail, rfl⟩ := List.exists_cons_of_ne_nil hne
        exact htoks.1.pos_lt
      obtain ⟨r1, hr1, hD1, hX1, hflag⟩ := consumeAll_flagByte (group := toks.take 8) hD hpos (hphase hne)
        (List.length_take_le 8 toks)
      obtain ⟨hD2, hX2, hleft⟩ := consumeAll_group (toks.take 8) hD1 hX1 hgroup
      have hnext : toks.drop 8 ≠ [] →
          (Run.consumeAll (((toks.take 8).flatMap encode).map stepByte) r1).ctx.phase = .lzFlag := by
        intro hdrop
        have hfull := List.length_pos_iff.mpr hdrop
        rw [List.length_drop] at hfull
        rw [hflag, List.length_take_of_le (by omega)] at hleft
        rw [hX2.phase, if_pos (BitVec.eq_of_toNat_eq hleft)]
      have hlast := ih (toks.drop 8) (by rw [List.length_drop]; omega) hD2 hnext hrest
      have hsum : (toks.map coveredBytes).sum =
          ((toks.take 8).map coveredBytes).sum + ((toks.drop 8).map coveredBytes).sum := by
        rw [← List.sum_append, ← List.map_append, List.take_append_drop]
      have hone : (encode (.lztFlags (flagByte (toks.take 8)))).length = 1 := rfl
      rw [List.map_append, List.map_append, Run.consumeAll_append, Run.consumeAll_append, hr1, hsum,
        List.length_append, List.length_append, hone, ← Nat.add_assoc, ← Nat.add_assoc, ← Nat.add_assoc]
      exact hlast

end Payload

/-! ### The block, written and read back (R199, R200, R203, R326) -/

theorem Memory.Holds.append {m : Memory} {a : Nat} {x y : List Byte} (h : m.Holds a (x ++ y)) :
    m.Holds a x ∧ m.Holds (a + x.length) y := by
  refine ⟨fun k hk => ?_, fun k hk => ?_⟩
  · rw [h k (by rw [List.length_append]; omega), List.getElem_append_left hk]
  · rw [Nat.add_assoc, h (x.length + k) (by rw [List.length_append]; omega),
      List.getElem_append_right (Nat.le_add_right _ _)]
    simp only [Nat.add_sub_cancel_left]

/-- The header of a block of `LZ_COMPRESS` (R199). -/
def lzHeader (extended : Bool) (size : Word) : Header := ⟨if extended then 0x11 else 0x10, size⟩

theorem compressedBlock_eq_header_append (m : Memory) (dFast src : Nat) (size : Word) (extended fast : Bool) :
    compressedBlock m dFast src size.toNat extended fast = (lzHeader extended size).bytes ++
      serialise (parseTokens m dFast src size.toNat extended fast size.toNat 0).length
        (parseTokens m dFast src size.toNat extended fast size.toNat 0) := by
  rw [compressedBlock, BitVec.ofNat_toNat, BitVec.setWidth_eq]
  cases extended <;> rfl

/-- The header passes the tests and selects the decoder of its mode (R322, R325). -/
theorem lzHeader_accepted (extended : Bool) {size : Word} {avail cap : Nat} (h1 : 5 ≤ avail)
    (h2 : size.toNat ≤ cap) : checkHeader (lzHeader extended size) avail cap none = none ∧
      (lzHeader extended size).base = 1 ∧ headerMode (lzHeader extended size) = if extended then 1 else 0 := by
  rw [checkHeader_eq_none_iff]
  cases extended <;>
    simp [lzHeader, Header.recognised, Header.dif, Header.base, Header.flags, legalFlags, headerMode, h1, h2]

/-- The context an LZ header opens has decoded nothing yet (R327). -/
theorem freshContext_decoded (S : Source) (m : Memory) {size : Word} (dst : Word) (hsize : S.size = size.toNat) :
    Run.Decoded S dst.toNat 0 0 ⟨m, freshContext (lzHeader S.extended size) dst⟩ where
  state := by
    have hzero : size = 0 ↔ 0 = S.size := by rw [hsize, BitVec.toNat_eq]; exact eq_comm
    simp only [freshContext, lzHeader, hzero]
  mode := (lzHeader_accepted S.extended (size := size) (Nat.le_refl 5) (Nat.le_refl _)).2.2
  dstBase := rfl
  outSize := hsize.symm
  outPos := rfl
  inCount := rfl
  output := fun k hk => absurd hk (Nat.not_lt_zero k)

/-- A context that decodes a source is not `IDLE`. -/
theorem Run.Decoded.ne_idle {S : Source} {base pos used : Nat} {r : Run} (h : r.Decoded S base pos used) :
    r.ctx.state ≠ .idle := by
  rw [h.state]
  split <;> exact nofun

/-- `feed` over a payload whose tokens stand for a source writes the source, and consumes every byte (R330). -/
theorem feed_serialise {S : Source} {base a : Nat} {toks : List Instr} {r : Run} (hD : r.Decoded S base 0 0)
    (hok : r.ctx.Ok) (hphase : r.ctx.phase = .lzFlag) (hP : S.Parses 0 toks)
    (hsum : (toks.map coveredBytes).sum = S.size) (hmem : r.mem.Holds a (serialise toks.length toks))
    (hapart : Apart a (serialise toks.length toks).length base S.size)
    (hlen : (serialise toks.length toks).length < 2 ^ 64) :
    (feed a (serialise toks.length toks).length r).1.Decoded S base S.size (serialise toks.length toks).length ∧
      (feed a (serialise toks.length toks).length r).2 = (serialise toks.length toks).length := by
  have hfed := feed_eq_consumeAll _ a r hok hD.ne_idle hmem (by rwa [hD.dstBase, hD.outSize])
  have hend := consumeAll_serialise toks.length toks (Nat.le_refl _) hD (fun _ => hphase) hP
  obtain ⟨-, -, hle, hcount, -⟩ := feed_advance a (serialise toks.length toks).length r hok hD.ne_idle
  rw [← hfed, Nat.zero_add, Nat.zero_add, hsum] at hend
  rw [hend.inCount, hD.inCount, ← BitVec.ofNat_add, Nat.zero_add] at hcount
  have hused := congrArg BitVec.toNat hcount
  rw [BitVec.toNat_ofNat, BitVec.toNat_ofNat, Nat.mod_eq_of_lt hlen, Nat.mod_eq_of_lt (hle.trans_lt hlen)] at hused
  exact ⟨hend, hused.symm⟩

/-- What `UNCOMPRESS_ANY` reports when its decoder has finished (R326). -/
theorem uncompressTokens_finished {h : Header} {s : State} {r : Run} {consumed : Nat}
    (hfed : feed (s.arg.a0.toNat + 5) (s.arg.a1.toNat - 5) ⟨s.mem, freshContext h s.arg.a2⟩ = (r, consumed))
    (hstate : r.ctx.state = .finished)
    (hapart : Apart s.arg.a0.toNat s.arg.a1.toNat s.arg.a2.toNat r.ctx.outPos.toNat) :
    uncompressTokens h s =
      .next ((s.setMem r.mem).done true false ⟨r.ctx.outPos, resultWord (5 + consumed), 0, 0⟩) := by
  simp only [uncompressTokens, hfed, (overlaps_eq_false_iff _ _ _ _).mpr hapart, uncompressResult, hstate]
  rfl

/-- `UNCOMPRESS_ANY` on a block whose tokens stand for a source writes the source, and consumes the whole block
(R326). -/
theorem uncompress_parsed {s : State} {S : Source} {size : Word} {toks : List Instr} (hsize : S.size = size.toNat)
    (hP : S.Parses 0 toks) (hsum : (toks.map coveredBytes).sum = S.size)
    (hmem : s.mem.Holds s.arg.a0.toNat ((lzHeader S.extended size).bytes ++ serialise toks.length toks))
    (hlen : s.arg.a1.toNat = 5 + (serialise toks.length toks).length) (hcap : s.arg.a3 = size)
    (h1 : s.arg.a0.toNat + s.arg.a1.toNat ≤ 2 ^ 32) (h2 : s.arg.a2.toNat + s.arg.a3.toNat ≤ 2 ^ 32)
    (hapart : Apart s.arg.a0.toNat s.arg.a1.toNat s.arg.a2.toNat size.toNat) :
    ∃ m, execUncompressAny s = .next ((s.setMem m).done true false ⟨size, s.arg.a1, 0, 0⟩) ∧
      ∀ k < S.size, m.read (s.arg.a2.toNat + k) = S.byte k := by
  obtain ⟨hheader, hpayload⟩ := hmem.append
  obtain ⟨hcheck, hbase, -⟩ := lzHeader_accepted S.extended (size := size) (avail := s.arg.a1.toNat)
    (cap := s.arg.a3.toNat) (by omega) (by rw [hcap])
  have hne : (lzHeader S.extended size).base ≠ 0 := by rw [hbase]; decide
  have hbytes : s.arg.a1.toNat - 5 = (serialise toks.length toks).length := by omega
  obtain ⟨hD, hconsumed⟩ := feed_serialise (a := s.arg.a0.toNat + 5) (freshContext_decoded S s.mem s.arg.a2 hsize)
    (freshContext_ok _ hcheck hne h2) (if_pos hbase) hP hsum hpayload
    (hapart.mono (Nat.le_add_right _ _) (by omega) (Nat.le_refl _) (by rw [hsize])) (by omega)
  rw [← hbytes] at hD hconsumed
  have hpos := BitVec.eq_of_toNat_eq (hD.outPos.trans hsize)
  have htotal : resultWord (5 + (s.arg.a1.toNat - 5)) = s.arg.a1 := by
    rw [hbytes, ← hlen, resultWord, BitVec.ofNat_toNat, BitVec.setWidth_eq]
  refine ⟨_, ?_, hD.output⟩
  rw [execUncompressAny, readHeader_of_holds hheader, uncompressAny_accepted h1 h2 hcheck, if_neg hne,
    uncompressTokens_finished rfl (hD.state.trans (if_pos rfl)) (by rwa [hpos]), hpos, hconsumed, htotal]

/-- An `LZ_COMPRESS` that reports a block has written it inside the address space (R200). -/
theorem execLzCompress_written {s t : State} {block : List Byte} (h : execLzCompress s = .next t)
    (herr : t.errcode = 0) (hres : t.res.r0 ≠ 0)
    (hblock : block = compressedBlock s.mem s.dFast s.arg.a0.toNat s.arg.a1.toNat (s.arg.a4.getLsbD 0)
      (s.arg.a4.getLsbD 1)) :
    block.length < s.arg.a1.toNat ∧ s.arg.a2.toNat + block.length ≤ 2 ^ 32 ∧
      t = (s.setMem (s.mem.writeList s.arg.a2.toNat block)).done false false ⟨resultWord block.length, 0, 0, 0⟩ := by
  have hlegal : ¬ (2 ^ 32 < s.arg.a0.toNat + s.arg.a1.toNat ∨ 2 ^ 32 < s.arg.a2.toNat + s.arg.a3.toNat ∨
      4 ≤ s.arg.a4.toNat) := by
    intro hbad
    rw [execLzCompress_badArg hbad] at h
    cases h
    exact absurd herr (show ¬ Err.badArg.code = 0 by decide)
  rw [execLzCompress_eq (by omega) (by omega) (by omega) hblock] at h
  split at h
  · cases h
  · split at h
    · cases h
      exact absurd rfl hres
    · next hsmaller =>
      split at h
      · cases h
        exact absurd herr (show ¬ Err.dstTooSmall.code = 0 by decide)
      · next hfits => exact ⟨Nat.not_le.mp hsmaller, by omega, (Host.Outcome.next.inj h).symm⟩

/-- Settles O60: the block written holds the greedy parse, whose tokens stand for the source (`uncompress_parsed`). -/
theorem lzRoundTrip : Obligations.LzRoundTrip := by
  intro s t out h herr hres hout hapart
  obtain ⟨block, hblock⟩ : ∃ block, block = compressedBlock s.mem s.dFast s.arg.a0.toNat s.arg.a1.toNat
      (s.arg.a4.getLsbD 0) (s.arg.a4.getLsbD 1) := ⟨_, rfl⟩
  obtain ⟨hsmaller, hfits, ht⟩ := execLzCompress_written h herr hres hblock
  have htotal : t.res.r0.toNat = block.length := by
    rw [ht]
    exact resultWord_toNat (hsmaller.trans s.arg.a1.isLt)
  have hheld : t.mem.Holds s.arg.a2.toNat block := by
    rw [ht]
    exact s.mem.writeList_holds _ _
  rw [← htotal] at hfits
  rw [compressedBlock_eq_header_append] at hblock
  rw [hblock] at hheld
  rw [hblock, List.length_append] at htotal
  have hsum := sum_coveredBytes_parseTokens s.mem s.dFast s.arg.a0.toNat s.arg.a1.toNat (s.arg.a4.getLsbD 0)
    (s.arg.a4.getLsbD 1) s.arg.a1.toNat 0 (Nat.zero_le _) (by omega)
  rw [Nat.zero_add] at hsum
  obtain ⟨m, hexec, hread⟩ := uncompress_parsed (s := t.setArgs ⟨s.arg.a2, t.res.r0, out, s.arg.a1, 0, 0⟩)
    (S := ⟨s.mem, s.arg.a0.toNat, s.arg.a1.toNat, s.arg.a4.getLsbD 0⟩) rfl (parseTokens_parses _ _ _ _ _ _ _ 0) hsum
    hheld htotal rfl hfits hout hapart
  exact ⟨_, hexec, rfl, rfl, rfl, rfl, hread⟩

end Sys2Proof.Machine

/-!
The statement about back-references that reach before the output or would pass the declared size (44_lz_decode.md
R222): the bytes before the last one are consumed as in any other token, and the last one raises in place of the copy.
-/

namespace Sys2Proof.Machine

/-- The error of a back-reference that does not fit: the offset is tested first (R222). -/
def Ctx.copyError (c : Ctx) (off : Nat) : Err := if c.outPos.toNat < off then .badOffset else .overrun

theorem Ctx.copyError_code (c : Ctx) (off : Nat) :
    (c.copyError off).code = if c.outPos.toNat < off then 7 else 8 := by
  rw [copyError, apply_ite Err.code]
  rfl

/-- A back-reference that does not fit raises its error and copies nothing (R222). -/
theorem Run.copy_of_not_fits {r : Run} {off len : Nat} (after : Ctx → Ctx)
    (hbad : r.ctx.outPos.toNat < off ∨ r.ctx.outSize.toNat < r.ctx.outPos.toNat + len) :
    r.copy off len after = r.raise (r.ctx.copyError off) := by
  rcases r.copy_cases off len after with ⟨hbefore, hcopy⟩ | ⟨hinside, -, hcopy⟩ | ⟨hinside, hfit, -⟩
  · rw [hcopy, Ctx.copyError, if_pos hbefore]
  · rw [hcopy, Ctx.copyError, if_neg (Nat.not_lt.mpr hinside)]
  · omega

/-- The last byte of a back-reference that does not fit: it is counted, and the context is left in error (R329). -/
theorem consumeAll_copyError {rule : Run → Run} {m : Memory} {c : Ctx} {off len : Nat} {after : Ctx → Ctx}
    (hactive : c.state = .active) (hrule : rule (Run.count ⟨m, c⟩) = (Run.count ⟨m, c⟩).copy off len after)
    (hbad : c.outPos.toNat < off ∨ c.outSize.toNat < c.outPos.toNat + len) :
    Run.consumeAll [rule] ⟨m, c⟩ =
      ⟨m, { c with inCount := c.inCount + 1, err := (c.copyError off).code, state := .error }⟩ := by
  have hraise : rule (Run.count ⟨m, c⟩) = (Run.count ⟨m, c⟩).raise (c.copyError off) :=
    hrule.trans (Run.copy_of_not_fits after hbad)
  rw [Run.consumeAll_cons _ _ _ hactive, Run.consumeAll_consume_error _ (by rw [hraise]; rfl), hraise]
  rfl

/-- A token whose bytes before the last hand the context `d` on, with the output where it was, and whose last byte is a
copy that does not fit. -/
theorem runToken_copyError {s : State} {c d : Ctx} {f : Format} {rules : List (Run → Run)} {rule : Run → Run}
    {off len : Nat} {n : BitVec 64} (after : Ctx → Ctx) (hslot : s.SlotIs c) (hactive : c.state = .active)
    (hnext : c.nextFormat = some f) (hbad : c.outPos.toNat < off ∨ c.outSize.toNat < c.outPos.toNat + len)
    (hlast : Run.consumeAll rules ⟨s.mem, c⟩ = Run.consumeAll [rule] ⟨s.mem, d⟩) (hd : d.state = .active)
    (hpos : d.outPos = c.outPos) (hsize : d.outSize = c.outSize)
    (hrule : rule (Run.count ⟨s.mem, d⟩) = (Run.count ⟨s.mem, d⟩).copy off len after)
    (hcount : d.inCount + 1 = n) :
    ∃ c', runToken f rules s = .next { s with slots := s.slots.set s.arg.a0.toNat c' } ∧ c'.state = .error ∧
      c'.err = (if c.outPos.toNat < off then 7 else 8) ∧ c'.outPos = c.outPos ∧ c'.inCount = n := by
  rw [← hpos, ← hsize] at hbad
  refine ⟨_, runToken_of_slot hslot hactive hnext (hlast.trans (consumeAll_copyError hd hrule hbad)), rfl, ?_, hpos,
    hcount⟩
  rw [← hpos]
  exact d.copyError_code off

/-- Settles O41: in each form the last byte is the copy (`runToken_copyError`), after one or two bytes that write
nothing. -/
theorem badBackReferencesRaise : Obligations.BadBackReferencesRaise := by
  intro s c i len off hslot hactive _ hroom hi hbad
  have hin2 : c.inCount + 1 + 1 = c.inCount + BitVec.ofNat 64 2 := by bv_omega
  have hin3 : c.inCount + 1 + 1 + 1 = c.inCount + BitVec.ofNat 64 3 := by bv_omega
  rcases hi with ⟨l, o, rfl, hphase, hflag, hmode, rfl, rfl⟩ | ⟨l, o, rfl, hphase, hflag, hmode, rfl, rfl⟩ |
    ⟨k, o, rfl, hphase, rfl, rfl⟩ | ⟨e, o, rfl, hphase, rfl, rfl⟩
  · obtain ⟨hl, ho⟩ := plainFields_of_token l o
    refine runToken_copyError Ctx.nextTok hslot hactive (by simp [Ctx.nextFormat, hphase, hflag, hmode]) hbad
      (consumeAll_lzTokenRef hactive hroom) hactive rfl rfl ?_ hin2
    simp only [lzRef1Plain, Run.count_b0, hl, ho]
  · refine runToken_copyError Ctx.nextTok hslot hactive (by simp [Ctx.nextFormat, hphase, hflag, hmode]) hbad
      ((consumeAll_lzTokenRef hactive hroom).trans (consumeAll_lzRef1Ext hactive hroom)) hactive rfl rfl ?_ hin3
    simp only [lzRef2, Run.count_b0, Run.count_b1, extOffField_of_token]
  · obtain ⟨hkind, -⟩ := fltOperation_fields k (o.extractLsb' 8 5)
    have hcnt := cnt_toNat (k.toNat + 2) (by omega)
    refine runToken_copyError (fun c => { c with cnt := 0, phase := .flOp }) hslot hactive
      (by rw [Ctx.nextFormat, hphase]) hbad (consumeAll_flOpShort hactive hroom) hactive rfl rfl ?_ hin2
    simp only [flOff, Run.count_b0, Run.count_cnt, fastOffField_of_token, hkind, hcnt]
  · have hcnt := cnt_toNat (9 + e.toNat) (by omega)
    refine runToken_copyError (fun c => { c with cnt := 0, phase := .flOp }) hslot hactive
      (by rw [Ctx.nextFormat, hphase]) hbad
      ((consumeAll_flOpLong hactive hroom).trans (consumeAll_flExt hactive hroom)) hactive rfl rfl ?_ hin3
    simp only [flOff, Run.count_b0, Run.count_cnt, fastOffField_of_token, hcnt]

end Sys2Proof.Machine

/-!
The statement about canonical codes as a code (45_huffman_table_builder.md R266, R267): the lemmas about each code are
those of the Huffman decoder's statements; what is added here is that at Kraft sum 1 the codes leave no gap.
-/

namespace Sys2Proof.Machine

theorem getD_le_of_forall_le {l : List Nat} {n : Nat} (h : ∀ x ∈ l, x ≤ n) (y : Nat) : l.getD y 0 ≤ n := by
  by_cases hy : y < l.length
  · rw [List.getD_eq_getElem _ _ hy]
    exact h _ (List.getElem_mem hy)
  · rw [List.getD_eq_default _ _ (Nat.le_of_not_lt hy)]
    exact Nat.zero_le _

/-- When no length passes the limit, every code is counted by the limit. -/
theorem spanUpTo_fifteen {lens : List Nat} (h : ∀ l ∈ lens, l ≤ 15) : spanUpTo lens 15 = kraftSum lens := by
  refine congrArg List.sum (List.map_congr_left fun l hl => ?_)
  have := h l hl
  exact if_congr (by omega) rfl rfl

/-- Among the symbols of one length there is one with any given number of them below it. -/
theorem exists_count_take_eq {l : List Nat} {x q : Nat} (h : q < l.count x) :
    ∃ a, a < l.length ∧ l.getD a 0 = x ∧ (l.take a).count x = q := by
  induction l generalizing q with
  | nil => simp at h
  | cons y ys ih =>
    by_cases hfirst : y = x ∧ q = 0
    · exact ⟨0, by simp, by simp [hfirst.1], by simp [hfirst.2]⟩
    · have hrest : q - [y].count x < ys.count x := by
        by_cases hy : y = x <;> simp [hy] at h hfirst ⊢ <;> omega
      obtain ⟨a, ha, hget, hcount⟩ := ih hrest
      refine ⟨a + 1, by simpa using ha, by simpa using hget, ?_⟩
      rw [List.take_succ_cons, List.count_cons, hcount]
      by_cases hy : y = x <;> simp [hy] at hfirst ⊢
      omega

/-- At Kraft sum 1 every one of the `2 ^ 15` sequences is taken by a symbol. -/
theorem exists_codeStart_le {lens : List Nat} (h15 : ∀ l ∈ lens, l ≤ 15) {v : Nat} (hv : v < kraftSum lens) :
    ∃ a, HasCode lens a ∧ codeStart lens a ≤ v ∧ v < codeStart lens a + 2 ^ (15 - lens.getD a 0) := by
  have hex : ∃ L, v < spanUpTo lens L := ⟨15, by rwa [spanUpTo_fifteen h15]⟩
  obtain ⟨K, hK⟩ : ∃ K, Nat.find hex = K + 1 := by
    refine Nat.exists_eq_succ_of_ne_zero fun h0 => ?_
    have := Nat.find_spec hex
    rw [h0, spanUpTo_zero] at this
    omega
  have hlt : v < spanUpTo lens (K + 1) := hK ▸ Nat.find_spec hex
  have hle : spanUpTo lens K ≤ v := Nat.le_of_not_lt (Nat.find_min hex (by omega))
  have hK15 : K < 15 := by
    have := Nat.find_min' hex (show v < spanUpTo lens 15 by rwa [spanUpTo_fifteen h15])
    omega
  set w := 2 ^ (15 - (K + 1)) with hw
  have hwpos : 0 < w := Nat.two_pow_pos _
  rw [spanUpTo_succ, ← hw] at hlt
  obtain ⟨a, ha, hlen, hcount⟩ := exists_count_take_eq
    (Nat.div_lt_of_lt_mul (by rw [Nat.mul_comm]; omega : v - spanUpTo lens K < w * lens.count (K + 1)))
  have hstart : codeStart lens a = spanUpTo lens K + w * ((v - spanUpTo lens K) / w) := by
    rw [codeStart, canonCode, hlen, hcount, Nat.add_mul, nextCode_succ_mul lens hK15, Nat.mul_comm w]
  have hdiv := Nat.div_add_mod (v - spanUpTo lens K) w
  have hmod := Nat.mod_lt (v - spanUpTo lens K) hwpos
  refine ⟨a, ⟨ha, by omega⟩, ?_, ?_⟩
  · omega
  · rw [hlen, hstart]
    omega

/-- Fifteen bits begin with the code that takes them. -/
theorem codeWord_prefix_of_codeStart_le {lens : List Nat} {a : Nat} {bits : List Bool} (hbits : bits.length = 15)
    (h15 : lens.getD a 0 ≤ 15) (hle : codeStart lens a ≤ bitsValue bits)
    (hlt : bitsValue bits < codeStart lens a + 2 ^ (15 - lens.getD a 0)) : codeWord lens a <+: bits := by
  have htake : (bits.take (lens.getD a 0)).length = lens.getD a 0 := by
    rw [List.length_take, hbits, Nat.min_eq_left h15]
  have hdrop : (bits.drop (lens.getD a 0)).length = 15 - lens.getD a 0 := by simp [hbits]
  have hcode : bitsValue (bits.take (lens.getD a 0)) = canonCode lens a := by
    rw [← bitsValue_append_div _ (bits.drop (lens.getD a 0)), List.take_append_drop, hdrop]
    refine Nat.div_eq_of_lt_le hle ?_
    rw [Nat.add_mul, Nat.one_mul]
    exact hlt
  have hword : codeWord lens a = bits.take (lens.getD a 0) := by
    rw [← bitsOf_bitsValue (bits.take (lens.getD a 0)), htake, hcode]
    rfl
  rw [hword]
  exact List.take_prefix _ _

/-- Settles O46: a code begins another only when they are the same (`eq_of_codeWord_prefix`), and at sum 1 the ranges of
the codes fill the sequences (`exists_codeStart_le`). -/
theorem canonicalCodesArePrefixFree : Obligations.CanonicalCodesArePrefixFree := by
  intro lens hlens hkraft
  have h15 := getD_le_of_forall_le hlens
  refine ⟨fun a b ha hb => ⟨canonCode_lt ha (h15 a) hkraft, fun hne h =>
    hne (eq_of_codeWord_prefix h15 hkraft ha hb h)⟩, fun hone bits hbits => ?_⟩
  have hv : bitsValue bits < kraftSum lens := by
    rw [hone, ← hbits]
    exact bitsValue_lt bits
  obtain ⟨a, ha, hle, hlt⟩ := exists_codeStart_le hlens hv
  have hbegins := codeWord_prefix_of_codeStart_le hbits (h15 a) hle hlt
  refine ⟨a, ⟨ha, hbegins⟩, fun b hb hb' => ?_⟩
  rcases List.prefix_or_prefix_of_prefix hb' hbegins with h | h
  · exact eq_of_codeWord_prefix h15 hkraft hb ha h
  · exact (eq_of_codeWord_prefix h15 hkraft ha hb h).symm

end Sys2Proof.Machine

/-!
The statements about code lengths built from frequencies (45_huffman_table_builder.md R263 to R265, R269). The tree is
not looked at itself: `mergeDepth` follows the merges and gives the depth each node of the queue ends at, and every
property of the lengths is an induction over the merges.
-/

namespace Sys2Proof.Machine

/-! ### The least nodes of a queue (R263) -/

theorem HufTree.before_iff (a b : HufTree) :
    a.before b = true ↔ a.weight < b.weight ∨ a.weight = b.weight ∧ a.key < b.key := by
  simp only [before, decide_eq_true_eq]

theorem HufTree.before_eq_false_iff (a b : HufTree) :
    a.before b = false ↔ b.weight < a.weight ∨ a.weight = b.weight ∧ b.key ≤ a.key := by
  rw [← Bool.not_eq_true, before_iff]
  omega

theorem HufTree.weight_le_of_not_before {a b : HufTree} (h : b.before a = false) : a.weight ≤ b.weight := by
  rw [before_eq_false_iff] at h
  omega

theorem HufTree.not_before_trans {a b c : HufTree} (h1 : b.before a = false) (h2 : c.before b = false) :
    c.before a = false := by
  rw [before_eq_false_iff] at *
  omega

theorem takeLeast_eq_none_iff {q : List HufTree} : takeLeast q = none ↔ q = [] := by
  cases q with
  | nil => simp [takeLeast]
  | cons t ts =>
    rw [takeLeast]
    split
    · simp
    · split <;> simp

/-- The node taken is before no other, and the rest is the queue without it. -/
theorem takeLeast_some {q rest : List HufTree} {m : HufTree} (h : takeLeast q = some (m, rest)) :
    q.Perm (m :: rest) ∧ ∀ t ∈ rest, t.before m = false := by
  induction q generalizing m rest with
  | nil => simp [takeLeast] at h
  | cons t ts ih =>
    rw [takeLeast] at h
    split at h
    · next hnone =>
      obtain ⟨rfl, rfl⟩ : t = m ∧ [] = rest := by simpa using h
      rw [takeLeast_eq_none_iff.mp hnone]
      exact ⟨List.Perm.refl _, by simp⟩
    · next m' rest' hsome =>
      obtain ⟨hperm, hleast⟩ := ih hsome
      split at h
      · next hbefore =>
        obtain ⟨rfl, rfl⟩ : t = m ∧ ts = rest := by simpa using h
        have hm' : m'.before t = false := by
          rw [HufTree.before_iff] at hbefore
          rw [HufTree.before_eq_false_iff]
          omega
        refine ⟨List.Perm.refl _, fun x hx => ?_⟩
        rcases List.mem_cons.mp (hperm.mem_iff.mp hx) with rfl | hx
        · exact hm'
        · exact HufTree.not_before_trans hm' (hleast x hx)
      · next hbefore =>
        obtain ⟨rfl, rfl⟩ : m' = m ∧ t :: rest' = rest := by simpa using h
        refine ⟨(hperm.cons t).trans (List.Perm.swap _ _ _), fun x hx => ?_⟩
        rcases List.mem_cons.mp hx with rfl | hx
        · simpa using hbefore
        · exact hleast x hx

/-- The two nodes the next merge takes, and the others; none when fewer than two are left. -/
def leastTwo (q : List HufTree) : Option (HufTree × HufTree × List HufTree) :=
  (takeLeast q).bind fun (a, q1) => (takeLeast q1).map fun (b, q2) => (a, b, q2)

/-- The node a merge makes (R263). -/
def HufTree.join (key : Nat) (a b : HufTree) : HufTree := .node (a.weight + b.weight) key a b

@[simp] theorem HufTree.join_weight (key : Nat) (a b : HufTree) : (join key a b).weight = a.weight + b.weight := rfl

@[simp] theorem HufTree.join_key (key : Nat) (a b : HufTree) : (join key a b).key = key := rfl

@[simp] theorem HufTree.join_depths (key : Nat) (a b : HufTree) (d : Nat) :
    (join key a b).depths d = a.depths (d + 1) ++ b.depths (d + 1) := rfl

theorem leastTwo_some {q rest : List HufTree} {a b : HufTree} (h : leastTwo q = some (a, b, rest)) :
    ∃ q1, takeLeast q = some (a, q1) ∧ takeLeast q1 = some (b, rest) := by
  simp only [leastTwo, Option.bind_eq_some_iff, Option.map_eq_some_iff, Prod.exists] at h
  obtain ⟨a', q1, hq, b', q2, hq1, heq⟩ := h
  simp only [Prod.mk.injEq] at heq
  obtain ⟨rfl, rfl, rfl⟩ := heq
  exact ⟨q1, hq, hq1⟩

/-- The queue is the two nodes and the others, and none of them is before one taken earlier. -/
theorem leastTwo_perm {q rest : List HufTree} {a b : HufTree} (h : leastTwo q = some (a, b, rest)) :
    q.Perm (a :: b :: rest) ∧ b.before a = false ∧ ∀ t ∈ rest, t.before b = false := by
  obtain ⟨q1, hq, hq1⟩ := leastTwo_some h
  obtain ⟨hpermA, hleastA⟩ := takeLeast_some hq
  obtain ⟨hpermB, hleastB⟩ := takeLeast_some hq1
  exact ⟨hpermA.trans (hpermB.cons a), hleastA b (hpermB.mem_iff.mpr List.mem_cons_self), hleastB⟩

theorem weight_le_of_leastTwo {q rest : List HufTree} {a b : HufTree} (h : leastTwo q = some (a, b, rest)) :
    a.weight ≤ b.weight ∧ ∀ t ∈ rest, b.weight ≤ t.weight := by
  obtain ⟨-, hab, hb⟩ := leastTwo_perm h
  exact ⟨HufTree.weight_le_of_not_before hab, fun t ht => HufTree.weight_le_of_not_before (hb t ht)⟩

theorem length_le_one_of_leastTwo_none {q : List HufTree} (h : leastTwo q = none) : q.length ≤ 1 := by
  rcases hq : takeLeast q with _ | ⟨a, q1⟩
  · simp [takeLeast_eq_none_iff.mp hq]
  · have hq1 : takeLeast q1 = none := by simpa [leastTwo, hq] using h
    rw [(takeLeast_some hq).1.length_eq, takeLeast_eq_none_iff.mp hq1]
    rfl

theorem leastTwo_of_length_le_one {q : List HufTree} (h : q.length ≤ 1) : leastTwo q = none := by
  rcases hq : leastTwo q with _ | ⟨a, b, rest⟩
  · rfl
  · have := (leastTwo_perm hq).1.length_eq
    simp only [List.length_cons] at this
    omega

theorem hufMerge_succ (n key : Nat) {q rest : List HufTree} {a b : HufTree} (h : leastTwo q = some (a, b, rest)) :
    hufMerge (n + 1) key q = hufMerge n (key + 1) (.join key a b :: rest) := by
  obtain ⟨q1, hq, hq1⟩ := leastTwo_some h
  simp only [hufMerge, hq, hq1, HufTree.join]

theorem hufMerge_of_length_le_one (n key : Nat) {q : List HufTree} (h : q.length ≤ 1) : hufMerge n key q = q := by
  cases n with
  | zero => rfl
  | succ n =>
    have hnone := leastTwo_of_length_le_one h
    rcases hq : takeLeast q with _ | ⟨a, q1⟩
    · simp only [hufMerge, hq]
    · have hq1 : takeLeast q1 = none := by simpa [leastTwo, hq] using hnone
      simp only [hufMerge, hq, hq1]

/-! ### The depth a node of the queue ends at -/

/-- The depth, below the root the merges end with, of the node of the queue that has key `k`: one more than that of its
parent when the next merge takes it. -/
def mergeDepth : Nat → Nat → List HufTree → Nat → Nat
  | 0, _, _, _ => 0
  | n + 1, key, q, k =>
    match leastTwo q with
    | none => 0
    | some (a, b, rest) =>
      if k = a.key ∨ k = b.key then mergeDepth n (key + 1) (.join key a b :: rest) key + 1
      else mergeDepth n (key + 1) (.join key a b :: rest) k

theorem mergeDepth_of_length_le_one (n key : Nat) {q : List HufTree} (h : q.length ≤ 1) (k : Nat) :
    mergeDepth n key q k = 0 := by
  cases n with
  | zero => rfl
  | succ n => rw [mergeDepth, leastTwo_of_length_le_one h]

/-- The keys of a queue are distinct, and the next key is above them (R263). -/
structure QueueOk (key : Nat) (q : List HufTree) : Prop where
  nodup : (q.map HufTree.key).Nodup
  lt : ∀ t ∈ q, t.key < key

section Merge

variable {key : Nat} {q rest : List HufTree} {a b : HufTree}

theorem mem_of_leastTwo (h : leastTwo q = some (a, b, rest)) {t : HufTree} :
    t ∈ q ↔ t = a ∨ t = b ∨ t ∈ rest := by
  rw [(leastTwo_perm h).1.mem_iff, List.mem_cons, List.mem_cons]

theorem QueueOk.keys_of_leastTwo (hq : QueueOk key q) (h : leastTwo q = some (a, b, rest)) :
    a.key ≠ b.key ∧ (∀ t ∈ rest, t.key ≠ a.key ∧ t.key ≠ b.key) ∧ (rest.map HufTree.key).Nodup := by
  have hnodup := ((leastTwo_perm h).1.map HufTree.key).nodup_iff.mp hq.nodup
  simp only [List.map_cons, List.nodup_cons, List.mem_cons, not_or] at hnodup
  obtain ⟨⟨hab, ha⟩, hb, hrest⟩ := hnodup
  exact ⟨hab, fun t ht => ⟨fun he => ha (he ▸ List.mem_map_of_mem ht), fun he => hb (he ▸ List.mem_map_of_mem ht)⟩,
    hrest⟩

theorem QueueOk.merge (hq : QueueOk key q) (h : leastTwo q = some (a, b, rest)) :
    QueueOk (key + 1) (.join key a b :: rest) := by
  have hrest : ∀ t ∈ rest, t.key < key := fun t ht => hq.lt t ((mem_of_leastTwo h).mpr (.inr (.inr ht)))
  obtain ⟨-, -, hnodup⟩ := hq.keys_of_leastTwo h
  refine ⟨List.nodup_cons.mpr ⟨fun hmem => ?_, hnodup⟩, fun t ht => ?_⟩
  · obtain ⟨t, ht, heq⟩ := List.mem_map.mp hmem
    exact absurd (hrest t ht) (Nat.not_lt.mpr (le_of_eq heq.symm))
  · rcases List.mem_cons.mp ht with rfl | ht
    · exact Nat.lt_succ_self key
    · exact Nat.lt_succ_of_lt (hrest t ht)

/-- A merge keeps the weight of the whole. -/
theorem sum_weights_merge (key : Nat) (h : leastTwo q = some (a, b, rest)) :
    (q.map HufTree.weight).sum = ((HufTree.join key a b :: rest).map HufTree.weight).sum := by
  rw [((leastTwo_perm h).1.map _).sum_eq]
  simp only [List.map_cons, List.sum_cons, HufTree.join_weight, Nat.add_assoc]

/-- The node a merge makes weighs no more than any two nodes of the new queue together. -/
theorem weight_join_le_add (h : leastTwo q = some (a, b, rest)) : ∀ x ∈ HufTree.join key a b :: rest,
    ∀ y ∈ HufTree.join key a b :: rest, x.key ≠ y.key → (HufTree.join key a b).weight ≤ x.weight + y.weight := by
  obtain ⟨hab, hb⟩ := weight_le_of_leastTwo h
  intro x hx y hy _
  rcases List.mem_cons.mp hx with rfl | hx
  · exact Nat.le_add_right _ _
  · rcases List.mem_cons.mp hy with rfl | hy
    · exact Nat.le_add_left _ _
    · exact Nat.add_le_add (hab.trans (hb x hx)) (hb y hy)

/-- No node of the queue weighs more than twice another. -/
def Balanced (q : List HufTree) : Prop := ∀ x ∈ q, ∀ y ∈ q, x.weight ≤ 2 * y.weight

theorem Balanced.merge (hbal : Balanced q) (h : leastTwo q = some (a, b, rest)) :
    Balanced (.join key a b :: rest) := by
  obtain ⟨hab, hb⟩ := weight_le_of_leastTwo h
  have hmem {t : HufTree} := mem_of_leastTwo h (t := t)
  intro x hx y hy
  rcases List.mem_cons.mp hx with rfl | hx <;> rcases List.mem_cons.mp hy with rfl | hy
  · exact Nat.le_mul_of_pos_left _ Nat.two_pos
  · have := hb y hy
    rw [HufTree.join_weight]
    omega
  · have := hbal x (hmem.mpr (.inr (.inr hx))) a (hmem.mpr (.inl rfl))
    rw [HufTree.join_weight]
    omega
  · exact hbal x (hmem.mpr (.inr (.inr hx))) y (hmem.mpr (.inr (.inr hy)))

/-- Induction over the merges of R263, down to one node. -/
theorem merge_induction {P : (n key : Nat) → (q : List HufTree) → QueueOk key q → q.length ≤ n + 1 → Prop}
    (done : ∀ n key q hq hn, q.length ≤ 1 → P n key q hq hn)
    (merge : ∀ n key q a b rest hq hn hq' hn', leastTwo q = some (a, b, rest) →
      P n (key + 1) (.join key a b :: rest) hq' hn' → P (n + 1) key q hq hn)
    (n key : Nat) (q : List HufTree) (hq : QueueOk key q) (hn : q.length ≤ n + 1) : P n key q hq hn := by
  induction n generalizing key q with
  | zero => exact done 0 key q hq hn hn
  | succ n ih =>
    rcases h : leastTwo q with _ | ⟨a, b, rest⟩
    · exact done _ _ _ _ _ (length_le_one_of_leastTwo_none h)
    · have hlen : (HufTree.join key a b :: rest).length ≤ n + 1 := by
        have := (leastTwo_perm h).1.length_eq
        simp only [List.length_cons] at this ⊢
        omega
      exact merge n key q a b rest hq hn (hq.merge h) hlen h (ih _ _ _ hlen)

variable (n : Nat) (hq : QueueOk key q) (h : leastTwo q = some (a, b, rest))

include h

theorem mergeDepth_first :
    mergeDepth (n + 1) key q a.key = mergeDepth n (key + 1) (.join key a b :: rest) key + 1 := by
  simp only [mergeDepth, h, true_or, if_true]

theorem mergeDepth_second :
    mergeDepth (n + 1) key q b.key = mergeDepth n (key + 1) (.join key a b :: rest) key + 1 := by
  simp only [mergeDepth, h, or_true, if_true]

include hq

theorem mergeDepth_rest {t : HufTree} (ht : t ∈ rest) :
    mergeDepth (n + 1) key q t.key = mergeDepth n (key + 1) (.join key a b :: rest) t.key := by
  obtain ⟨-, hne, -⟩ := hq.keys_of_leastTwo h
  simp only [mergeDepth, h, hne t ht, or_self, if_false]

end Merge

/-- The leaves of the tree the merges end with: those below each node of the queue, from the depth it ends at. -/
theorem depths_hufMerge (n key : Nat) (q : List HufTree) (hq : QueueOk key q) (hn : q.length ≤ n + 1) :
    ((hufMerge n key q).flatMap fun t => t.depths 0).Perm
      (q.flatMap fun t => t.depths (mergeDepth n key q t.key)) := by
  induction n, key, q, hq, hn using merge_induction with
  | done n key q _ _ hlen =>
    simp only [hufMerge_of_length_le_one n key hlen, mergeDepth_of_length_le_one n key hlen]
    exact List.Perm.refl _
  | merge n key q a b rest hq _ _ _ h ih =>
    rw [hufMerge_succ n key h]
    refine ih.trans (List.Perm.trans ?_ ((leastTwo_perm h).1.flatMap_right _).symm)
    have hrest : (rest.flatMap fun t => t.depths (mergeDepth (n + 1) key q t.key)) =
        rest.flatMap fun t => t.depths (mergeDepth n (key + 1) (.join key a b :: rest) t.key) :=
      List.flatMap_congr fun t ht => by rw [mergeDepth_rest n hq h ht]
    rw [List.flatMap_cons, List.flatMap_cons, List.flatMap_cons, hrest, mergeDepth_first n h, mergeDepth_second n h,
      ← List.append_assoc, HufTree.join_depths, HufTree.join_key]

/-! ### What holds of the depths -/

section Depths

variable {n key : Nat} {q : List HufTree} (hq : QueueOk key q) (hn : q.length ≤ n + 1)

include hq hn

/-- With two nodes or more none of them is the root. -/
theorem mergeDepth_pos (h2 : 2 ≤ q.length) : ∀ t ∈ q, 0 < mergeDepth n key q t.key := by
  induction n, key, q, hq, hn using merge_induction with
  | done n key q _ _ hlen => omega
  | merge n key q a b rest hq _ _ _ h ih =>
    intro t ht
    rcases (mem_of_leastTwo h).mp ht with rfl | rfl | ht
    · rw [mergeDepth_first n h]
      exact Nat.succ_pos _
    · rw [mergeDepth_second n h]
      exact Nat.succ_pos _
    · rw [mergeDepth_rest n hq h ht]
      have hlen := List.length_pos_of_mem ht
      exact ih (by rw [List.length_cons]; omega) t (List.mem_cons_of_mem _ ht)

/-- The Kraft sum of the depths is 1 (R267). -/
theorem kraft_mergeDepth {M : Nat} (h1 : q ≠ []) (hM : ∀ t ∈ q, mergeDepth n key q t.key ≤ M) :
    (q.map fun t => 2 ^ (M - mergeDepth n key q t.key)).sum = 2 ^ M := by
  induction n, key, q, hq, hn using merge_induction with
  | done n key q _ _ hlen =>
    obtain ⟨t, rfl⟩ : ∃ t, q = [t] := List.length_eq_one_iff.mp (by have := List.length_pos_of_ne_nil h1; omega)
    simp [mergeDepth_of_length_le_one n key hlen]
  | merge n key q a b rest hq _ _ _ h ih =>
    have hmem {t : HufTree} := mem_of_leastTwo h (t := t)
    set D := mergeDepth n (key + 1) (.join key a b :: rest) with hD
    have hfirst : mergeDepth (n + 1) key q a.key = D key + 1 := mergeDepth_first n h
    have hsecond : mergeDepth (n + 1) key q b.key = D key + 1 := mergeDepth_second n h
    have hrest : ∀ t ∈ rest, mergeDepth (n + 1) key q t.key = D t.key := fun t ht => mergeDepth_rest n hq h ht
    have hroot : D key + 1 ≤ M := hfirst ▸ hM a (hmem.mpr (.inl rfl))
    have ih := ih (by simp) fun t ht => by
      rcases List.mem_cons.mp ht with rfl | ht
      · exact (Nat.le_succ _).trans hroot
      · exact hrest t ht ▸ hM t (hmem.mpr (.inr (.inr ht)))
    have hchildren : 2 ^ (M - D key) = 2 * 2 ^ (M - (D key + 1)) := by
      rw [← pow_succ']
      congr 1
      omega
    rw [List.map_cons, List.sum_cons, HufTree.join_key, hchildren] at ih
    rw [((leastTwo_perm h).1.map _).sum_eq, List.map_cons, List.map_cons, List.sum_cons, List.sum_cons, hfirst, hsecond,
      List.map_congr_left fun t ht => by rw [hrest t ht]]
    omega

/-- Where no node weighs more than twice another, a node at depth `d` weighs at most the `d`-th power of 2/3 of the
whole: the merges keep the condition, and neither child weighs more than 2/3 of its parent. -/
theorem mergeDepth_balanced (hbal : Balanced q) : ∀ t ∈ q,
    3 ^ mergeDepth n key q t.key * t.weight ≤ 2 ^ mergeDepth n key q t.key * (q.map HufTree.weight).sum := by
  induction n, key, q, hq, hn using merge_induction with
  | done n key q _ _ hlen =>
    intro t ht
    rw [mergeDepth_of_length_le_one n key hlen, pow_zero, pow_zero, Nat.one_mul, Nat.one_mul]
    exact List.le_sum_of_mem (List.mem_map_of_mem ht)
  | merge n key q a b rest hq _ _ _ h ih =>
    have hmem {t : HufTree} := mem_of_leastTwo h (t := t)
    have hab := (weight_le_of_leastTwo h).1
    have hba := hbal b (hmem.mpr (.inr (.inl rfl))) a (hmem.mpr (.inl rfl))
    have ih := ih (hbal.merge h)
    rw [← sum_weights_merge key h] at ih
    set d := mergeDepth n (key + 1) (.join key a b :: rest) key with hd
    have hroot : 3 ^ d * (a.weight + b.weight) ≤ 2 ^ d * (q.map HufTree.weight).sum := ih _ List.mem_cons_self
    have hchild : ∀ w, 3 * w ≤ 2 * (a.weight + b.weight) →
        3 ^ (d + 1) * w ≤ 2 ^ (d + 1) * (q.map HufTree.weight).sum := fun w hw => by
      calc 3 ^ (d + 1) * w = 3 ^ d * (3 * w) := by ring
        _ ≤ 3 ^ d * (2 * (a.weight + b.weight)) := Nat.mul_le_mul_left _ hw
        _ = 2 * (3 ^ d * (a.weight + b.weight)) := by ring
        _ ≤ 2 * (2 ^ d * (q.map HufTree.weight).sum) := Nat.mul_le_mul_left _ hroot
        _ = 2 ^ (d + 1) * (q.map HufTree.weight).sum := by ring
    intro t ht
    rcases hmem.mp ht with rfl | rfl | ht
    · rw [mergeDepth_first n h]
      exact hchild _ (by omega)
    · rw [mergeDepth_second n h]
      exact hchild _ (by omega)
    · rw [mergeDepth_rest n hq h ht]
      exact ih t (List.mem_cons_of_mem _ ht)

/-- In the order of R263 a later node is no deeper, and a node that weighs no more than any two together ends at most
one level above the deepest. The second is what carries the first over a merge: it is said of the node just made. -/
theorem mergeDepth_antitone :
    (∀ x ∈ q, ∀ y ∈ q, x.before y = true → mergeDepth n key q y.key ≤ mergeDepth n key q x.key) ∧
      ∀ c ∈ q, (∀ x ∈ q, ∀ y ∈ q, x.key ≠ y.key → c.weight ≤ x.weight + y.weight) →
        ∀ x ∈ q, mergeDepth n key q x.key ≤ mergeDepth n key q c.key + 1 := by
  induction n, key, q, hq, hn using merge_induction with
  | done n key q _ _ hlen => simp [mergeDepth_of_length_le_one n key hlen]
  | merge n key q a b rest hq _ _ _ h ih =>
    have hmem {t : HufTree} := mem_of_leastTwo h (t := t)
    obtain ⟨-, hab, hb⟩ := leastTwo_perm h
    obtain ⟨hkeys, -, -⟩ := hq.keys_of_leastTwo h
    obtain ⟨hanti, hlight⟩ := ih
    set D := mergeDepth n (key + 1) (.join key a b :: rest) with hD
    have hfirst : mergeDepth (n + 1) key q a.key = D key + 1 := mergeDepth_first n h
    have hsecond : mergeDepth (n + 1) key q b.key = D key + 1 := mergeDepth_second n h
    have hrest : ∀ t ∈ rest, mergeDepth (n + 1) key q t.key = D t.key := fun t ht => mergeDepth_rest n hq h ht
    have hdeepest : ∀ x ∈ q, mergeDepth (n + 1) key q x.key ≤ D key + 1 := fun x hx => by
      rcases hmem.mp hx with rfl | rfl | hx
      · exact hfirst.le
      · exact hsecond.le
      · rw [hrest x hx]
        exact hlight (.join key a b) List.mem_cons_self (weight_join_le_add h) x (List.mem_cons_of_mem _ hx)
    refine ⟨fun x hx y hy hxy => ?_, fun c hc hcw x hx => ?_⟩
    · rcases hmem.mp hx with rfl | rfl | hx'
      · rw [hfirst]
        exact hdeepest y hy
      · rw [hsecond]
        exact hdeepest y hy
      · rcases hmem.mp hy with rfl | rfl | hy'
        · rw [HufTree.not_before_trans hab (hb x hx')] at hxy
          cases hxy
        · rw [hb x hx'] at hxy
          cases hxy
        · rw [hrest x hx', hrest y hy']
          exact hanti x (List.mem_cons_of_mem _ hx') y (List.mem_cons_of_mem _ hy') hxy
    · refine (hdeepest x hx).trans (Nat.succ_le_succ ?_)
      rcases hmem.mp hc with rfl | rfl | hc'
      · rw [hfirst]
        exact Nat.le_succ _
      · rw [hsecond]
        exact Nat.le_succ _
      · rw [hrest c hc']
        refine hanti c (List.mem_cons_of_mem _ hc') (.join key a b) List.mem_cons_self ?_
        have hweight := hcw a (hmem.mpr (.inl rfl)) b (hmem.mpr (.inr (.inl rfl))) hkeys
        have hkey := hq.lt c hc
        rw [HufTree.before_iff]
        exact (Nat.lt_or_eq_of_le hweight).imp id fun heq => ⟨heq, hkey⟩

end Depths

/-! ### The leaves of the used symbols (R263) -/

@[simp] theorem HufTree.leaf_weight (w k : Nat) : (leaf w k).weight = w := rfl

@[simp] theorem HufTree.leaf_key (w k : Nat) : (leaf w k).key = k := rfl

theorem mem_hufLeaves {s : Nat} {w : List Nat} {t : HufTree} :
    t ∈ hufLeaves s w ↔ ∃ i < w.length, w.getD i 0 ≠ 0 ∧ t = .leaf (w.getD i 0) (s + i) := by
  induction w generalizing s with
  | nil => simp [hufLeaves]
  | cons x xs ih =>
    rw [List.length_cons, Nat.exists_lt_succ_left]
    by_cases hx : x = 0 <;> simp [hufLeaves, hx, ih, Nat.add_assoc, Nat.add_comm 1]

theorem nodup_keys_hufLeaves (s : Nat) (w : List Nat) : ((hufLeaves s w).map HufTree.key).Nodup := by
  induction w generalizing s with
  | nil => simp [hufLeaves]
  | cons x xs ih =>
    rw [hufLeaves]
    split
    · exact ih _
    · refine List.nodup_cons.mpr ⟨fun hmem => ?_, ih _⟩
      obtain ⟨t, ht, hkey⟩ := List.mem_map.mp hmem
      obtain ⟨i, -, -, rfl⟩ := mem_hufLeaves.mp ht
      simp only [HufTree.leaf_key] at hkey
      omega

theorem queueOk_hufLeaves (w : List Nat) : QueueOk w.length (hufLeaves 0 w) := by
  refine ⟨nodup_keys_hufLeaves 0 w, fun t ht => ?_⟩
  obtain ⟨i, hi, -, rfl⟩ := mem_hufLeaves.mp ht
  simpa using hi

theorem usedCount_cons (x : Nat) (xs : List Nat) :
    usedCount (x :: xs) = (if x = 0 then 0 else 1) + usedCount xs := by
  by_cases hx : x = 0
  · simp [usedCount, hx]
  · simp [usedCount, hx, Nat.pos_of_ne_zero hx, Nat.add_comm]

theorem length_hufLeaves (s : Nat) (w : List Nat) : (hufLeaves s w).length = usedCount w := by
  induction w generalizing s with
  | nil => rfl
  | cons x xs ih =>
    rw [usedCount_cons]
    by_cases hx : x = 0 <;> simp [hufLeaves, hx, ih, Nat.add_comm]

theorem length_hufLeaves_le (w : List Nat) : (hufLeaves 0 w).length ≤ w.length + 1 := by
  rw [length_hufLeaves]
  exact (List.length_filter_le _ _).trans (Nat.le_succ _)

/-- A sum over the leaves is one over the symbols, unused ones adding nothing. -/
theorem sum_hufLeaves (F : Nat → Nat) (s : Nat) (w : List Nat) : ((hufLeaves s w).map fun t => F t.key).sum =
    ((List.range w.length).map fun i => if w.getD i 0 = 0 then 0 else F (s + i)).sum := by
  induction w generalizing s with
  | nil => rfl
  | cons x xs ih =>
    have hshift : ∀ i, s + 1 + i = s + (i + 1) := fun i => by omega
    rw [List.length_cons, List.range_succ_eq_map, List.map_cons, List.map_map, List.sum_cons]
    have ih := ih (s + 1)
    by_cases hx : x = 0 <;> simp [hufLeaves, hx, ih, hshift, Function.comp_def]

/-! ### The depth of a symbol (R263) -/

/-- The depth of the leaf of symbol `s` in the tree of the weights `w`. -/
def symbolDepth (w : List Nat) (s : Nat) : Nat := mergeDepth w.length w.length (hufLeaves 0 w) s

/-- In a table whose entries are values of one function, a lookup gives that function. -/
theorem lookup_getD_of_graph {l : List (Nat × Nat)} {F : Nat → Nat} (h : ∀ p ∈ l, p.2 = F p.1) (s : Nat) :
    (l.lookup s).getD 0 = if s ∈ l.map Prod.fst then F s else 0 := by
  induction l with
  | nil => rfl
  | cons p ps ih =>
    obtain ⟨k, d⟩ := p
    have hd : d = F k := h (k, d) List.mem_cons_self
    have ih := ih fun p hp => h p (List.mem_cons_of_mem _ hp)
    by_cases hk : s = k
    · simp [List.lookup, hk, hd]
    · rw [List.lookup_cons, beq_false_of_ne hk, List.map_cons,
        if_congr (List.mem_cons.trans (or_iff_right hk)) rfl rfl]
      exact ih

/-- The leaves of the tree with their depths. -/
theorem depths_root (w : List Nat) : ((hufMerge w.length w.length (hufLeaves 0 w)).flatMap fun t => t.depths 0).Perm
    ((hufLeaves 0 w).map fun t => (t.key, symbolDepth w t.key)) := by
  refine (depths_hufMerge w.length w.length _ (queueOk_hufLeaves w) (length_hufLeaves_le w)).trans (List.Perm.of_eq ?_)
  rw [List.map_eq_flatMap]
  refine List.flatMap_congr fun t ht => ?_
  obtain ⟨i, -, -, rfl⟩ := mem_hufLeaves.mp ht
  rfl

theorem mem_keys_hufLeaves {w : List Nat} {s : Nat} (hs : s < w.length) :
    s ∈ (hufLeaves 0 w).map HufTree.key ↔ w.getD s 0 ≠ 0 := by
  constructor
  · intro hmem
    obtain ⟨t, ht, hkey⟩ := List.mem_map.mp hmem
    obtain ⟨i, -, hne, rfl⟩ := mem_hufLeaves.mp ht
    have hi : 0 + i = s := hkey
    rwa [← hi, Nat.zero_add]
  · exact fun hne => List.mem_map.mpr
      ⟨.leaf (w.getD s 0) (0 + s), mem_hufLeaves.mpr ⟨s, hs, hne, rfl⟩, Nat.zero_add s⟩

theorem hufDepths_eq (w : List Nat) :
    hufDepths w = (List.range w.length).map fun s => if w.getD s 0 = 0 then 0 else symbolDepth w s := by
  have hperm := depths_root w
  have hkeys := hperm.map Prod.fst
  rw [List.map_map] at hkeys
  refine List.map_congr_left fun s hs => ?_
  rw [lookup_getD_of_graph (F := symbolDepth w) (fun p hp => ?_) s,
    if_congr (hkeys.mem_iff.trans (mem_keys_hufLeaves (List.mem_range.mp hs))) rfl rfl, ite_not]
  obtain ⟨t, -, rfl⟩ := List.mem_map.mp (hperm.mem_iff.mp hp)
  rfl

theorem getD_hufDepths (w : List Nat) (s : Nat) :
    (hufDepths w).getD s 0 = if w.getD s 0 = 0 then 0 else symbolDepth w s := by
  by_cases hs : s < w.length
  · simp [hufDepths_eq, hs]
  · have hs := Nat.le_of_not_lt hs
    rw [List.getD_eq_default _ _ (by rwa [hufDepths_length]), List.getD_eq_default _ _ hs, if_pos rfl]

theorem leaf_mem_hufLeaves {w : List Nat} {s : Nat} (h : w.getD s 0 ≠ 0) :
    HufTree.leaf (w.getD s 0) s ∈ hufLeaves 0 w := by
  have hs : s < w.length := by
    by_contra hs
    exact h (List.getD_eq_default _ _ (Nat.le_of_not_lt hs))
  exact mem_hufLeaves.mpr ⟨s, hs, h, by rw [Nat.zero_add]⟩

theorem symbolDepth_pos {w : List Nat} (h2 : 2 ≤ usedCount w) {s : Nat} (h : w.getD s 0 ≠ 0) : 0 < symbolDepth w s :=
  mergeDepth_pos (queueOk_hufLeaves w) (length_hufLeaves_le w) (by rwa [length_hufLeaves]) _ (leaf_mem_hufLeaves h)

/-- The symbols with a depth are the used ones. -/
theorem getD_hufDepths_pos_iff {w : List Nat} (h2 : 2 ≤ usedCount w) (s : Nat) :
    0 < (hufDepths w).getD s 0 ↔ 0 < w.getD s 0 := by
  rw [getD_hufDepths]
  by_cases h : w.getD s 0 = 0
  · simp only [h, if_true]
  · rw [if_neg h]
    exact iff_of_true (symbolDepth_pos h2 h) (Nat.pos_of_ne_zero h)

/-- The lengths of two used symbols or more are complete (R267). -/
theorem kraftSum_hufDepths {w : List Nat} (h2 : 2 ≤ usedCount w) (h15 : ∀ d ∈ hufDepths w, d ≤ 15) :
    kraftSum (hufDepths w) = 2 ^ 15 := by
  have hle : ∀ t ∈ hufLeaves 0 w, symbolDepth w t.key ≤ 15 := fun t ht => by
    obtain ⟨i, -, hne, rfl⟩ := mem_hufLeaves.mp ht
    have := getD_le_of_forall_le h15 i
    rw [getD_hufDepths, if_neg hne] at this
    simpa using this
  have hne : hufLeaves 0 w ≠ [] := List.ne_nil_of_length_pos (by rw [length_hufLeaves]; omega)
  have hterm : ∀ s, (if (if w.getD s 0 = 0 then 0 else symbolDepth w s) = 0 then 0
      else 2 ^ (15 - if w.getD s 0 = 0 then 0 else symbolDepth w s)) =
      if w.getD s 0 = 0 then 0 else 2 ^ (15 - symbolDepth w (0 + s)) := fun s => by
    by_cases h : w.getD s 0 = 0
    · simp only [h, if_true]
    · simp only [h, if_false, (symbolDepth_pos h2 h).ne', Nat.zero_add]
  calc kraftSum (hufDepths w)
      = ((List.range w.length).map fun s => if w.getD s 0 = 0 then 0 else 2 ^ (15 - symbolDepth w (0 + s))).sum := by
        rw [kraftSum, hufDepths_eq, List.map_map]
        exact congrArg List.sum (List.map_congr_left fun s _ => hterm s)
    _ = ((hufLeaves 0 w).map fun t => 2 ^ (15 - symbolDepth w t.key)).sum :=
        (sum_hufLeaves (fun k => 2 ^ (15 - symbolDepth w k)) 0 w).symm
    _ = 2 ^ 15 := kraft_mergeDepth (queueOk_hufLeaves w) (length_hufLeaves_le w) hne hle

/-! ### The halving rounds (R265) -/

theorem sum_weights_hufLeaves {w : List Nat} (h1 : ∀ x ∈ w, x ≤ 1) (s : Nat) :
    ((hufLeaves s w).map HufTree.weight).sum ≤ w.length := by
  induction w generalizing s with
  | nil => simp [hufLeaves]
  | cons x xs ih =>
    have ih := ih (fun y hy => h1 y (List.mem_cons_of_mem _ hy)) (s + 1)
    have hx := h1 x List.mem_cons_self
    rw [hufLeaves, List.length_cons]
    split
    · exact ih.trans (Nat.le_succ _)
    · rw [List.map_cons, List.sum_cons, HufTree.leaf_weight]
      omega

/-- The tree of equal weights over an alphabet of at most 256 is not too deep. -/
theorem hufDepths_le_of_weights_le_one {w : List Nat} (hlen : w.length ≤ 256) (h1 : ∀ x ∈ w, x ≤ 1) :
    ∀ d ∈ hufDepths w, d ≤ 15 := by
  intro d hd
  rw [hufDepths_eq] at hd
  obtain ⟨s, -, rfl⟩ := List.mem_map.mp hd
  split
  · exact Nat.zero_le _
  · next hs =>
    have hone : ∀ t ∈ hufLeaves 0 w, t.weight = 1 := fun t ht => by
      obtain ⟨i, -, hne, rfl⟩ := mem_hufLeaves.mp ht
      have := getD_le_of_forall_le h1 i
      rw [HufTree.leaf_weight]
      omega
    have hdepth := mergeDepth_balanced (queueOk_hufLeaves w) (length_hufLeaves_le w)
      (fun x hx y hy => by rw [hone x hx, hone y hy]; omega) _ (leaf_mem_hufLeaves hs)
    rw [hone _ (leaf_mem_hufLeaves hs), Nat.mul_one] at hdepth
    have hdepth : 3 ^ symbolDepth w s ≤ 2 ^ symbolDepth w s * 256 :=
      hdepth.trans (Nat.mul_le_mul_left _ ((sum_weights_hufLeaves h1 0).trans hlen))
    by_contra hdeep
    obtain ⟨e, he⟩ : ∃ e, symbolDepth w s = 16 + e := Nat.exists_eq_add_of_le (by omega)
    have h23 : 2 ^ e ≤ 3 ^ e := Nat.pow_le_pow_left (by omega) e
    rw [he, pow_add, pow_add] at hdepth
    have hpos := Nat.two_pow_pos e
    omega

theorem usedCount_halveWeights (w : List Nat) : usedCount (halveWeights w) = usedCount w := by
  rw [usedCount, usedCount, halveWeights, List.filter_map, List.length_map]
  refine congrArg List.length (List.filter_congr fun x _ => decide_eq_decide.mpr ?_)
  show 0 < (x + 1) / 2 ↔ 0 < x
  omega

theorem getD_halveWeights (w : List Nat) (y : Nat) : (halveWeights w).getD y 0 = (w.getD y 0 + 1) / 2 := by
  rw [halveWeights, ← List.getD_map (f := fun x => (x + 1) / 2)]

/-- What the rounds end with: lengths of weights of the same used symbols, within the limit. -/
theorem limitLengths_spec (n : Nat) (w : List Nat) (k : Nat) (hlen : w.length ≤ 256) (hw : ∀ x ∈ w, x ≤ 2 ^ n) :
    ∃ v, (limitLengths n w k).1 = hufDepths v ∧ (∀ y, 0 < v.getD y 0 ↔ 0 < w.getD y 0) ∧
      usedCount v = usedCount w ∧ ∀ d ∈ hufDepths v, d ≤ 15 := by
  induction n generalizing w k with
  | zero => exact ⟨w, rfl, fun _ => Iff.rfl, rfl, hufDepths_le_of_weights_le_one hlen hw⟩
  | succ n ih =>
    rw [limitLengths]
    split
    · next hall =>
      exact ⟨w, rfl, fun _ => Iff.rfl, rfl, fun d hd => of_decide_eq_true (List.all_eq_true.mp hall d hd)⟩
    · have hhalf : ∀ x ∈ halveWeights w, x ≤ 2 ^ n := fun x hx => by
        obtain ⟨y, hy, rfl⟩ := List.mem_map.mp hx
        have := hw y hy
        rw [pow_succ] at this
        omega
      obtain ⟨v, heq, hused, hcount, h15⟩ := ih (halveWeights w) (k + 1) (by rwa [halveWeights, List.length_map]) hhalf
      refine ⟨v, heq, fun y => (hused y).trans ?_, hcount.trans (usedCount_halveWeights w), h15⟩
      rw [getD_halveWeights]
      omega

/-! ### The lengths built (R264) -/

theorem buildLengths_of_le_one {f : List Nat} (h : usedCount f ≤ 1) :
    buildLengths f = (f.map fun x => if x = 0 then 0 else 1, 0) := if_pos h

theorem buildLengths_of_two_le {f : List Nat} (h : 2 ≤ usedCount f) :
    buildLengths f = limitLengths Config.maxRounds f 0 := if_neg (by omega)

theorem usedCount_eq_countP (f : List Nat) : usedCount f = f.countP fun w => 0 < w :=
  List.countP_eq_length_filter.symm

theorem buildLengths_rounds (f : List Nat) : (buildLengths f).2 ≤ 32 := by
  by_cases h : usedCount f ≤ 1
  · simp [buildLengths_of_le_one h]
  · rw [buildLengths_of_two_le (by omega)]
    have := (limitLengths_rounds Config.maxRounds f 0).2
    simpa [Config.maxRounds] using this

theorem getD_ones (f : List Nat) (y : Nat) :
    (f.map fun x => if x = 0 then 0 else 1).getD y 0 = if f.getD y 0 = 0 then 0 else 1 :=
  List.getD_map f 0 _

theorem kraftSum_cons (l : Nat) (ls : List Nat) :
    kraftSum (l :: ls) = (if l = 0 then 0 else 2 ^ (15 - l)) + kraftSum ls := List.sum_cons

theorem kraftSum_ones (f : List Nat) : kraftSum (f.map fun x => if x = 0 then 0 else 1) = usedCount f * 2 ^ 14 := by
  induction f with
  | nil => rfl
  | cons x xs ih =>
    rw [List.map_cons, kraftSum_cons, usedCount_cons, ih, Nat.add_mul]
    by_cases hx : x = 0 <;> simp [hx]

/-- A used symbol has a length from 1 to 15, an unused one has none (R264, R265). -/
theorem getD_buildLengths {f : List Nat} (hlen : f.length ≤ 256) (hf : ∀ w ∈ f, w < 2 ^ 32) (y : Nat) :
    (buildLengths f).1.getD y 0 ≤ 15 ∧ (0 < (buildLengths f).1.getD y 0 ↔ 0 < f.getD y 0) := by
  by_cases h : usedCount f ≤ 1
  · rw [buildLengths_of_le_one h, getD_ones]
    split <;> omega
  · obtain ⟨v, heq, hused, hcount, h15⟩ := limitLengths_spec Config.maxRounds f 0 hlen fun x hx => (hf x hx).le
    rw [buildLengths_of_two_le (by omega), heq]
    exact ⟨getD_le_of_forall_le h15 y, (getD_hufDepths_pos_iff (by omega) y).trans (hused y)⟩

/-- The Kraft sum is 1, one half or 0 (R267). -/
theorem kraftSum_buildLengths {f : List Nat} (hlen : f.length ≤ 256) (hf : ∀ w ∈ f, w < 2 ^ 32) :
    kraftSum (buildLengths f).1 = if 2 ≤ usedCount f then 2 ^ 15 else if usedCount f = 1 then 2 ^ 14 else 0 := by
  by_cases h : 2 ≤ usedCount f
  · obtain ⟨v, heq, -, hcount, h15⟩ := limitLengths_spec Config.maxRounds f 0 hlen fun x hx => (hf x hx).le
    rw [buildLengths_of_two_le h, heq, if_pos h]
    exact kraftSum_hufDepths (by omega) h15
  · rw [buildLengths_of_le_one (by omega), kraftSum_ones, if_neg h]
    split
    · next h1 => rw [h1, Nat.one_mul]
    · rw [show usedCount f = 0 by omega, Nat.zero_mul]

/-- Settles O49: the parts are `limitLengths_spec` with the laws of the depths, and the two small cases. -/
theorem builtLengthsAreUsable : Obligations.BuiltLengthsAreUsable := by
  intro f hN hf
  have hlen : f.length ≤ 256 := by omega
  rw [← usedCount_eq_countP]
  exact ⟨buildLengths_length f, buildLengths_rounds f, fun y _ => getD_buildLengths hlen hf y,
    kraftSum_buildLengths hlen hf⟩

/-- With no halving round the lengths are the depths in the tree of the frequencies. -/
theorem limitLengths_of_no_round {n k : Nat} {w : List Nat} (h : (limitLengths n w k).2 = k) :
    (limitLengths n w k).1 = hufDepths w := by
  cases n with
  | zero => rfl
  | succ n =>
    rw [limitLengths] at h ⊢
    split
    · rfl
    · next hall =>
      have := (limitLengths_rounds n (halveWeights w) (k + 1)).1
      rw [if_neg hall] at h
      omega

/-- Settles O50: a lighter leaf is before a heavier one, so it is no less deep (`mergeDepth_antitone`). -/
theorem frequentSymbolsHaveShortCodes : Obligations.FrequentSymbolsHaveShortCodes := by
  intro f a b _ hrounds hb hab
  by_cases h : usedCount f ≤ 1
  · rw [buildLengths_of_le_one h, getD_ones, getD_ones, if_neg (by omega), if_neg (by omega)]
  · rw [buildLengths_of_two_le (by omega)] at hrounds ⊢
    rw [limitLengths_of_no_round hrounds, getD_hufDepths, getD_hufDepths, if_neg (by omega), if_neg (by omega)]
    exact (mergeDepth_antitone (queueOk_hufLeaves f) (length_hufLeaves_le f)).1 _ (leaf_mem_hufLeaves (by omega)) _
      (leaf_mem_hufLeaves (by omega)) ((HufTree.before_iff _ _).mpr (.inl hab))

end Sys2Proof.Machine

/-!
The statements about the two commands of the table builder (45_huffman_table_builder.md R261, R262, R268, R269): what
the bytes of a length table and of a code table say, and what each command writes.
-/

namespace Sys2Proof.Machine

/-! ### Numbers in memory (R8, R61) -/

theorem Memory.readLE_lt (m : Memory) (a n : Nat) : m.readLE a n < 256 ^ n := by
  induction n generalizing a with
  | zero => exact Nat.one_pos
  | succ n ih =>
    have hbyte := (m.read a).isLt
    have ih := ih (a + 1)
    rw [Memory.readLE, pow_succ]
    omega

/-- The bytes of a number read back as that number. -/
theorem Memory.Holds.readLE {m : Memory} {a n v : Nat} (h : m.Holds a (leBytes n v)) :
    m.readLE a n = v % 256 ^ n := by
  induction n generalizing a v with
  | zero => rw [Memory.readLE, pow_zero, Nat.mod_one]
  | succ n ih =>
    have hfirst : m.read a = BitVec.ofNat 8 v := h 0 (by simp [leBytes])
    have htail : m.Holds (a + 1) (leBytes n (v / 256)) := (Memory.Holds.append (x := [BitVec.ofNat 8 v]) h).2
    rw [Memory.readLE, ih htail, hfirst, BitVec.toNat_ofNat, pow_succ' 256 n]
    exact Nat.mod_mul.symm

/-- An entry of a table of numbers of one size stands at its place. -/
theorem Memory.Holds.entry {m : Memory} {n : Nat} {F : Nat → Nat} {l : List Nat} {a k : Nat} (hk : k < l.length)
    (h : m.Holds a (l.flatMap fun s => leBytes n (F s))) : m.Holds (a + n * k) (leBytes n (F l[k])) := by
  induction l generalizing a k with
  | nil => simp at hk
  | cons x xs ih =>
    rw [List.flatMap_cons] at h
    obtain ⟨hhead, htail⟩ := h.append
    rw [leBytes_length] at htail
    cases k with
    | zero => exact hhead
    | succ k =>
      have := ih (by simpa using hk) htail
      rwa [Nat.add_assoc, Nat.add_comm n, ← Nat.mul_succ] at this

/-- Bytes stay where others are written apart from them. -/
theorem Memory.Holds.writeList {m : Memory} {a b : Nat} {bs cs : List Byte} (h : m.Holds a bs)
    (hapart : Apart a bs.length b cs.length) : (m.writeList b cs).Holds a bs := fun k hk => by
  rw [m.writeList_sameOutside b cs (a + k) (by simp only [Apart] at hapart; omega), h k hk]

/-! ### The length table (R107, R261) -/

/-- The two nibbles of a length table's byte, as a number. -/
theorem toNat_nibbles (hi lo : Nat) : (BitVec.ofNat 4 hi ++ BitVec.ofNat 4 lo : BitVec 8).toNat =
    16 * (hi % 16) + lo % 16 := by
  have hlo : lo % 2 ^ 4 < 2 ^ 4 := Nat.mod_lt _ (Nat.two_pow_pos 4)
  rw [BitVec.toNat_append, BitVec.toNat_ofNat, BitVec.toNat_ofNat, ← Nat.shiftLeft_add_eq_or_of_lt hlo,
    Nat.shiftLeft_eq, Nat.mul_comm]
  rfl

theorem lenTableBytes_nibble (lens : List Nat) (y : Nat) (hy : y < lens.length) :
    ((lenTableBytes lens).getD (y / 2) 0).toNat / 16 ^ (y % 2) % 16 = lens.getD y 0 % 16 := by
  induction lens using lenTableBytes.induct generalizing y with
  | case1 a b r ih =>
    match y with
    | 0 =>
      simp only [lenTableBytes, Nat.zero_div, List.getD_cons_zero, toNat_nibbles, Nat.zero_mod, pow_zero]
      omega
    | 1 =>
      simp only [lenTableBytes, List.getD_cons_zero, List.getD_cons_succ, toNat_nibbles, Nat.one_mod, pow_one,
        show 1 / 2 = 0 from rfl]
      omega
    | y + 2 =>
      have ih := ih y (by simpa using hy)
      rwa [lenTableBytes, show (y + 2) / 2 = y / 2 + 1 by omega, Nat.add_mod_right]
  | case2 a =>
    obtain rfl : y = 0 := by simpa using hy
    simp only [lenTableBytes, Nat.zero_div, List.getD_cons_zero, Nat.zero_mod, pow_zero, toNat_nibbles]
    omega
  | case3 => simp at hy

/-- The lengths read from a length table are those it was written from. -/
theorem readLens_of_holds {m : Memory} {a : Nat} {lens : List Nat} (h : m.Holds a (lenTableBytes lens))
    (h15 : ∀ l ∈ lens, l ≤ 15) : readLens m a lens.length = lens := by
  refine List.ext_getElem (readLens_length _ _ _) fun y _ hy => ?_
  have hbyte : y / 2 < (lenTableBytes lens).length := by
    rw [lenTableBytes_length]
    omega
  have hnibble := lenTableBytes_nibble lens y hy
  have hle := h15 lens[y] (List.getElem_mem hy)
  rw [List.getD_eq_getElem _ _ hbyte, List.getD_eq_getElem _ _ hy, ← h _ hbyte] at hnibble
  simp only [readLens, List.getElem_map, List.getElem_range, packedValue_nibble, hnibble]
  omega

theorem readLens_eq_map {m : Memory} {a : Nat} {len : Nat → Nat}
    (hlen : ∀ y, len y = (m.read (a + y / 2)).toNat / 16 ^ (y % 2) % 16) (n : Nat) :
    readLens m a n = (List.range n).map len := by
  simp only [readLens, packedValue_nibble, ← hlen]

theorem readLens_le (m : Memory) (a n : Nat) : ∀ l ∈ readLens m a n, l ≤ 15 := by
  intro l hl
  obtain ⟨y, -, rfl⟩ := List.mem_map.mp hl
  have := (testBit_packedValue m a (4 * y) 4 0).2
  omega

/-! ### Codes by counting (R266) -/

/-- The first code of a length counts the code words of shorter codes, at that length. -/
theorem nextCode_eq_sum (lens : List Nat) (L : Nat) :
    nextCode lens (L + 1) = (lens.map fun l => if 0 < l ∧ l < L + 1 then 2 ^ (L + 1 - l) else 0).sum := by
  induction L with
  | zero =>
    refine (List.sum_eq_zero fun x hx => ?_).symm
    obtain ⟨l, -, rfl⟩ := List.mem_map.mp hx
    exact if_neg (by omega)
  | succ L ih =>
    rw [nextCode, if_neg (Nat.succ_ne_zero L), ih, lenCount]
    clear ih
    induction lens with
    | nil => rfl
    | cons l ls ih =>
      have hhead : (if 0 < l ∧ l < L + 1 + 1 then 2 ^ (L + 1 + 1 - l) else 0) =
          ((if 0 < l ∧ l < L + 1 then 2 ^ (L + 1 - l) else 0) + if l = L + 1 then 1 else 0) * 2 := by
        rcases Nat.lt_trichotomy l (L + 1) with hlt | rfl | hgt
        · have hpow : 2 ^ (L + 1 + 1 - l) = 2 ^ (L + 1 - l) * 2 := by
            rw [← pow_succ]
            congr 1
            omega
          by_cases h0 : 0 < l
          · rw [if_pos ⟨h0, by omega⟩, if_pos ⟨h0, hlt⟩, if_neg (by omega), hpow]
            rfl
          · rw [if_neg (by omega), if_neg (by omega), if_neg (by omega)]
        · rw [if_pos (by omega), if_neg (by omega), if_pos rfl, Nat.add_sub_cancel_left]
          rfl
        · rw [if_neg (by omega), if_neg (by omega), if_neg (by omega)]
      simp only [List.map_cons, List.sum_cons, List.count_cons, beq_iff_eq] at ih ⊢
      rw [← ih, hhead]
      ring

/-- The smaller symbols of a length, counted over the whole alphabet. -/
theorem count_take_eq_sum (lens : List Nat) (L y : Nat) : (lens.take y).count L =
    ((List.range lens.length).map fun z => if lens.getD z 0 = L ∧ z < y then 1 else 0).sum := by
  induction lens generalizing y with
  | nil => simp
  | cons l ls ih =>
    rw [List.length_cons, List.range_succ_eq_map, List.map_cons, List.map_map, List.sum_cons]
    cases y with
    | zero => simp [Function.comp_def]
    | succ y =>
      rw [List.take_succ_cons, List.count_cons, ih]
      simp [Function.comp_def, Nat.add_comm]

/-- A canonical code is the number of code words before it, counted at its own length. -/
theorem canonCode_eq_sum {n y : Nat} {len : Nat → Nat} (hy : y < n) (hpos : len y ≠ 0) :
    canonCode ((List.range n).map len) y = ((List.range n).map fun z =>
      if 0 < len z ∧ len z < len y then 2 ^ (len y - len z)
      else if len z = len y ∧ z < y then 1 else 0).sum := by
  have hget : ∀ z < n, ((List.range n).map len).getD z 0 = len z := fun z hz => by simp [hz]
  obtain ⟨L, hL⟩ : ∃ L, len y = L + 1 := Nat.exists_eq_succ_of_ne_zero hpos
  rw [canonCode, hget y hy, hL, nextCode_eq_sum, count_take_eq_sum, List.map_map, List.length_map, List.length_range,
    ← List.sum_map_add]
  refine congrArg List.sum (List.map_congr_left fun z hz => ?_)
  rw [hget z (List.mem_range.mp hz), Function.comp_apply]
  by_cases hshort : 0 < len z ∧ len z < L + 1
  · rw [if_pos hshort, if_pos hshort, if_neg (by omega), Nat.add_zero]
  · rw [if_neg hshort, if_neg hshort, Nat.zero_add]

/-! ### The code table (R261) -/

theorem codeEntry_lt {lens : List Nat} (h15 : ∀ l ∈ lens, l ≤ 15) (hkraft : kraftSum lens ≤ 2 ^ 15) {y : Nat}
    (hy : y < lens.length) : codeEntry lens y < 256 ^ 2 := by
  rw [codeEntry]
  split
  · decide
  · next hne =>
    have hle := getD_le_of_forall_le h15 y
    calc canonCode lens y < 2 ^ lens.getD y 0 := canonCode_lt ⟨hy, hne⟩ hle hkraft
      _ ≤ 2 ^ 15 := Nat.pow_le_pow_right Nat.two_pos hle
      _ < 256 ^ 2 := by decide

/-- The entries of a code table read back as the codes. -/
theorem readLE_codeTable {m : Memory} {a : Nat} {lens : List Nat} (h : m.Holds a (codeTableBytes lens))
    (h15 : ∀ l ∈ lens, l ≤ 15) (hkraft : kraftSum lens ≤ 2 ^ 15) {y : Nat} (hy : y < lens.length) :
    m.readLE (a + 2 * y) 2 = codeEntry lens y := by
  have hentry := Memory.Holds.entry (k := y) (by rwa [List.length_range]) h
  rw [hentry.readLE, List.getElem_range, Nat.mod_eq_of_lt (codeEntry_lt h15 hkraft hy)]

/-! ### HUF_LOAD (R268) -/

section Load

variable {s : State} (h1 : s.arg.a1.toNat < 2) (h2 : s.arg.a0.toNat + alphabetSize s.arg.a1 / 2 ≤ 2 ^ 32)
  (h3 : s.arg.a2.toNat + 2 * alphabetSize s.arg.a1 ≤ 2 ^ 32) {lens : List Nat}
  (hlens : readLens s.mem s.arg.a0.toNat (alphabetSize s.arg.a1) = lens)

include h1 h2 h3

theorem hufLoad_legal : ¬ (optsLegal s.arg.a1 1 = false ∨
    regionFits s.arg.a0.toNat (alphabetSize s.arg.a1 / 2) = false ∨
    regionFits s.arg.a2.toNat (2 * alphabetSize s.arg.a1) = false) := by
  simp only [regionFits_eq_false_iff, optsLegal_eq_false_iff]
  omega

include hlens

theorem execHufLoad_badTable (hkraft : 2 ^ 15 < kraftSum lens) :
    execHufLoad s = .next { s with status := 1, errcode := 9, res := ⟨0, 0, 0, 0⟩ } := by
  rw [execHufLoad, if_neg (hufLoad_legal h1 h2 h3), hlens]
  exact if_pos (decide_eq_false (Nat.not_le.mpr hkraft))

theorem execHufLoad_written (hkraft : kraftSum lens ≤ 2 ^ 15)
    (hapart : Apart s.arg.a0.toNat (alphabetSize s.arg.a1 / 2) s.arg.a2.toNat (2 * alphabetSize s.arg.a1)) :
    execHufLoad s = .next { s with
      mem := s.mem.writeList s.arg.a2.toNat (codeTableBytes lens), status := 0, errcode := 0
      res := ⟨resultWord (usedCount lens), resultWord (longest lens), 0, 0⟩ } := by
  have hok : kraftOK lens = true := decide_eq_true hkraft
  rw [execHufLoad, if_neg (hufLoad_legal h1 h2 h3), hlens]
  simp only [hok, Bool.true_eq_false, if_false, (overlaps_eq_false_iff _ _ _ _).mpr hapart, Bool.false_eq_true]
  rfl

end Load

/-- Settles O47: the two outcomes of the table read, and each entry by counting (`canonCode_eq_sum`). -/
theorem hufLoadWritesTheCanonicalCodes : Obligations.HufLoadWritesTheCanonicalCodes := by
  intro s N len h1 hN h2 h3 hlen kraft
  obtain rfl : N = alphabetSize s.arg.a1 := hN
  have hsum : kraftSum (readLens s.mem s.arg.a0.toNat (alphabetSize s.arg.a1)) = kraft :=
    kraftSum_readLens _ _ _ len hlen
  have hmap := readLens_eq_map hlen (alphabetSize s.arg.a1)
  have h15 := readLens_le s.mem s.arg.a0.toNat (alphabetSize s.arg.a1)
  rw [hmap] at hsum h15
  refine ⟨fun hover => execHufLoad_badTable h1 h2 h3 hmap (hsum ▸ hover), fun hok hapart =>
    ⟨s.mem.writeList s.arg.a2.toNat (codeTableBytes ((List.range (alphabetSize s.arg.a1)).map len)), ?_,
      fun y hy => ?_, ?_⟩⟩
  · have hwritten := execHufLoad_written h1 h2 h3 hmap (hsum ▸ hok) hapart
    rw [usedCount_eq_countP, List.countP_map] at hwritten
    exact hwritten
  · have hlength : y < ((List.range (alphabetSize s.arg.a1)).map len).length := by simpa using hy
    rw [readLE_codeTable (Memory.writeList_holds _ _ _) h15 (hsum ▸ hok) hlength, codeEntry,
      show ((List.range (alphabetSize s.arg.a1)).map len).getD y 0 = len y by simp [hy]]
    split
    · rfl
    · next hpos => exact canonCode_eq_sum hy hpos
  · have := s.mem.writeList_sameOutside s.arg.a2.toNat
      (codeTableBytes ((List.range (alphabetSize s.arg.a1)).map len))
    rwa [codeTableBytes_length, List.length_map, List.length_range] at this

/-! ### HUF_BUILD (R262) -/

/-- Memory after `HUF_BUILD`: the length table at `a`, the code table at `b`. -/
def Memory.withTables (m : Memory) (a b : Nat) (lens : List Nat) : Memory :=
  (m.writeList a (lenTableBytes lens)).writeList b (codeTableBytes lens)

section Tables

variable {m : Memory} {a b : Nat} {lens : List Nat}

theorem Memory.withTables_holds_lens (heven : lens.length % 2 = 0)
    (hapart : Apart a (lens.length / 2) b (2 * lens.length)) :
    (m.withTables a b lens).Holds a (lenTableBytes lens) := by
  refine (m.writeList_holds a (lenTableBytes lens)).writeList ?_
  rwa [lenTableBytes_length, codeTableBytes_length, show (lens.length + 1) / 2 = lens.length / 2 by omega]

theorem Memory.withTables_holds_codes : (m.withTables a b lens).Holds b (codeTableBytes lens) :=
  Memory.writeList_holds _ _ _

theorem Memory.withTables_outside (heven : lens.length % 2 = 0) {x : Nat} (ha : x < a ∨ a + lens.length / 2 ≤ x)
    (hb : x < b ∨ b + 2 * lens.length ≤ x) : (m.withTables a b lens).read x = m.read x := by
  rw [withTables, Memory.writeList_sameOutside _ _ _ x (by rwa [codeTableBytes_length]),
    Memory.writeList_sameOutside _ _ _ x (by rw [lenTableBytes_length]; omega)]

end Tables

theorem alphabetSize_even (opts : Word) : alphabetSize opts % 2 = 0 := by
  rcases alphabetSize_cases opts with h | h <;> rw [h]

theorem execHufBuild_written {s : State} {f : List Nat} (hlegal : hufBuildLegal s.arg = true)
    (hapart : hufBuildOverlap s.arg = false) (hf : readFreqs s.mem s.arg.a0.toNat (alphabetSize s.arg.a1) = f) :
    execHufBuild s = .next { s with
      mem := s.mem.withTables s.arg.a2.toNat s.arg.a3.toNat (buildLengths f).1, status := 0, errcode := 0
      res := ⟨resultWord (usedCount f), resultWord (longest (buildLengths f).1), resultWord (buildLengths f).2,
        0⟩ } := by
  rw [execHufBuild, if_neg (by simp [hlegal]), if_neg (by simp [hapart]), hf]
  rfl

/-- Settles O48: the operands pass, and the two tables lie apart. -/
theorem hufBuildWritesBothTables : Obligations.HufBuildWritesBothTables := by
  intro s N f h1 hN hf h2 h3 h4 hfl hfc hlc
  obtain rfl : N = alphabetSize s.arg.a1 := hN
  have hlength : (buildLengths f).1.length = alphabetSize s.arg.a1 := by
    rw [buildLengths_length, hf, List.length_map, List.length_range]
  have heven : (buildLengths f).1.length % 2 = 0 := by rw [hlength, alphabetSize_even]
  refine ⟨_, (execHufBuild_written ((hufBuildLegal_iff _).mpr ⟨h1, h2, h3, h4⟩)
    ((hufBuildOverlap_eq_false_iff _).mpr ⟨hfl, hfc, hlc⟩) hf.symm).trans ?_,
    Memory.withTables_holds_lens heven (by rwa [hlength]), Memory.withTables_holds_codes,
    fun x hx hx' => Memory.withTables_outside heven (by rwa [hlength]) (by rwa [hlength])⟩
  rw [usedCount_eq_countP]
  rfl

/-! ### HUF_BUILD, then HUF_LOAD (R269) -/

/-- A `HUF_BUILD` that completes without an error passed its tests. -/
theorem execHufBuild_completes {s t : State} (h : execHufBuild s = .next t) (herr : t.errcode = 0) :
    hufBuildLegal s.arg = true ∧ hufBuildOverlap s.arg = false := by
  rw [execHufBuild] at h
  split at h
  · injection h with h
    rw [← h] at herr
    exact absurd herr (show (13 : Byte) ≠ 0 by decide)
  · next hlegal =>
    split at h
    · cases h
    · next hoverlap => exact ⟨by simpa using hlegal, by simpa using hoverlap⟩

theorem usedCount_congr {l l' : List Nat} (hlen : l.length = l'.length)
    (h : ∀ y, 0 < l.getD y 0 ↔ 0 < l'.getD y 0) : usedCount l = usedCount l' := by
  induction l generalizing l' with
  | nil => rw [List.eq_nil_of_length_eq_zero hlen.symm]
  | cons x xs ih =>
    cases l' with
    | nil => simp at hlen
    | cons x' xs' =>
      have hhead : x = 0 ↔ x' = 0 := by
        have := h 0
        simp only [List.getD_cons_zero] at this
        omega
      rw [usedCount_cons, usedCount_cons, if_congr hhead rfl rfl,
        ih (by simpa using hlen) fun y => by simpa using h (y + 1)]

theorem readFreqs_lt (m : Memory) (a n : Nat) : ∀ w ∈ readFreqs m a n, w < 2 ^ 32 := by
  intro w hw
  obtain ⟨y, -, rfl⟩ := List.mem_map.mp hw
  exact m.readLE_lt (a + 4 * y) 4

/-- Settles O51: the lengths built are at most 15 and not over-subscribed (`getD_buildLengths`,
`kraftSum_buildLengths`), so `HUF_LOAD` reads the same lengths and writes the same codes. -/
theorem hufLoadReproducesHufBuild : Obligations.HufLoadReproducesHufBuild := by
  intro s t N out hN hrun herr hout hload
  obtain rfl : N = alphabetSize s.arg.a1 := hN
  obtain ⟨hlegal, hoverlap⟩ := execHufBuild_completes hrun herr
  obtain ⟨h1, -, h3, -⟩ := (hufBuildLegal_iff _).mp hlegal
  obtain ⟨-, -, hlc⟩ := (hufBuildOverlap_eq_false_iff _).mp hoverlap
  set f := readFreqs s.mem s.arg.a0.toNat (alphabetSize s.arg.a1) with hf
  have ht := (execHufBuild_written hlegal hoverlap hf.symm).symm.trans hrun
  injection ht with ht
  have hflen : f.length = alphabetSize s.arg.a1 := readFreqs_length _ _ _
  have hf256 : f.length ≤ 256 := by rcases alphabetSize_cases s.arg.a1 with h | h <;> omega
  have hf32 : ∀ w ∈ f, w < 2 ^ 32 := readFreqs_lt _ _ _
  have hlength : (buildLengths f).1.length = alphabetSize s.arg.a1 := by rw [buildLengths_length, hflen]
  have hspec := getD_buildLengths hf256 hf32
  have h15 : ∀ l ∈ (buildLengths f).1, l ≤ 15 := fun l hl => by
    obtain ⟨y, hy, rfl⟩ := List.getElem_of_mem hl
    rw [← List.getD_eq_getElem _ 0 hy]
    exact (hspec y).1
  have hkraft : kraftSum (buildLengths f).1 ≤ 2 ^ 15 := by
    rw [kraftSum_buildLengths hf256 hf32]
    split_ifs <;> decide
  have hread : readLens t.mem s.arg.a2.toNat (alphabetSize s.arg.a1) = (buildLengths f).1 := by
    rw [← ht, ← hlength]
    refine readLens_of_holds (Memory.withTables_holds_lens ?_ (by rwa [hlength])) h15
    rw [hlength, alphabetSize_even]
  have harg : t.arg.a1 = s.arg.a1 := by rw [← ht]
  refine ⟨_, execHufLoad_written (lens := (buildLengths f).1) (by rwa [harg]) (by rwa [harg]) (by rwa [harg])
    (by rwa [harg]) hkraft (by rwa [harg]), rfl, ?_, ?_, fun k hk => ?_⟩
  · rw [← ht, usedCount_congr (buildLengths_length f) fun y => (hspec y).2]
  · rw [← ht]
  · have hk : k < (codeTableBytes (buildLengths f).1).length := by rwa [codeTableBytes_length, hlength]
    rw [Memory.writeList_holds _ _ _ k hk, ← ht]
    exact (Memory.withTables_holds_codes k hk).symm

end Sys2Proof.Machine

/-!
The statement about bits that are no code (46_huffman_decoder.md R294): the bits before the 15th are kept as they are
before any other code (`hfBits_pending`), and the 15th raises.
-/

namespace Sys2Proof.Machine

/-- The 15th bit since the last symbol, still without a code: the loop of R293 raises and drops the rest. -/
theorem hfBits_cons_badCode {r : Run} {p bits : List Bool} {b : Bool} (hno : NoCodeBegins r.ctx.lens (p ++ [b]))
    (hlen : (p ++ [b]).length = 15) :
    hfBits (b :: bits) (r.withCode p) = (r.withCode (p ++ [b])).raise .badCode := by
  have hcl := r.ctx.withCode_codeLen_toNat hlen.le
  have hcv := r.ctx.withCode_code_toNat hlen.le
  have hpush := r.ctx.pushBit_withCode (p := p) b (by simp at hlen; omega)
  rw [hfBits, Run.withCode, hpush, Ctx.withCode_lens, hcl, hcv, symOf_of_noCodeBegins hno (by simp)]
  dsimp only
  rw [if_pos (show _ = Config.hufMaxLen from hlen)]
  rfl

/-- Fifteen bits that no code begins, some read before and at least one now. -/
theorem hfBits_badCode {r : Run} {p q : List Bool} (bits : List Bool) (hno : NoCodeBegins r.ctx.lens (p ++ q))
    (hlen : (p ++ q).length = 15) (hne : q ≠ []) :
    hfBits (q ++ bits) (r.withCode p) = (r.withCode (p ++ q)).raise .badCode := by
  obtain ⟨front, b, rfl⟩ : ∃ front b, q = front ++ [b] := ⟨_, _, (List.dropLast_append_getLast hne).symm⟩
  rw [← List.append_assoc] at hno hlen ⊢
  have hfront : (p ++ front).length ≤ 14 := by
    rw [List.length_append, List.length_singleton] at hlen
    omega
  rw [List.append_assoc, hfBits_pending _ (hno.of_prefix (List.prefix_append _ _)) hfront]
  exact hfBits_cons_badCode hno hlen

/-- A byte is enough to reach the `n`th bit. -/
theorem length_take_append_byteBits {p : List Bool} {n : Nat} (x : Byte) (hreach : n ≤ p.length + 8) :
    ((p ++ byteBits x).take n).length = n := by
  rw [List.length_take_of_le]
  rwa [List.length_append, show (byteBits x).length = 8 from rfl]

/-- A stream byte that brings the 15th bit without a code leaves an error, with the 15 bits in `code`. -/
theorem hfData_badCode {r : Run} {x : Byte} {p : List Bool} (hshort : p.length ≤ 14) (hreach : 15 ≤ p.length + 8)
    (hno : NoCodeBegins r.ctx.lens ((p ++ byteBits x).take 15)) :
    hfData x (r.withCode p) = (r.withCode ((p ++ byteBits x).take 15)).raise .badCode := by
  have htake : (p ++ byteBits x).take 15 = p ++ (byteBits x).take (15 - p.length) := by
    rw [List.take_append, List.take_of_length_le (by omega)]
  have hlen := length_take_append_byteBits x hreach
  rw [htake] at hno hlen ⊢
  have hne : (byteBits x).take (15 - p.length) ≠ [] := by
    intro h
    rw [h, List.append_nil] at hlen
    omega
  rw [← hfBits_badCode ((byteBits x).drop (15 - p.length)) hno hlen hne, List.take_append_drop]
  rfl

/-- Settles O45: the byte raises at the 15th bit (`hfData_badCode`), so the context stops with memory as it was. -/
theorem unmatchedBitsRaiseBadCode : Obligations.UnmatchedBitsRaiseBadCode := by
  intro s c x pending hslot hactive hphase hlen hval hshort hreach hno
  set read := (pending ++ byteBits x).take 15
  have hcount : (Run.count ⟨s.mem, c⟩).withCode pending = Run.count ⟨s.mem, c⟩ :=
    congrArg (Run.mk s.mem) (Ctx.withCode_self (c := (Run.count ⟨s.mem, c⟩).ctx) hlen hval)
  have hdata := hfData_badCode (r := Run.count ⟨s.mem, c⟩) hshort hreach hno
  rw [hcount] at hdata
  have hrun : Run.consumeAll [hfData x] ⟨s.mem, c⟩ = (Run.withCode (Run.count ⟨s.mem, c⟩) read).raise .badCode := by
    rw [Run.consumeAll_cons _ _ _ hactive, Run.consumeAll_consume_error _ (by rw [hdata, Run.raise_state]), hdata]
  refine ⟨_, runToken_of_slot hslot hactive (by rw [Ctx.nextFormat, hphase]) hrun, rfl, rfl, rfl, rfl, ?_⟩
  change BitVec.ofNat 4 read.length = 15
  rw [length_take_append_byteBits x hreach]
  rfl

end Sys2Proof.Machine

/-!
The statements about the dispatcher and the contexts (47_dispatcher_and_contexts.md): the header tests, the life of a
context slot, decoding at once and in pieces, and where any instruction may write.
-/

namespace Sys2Proof.Machine

/-! ### `CTX_READ` is `feed` and its report (R330, R331) -/

section ReadResult

variable (before : Ctx) (r : Run) (consumed : Nat) (s : State)

@[simp] theorem readResult_mem : (readResult before r consumed s).mem = r.mem := by
  unfold readResult
  dsimp only
  split <;> rfl

@[simp] theorem readResult_slots :
    (readResult before r consumed s).slots = s.slots.set s.arg.a0.toNat r.ctx := by
  unfold readResult
  dsimp only
  split <;> rfl

@[simp] theorem readResult_res :
    (readResult before r consumed s).res = ⟨r.ctx.outPos - before.outPos, resultWord consumed, 0, 0⟩ := by
  unfold readResult
  dsimp only
  split <;> rfl

@[simp] theorem readResult_status : (readResult before r consumed s).status =
    if r.ctx.state = .error then 1 else if r.ctx.state = .finished then 2 else 0 := by
  unfold readResult
  by_cases he : r.ctx.state = .error
  · rw [if_pos he, if_pos he]
    rfl
  · rw [if_neg he, if_neg he, State.done_eq]
    simp only [decide_eq_true_eq]

@[simp] theorem readResult_errcode : (readResult before r consumed s).errcode =
    if r.ctx.state = .error then r.ctx.err else 0 := by
  unfold readResult
  dsimp only
  split <;> rfl

end ReadResult

/-- A slot put back as it stands. -/
theorem set_of_slotIs {s : State} {c : Ctx} (hslot : s.SlotIs c) : s.slots.set s.arg.a0.toNat c = s.slots := by
  obtain ⟨hlt, rfl⟩ := List.getElem?_eq_some_iff.mp hslot
  exact List.set_getElem_self hlt

theorem State.putRun_self {s : State} {c : Ctx} (hslot : s.SlotIs c) : s.putRun s.arg.a0.toNat ⟨s.mem, c⟩ = s := by
  change { s with slots := s.slots.set s.arg.a0.toNat c } = s
  rw [set_of_slotIs hslot]

theorem regionFits_of_le {a n : Nat} (h : a + n ≤ 2 ^ 32) : ¬ regionFits a n = false := by
  rw [regionFits_eq_false_iff]
  exact Nat.not_lt.mpr h

/-! Outside `ACTIVE`, with a chunk in the address space -/

section Stopped

variable {s : State} {c : Ctx} (hslot : s.SlotIs c) (hfits : s.arg.a1.toNat + s.arg.a2.toNat ≤ 2 ^ 32)
include hslot hfits

theorem execCtxRead_badState (h : c.state = .idle) : execCtxRead s = .next (s.raise .badState) := by
  have hat : s.slotAt s.arg.a0 = some c := hslot
  simp only [execCtxRead, hat, if_neg (regionFits_of_le hfits), h]

theorem execCtxRead_error (h : c.state = .error) : execCtxRead s = .next (s.raiseCode c.err noResults) := by
  have hat : s.slotAt s.arg.a0 = some c := hslot
  simp only [execCtxRead, hat, if_neg (regionFits_of_le hfits), h]

theorem execCtxRead_finished (h : c.state = .finished) : execCtxRead s = .next (s.done true false noResults) := by
  have hat : s.slotAt s.arg.a0 = some c := hslot
  simp only [execCtxRead, hat, if_neg (regionFits_of_le hfits), h]

/-- `CTX_READ` on a slot whose context has stopped reports it again, as a `feed` that consumes nothing does. -/
theorem execCtxRead_stopped (hstate : c.state = .error ∨ c.state = .finished) :
    execCtxRead s = .next (readResult c ⟨s.mem, c⟩ 0 s) := by
  rcases hstate with h | h
  · rw [execCtxRead_error hslot hfits h]
    simp only [readResult, h, State.putRun_self hslot, BitVec.sub_self]
    rfl
  · rw [execCtxRead_finished hslot hfits h]
    simp only [readResult, h, State.putRun_self hslot, BitVec.sub_self]
    rfl

end Stopped

/-- The output `feed` adds lies in the destination, so a chunk apart from that is apart from the output. -/
theorem feed_output_apart {a n : Nat} {r : Run} (hok : r.ctx.Ok) (hidle : r.ctx.state ≠ .idle)
    (hapart : Apart a n r.ctx.dstBase.toNat r.ctx.outSize.toNat) :
    Apart a (feed a n r).2 r.ctx.outAddr ((feed a n r).1.ctx.outPos - r.ctx.outPos).toNat := by
  obtain ⟨hok', hadv, hle, -, hidle'⟩ := feed_advance a n r hok hidle
  have hpos := hadv.outPos
  have hsize := hok'.outPos_le hidle'
  rw [hadv.outSize] at hsize
  refine hapart.mono (Nat.le_refl _) (by omega) (Nat.le_add_right _ _) ?_
  rw [Ctx.outAddr, BitVec.toNat_sub_of_le hpos]
  omega

/-- `CTX_READ` on a slot that holds a context, with a chunk apart from its destination (R331). -/
theorem execCtxRead_of_ok {s : State} {c : Ctx} (hslot : s.SlotIs c) (hok : c.Ok) (hidle : c.state ≠ .idle)
    (hfits : s.arg.a1.toNat + s.arg.a2.toNat ≤ 2 ^ 32)
    (hapart : Apart s.arg.a1.toNat s.arg.a2.toNat c.dstBase.toNat c.outSize.toNat) :
    execCtxRead s = .next (readResult c (feed s.arg.a1.toNat s.arg.a2.toNat ⟨s.mem, c⟩).1
      (feed s.arg.a1.toNat s.arg.a2.toNat ⟨s.mem, c⟩).2 s) := by
  by_cases hactive : c.state = .active
  · exact execCtxRead_active hslot hactive hfits (feed_output_apart (r := ⟨s.mem, c⟩) hok hidle hapart)
  · rw [feed_stopped _ _ ⟨s.mem, c⟩ hactive]
    refine execCtxRead_stopped hslot hfits ?_
    cases h : c.state with
    | idle => exact absurd h hidle
    | active => exact absurd h hactive
    | finished => exact .inr rfl
    | error => exact .inl rfl

/-! ### A chunk in two pieces (R12, R338 a) -/

/-- The address of a piece is a sum that does not wrap, but where the piece is empty. -/
theorem pieceAddr_toNat {a n : Word} {k : Nat} (h : a.toNat + n.toNat + k ≤ 2 ^ 32) :
    k = 0 ∨ (a + n).toNat = a.toNat + n.toNat := by
  rw [BitVec.toNat_add]
  omega

theorem feed_pieceAddr {a n : Word} {k : Nat} (h : a.toNat + n.toNat + k ≤ 2 ^ 32) (r : Run) :
    feed (a + n).toNat k r = feed (a.toNat + n.toNat) k r := by
  rcases pieceAddr_toNat h with rfl | e
  · rfl
  · rw [e]

/-- What two reads add is what one read from the first position to the last adds. -/
theorem toNat_sub_add_sub {x y z : Word} (h1 : x.toNat ≤ y.toNat) (h2 : y.toNat ≤ z.toNat) :
    (y - x).toNat + (z - y).toNat = (z - x).toNat := by
  rw [BitVec.toNat_sub_of_le h1, BitVec.toNat_sub_of_le h2, BitVec.toNat_sub_of_le (h1.trans h2)]
  omega

/-- The state between the two reads: the first piece was fed. -/
def State.afterPiece (s : State) (c : Ctx) (n : Word) : State :=
  readResult c (feed s.arg.a1.toNat n.toNat ⟨s.mem, c⟩).1 (feed s.arg.a1.toNat n.toNat ⟨s.mem, c⟩).2
    (s.setArgs { s.arg with a2 := n })

section Pieces

variable {s : State} {c : Ctx} {n1 n2 : Word} (hslot : s.SlotIs c) (hok : c.Ok) (hidle : c.state ≠ .idle)
  (hfits : s.arg.a1.toNat + n1.toNat + n2.toNat ≤ 2 ^ 32)
  (hapart : Apart s.arg.a1.toNat (n1.toNat + n2.toNat) c.dstBase.toNat c.outSize.toNat)
include hslot hok hidle hfits hapart

theorem execCtxRead_firstPiece :
    execCtxRead (s.setArgs { s.arg with a2 := n1 }) = .next (s.afterPiece c n1) :=
  execCtxRead_of_ok (s := s.setArgs { s.arg with a2 := n1 }) hslot hok hidle
    (by change s.arg.a1.toNat + n1.toNat ≤ 2 ^ 32; omega)
    (hapart.mono (Nat.le_refl _) (by change s.arg.a1.toNat + n1.toNat ≤ _; omega) (Nat.le_refl _) (Nat.le_refl _))

/-- The second read feeds what is left of the whole chunk to the context the first one left. -/
theorem execCtxRead_secondPiece :
    execCtxRead ((s.afterPiece c n1).setArgs { s.arg with a1 := s.arg.a1 + n1, a2 := n2 }) = .next
      (readResult (feed s.arg.a1.toNat n1.toNat ⟨s.mem, c⟩).1.ctx
        (feed s.arg.a1.toNat (n1.toNat + n2.toNat) ⟨s.mem, c⟩).1
        (feed (s.arg.a1.toNat + n1.toNat) n2.toNat (feed s.arg.a1.toNat n1.toNat ⟨s.mem, c⟩).1).2
        ((s.afterPiece c n1).setArgs { s.arg with a1 := s.arg.a1 + n1, a2 := n2 })) := by
  obtain ⟨hok1, hadv1, -, -, hidle1⟩ := feed_advance s.arg.a1.toNat n1.toNat ⟨s.mem, c⟩ hok hidle
  have haddr := pieceAddr_toNat hfits
  have hlt := (s.arg.a1 + n1).isLt
  have hmem : (s.afterPiece c n1).mem = (feed s.arg.a1.toNat n1.toNat ⟨s.mem, c⟩).1.mem := readResult_mem _ _ _ _
  have hslot1 : ((s.afterPiece c n1).setArgs { s.arg with a1 := s.arg.a1 + n1, a2 := n2 }).SlotIs
      (feed s.arg.a1.toNat n1.toNat ⟨s.mem, c⟩).1.ctx := by
    change (s.afterPiece c n1).slots[s.arg.a0.toNat]? = _
    rw [State.afterPiece, readResult_slots]
    exact List.getElem?_set_self (List.getElem?_eq_some_iff.mp hslot).1
  have hapart1 : Apart (s.arg.a1 + n1).toNat n2.toNat
      (feed s.arg.a1.toNat n1.toNat ⟨s.mem, c⟩).1.ctx.dstBase.toNat
      (feed s.arg.a1.toNat n1.toNat ⟨s.mem, c⟩).1.ctx.outSize.toNat := by
    rw [hadv1.dstBase, hadv1.outSize]
    simp only [Apart] at hapart ⊢
    omega
  have hread := execCtxRead_of_ok hslot1 hok1 hidle1
    (by change (s.arg.a1 + n1).toNat + n2.toNat ≤ 2 ^ 32; omega) hapart1
  rw [State.setArgs_mem, hmem] at hread
  rw [hread, feed_add]
  change Host.Outcome.next (readResult _ (feed (s.arg.a1 + n1).toNat n2.toNat _).1
    (feed (s.arg.a1 + n1).toNat n2.toNat _).2 _) = _
  rw [feed_pieceAddr hfits]

end Pieces

/-- Settles O27: `feed` of the whole chunk is `feed` of the second piece after that of the first (`feed_add`). -/
theorem chunkingIsUnobservable : Obligations.ChunkingIsUnobservable := by
  intro s c n1 n2 hslot hok hn hfits hapart
  by_cases hidle : c.state = .idle
  · refine ⟨_, _, _, execCtxRead_badState hslot hfits hidle,
      execCtxRead_badState (s := s.setArgs { s.arg with a2 := n1 }) hslot ?_ hidle,
      execCtxRead_badState (s := ((s.setArgs { s.arg with a2 := n1 }).raise .badState).setArgs
        { s.arg with a1 := s.arg.a1 + n1, a2 := n2 }) hslot ?_ hidle, rfl, rfl, rfl, rfl, rfl, rfl⟩
    · change s.arg.a1.toNat + n1.toNat ≤ 2 ^ 32
      omega
    · change (s.arg.a1 + n1).toNat + n2.toNat ≤ 2 ^ 32
      have := pieceAddr_toNat (a := s.arg.a1) (n := n1) (k := n2.toNat) (by omega)
      have := (s.arg.a1 + n1).isLt
      omega
  · have hread := execCtxRead_of_ok hslot hok hidle hfits hapart
    rw [hn] at hread hapart
    have hfits' : s.arg.a1.toNat + n1.toNat + n2.toNat ≤ 2 ^ 32 := by omega
    obtain ⟨hok1, hadv1, hle1, -, hidle1⟩ := feed_advance s.arg.a1.toNat n1.toNat ⟨s.mem, c⟩ hok hidle
    obtain ⟨-, hadv2, hle2, -, -⟩ := feed_advance (s.arg.a1.toNat + n1.toNat) n2.toNat _ hok1 hidle1
    refine ⟨_, _, _, hread, execCtxRead_firstPiece hslot hok hidle hfits' hapart,
      execCtxRead_secondPiece hslot hok hidle hfits' hapart, ?_, ?_, ?_, ?_, ?_, ?_⟩
    · simp
    · simp [State.afterPiece]
    · simp
    · simp
    · simp only [State.afterPiece, readResult_res, feed_add]
      exact toNat_sub_add_sub hadv1.outPos hadv2.outPos
    · have := s.arg.a2.isLt
      simp only [State.afterPiece, readResult_res, feed_add]
      rw [resultWord_toNat (by omega), resultWord_toNat (by omega), resultWord_toNat (by omega)]

/-! ### The header tests and the context they open (R322 to R328) -/

/-- The first test that fails gives its error (R322). -/
theorem checkHeader_of_headerTests {h : Header} {avail cap : Nat} {want : Option Kind} {code : Byte} (hne : code ≠ 0)
    (hcode : code = headerTests h.b0.toNat h.size.toNat avail cap (want.elim 0 kindCode)) :
    ∃ e, checkHeader h avail cap want = some e ∧ e.code = code := by
  rw [headerTests_eq] at hcode
  cases hcheck : checkHeader h avail cap want with
  | none => rw [hcheck] at hcode; exact absurd hcode hne
  | some e => rw [hcheck] at hcode; exact ⟨e, rfl, hcode.symm⟩

/-- The three `kind` operands stand for the kinds of their numbers (R23, R92). -/
theorem kindOperand_of_mem {w : Word} (h : w ∈ [1, 2, 3]) : ∃ k, kindOperand w = some k ∧ kindCode k = w.toNat := by
  simp only [List.mem_cons, List.not_mem_nil, or_false] at h
  rcases h with rfl | rfl | rfl
  · exact ⟨.rl, rfl, rfl⟩
  · exact ⟨.lz, rfl, rfl⟩
  · exact ⟨.huff, rfl, rfl⟩

/-- A header of a context kind has no store block behind it (R156, R325). -/
theorem Header.base_ne_zero_of_kind {h : Header} {k : Kind} (hk : kindOf h.base = some k) : h.base ≠ 0 := by
  intro e
  simp [kindOf, e] at hk

section Init

variable {h : Header} {s : State} {k : Kind} (hslot : s.arg.a0.toNat < s.slots.length)
  (hkind : kindOperand s.arg.a1 = some k) (hdst : s.arg.a2.toNat + s.arg.a3.toNat ≤ 2 ^ 32)
  (hhdr : s.arg.a4.toNat + s.arg.a5.toNat ≤ 2 ^ 32)
include hslot hkind hdst hhdr

/-- `CTX_INIT` raises what the header tests find (R322, R328). -/
theorem ctxInit_raise {e : Err} (hcheck : checkHeader h s.arg.a5.toNat s.arg.a3.toNat (some k) = some e) :
    ctxInit h s = s.raise e := by
  have hat : s.slotAt s.arg.a0 = some s.slots[s.arg.a0.toNat] := List.getElem?_eq_getElem hslot
  simp only [ctxInit, hat, hkind, if_neg (regionFits_both hdst hhdr), hcheck]

/-- `CTX_INIT` on an accepted header puts a fresh context into its slot (R327, R328). -/
theorem ctxInit_accepted (hcheck : checkHeader h s.arg.a5.toNat s.arg.a3.toNat (some k) = none) :
    ctxInit h s = { s with
      status := if h.size = 0 then 2 else 0, errcode := 0, res := ⟨0, 0, 0, 0⟩
      slots := s.slots.set s.arg.a0.toNat (freshContext h s.arg.a2) } := by
  have hat : s.slotAt s.arg.a0 = some s.slots[s.arg.a0.toNat] := List.getElem?_eq_getElem hslot
  have hfin : (freshContext h s.arg.a2).state = .finished ↔ h.size = 0 := by
    change (if h.size = 0 then CtxState.finished else .active) = .finished ↔ _
    split
    · next hz => exact iff_of_true rfl hz
    · next hz => exact iff_of_false nofun hz
  simp only [ctxInit, hat, hkind, if_neg (regionFits_both hdst hhdr), hcheck, State.done_eq, hfin, decide_eq_true_eq]
  rfl

/-- The same with the context of the tables (R325, R327). -/
theorem ctxInit_blockContext (hcheck : checkHeader h s.arg.a5.toNat s.arg.a3.toNat (some k) = none) :
    ctxInit h s = { s with
      status := if h.size = 0 then 2 else 0, errcode := 0, res := ⟨0, 0, 0, 0⟩
      slots := s.slots.set s.arg.a0.toNat (blockContext h.b0.toNat h.size s.arg.a2) } := by
  obtain ⟨-, -, hdif, hwant, hlegal, -⟩ := (checkHeader_eq_none_iff h _ _ _).mp hcheck
  have hb : h.base ≠ 0 := Header.base_ne_zero_of_kind (hwant.resolve_left nofun)
  rw [ctxInit_accepted hslot hkind hdst hhdr hcheck,
    freshContext_eq_blockContext _ hdif hlegal (mt (Header.base_eq_zero_iff hdif hlegal).mpr hb)]

end Init

/-- Settles O20: the tests over numbers are `checkHeader` (`headerTests_eq`), whose error both commands raise. -/
theorem headerTestsDecideTheError : Obligations.HeaderTestsDecideTheError := by
  intro s code hne
  refine ⟨fun hsrc hdst hcode => ?uncompress, fun hslot hkind hdst hhdr hcode => ?init⟩
  case uncompress =>
    rw [← readHeader_size_toNat, ← readHeader_b0] at hcode
    obtain ⟨e, hcheck, rfl⟩ := checkHeader_of_headerTests (want := none) hne hcode
    change uncompressAny (readHeader s.mem s.arg.a0.toNat) s = .next (s.raise e)
    rw [uncompressAny, if_neg (regionFits_both hsrc hdst), hcheck]
  case init =>
    obtain ⟨k, hk, hnumber⟩ := kindOperand_of_mem hkind
    rw [← readHeader_size_toNat, ← readHeader_b0, ← hnumber] at hcode
    obtain ⟨e, hcheck, rfl⟩ := checkHeader_of_headerTests (want := some k) hne hcode
    exact congrArg Host.Outcome.next (ctxInit_raise hslot hk hdst hhdr hcheck)

/-- Settles O21: no test fails, so the context of the header's tables is opened (`ctxInit_blockContext`). -/
theorem ctxInitOpensAContext : Obligations.CtxInitOpensAContext := by
  intro s hslot hkind hdst hhdr htests
  obtain ⟨k, hk, hnumber⟩ := kindOperand_of_mem hkind
  rw [← readHeader_size_toNat, ← readHeader_b0, ← hnumber] at htests
  have hcheck := (headerTests_eq_zero_iff _ _ _ (some k)).mp htests
  have hinit := ctxInit_blockContext hslot hk hdst hhdr hcheck
  have hzero : (readHeader s.mem s.arg.a4.toNat).size = 0 ↔ sizeAt s.mem s.arg.a4.toNat = 0 := by
    rw [← readHeader_size_toNat, BitVec.toNat_eq]
    rfl
  simp only [hzero] at hinit
  rw [← readHeader_size_toNat, BitVec.ofNat_toNat, BitVec.setWidth_eq, readHeader_size_toNat]
  exact congrArg Host.Outcome.next hinit

/-- Byte 0 of the headers that open a context, each with its kind (R95, R325). -/
def contextHeaders : List (Byte × Kind) :=
  [(0x10, .lz), (0x11, .lz), (0x24, .huff), (0x28, .huff), (0x30, .rl), (0x40, .lz)]

/-- Such a header passes the tests of its kind (R322). -/
theorem checkHeader_contextHeader {b : Byte} {k : Kind} (hb : (b, k) ∈ contextHeaders) {size : Word} {avail cap : Nat}
    (h1 : 5 ≤ avail) (h2 : size.toNat ≤ cap) : checkHeader ⟨b, size⟩ avail cap (some k) = none := by
  have key : ∀ p ∈ contextHeaders, p.1.getLsbD 7 = false ∧ (p.1.extractLsb' 4 3).toNat ≤ 4 ∧
      kindOf (p.1.extractLsb' 4 3) = some p.2 ∧ legalFlags (p.1.extractLsb' 4 3) (p.1.extractLsb' 0 4) = true := by
    decide
  obtain ⟨hdif, hrec, hkind, hlegal⟩ := key _ hb
  exact (checkHeader_eq_none_iff _ _ _ _).mpr ⟨h1, decide_eq_true hrec, hdif, .inr hkind, hlegal, h2⟩

/-- Settles O22: each of the six headers runs as its byte 0 and size, which pass the tests of the kind. -/
theorem headersOpenTheirDecoders : Obligations.HeadersOpenTheirDecoders := by
  intro s size i b kind hi hcmd hslot hkind hdst hhdr h5 hcap
  have opens : ∀ (b : Byte) (k : Kind), (b, k) ∈ contextHeaders → kindOperand s.arg.a1 = some k →
      runHeader ⟨b, size⟩ s = .next { s with
        status := if size = 0 then 2 else 0, errcode := 0, res := ⟨0, 0, 0, 0⟩
        slots := s.slots.set s.arg.a0.toNat (blockContext b.toNat size s.arg.a2) } := by
    intro b k hb hk
    have hrun : runHeader ⟨b, size⟩ s = .next (ctxInit ⟨b, size⟩ s) := by simp [runHeader, hcmd]
    rw [hrun, ctxInit_blockContext hslot hk hdst hhdr (checkHeader_contextHeader hb h5 hcap)]
  subst hkind
  simp only [List.mem_cons, List.not_mem_nil, or_false, Prod.mk.injEq] at hi
  rcases hi with ⟨rfl, rfl, hk⟩ | ⟨rfl, rfl, hk⟩ | ⟨rfl, rfl, hk⟩ | ⟨rfl, rfl, hk⟩ | ⟨rfl, rfl, hk⟩ | ⟨rfl, rfl, hk⟩
  · exact opens 0x10 .lz (by decide) (by rw [hk]; rfl)
  · exact opens 0x11 .lz (by decide) (by rw [hk]; rfl)
  · exact opens 0x24 .huff (by decide) (by rw [hk]; rfl)
  · exact opens 0x28 .huff (by decide) (by rw [hk]; rfl)
  · exact opens 0x30 .rl (by decide) (by rw [hk]; rfl)
  · exact opens 0x40 .lz (by decide) (by rw [hk]; rfl)

/-! ### At once and through a slot (R326, R338 b) -/

section UncompressResult

variable (r : Run) (consumed : Nat) (s : State)

theorem uncompressResult_mem : (uncompressResult r consumed s).mem = r.mem := by
  unfold uncompressResult
  dsimp only
  split <;> rfl

theorem uncompressResult_slots : (uncompressResult r consumed s).slots = s.slots := by
  unfold uncompressResult
  dsimp only
  split <;> rfl

theorem uncompressResult_res :
    (uncompressResult r consumed s).res = ⟨r.ctx.outPos, resultWord (5 + consumed), 0, 0⟩ := by
  unfold uncompressResult
  dsimp only
  split <;> rfl

/-- The outcome of the context as `UNCOMPRESS_ANY` reports it (R326). -/
theorem uncompressResult_report (hidle : r.ctx.state ≠ .idle) :
    r.ctx.state = .finished ∧ (uncompressResult r consumed s).status = 2 ∧ (uncompressResult r consumed s).errcode = 0 ∨
    r.ctx.state = .error ∧ (uncompressResult r consumed s).status = 1 ∧
      (uncompressResult r consumed s).errcode = r.ctx.err ∨
    r.ctx.state = .active ∧ (uncompressResult r consumed s).status = 1 ∧
      (uncompressResult r consumed s).errcode = 6 := by
  unfold uncompressResult
  cases hstate : r.ctx.state with
  | idle => exact absurd hstate hidle
  | finished => exact .inl ⟨rfl, rfl, rfl⟩
  | error => exact .inr (.inl ⟨rfl, rfl, rfl⟩)
  | active => exact .inr (.inr ⟨rfl, rfl, rfl⟩)

end UncompressResult

/-- A context opened by a header is not `IDLE` (R327). -/
theorem freshContext_ne_idle (h : Header) (dst : Word) : (freshContext h dst).state ≠ .idle := by
  change (if h.size = 0 then CtxState.finished else .active) ≠ .idle
  split <;> exact nofun

/-- The `kind` operand of an accepted token header selects the header's kind (R92, R325). -/
theorem kindOperand_of_accepted {h : Header} {avail cap : Nat} (hcheck : checkHeader h avail cap none = none)
    (hb : h.b0 ≠ 0) : ∃ k, kindOperand (BitVec.ofNat 32 (kindNumber (h.b0.toNat / 16))) = some k ∧
      checkHeader h avail cap (some k) = none := by
  obtain ⟨h5, hrec, hdif, -, hlegal, hsize⟩ := (checkHeader_eq_none_iff h _ _ _).mp hcheck
  have hbase := Header.base_cases hrec (mt (Header.base_eq_zero_iff hdif hlegal).mp hb)
  have hdigit : h.b0.toNat / 16 = h.base.toNat := by
    have hlt := h.b0.isLt
    have htop : h.b0.toNat / 128 = 0 := by rw [← Header.dif_toNat, hdif]; rfl
    rw [Header.base_toNat]
    omega
  obtain ⟨k, hk, hoperand⟩ : ∃ k, kindOf h.base = some k ∧
      kindOperand (BitVec.ofNat 32 (kindNumber h.base.toNat)) = some k := by
    rcases hbase with e | e | e | e <;> rw [e] <;> exact ⟨_, rfl, rfl⟩
  exact ⟨k, by rw [hdigit, hoperand], (checkHeader_eq_none_iff h _ _ _).mpr ⟨h5, hrec, hdif, .inr hk, hlegal, hsize⟩⟩

/-- `UNCOMPRESS_ANY` on an accepted token header whose source is apart from the destination (R326). -/
theorem uncompressTokens_apart {h : Header} {s : State} (hok : (freshContext h s.arg.a2).Ok)
    (hapart : Apart s.arg.a0.toNat s.arg.a1.toNat s.arg.a2.toNat h.size.toNat) :
    uncompressTokens h s = .next (uncompressResult
      (feed (s.arg.a0.toNat + 5) (s.arg.a1.toNat - 5) ⟨s.mem, freshContext h s.arg.a2⟩).1
      (feed (s.arg.a0.toNat + 5) (s.arg.a1.toNat - 5) ⟨s.mem, freshContext h s.arg.a2⟩).2 s) := by
  obtain ⟨hok', hadv, -, -, hidle'⟩ := feed_advance (s.arg.a0.toNat + 5) (s.arg.a1.toNat - 5)
    ⟨s.mem, freshContext h s.arg.a2⟩ hok (freshContext_ne_idle _ _)
  have hsize := hok'.outPos_le hidle'
  rw [hadv.outSize] at hsize
  have hout := (overlaps_eq_false_iff _ _ _ _).mpr (hapart.mono (Nat.le_refl _) (Nat.le_refl _) (Nat.le_refl _)
    (Nat.add_le_add_left hsize _))
  simp only [uncompressTokens, hout]
  rfl

/-- The operands of the `CTX_INIT` and of the `CTX_READ` that stream the source of an `UNCOMPRESS_ANY` through slot
`j`. -/
def Args.initSlot (g : Args) (j : Nat) (b : Nat) : Args :=
  ⟨BitVec.ofNat 32 j, BitVec.ofNat 32 (kindNumber (b / 16)), g.a2, g.a3, g.a0, g.a1⟩

def Args.readSlot (g : Args) (j : Nat) : Args := ⟨BitVec.ofNat 32 j, g.a0 + 5, g.a1 - 5, 0, 0, 0⟩

/-- The `CTX_INIT` opens the slot on the context of `UNCOMPRESS_ANY`. -/
theorem execCtxInit_stream {s : State} {h : Header} {j : Nat} (hh : readHeader s.mem s.arg.a0.toNat = h)
    (hj : j < s.slots.length) (hj32 : j < 2 ^ 32) (hsrc : s.arg.a0.toNat + s.arg.a1.toNat ≤ 2 ^ 32)
    (hdst : s.arg.a2.toNat + s.arg.a3.toNat ≤ 2 ^ 32)
    (hcheck : checkHeader h s.arg.a1.toNat s.arg.a3.toNat none = none) (hb : h.b0 ≠ 0) :
    ∃ u, execCtxInit (s.setArgs (s.arg.initSlot j h.b0.toNat)) = .next u ∧ u.mem = s.mem ∧
      u.slots = s.slots.set j (freshContext h s.arg.a2) := by
  obtain ⟨k, hk, hcheck'⟩ := kindOperand_of_accepted hcheck hb
  have hat : (BitVec.ofNat 32 j).toNat = j := by rw [BitVec.toNat_ofNat, Nat.mod_eq_of_lt hj32]
  have hslot : (BitVec.ofNat 32 j).toNat < s.slots.length := by rwa [hat]
  have hinit := ctxInit_accepted (s := s.setArgs (s.arg.initSlot j h.b0.toNat)) hslot hk hdst hsrc hcheck'
  refine ⟨_, (congrArg (fun h => Host.Outcome.next (ctxInit h _)) hh).trans (congrArg Host.Outcome.next hinit),
    rfl, ?_⟩
  change s.slots.set (BitVec.ofNat 32 j).toNat _ = _
  rw [hat]
  rfl

/-- The `CTX_READ` feeds the slot what `UNCOMPRESS_ANY` feeds its own context. -/
theorem execCtxRead_stream {s u : State} {h : Header} {j : Nat} (hj : j < s.slots.length) (hj32 : j < 2 ^ 32)
    (hsrc : s.arg.a0.toNat + s.arg.a1.toNat ≤ 2 ^ 32) (h5 : 5 ≤ s.arg.a1.toNat)
    (hok : (freshContext h s.arg.a2).Ok)
    (hapart : Apart s.arg.a0.toNat s.arg.a1.toNat s.arg.a2.toNat h.size.toNat)
    (hmem : u.mem = s.mem) (hslots : u.slots = s.slots.set j (freshContext h s.arg.a2)) :
    execCtxRead (u.setArgs (s.arg.readSlot j)) = .next (readResult (freshContext h s.arg.a2)
      (feed (s.arg.a0.toNat + 5) (s.arg.a1.toNat - 5) ⟨s.mem, freshContext h s.arg.a2⟩).1
      (feed (s.arg.a0.toNat + 5) (s.arg.a1.toNat - 5) ⟨s.mem, freshContext h s.arg.a2⟩).2
      (u.setArgs (s.arg.readSlot j))) := by
  have hlen : (s.arg.a1 - 5).toNat = s.arg.a1.toNat - 5 := BitVec.toNat_sub_of_le h5
  have hfits : s.arg.a0.toNat + (5 : Word).toNat + (s.arg.a1.toNat - 5) ≤ 2 ^ 32 := by
    change s.arg.a0.toNat + 5 + _ ≤ _
    omega
  have haddr := pieceAddr_toNat hfits
  have hslot : (u.setArgs (s.arg.readSlot j)).SlotIs (freshContext h s.arg.a2) := by
    change u.slots[(BitVec.ofNat 32 j).toNat]? = _
    rw [hslots, BitVec.toNat_ofNat, Nat.mod_eq_of_lt hj32]
    exact List.getElem?_set_self hj
  have hread := execCtxRead_of_ok hslot hok (freshContext_ne_idle _ _)
    (by change (s.arg.a0 + 5).toNat + (s.arg.a1 - 5).toNat ≤ 2 ^ 32
        have := (s.arg.a0 + 5).isLt
        change _ ∨ _ = s.arg.a0.toNat + 5 at haddr
        omega)
    (by change Apart (s.arg.a0 + 5).toNat (s.arg.a1 - 5).toNat s.arg.a2.toNat h.size.toNat
        change _ ∨ _ = s.arg.a0.toNat + 5 at haddr
        simp only [Apart] at hapart ⊢
        omega)
  change _ = Host.Outcome.next (readResult _ (feed (s.arg.a0 + 5).toNat (s.arg.a1 - 5).toNat ⟨u.mem, _⟩).1
    (feed (s.arg.a0 + 5).toNat (s.arg.a1 - 5).toNat ⟨u.mem, _⟩).2 _) at hread
  rw [hlen, feed_pieceAddr hfits, hmem] at hread
  exact hread

/-- Settles O28: the slot is opened on the context of `UNCOMPRESS_ANY`, and both are fed the same bytes. -/
theorem oneShotEqualsStreaming : Obligations.OneShotEqualsStreaming := by
  intro s j hj hj32 hsrc hdst htests hb hapart
  rw [← readHeader_size_toNat] at htests hapart
  rw [← readHeader_b0] at htests hb ⊢
  obtain ⟨h, hh⟩ : ∃ h, readHeader s.mem s.arg.a0.toNat = h := ⟨_, rfl⟩
  rw [hh] at htests hapart hb ⊢
  have hcheck := (headerTests_eq_zero_iff h _ _ none).mp htests
  have hb0 : h.b0 ≠ 0 := fun e => hb (by rw [e]; rfl)
  obtain ⟨h5, -, hdif, -, hlegal, -⟩ := (checkHeader_eq_none_iff h _ _ _).mp hcheck
  have hbase : h.base ≠ 0 := mt (Header.base_eq_zero_iff hdif hlegal).mp hb0
  have hok := freshContext_ok s.arg.a2 hcheck hbase hdst
  have honce := uncompressAny_accepted hsrc hdst hcheck
  rw [if_neg hbase, uncompressTokens_apart hok hapart] at honce
  obtain ⟨u, hinit, hmem, hslots⟩ := execCtxInit_stream hh hj hj32 hsrc hdst hcheck hb0
  have hread := execCtxRead_stream hj hj32 hsrc h5 hok hapart hmem hslots
  obtain ⟨hok', -, hle, hcount, hidle'⟩ := feed_advance (s.arg.a0.toNat + 5) (s.arg.a1.toNat - 5)
    ⟨s.mem, freshContext h s.arg.a2⟩ hok (freshContext_ne_idle _ _)
  generalize feed (s.arg.a0.toNat + 5) (s.arg.a1.toNat - 5) ⟨s.mem, freshContext h s.arg.a2⟩ = fed at *
  have hlt := s.arg.a1.isLt
  refine ⟨_, u, _, fed.1.ctx, (congrArg (uncompressAny · s) hh).trans honce, hinit, hread, ?_, ?_, ?_, ?_, ?_, ?_⟩
  · rw [readResult_slots]
    change (u.slots.set (BitVec.ofNat 32 j).toNat _)[j]? = _
    rw [hslots, BitVec.toNat_ofNat, Nat.mod_eq_of_lt hj32]
    exact List.getElem?_set_self (by rwa [List.length_set])
  · rw [uncompressResult_mem, readResult_mem]
  · exact uncompressResult_slots _ _ _
  · rw [uncompressResult_res]
  · have hin : fed.1.ctx.inCount.toNat = fed.2 := by
      rw [hcount]
      change (0 + BitVec.ofNat 64 fed.2).toNat = _
      rw [zero_add, BitVec.toNat_ofNat, Nat.mod_eq_of_lt (by omega)]
    rw [uncompressResult_res, hin]
    exact resultWord_toNat (by omega)
  · rw [readResult_errcode]
    rcases uncompressResult_report fed.1 fed.2 s hidle' with ⟨hst, h1, h2⟩ | ⟨hst, h1, h2⟩ | ⟨hst, h1, h2⟩
    · exact .inl ⟨hst, h1, h2, if_neg (by rw [hst]; exact nofun)⟩
    · exact .inr (.inl ⟨hst, h1, h2, if_pos hst⟩)
    · exact .inr (.inr ⟨hst, h1, h2, if_neg (by rw [hst]; exact nofun)⟩)

/-! ### Where an instruction writes (R62, R338 c) -/

/-- Outside the regions, each a base and a length, `m'` reads as `m` does. -/
def Memory.SameBut (m m' : Memory) (regions : List (Nat × Nat)) : Prop :=
  ∀ a, (∀ r ∈ regions, a < r.1 ∨ r.1 + r.2 ≤ a) → m'.read a = m.read a

theorem Memory.SameBut.refl (m : Memory) (regions : List (Nat × Nat)) : m.SameBut m regions := fun _ _ => rfl

/-- Bytes changed inside one of the regions. -/
theorem Memory.SameOutside.sameBut {m m' : Memory} {a n b k : Nat} {regions : List (Nat × Nat)}
    (h : m.SameOutside m' a n) (hmem : (b, k) ∈ regions) (hlo : b ≤ a) (hhi : a + n ≤ b + k) :
    m.SameBut m' regions := by
  intro x hx
  have hout := hx _ hmem
  exact h x (by simp only at hout; omega)

/-- What a command that names no context does (R337, R338): every slot stays, and memory outside the regions. -/
structure State.Writes (s : State) (regions : List (Nat × Nat)) (t : State) : Prop where
  slots : t.slots = s.slots
  mem : s.mem.SameBut t.mem regions

section Writes

variable (s : State) {regions : List (Nat × Nat)}

/-! A command that changes the response alone -/

theorem State.Writes.raise (e : Err) : s.Writes regions (s.raise e) := ⟨rfl, .refl _ _⟩

theorem State.Writes.raiseCode (code : Byte) (res : Results) : s.Writes regions (s.raiseCode code res) :=
  ⟨rfl, .refl _ _⟩

theorem State.Writes.done (fin notSmaller : Bool) (res : Results) : s.Writes regions (s.done fin notSmaller res) :=
  ⟨rfl, .refl _ _⟩

/-! Command by command -/

theorem getType_writes (b : Byte) : s.Writes regions (getType b s) := by
  unfold getType
  dsimp only
  split
  · exact .raiseCode s _ _
  · split
    · exact .raiseCode s _ _
    · split
      · exact .raiseCode s _ _
      · exact .done s _ _ _

theorem getSize_writes (size : Word) : s.Writes regions (getSize size s) := by
  unfold getSize
  split
  · exact .raise s _
  · split
    · exact .raise s _
    · exact .done s _ _ _

theorem execCtxFinished_writes : AllNext (s.Writes regions) (execCtxFinished s) := by
  unfold execCtxFinished
  split
  · exact State.Writes.raise s _
  · exact State.Writes.done s _ _ _

theorem execCtxQuery_writes : AllNext (s.Writes regions) (execCtxQuery s) := by
  unfold execCtxQuery
  split
  · exact State.Writes.raise s _
  · split <;> exact State.Writes.done s _ _ _

theorem packGet_writes (bits index : Word) : AllNext (s.Writes regions) (packGet bits index s) := by
  unfold packGet
  split
  · exact State.Writes.raise s _
  · exact State.Writes.done s _ _ _

theorem execLzFind_writes : AllNext (s.Writes regions) (execLzFind s) := by
  unfold execLzFind
  split
  · exact State.Writes.raise s _
  · split
    · exact State.Writes.raise s _
    · split <;> exact State.Writes.done s _ _ _

/-- The store copy writes its data (R156). -/
theorem storeCopy_writes {data : List Byte} (h : (s.arg.a2.toNat, data.length) ∈ regions) :
    AllNext (s.Writes regions) (storeCopy data s) := by
  unfold storeCopy
  split
  · exact State.Writes.raise s _
  · split
    · trivial
    · exact ⟨rfl, (Memory.writeList_sameOutside _ _ _).sameBut h (Nat.le_refl _) (Nat.le_refl _)⟩

theorem execBytes_writes (data : List Byte) :
    AllNext (s.Writes [(s.arg.a2.toNat, data.length)]) (execBytes data s) := by
  unfold execBytes
  split
  · exact State.Writes.raise s _
  · split
    · exact State.Writes.raise s _
    · exact storeCopy_writes s (List.mem_singleton.mpr rfl)

/-- A decoder that keeps to the declared size writes inside its destination (R65). -/
theorem Run.Advance.sameBut {r r' : Run} (h : r.Advance r') (hfits : r'.ctx.outPos.toNat ≤ r'.ctx.outSize.toNat)
    (hmem : (r.ctx.dstBase.toNat, r.ctx.outSize.toNat) ∈ regions) : r.mem.SameBut r'.mem regions := by
  have hpos := h.outPos
  rw [h.outSize] at hfits
  exact h.mem.sameBut hmem (Nat.le_add_right _ _) (by rw [Ctx.outAddr]; omega)

/-- The token decoders of `UNCOMPRESS_ANY` write inside the destination of the block (R326). -/
theorem uncompressTokens_writes {h : Header} (hok : (freshContext h s.arg.a2).Ok)
    (hmem : (s.arg.a2.toNat, h.size.toNat) ∈ regions) : AllNext (s.Writes regions) (uncompressTokens h s) := by
  unfold uncompressTokens
  dsimp only
  split
  · trivial
  · obtain ⟨hok', hadv, -, -, hidle'⟩ := feed_advance (s.arg.a0.toNat + 5) (s.arg.a1.toNat - 5)
      ⟨s.mem, freshContext h s.arg.a2⟩ hok (freshContext_ne_idle _ _)
    refine ⟨uncompressResult_slots _ _ _, ?_⟩
    rw [uncompressResult_mem]
    exact hadv.sameBut (hok'.outPos_le hidle') hmem

/-- `UNCOMPRESS_ANY` writes only where its header is accepted, and then inside the destination (R322, R326). -/
theorem uncompressAny_writes {h : Header}
    (hmem : checkHeader h s.arg.a1.toNat s.arg.a3.toNat none = none → (s.arg.a2.toNat, h.size.toNat) ∈ regions) :
    AllNext (s.Writes regions) (uncompressAny h s) := by
  unfold uncompressAny
  split
  · exact State.Writes.raise s _
  · next hr =>
    rw [not_or, Bool.not_eq_false, Bool.not_eq_false, regionFits_iff, regionFits_iff] at hr
    split
    · exact State.Writes.raise s _
    · next hc =>
      split
      · split
        · exact State.Writes.raise s _
        · exact storeCopy_writes s (by rw [Memory.readList_length]; exact hmem hc)
      · next hb => exact uncompressTokens_writes s (freshContext_ok _ hc hb hr.2) (hmem hc)

theorem execUncompressAny_writes :
    AllNext (s.Writes [(s.arg.a2.toNat, sizeAt s.mem s.arg.a0.toNat)]) (execUncompressAny s) :=
  uncompressAny_writes s fun _ => by rw [readHeader_size_toNat]; exact List.mem_singleton.mpr rfl

/-- `PACK_SET` writes inside its buffer (R134). -/
theorem packSet_writes (bits index : Word) :
    AllNext (s.Writes [(s.arg.a0.toNat, s.arg.a1.toNat)]) (packSet bits index s) := by
  unfold packSet
  split
  · exact State.Writes.raise s _
  · next hp =>
    obtain ⟨-, -, -, hlast⟩ := (packError_eq_none_iff _ _ _ _).mp hp
    refine ⟨rfl, fun x hx => ?_⟩
    have hout := hx _ (List.mem_singleton.mpr rfl)
    refine (Memory.read_packBytes _ _ _ _ _ _ _ x).trans (if_neg ?_)
    simp only at hout
    omega

theorem execPkvElement_writes (bits index : Word) :
    AllNext (s.Writes [(s.arg.a0.toNat, s.arg.a1.toNat)]) (execPkvElement bits index s) := by
  unfold execPkvElement
  split
  · exact packGet_writes s bits index
  · split
    · exact packSet_writes s bits index
    · trivial

/-- `LZ_COMPRESS` writes inside the capacity it is given, whatever its outcome (R200). -/
theorem execLzCompress_writes : AllNext (s.Writes [(s.arg.a2.toNat, s.arg.a3.toNat)]) (execLzCompress s) := by
  have hscratch : s.mem.SameBut (s.mem.writeFree s.arg.a2.toNat s.freeCount (min s.arg.a3.toNat s.arg.a1.toNat))
      [(s.arg.a2.toNat, s.arg.a3.toNat)] :=
    (Memory.writeFree_sameOutside _ _ _ _).sameBut (List.mem_singleton.mpr rfl) (Nat.le_refl _)
      (Nat.add_le_add_left (Nat.min_le_left _ _) _)
  unfold execLzCompress
  split
  · exact State.Writes.raise s _
  · dsimp only
    split
    · trivial
    · split
      · exact ⟨rfl, hscratch⟩
      · split
        · exact ⟨rfl, hscratch⟩
        · next hfits =>
          exact ⟨rfl, (Memory.writeList_sameOutside _ _ _).sameBut (List.mem_singleton.mpr rfl) (Nat.le_refl _)
            (Nat.add_le_add_left (Nat.not_lt.mp hfits) _)⟩

/-- `HUF_BUILD` writes its two tables (R262). -/
theorem execHufBuild_writes : AllNext (s.Writes [(s.arg.a2.toNat, alphabetSize s.arg.a1 / 2),
    (s.arg.a3.toNat, 2 * alphabetSize s.arg.a1)]) (execHufBuild s) := by
  have hlength := (buildLengths_length (readFreqs s.mem s.arg.a0.toNat (alphabetSize s.arg.a1))).trans
    (readFreqs_length _ _ _)
  cases hlegal : hufBuildLegal s.arg with
  | false =>
    rw [execHufBuild, if_pos hlegal]
    exact State.Writes.raise s _
  | true =>
    cases hover : hufBuildOverlap s.arg with
    | true =>
      rw [execHufBuild, if_neg (by simp [hlegal]), if_pos hover]
      trivial
    | false =>
      rw [execHufBuild_written hlegal hover rfl]
      refine ⟨rfl, fun x hx => ?_⟩
      have hlens := hx _ (List.mem_cons_self ..)
      have hcodes := hx _ (List.mem_cons_of_mem _ (List.mem_singleton.mpr rfl))
      rw [← hlength] at hlens hcodes
      exact Memory.withTables_outside (by rw [hlength, alphabetSize_even]) hlens hcodes

/-- `HUF_LOAD` writes its code table (R268). -/
theorem execHufLoad_writes : AllNext (s.Writes [(s.arg.a2.toNat, 2 * alphabetSize s.arg.a1)]) (execHufLoad s) := by
  unfold execHufLoad
  split
  · exact State.Writes.raise s _
  · dsimp only
    split
    · exact State.Writes.raise s _
    · split
      · trivial
      · refine ⟨rfl, (Memory.writeList_sameOutside _ _ _).sameBut (List.mem_singleton.mpr rfl) (Nat.le_refl _) ?_⟩
        rw [codeTableBytes_length, readLens_length]

variable {s}

theorem AllNext.sameBut_of_writes {o : Outcome} (h : AllNext (s.Writes regions) o) :
    AllNext (fun t => s.mem.SameBut t.mem regions) o := h.mono fun _ h => h.mem

end Writes

/-! The instructions that may change a slot -/

section SlotWrites

variable (s : State) {regions : List (Nat × Nat)}

/-- What `CTX_INIT` can do: raise, or put a fresh context into its slot (R328). -/
theorem ctxInit_cases (h : Header) : (∃ e, ctxInit h s = s.raise e) ∨
    ctxInit h s = (s.setSlot s.arg.a0.toNat (freshContext h s.arg.a2)).done
      (decide ((freshContext h s.arg.a2).state = .finished)) false noResults := by
  unfold ctxInit
  split
  · split
    · exact .inl ⟨_, rfl⟩
    · split
      · exact .inl ⟨_, rfl⟩
      · exact .inr rfl
  · exact .inl ⟨_, rfl⟩

theorem ctxInit_mem (h : Header) : (ctxInit h s).mem = s.mem := by
  rcases ctxInit_cases s h with ⟨e, he⟩ | he <;> rw [he] <;> rfl

theorem execCtxDiscard_mem : AllNext (fun t => t.mem = s.mem) (execCtxDiscard s) := by
  unfold execCtxDiscard
  split <;> rfl

/-- A header writes only where it is accepted, and then inside the destination of its block. -/
theorem runHeader_sameBut {h : Header} (hmem : checkHeader h s.arg.a1.toNat s.arg.a3.toNat none = none →
    (s.arg.a2.toNat, h.size.toNat) ∈ regions) : AllNext (fun t => s.mem.SameBut t.mem regions) (runHeader h s) := by
  unfold runHeader
  split
  · exact (getType_writes s _).mem
  · split
    · exact (getSize_writes s _).mem
    · split
      · exact .sameBut_of_writes (uncompressAny_writes s hmem)
      · split
        · rw [allNext_next, ctxInit_mem]
          exact .refl _ _
        · trivial

/-- Bytes consumed by the engine advance a context that satisfies the invariant, over any memory. -/
theorem consumeAll_stepByte_advance (bs : List Byte) (r : Run) (hok : r.ctx.Ok) (hidle : r.ctx.state ≠ .idle) :
    r.Advance (Run.consumeAll (bs.map stepByte) r) ∧
      (Run.consumeAll (bs.map stepByte) r).ctx.outPos.toNat ≤
        (Run.consumeAll (bs.map stepByte) r).ctx.outSize.toNat := by
  induction bs generalizing r with
  | nil => exact ⟨.refl r, hok.outPos_le hidle⟩
  | cons x xs ih =>
    by_cases hactive : r.ctx.state = .active
    · obtain ⟨hok', hadv, -, hidle'⟩ := Run.consume_stepByte x hok hactive
      obtain ⟨hadv', hfits⟩ := ih _ hok' hidle'
      rw [List.map_cons, Run.consumeAll_cons _ _ _ hactive]
      exact ⟨hadv.trans hadv', hfits⟩
    · rw [Run.consumeAll_stopped _ _ hactive]
      exact ⟨.refl r, hok.outPos_le hidle⟩

variable {s}

/-- The destination of the slot `ARG0` names, where `CTX_READ` and the tokens may write. -/
theorem State.writable_ctxRead {c : Ctx} (hslot : s.SlotIs c) :
    s.writable .ctxRead = [(c.dstBase.toNat, c.outSize.toNat)] := by
  simp only [State.writable, hslot]

theorem execCtxRead_sameBut (hok : ∀ c, s.SlotIs c → c.Ok) :
    AllNext (fun t => s.mem.SameBut t.mem (s.writable .ctxRead)) (execCtxRead s) := by
  unfold execCtxRead
  split
  · exact .refl _ _
  · next c hslot =>
    split
    · exact .refl _ _
    · split
      · exact .refl _ _
      · exact .refl _ _
      · exact .refl _ _
      · next hactive =>
        dsimp only
        split
        · trivial
        · have hidle : c.state ≠ .idle := by rw [hactive]; exact nofun
          obtain ⟨hok', hadv, -, -, hidle'⟩ :=
            feed_advance s.arg.a1.toNat s.arg.a2.toNat ⟨s.mem, c⟩ (hok c hslot) hidle
          rw [allNext_next, readResult_mem, State.writable_ctxRead hslot]
          exact hadv.sameBut (hok'.outPos_le hidle') (List.mem_singleton.mpr rfl)

theorem runToken_sameBut (hok : ∀ c, s.SlotIs c → c.Ok) (f : Format) (bs : List Byte) :
    AllNext (fun t => s.mem.SameBut t.mem (s.writable .ctxRead)) (runToken f (bs.map stepByte) s) := by
  rcases runToken_cases f (bs.map stepByte) s with ⟨c, hslot, hactive, -, e⟩ | ⟨-, e⟩
  · have hidle : c.state ≠ .idle := by rw [hactive]; exact nofun
    obtain ⟨hadv, hfits⟩ := consumeAll_stepByte_advance bs ⟨s.mem, c⟩ (hok c hslot) hidle
    rw [e, State.writable_ctxRead hslot]
    exact hadv.sameBut hfits (List.mem_singleton.mpr rfl)
  · rw [e]
    trivial

theorem exec_token_sameBut {i : Instr} (hok : ∀ c, s.SlotIs c → c.Ok) (hwf : i.wellFormed = true)
    (h : formatOf i ∈ [Format.rlt, .lzFlag, .lzLit, .lzRef, .lzxRef, .flt, .hft, .hfc]) :
    AllNext (fun t => s.mem.SameBut t.mem (s.writable .ctxRead)) (exec i s) := by
  rw [exec_token_eq_engine hwf h]
  exact runToken_sameBut hok _ _

/-- No decoder accepts these three headers (R97, R323, R324). -/
theorem checkHeader_hdrUnrecognised {tag flags : BitVec 4} {size : Word}
    (hwf : (Instr.hdrUnrecognised tag flags size).wellFormed = true) (avail cap : Nat) (want : Option Kind) :
    checkHeader ⟨headerByte tag flags, size⟩ avail cap want ≠ none := by
  intro e
  obtain ⟨-, hrec, -⟩ := (checkHeader_eq_none_iff _ _ _ _).mp e
  rw [recognised_of_hdrUnrecognised hwf] at hrec
  cases hrec

theorem checkHeader_hdrDif {base : BitVec 3} {flags : BitVec 4} {size : Word}
    (hwf : (Instr.hdrDif base flags size).wellFormed = true) (avail cap : Nat) (want : Option Kind) :
    checkHeader ⟨headerByte (1#1 ++ base) flags, size⟩ avail cap want ≠ none := by
  intro e
  obtain ⟨-, -, hdif, -⟩ := (checkHeader_eq_none_iff _ _ _ _).mp e
  obtain ⟨-, hdif', -, -⟩ := headerByte_base 1#1 flags size (by simpa [Instr.wellFormed] using hwf)
  rw [hdif'] at hdif
  cases hdif

theorem checkHeader_hdrBadFlags {base : BitVec 3} {flags : BitVec 4} {size : Word}
    (hwf : (Instr.hdrBadFlags base flags size).wellFormed = true) (avail cap : Nat) (want : Option Kind) :
    checkHeader ⟨headerByte (0#1 ++ base) flags, size⟩ avail cap want ≠ none := by
  intro e
  simp only [Instr.wellFormed, Bool.and_eq_true, decide_eq_true_eq, Bool.not_eq_true'] at hwf
  obtain ⟨-, -, -, -, hlegal, -⟩ := (checkHeader_eq_none_iff _ _ _ _).mp e
  obtain ⟨-, -, hb, hf⟩ := headerByte_base 0#1 flags size hwf.1
  rw [hb, hf, hwf.2] at hlegal
  cases hlegal

/-- A command that moves no slot writes memory inside its regions only (R337, R338 c). -/
theorem exec_command_writes {i : Instr} (hcmd : formatOf i = .cmd) (hinit : i ≠ .ctxInit) (hread : i ≠ .ctxRead)
    (hdiscard : i ≠ .ctxDiscard) : AllNext (s.Writes (s.writable i)) (exec i s) := by
  cases i with
  | getType => exact getType_writes s _
  | getSize => exact getSize_writes s _
  | uncompressAny => exact execUncompressAny_writes s
  | ctxInit => exact absurd rfl hinit
  | ctxRead => exact absurd rfl hread
  | ctxFinished => exact execCtxFinished_writes s
  | ctxDiscard => exact absurd rfl hdiscard
  | ctxQuery => exact execCtxQuery_writes s
  | packGet => exact packGet_writes s _ _
  | packSet => exact packSet_writes s _ _
  | lzFind => exact execLzFind_writes s
  | lzCompress => exact execLzCompress_writes s
  | hufBuild =>
    simp only [State.writable, lenTableSize_eq, codeTableSize_eq]
    exact execHufBuild_writes s
  | hufLoad =>
    simp only [State.writable, codeTableSize_eq]
    exact execHufLoad_writes s
  | cmdUnknown code => exact State.Writes.raise s _
  | _ => cases hcmd

/-- Each instruction writes memory inside its regions only (R338 c). -/
theorem exec_sameBut {i : Instr} (hwf : i.wellFormed = true) (hok : ∀ c, s.SlotIs c → c.Ok) :
    AllNext (fun t => s.mem.SameBut t.mem (s.writable i)) (exec i s) := by
  cases i with
  | getType | getSize | uncompressAny | ctxFinished | ctxQuery | packGet | packSet | lzFind | lzCompress | hufBuild
  | hufLoad | cmdUnknown _ => exact .sameBut_of_writes (exec_command_writes rfl nofun nofun nofun)
  | ctxInit =>
    change s.mem.SameBut (ctxInit _ s).mem _
    rw [ctxInit_mem]
    exact .refl _ _
  | ctxRead => exact execCtxRead_sameBut hok
  | ctxDiscard => exact (execCtxDiscard_mem s).mono fun _ h => h ▸ .refl _ _
  | hdrNone size | hdrLz size | hdrLzx size | hdrHuf4 size | hdrHuf8 size | hdrRl size | hdrFlz size =>
    exact runHeader_sameBut s fun _ => List.mem_singleton.mpr rfl
  | hdrDif base flags size => exact runHeader_sameBut s fun h => absurd h (checkHeader_hdrDif hwf _ _ _)
  | hdrUnrecognised tag flags size =>
    exact runHeader_sameBut s fun h => absurd h (checkHeader_hdrUnrecognised hwf _ _ _)
  | hdrBadFlags base flags size =>
    exact runHeader_sameBut s fun h => absurd h (checkHeader_hdrBadFlags hwf _ _ _)
  | bytes data => exact .sameBut_of_writes (execBytes_writes s data)
  | rltLits _ | rltRun _ _ | lztFlags _ | lztLit _ | lztRef _ _ | lzxtRef _ _ | fltLits _ | fltMatchShort _ _
  | fltMatchLong _ _ | hftByte _ _ | hfcCode _ => exact exec_token_sameBut hok hwf (by simp [formatOf])
  | pkvElement bits index => exact .sameBut_of_writes (execPkvElement_writes s bits index)

end SlotWrites

/-- Settles O34: instruction by instruction (`exec_sameBut`); a slot's context satisfies the invariant. -/
theorem writesAreBounded : Obligations.WritesAreBounded :=
  fun _ _ _ hwf hinv he => (exec_sameBut hwf fun _ hslot => hinv.slotAt_ok hslot).of_eq he

/-! ### `CTX_READ` by the state of its slot (R331, R338 e) -/

/-- Settles O26: outside `ACTIVE` the state decides; else the engine advances the context (`feed_advance`) and the report
is that of the slot (`readResult_eq`). -/
theorem ctxReadByStateOfItsSlot : Obligations.CtxReadByStateOfItsSlot := by
  intro s c hslot hfits
  refine ⟨execCtxRead_badState hslot hfits, execCtxRead_error hslot hfits, fun hfin => ?finished,
    fun hactive hok hapart => ?active⟩
  case finished => exact (execCtxRead_finished hslot hfits hfin).trans (by rw [State.done_eq]; rfl)
  case active =>
    have hidle : c.state ≠ .idle := by rw [hactive]; exact nofun
    obtain ⟨hok', hadv, hle, hcount, hidle'⟩ := feed_advance s.arg.a1.toNat s.arg.a2.toNat ⟨s.mem, c⟩ hok hidle
    have hread := execCtxRead_of_ok hslot hok hidle hfits hapart
    rw [readResult_eq _ _ _ (hok'.err_eq_zero hidle')] at hread
    exact ⟨_, _, _, hle, hread, hcount, hadv.outPos, hidle', hadv.dstBase, hadv.outSize, hadv.kind, hadv.mode,
      feed_all_of_active _ _ _, hadv.mem⟩

/-! ### `CTX_DISCARD`, `CTX_FINISHED`, `CTX_QUERY` (R334 to R336) -/

/-- Settles O30: the slot exists or not; the one dropped is `IDLE`. -/
theorem ctxDiscardFreesTheSlot : Obligations.CtxDiscardFreesTheSlot := by
  intro s
  refine ⟨execCtxDiscard_badArg, fun hlt => ⟨freeSlot s.freeCount, s.freeCount + 1, rfl, ?_⟩⟩
  have hat : s.slotAt s.arg.a0 = some s.slots[s.arg.a0.toNat] := List.getElem?_eq_getElem hlt
  change execCtxDiscard s = _
  simp only [execCtxDiscard, hat]
  rfl

/-- Fields of a word that share no bit add up. -/
theorem toNat_or_shiftLeft {x y : Word} {k : Nat} (hx : x.toNat < 2 ^ k) (hy : 2 ^ k * y.toNat < 2 ^ 32) :
    (x ||| y <<< k).toNat = x.toNat + 2 ^ k * y.toNat := by
  rw [BitVec.toNat_or, BitVec.toNat_shiftLeft, Nat.shiftLeft_eq, Nat.mul_comm y.toNat, Nat.mod_eq_of_lt hy, Nat.or_comm,
    Nat.mul_comm, ← Nat.shiftLeft_eq, ← Nat.shiftLeft_add_eq_or_of_lt hx, Nat.shiftLeft_eq, Nat.mul_comm, Nat.add_comm]

/-- The packed status of `CTX_QUERY` as the sum of its fields (R336). -/
theorem queryWord_toNat (c : Ctx) : (queryWord c).toNat = stateCode c.state + 2 ^ 8 * c.err.toNat +
    2 ^ 16 * phaseCode c.phase + 2 ^ 24 * kindCode c.kind + 2 ^ 28 * c.mode.toNat := by
  have hstate : stateCode c.state < 4 := by cases c.state <;> decide
  have hphase : phaseCode c.phase < 13 := by cases c.phase <;> decide
  have hkind : kindCode c.kind < 4 := by cases c.kind <;> decide
  have herr := c.err.isLt
  have hmode := c.mode.isLt
  have number : ∀ n < 2 ^ 32, (BitVec.ofNat 32 n).toNat = n := fun n hn => by
    rw [BitVec.toNat_ofNat, Nat.mod_eq_of_lt hn]
  have e0 := number (stateCode c.state) (by omega)
  have e1 : (c.err.setWidth 32 : Word).toNat = c.err.toNat := setWidth_byte_toNat c.err
  have e2 := number (phaseCode c.phase) (by omega)
  have e3 := number (kindCode c.kind) (by omega)
  have e4 : (c.mode.setWidth 32 : Word).toNat = c.mode.toNat := BitVec.toNat_setWidth_of_le (by decide)
  have h1 := toNat_or_shiftLeft (x := BitVec.ofNat 32 (stateCode c.state)) (y := c.err.setWidth 32) (k := 8)
    (by omega) (by omega)
  have h2 := toNat_or_shiftLeft (y := BitVec.ofNat 32 (phaseCode c.phase)) (k := 16)
    (by rw [h1]; omega) (by omega)
  have h3 := toNat_or_shiftLeft (y := BitVec.ofNat 32 (kindCode c.kind)) (k := 24) (by rw [h2]; omega) (by omega)
  have h4 := toNat_or_shiftLeft (y := c.mode.setWidth 32) (k := 28) (by rw [h3]; omega) (by omega)
  rw [queryWord, h4, h3, h2, h1, e0, e1, e2, e3, e4]

/-- The two halves of the counter a query reports (R336). -/
theorem inCount_halves (n : BitVec 64) : n.extractLsb' 0 32 = BitVec.ofNat 32 n.toNat ∧
    n.extractLsb' 32 32 = BitVec.ofNat 32 (n.toNat / 2 ^ 32) := by
  rw [← Nat.shiftRight_eq_div_pow]
  exact ⟨rfl, rfl⟩

/-- Settles O31: both commands look at the slot, and the fields of the packed status share no bit. -/
theorem ctxFinishedAndQueryReport : Obligations.CtxFinishedAndQueryReport := by
  intro s
  refine ⟨fun h => ⟨execCtxFinished_badArg h, execCtxQuery_badArg h⟩, fun c hslot => ?_⟩
  have hat : s.slotAt s.arg.a0 = some c := hslot
  refine ⟨?_, fun hidle => ?_, fun hidle => ⟨queryWord c, ?_, queryWord_toNat c⟩⟩
  · change execCtxFinished s = _
    simp only [execCtxFinished, hat, State.done_eq, decide_eq_true_eq]
  · change execCtxQuery s = _
    simp only [execCtxQuery, hat, if_pos hidle, State.done_eq]
    rfl
  · obtain ⟨hlo, hhi⟩ := inCount_halves c.inCount
    change execCtxQuery s = _
    simp only [execCtxQuery, hat, if_neg hidle, State.done_eq, decide_eq_true_eq, hlo, hhi]

/-! ### The slot state machine (R337) -/

/-- A step rule leaves `state` alone, or stops the context with a payload error (R329). -/
def KeepsStateOrRaises (rule : Run → Run) : Prop :=
  ∀ r, (rule r).ctx.state = r.ctx.state ∨ (rule r).ctx.state = .error ∧ (rule r).ctx.err ∈ payloadCodes

theorem KeepsStateOrRaises.ite {p : Run → Prop} [DecidablePred p] {rule rule' : Run → Run}
    (h : KeepsStateOrRaises rule) (h' : KeepsStateOrRaises rule') :
    KeepsStateOrRaises fun r => if p r then rule r else rule' r := by
  intro r
  dsimp only
  split
  · exact h r
  · exact h' r

theorem keepsStateOrRaises_raise {e : Err} (he : e.code ∈ payloadCodes) : KeepsStateOrRaises (Run.raise · e) :=
  fun _ => .inr ⟨rfl, he⟩

theorem keepsStateOrRaises_copy (off len : Run → Nat) {after : Ctx → Ctx} (h : ∀ c, (after c).state = c.state) :
    KeepsStateOrRaises fun r => r.copy (off r) (len r) after :=
  (keepsStateOrRaises_raise (e := .badOffset) (by decide)).ite (p := fun r => r.ctx.outPos.toNat < off r)
    ((keepsStateOrRaises_raise (e := .overrun) (by decide)).ite (p := fun r => r.ctx.wouldOverrun (len r) = true)
      fun _ => .inl (h _))

/-- A run that is started or refused (R171, R172, R228). -/
theorem keepsStateOrRaises_start (n : Nat) (p : Phase) : KeepsStateOrRaises fun r =>
    if r.ctx.wouldOverrun n then r.raise .overrun
    else { r with ctx := { r.ctx with cnt := BitVec.ofNat 9 n, phase := p } } :=
  (keepsStateOrRaises_raise (e := .overrun) (by decide)).ite (p := fun r => r.ctx.wouldOverrun n = true)
    fun _ => .inl rfl

theorem keepsStateOrRaises_hfTable (x : Byte) : KeepsStateOrRaises (hfTable x) := by
  intro r
  unfold hfTable
  dsimp only
  split
  · split
    · exact .inl rfl
    · exact .inr ⟨rfl, show Err.badTable.code ∈ payloadCodes by decide⟩
  · exact .inl rfl

theorem Run.emitSym_state (r : Run) (y : Nat) : (r.emitSym y).ctx.state = r.ctx.state := by
  unfold Run.emitSym
  split
  · split <;> rfl
  · rfl

theorem keepsStateOrRaises_hfBits (bs : List Bool) : KeepsStateOrRaises (hfBits bs) := by
  induction bs with
  | nil => exact fun _ => .inl rfl
  | cons b bs ih =>
    intro r
    unfold hfBits
    dsimp only
    split
    · next y _ =>
      have hsym := Run.emitSym_state ⟨r.mem, (r.ctx.pushBit b).clearCode⟩ y
      split
      · exact .inl hsym
      · exact (ih _).imp_left fun h => h.trans hsym
    · split
      · exact .inr ⟨rfl, show Err.badCode.code ∈ payloadCodes by decide⟩
      · exact ih ⟨r.mem, r.ctx.pushBit b⟩

theorem keepsStateOrRaises_stepByte (x : Byte) : KeepsStateOrRaises (stepByte x) := by
  intro r
  unfold stepByte
  split
  case h_1 => unfold rlCtrl; split; exacts [keepsStateOrRaises_start _ _ r, keepsStateOrRaises_start _ _ r]
  case h_5 => split <;> exact .inl rfl
  case h_6 =>
    split
    · exact .inl rfl
    · exact keepsStateOrRaises_copy (fun r => (plainOffField r.ctx.b0 x).toNat + 1)
        (fun r => (plainLenField r.ctx.b0).toNat + 3) (after := Ctx.nextTok) (fun _ => rfl) r
  case h_7 =>
    exact keepsStateOrRaises_copy (fun r => (extOffField r.ctx.b1 x).toNat + 1) (fun r => r.ctx.b0.toNat + 3)
      (after := Ctx.nextTok) (fun _ => rfl) r
  case h_8 =>
    unfold flOp
    split
    · exact keepsStateOrRaises_start _ _ r
    · split <;> exact .inl rfl
  case h_11 =>
    exact keepsStateOrRaises_copy (fun r => (fastOffField r.ctx.b0 x).toNat + 1) (fun r => r.ctx.cnt.toNat)
      (after := fun c => { c with cnt := 0, phase := .flOp }) (fun _ => rfl) r
  case h_12 => exact keepsStateOrRaises_hfTable x r
  case h_13 => exact keepsStateOrRaises_hfBits _ r
  all_goals exact .inl rfl

/-- What decoding an `ACTIVE` context can leave: a context, whose error is one of the payload. -/
structure Ctx.Decoding (c : Ctx) : Prop where
  ne_idle : c.state ≠ .idle
  err : c.state = .error → c.err ∈ payloadCodes

theorem Run.consume_decoding (x : Byte) {r : Run} (h : r.ctx.state = .active) :
    (r.consume (stepByte x)).ctx.Decoding := by
  have hstep := keepsStateOrRaises_stepByte x r.count
  rw [Run.consume]
  generalize stepByte x r.count = r' at hstep
  unfold Run.settle
  split
  · exact ⟨nofun, nofun⟩
  · rcases hstep with hs | ⟨hs, herr⟩
    · have hs : r'.ctx.state = .active := hs.trans h
      exact ⟨by rw [hs]; exact nofun, by rw [hs]; exact nofun⟩
    · exact ⟨by rw [hs]; exact nofun, fun _ => herr⟩

/-- `feed` on any context that satisfies this, whatever its other fields are (R330). -/
theorem feed_decoding (a n : Nat) {r : Run} (h : r.ctx.Decoding) : (feed a n r).1.ctx.Decoding := by
  induction n generalizing a r with
  | zero => exact h
  | succ n ih =>
    by_cases hactive : r.ctx.state = .active
    · rw [feed_succ a n r hactive]
      exact ih (a + 1) (Run.consume_decoding _ hactive)
    · rwa [feed_stopped a _ r hactive]

/-- The slot `ARG0` names becomes `c'`, and no other slot moves. -/
theorem slotIs_of_set {s t : State} {c c' : Ctx} (hslot : s.SlotIs c) (harg : t.arg = s.arg)
    (hset : t.slots = s.slots.set s.arg.a0.toNat c') :
    t.SlotIs c' ∧ ∀ j, j ≠ s.arg.a0.toNat → t.slots[j]? = s.slots[j]? := by
  refine ⟨?_, fun j hj => ?_⟩
  · rw [State.SlotIs, harg, hset]
    exact List.getElem?_set_self (List.getElem?_eq_some_iff.mp hslot).1
  · rw [hset]
    exact List.getElem?_set_ne (Ne.symm hj)

/-- `CTX_INIT` opens the slot, or raises and leaves it (R328). -/
theorem ctxInit_moves {s : State} {c : Ctx} (h : Header) (hslot : s.SlotIs c) :
    ∃ c', (ctxInit h s).slots = s.slots.set s.arg.a0.toNat c' ∧
      ((ctxInit h s).errcode = 0 → c'.state = if c'.outSize = 0 then .finished else .active) ∧
      ((ctxInit h s).errcode ≠ 0 → c' = c) := by
  rcases ctxInit_cases s h with ⟨e, he⟩ | he <;> rw [he]
  · refine ⟨c, (set_of_slotIs hslot).symm, fun h0 => ?_, fun _ => rfl⟩
    have hcode := e.code_range.1
    rw [show e.code = 0 from h0] at hcode
    exact absurd hcode (by decide)
  · exact ⟨_, rfl, fun _ => rfl, fun hne => absurd rfl hne⟩

/-- `CTX_READ` moves an `ACTIVE` slot only, and not to `IDLE` (R331). -/
theorem execCtxRead_moves {s t : State} {c : Ctx} (hslot : s.SlotIs c) (h : execCtxRead s = .next t) :
    ∃ c', t.slots = s.slots.set s.arg.a0.toNat c' ∧ (t.errcode = 13 → c' = c) ∧ (t.errcode ≠ 13 →
      (c.state = .idle → c' = c ∧ t.errcode = 11) ∧ (c.state = .finished → c' = c ∧ t.res.r0 = 0) ∧
        (c.state = .error → c' = c ∧ t.errcode = c.err) ∧ (c.state = .active → c'.state ≠ .idle)) := by
  have hset := (set_of_slotIs hslot).symm
  by_cases hfits : s.arg.a1.toNat + s.arg.a2.toNat ≤ 2 ^ 32
  swap
  · rw [execCtxRead_badArg (.inr (Nat.not_le.mp hfits))] at h
    cases h
    exact ⟨c, hset, fun _ => rfl, fun hne => absurd rfl hne⟩
  cases hs : c.state with
  | idle =>
    rw [execCtxRead_badState hslot hfits hs] at h
    cases h
    exact ⟨c, hset, fun _ => rfl, fun _ => ⟨fun _ => ⟨rfl, rfl⟩, nofun, nofun, nofun⟩⟩
  | error =>
    rw [execCtxRead_error hslot hfits hs] at h
    cases h
    exact ⟨c, hset, fun _ => rfl, fun _ => ⟨nofun, nofun, fun _ => ⟨rfl, rfl⟩, nofun⟩⟩
  | finished =>
    rw [execCtxRead_finished hslot hfits hs] at h
    cases h
    exact ⟨c, hset, fun _ => rfl, fun _ => ⟨nofun, fun _ => ⟨rfl, rfl⟩, nofun, nofun⟩⟩
  | active =>
    have hapart := mt (execCtxRead_refused_iff hslot hs hfits).mpr (by rw [h]; exact nofun)
    rw [execCtxRead_active hslot hs hfits (not_not.mp hapart)] at h
    cases h
    have hdec : (feed s.arg.a1.toNat s.arg.a2.toNat ⟨s.mem, c⟩).1.ctx.Decoding :=
      feed_decoding _ _ ⟨by rw [hs]; exact nofun, by rw [hs]; exact nofun⟩
    refine ⟨_, readResult_slots _ _ _ _, fun herr => ?_, fun _ => ⟨nofun, nofun, nofun, fun _ => hdec.ne_idle⟩⟩
    rw [readResult_errcode] at herr
    split at herr
    · next he =>
      have hmem := hdec.err he
      rw [herr] at hmem
      exact absurd hmem (by decide)
    · exact absurd herr (by decide)

theorem execCtxDiscard_moves {s t : State} {c : Ctx} (hslot : s.SlotIs c) (h : execCtxDiscard s = .next t) :
    ∃ c', t.slots = s.slots.set s.arg.a0.toNat c' ∧ t.errcode = 0 ∧ c'.state = .idle := by
  have hat : s.slotAt s.arg.a0 = some c := hslot
  simp only [execCtxDiscard, hat] at h
  cases h
  exact ⟨_, rfl, rfl, rfl⟩

/-- Settles O33: the three commands that move a slot one by one; the others leave the slots (`exec_command_writes`). -/
theorem slotStateMachine : Obligations.SlotStateMachine := by
  intro s t c i hslot h hcmd
  have harg : t.arg = s.arg := ((exec_keepsUnder i s).of_eq h).arg
  by_cases hinit : i = .ctxInit
  · subst hinit
    obtain ⟨c', hset, hopen, hsame⟩ := ctxInit_moves (readHeader s.mem s.arg.a4.toNat) hslot
    rw [Host.Outcome.next.inj h] at hset hopen hsame
    obtain ⟨hat, hframe⟩ := slotIs_of_set hslot harg hset
    exact ⟨c', hat, hframe, fun h13 => hsame (by rw [h13]; decide), fun _ => hopen, fun _ => hsame, nofun, nofun,
      fun hne => absurd rfl hne⟩
  by_cases hread : i = .ctxRead
  · subst hread
    obtain ⟨c', hset, hbad, hmoves⟩ := execCtxRead_moves hslot h
    obtain ⟨hat, hframe⟩ := slotIs_of_set hslot harg hset
    exact ⟨c', hat, hframe, hbad, nofun, nofun, fun _ => hmoves, nofun, fun _ hne => absurd rfl hne⟩
  by_cases hdiscard : i = .ctxDiscard
  · subst hdiscard
    obtain ⟨c', hset, hok, hidle⟩ := execCtxDiscard_moves hslot h
    obtain ⟨hat, hframe⟩ := slotIs_of_set hslot harg hset
    exact ⟨c', hat, hframe, fun h13 => absurd (hok.symm.trans h13) (by decide), nofun, nofun, nofun, fun _ => hidle,
      fun _ _ hne => absurd rfl hne⟩
  · have hslots := ((exec_command_writes hcmd hinit hread hdiscard).of_eq h).slots
    obtain ⟨hat, hframe⟩ := slotIs_of_set hslot harg (hslots.trans (set_of_slotIs hslot).symm)
    exact ⟨c, hat, hframe, fun _ => rfl, fun h => absurd h hinit, fun _ _ => rfl, fun h => absurd h hread,
      fun h => absurd h hdiscard, fun _ _ _ => rfl⟩

end Sys2Proof.Machine

/-!
The statements about errors, reset and hazards (60_exceptions.md, 70_reset_and_hazards.md): what an error leaves alone,
how the error of a context lasts, and what a command that names no context depends on.
-/

namespace Sys2Proof.Machine

/-! ### Errors that leave memory and slots alone (R365) -/

/-- The codes of the operand, header, state and range classes (R361). -/
def earlyCodes : List Byte := [1, 2, 3, 4, 5, 11, 12, 13, 14]

/-- The other codes: no error, or an error of the payload (R361). -/
def lateCodes : List Byte := 0 :: Err.truncatedPayload.code :: payloadCodes

theorem notMem_earlyCodes_of_late {b : Byte} (h : b ∈ lateCodes) : b ∉ earlyCodes := by
  revert b
  decide

/-- A command that ends with an error of those classes has changed neither memory nor a slot. -/
def State.EarlyKept (s t : State) : Prop := t.errcode ∈ earlyCodes → t.mem = s.mem ∧ t.slots = s.slots

/-- A command that changes the response alone. -/
theorem State.EarlyKept.respond (s : State) (status : Word) (errcode : Byte) (res : Results) :
    s.EarlyKept (s.respond status errcode res) := fun _ => ⟨rfl, rfl⟩

theorem State.EarlyKept.of_late {s t : State} (h : t.errcode ∈ lateCodes) : s.EarlyKept t :=
  fun he => absurd he (notMem_earlyCodes_of_late h)

theorem State.EarlyKept.done (s t : State) (fin notSmaller : Bool) (res : Results) :
    s.EarlyKept (t.done fin notSmaller res) := .of_late (List.mem_cons_self ..)

section EarlyErrors

variable (s : State)

theorem getType_earlyKept (b : Byte) : s.EarlyKept (getType b s) := by
  unfold getType
  dsimp only
  split
  · exact .respond s _ _ _
  · split
    · exact .respond s _ _ _
    · split <;> exact .respond s _ _ _

theorem getSize_earlyKept (size : Word) : s.EarlyKept (getSize size s) := by
  unfold getSize
  split
  · exact .respond s _ _ _
  · split <;> exact .respond s _ _ _

theorem storeCopy_earlyKept (data : List Byte) : AllNext s.EarlyKept (storeCopy data s) := by
  unfold storeCopy
  split
  · exact State.EarlyKept.respond s _ _ _
  · split
    · trivial
    · exact State.EarlyKept.done s _ _ _ _

theorem Ctx.Decoding.of_active {c : Ctx} (h : c.state = .active) : c.Decoding :=
  ⟨by rw [h]; exact nofun, by rw [h]; exact nofun⟩

/-- A fresh context is `ACTIVE` or, for an empty block, `FINISHED` (R327). -/
theorem freshContext_decoding (h : Header) (dst : Word) : (freshContext h dst).Decoding where
  ne_idle := freshContext_ne_idle h dst
  err he := by
    change (if h.size = 0 then CtxState.finished else .active) = .error at he
    split at he <;> cases he

/-- The error of a decoder is one of the payload (R326, R329). -/
theorem uncompressTokens_earlyKept (h : Header) : AllNext s.EarlyKept (uncompressTokens h s) := by
  unfold uncompressTokens
  dsimp only
  split
  · trivial
  · have hdec : (feed (s.arg.a0.toNat + 5) (s.arg.a1.toNat - 5) ⟨s.mem, freshContext h s.arg.a2⟩).1.ctx.Decoding :=
      feed_decoding _ _ (freshContext_decoding h s.arg.a2)
    refine .of_late ?_
    rcases uncompressResult_report _ _ s hdec.ne_idle with ⟨-, -, hcode⟩ | ⟨he, -, hcode⟩ | ⟨-, -, hcode⟩ <;> rw [hcode]
    · decide
    · exact List.mem_cons_of_mem _ (List.mem_cons_of_mem _ (hdec.err he))
    · decide

theorem uncompressAny_earlyKept (h : Header) : AllNext s.EarlyKept (uncompressAny h s) := by
  unfold uncompressAny
  split
  · exact State.EarlyKept.respond s _ _ _
  · split
    · exact State.EarlyKept.respond s _ _ _
    · split
      · split
        · exact State.EarlyKept.respond s _ _ _
        · exact storeCopy_earlyKept s _
      · exact uncompressTokens_earlyKept s h

theorem ctxInit_earlyKept (h : Header) : s.EarlyKept (ctxInit h s) := by
  rcases ctxInit_cases s h with ⟨e, he⟩ | he <;> rw [he]
  · exact .respond s _ _ _
  · exact .done s _ _ _ _

theorem readResult_earlyKept (before : Ctx) {r : Run} (consumed : Nat) (h : r.ctx.Decoding) :
    s.EarlyKept (readResult before r consumed s) := by
  refine .of_late ?_
  rw [readResult_errcode]
  split
  · next he => exact List.mem_cons_of_mem _ (List.mem_cons_of_mem _ (h.err he))
  · decide

/-- A read of a slot that is not `ACTIVE` changes the response alone; of one that is, it is `feed` and its report
(R331). -/
theorem execCtxRead_earlyKept : AllNext s.EarlyKept (execCtxRead s) := by
  unfold execCtxRead
  split
  · exact State.EarlyKept.respond s _ _ _
  · split
    · exact State.EarlyKept.respond s _ _ _
    · split
      · exact State.EarlyKept.respond s _ _ _
      · exact State.EarlyKept.respond s _ _ _
      · exact State.EarlyKept.respond s _ _ _
      · next hactive =>
        dsimp only
        split
        · trivial
        · exact readResult_earlyKept s _ _ (feed_decoding _ _ (.of_active hactive))

theorem execCtxFinished_earlyKept : AllNext s.EarlyKept (execCtxFinished s) := by
  unfold execCtxFinished
  split <;> exact State.EarlyKept.respond s _ _ _

theorem execCtxDiscard_earlyKept : AllNext s.EarlyKept (execCtxDiscard s) := by
  unfold execCtxDiscard
  split
  · exact State.EarlyKept.respond s _ _ _
  · exact State.EarlyKept.done s _ _ _ _

theorem execCtxQuery_earlyKept : AllNext s.EarlyKept (execCtxQuery s) := by
  unfold execCtxQuery
  split
  · exact State.EarlyKept.respond s _ _ _
  · split <;> exact State.EarlyKept.respond s _ _ _

theorem packGet_earlyKept (bits index : Word) : AllNext s.EarlyKept (packGet bits index s) := by
  unfold packGet
  split <;> exact State.EarlyKept.respond s _ _ _

theorem packSet_earlyKept (bits index : Word) : AllNext s.EarlyKept (packSet bits index s) := by
  unfold packSet
  split
  · exact State.EarlyKept.respond s _ _ _
  · exact State.EarlyKept.done s _ _ _ _

theorem execLzFind_earlyKept : AllNext s.EarlyKept (execLzFind s) := by
  unfold execLzFind
  split
  · exact State.EarlyKept.respond s _ _ _
  · split
    · exact State.EarlyKept.respond s _ _ _
    · split <;> exact State.EarlyKept.respond s _ _ _

/-- `LZ_COMPRESS` raises one error after its operand tests, `E_DST_TOO_SMALL` (R200). -/
theorem execLzCompress_earlyKept : AllNext (fun t => t.errcode ≠ 5 → s.EarlyKept t) (execLzCompress s) := by
  unfold execLzCompress
  split
  · exact fun _ => .respond s _ _ _
  · dsimp only
    split
    · trivial
    · split
      · exact fun _ => .done s _ _ _ _
      · split
        · exact fun hne => absurd rfl hne
        · exact fun _ => .done s _ _ _ _

theorem execHufBuild_earlyKept : AllNext s.EarlyKept (execHufBuild s) := by
  unfold execHufBuild
  split
  · exact State.EarlyKept.respond s _ _ _
  · split
    · trivial
    · exact State.EarlyKept.done s _ _ _ _

theorem execHufLoad_earlyKept : AllNext s.EarlyKept (execHufLoad s) := by
  unfold execHufLoad
  split
  · exact State.EarlyKept.respond s _ _ _
  · dsimp only
    split
    · exact State.EarlyKept.respond s _ _ _
    · split
      · trivial
      · exact State.EarlyKept.done s _ _ _ _

theorem exec_earlyKept {i : Instr} (hcmd : formatOf i = .cmd) (hne : i ≠ .lzCompress) :
    AllNext s.EarlyKept (exec i s) := by
  cases i with
  | getType => exact getType_earlyKept s _
  | getSize => exact getSize_earlyKept s _
  | uncompressAny => exact uncompressAny_earlyKept s _
  | ctxInit => exact ctxInit_earlyKept s _
  | ctxRead => exact execCtxRead_earlyKept s
  | ctxFinished => exact execCtxFinished_earlyKept s
  | ctxDiscard => exact execCtxDiscard_earlyKept s
  | ctxQuery => exact execCtxQuery_earlyKept s
  | packGet => exact packGet_earlyKept s _ _
  | packSet => exact packSet_earlyKept s _ _
  | lzFind => exact execLzFind_earlyKept s
  | lzCompress => exact absurd rfl hne
  | hufBuild => exact execHufBuild_earlyKept s
  | hufLoad => exact execHufLoad_earlyKept s
  | cmdUnknown code => exact State.EarlyKept.respond s _ _ _
  | _ => cases hcmd

end EarlyErrors

/-- Settles O16: every command but `LZ_COMPRESS` tests before it writes (`exec_earlyKept`); that one has one error left
after its tests. -/
theorem earlyErrorsChangeNothing : Obligations.EarlyErrorsChangeNothing := by
  intro i s t hcmd h hearly hscratch
  by_cases hi : i = .lzCompress
  · subst hi
    exact (execLzCompress_earlyKept s).of_eq h (fun h5 => hscratch ⟨rfl, h5⟩) hearly
  · exact (exec_earlyKept s hcmd hi).of_eq h hearly

/-! ### The error of a context (R363) -/

/-- A read of an `ACTIVE` slot, where it is not refused, is `feed` and its report (R331). -/
theorem readResult_of_execCtxRead {s t : State} {c : Ctx} (hslot : s.SlotIs c) (hactive : c.state = .active)
    (hfits : s.arg.a1.toNat + s.arg.a2.toNat ≤ 2 ^ 32) (h : execCtxRead s = .next t) :
    ∃ r consumed, t = readResult c r consumed s := by
  have hapart := mt (execCtxRead_refused_iff hslot hactive hfits).mpr (by rw [h]; exact nofun)
  rw [execCtxRead_active hslot hactive hfits (not_not.mp hapart)] at h
  exact ⟨_, _, (Host.Outcome.next.inj h).symm⟩

/-- A read that raises has put its slot into `ERROR`, with the code it raises (R331). -/
theorem execCtxRead_records {s t : State} {c : Ctx} (hslot : s.SlotIs c) (hactive : c.state = .active)
    (hfits : s.arg.a1.toNat + s.arg.a2.toNat ≤ 2 ^ 32) (h : execCtxRead s = .next t) (herr : t.errcode ≠ 0) :
    ∃ c', t.slots[s.arg.a0.toNat]? = some c' ∧ c'.state = .error ∧ c'.err = t.errcode := by
  obtain ⟨r, consumed, rfl⟩ := readResult_of_execCtxRead hslot hactive hfits h
  have hstate : r.ctx.state = .error := by
    by_contra hne
    exact herr (by rw [readResult_errcode, if_neg hne])
  refine ⟨r.ctx, ?_, hstate, by rw [readResult_errcode, if_pos hstate]⟩
  rw [readResult_slots]
  exact List.getElem?_set_self (List.getElem?_eq_some_iff.mp hslot).1

/-- Where `ARG0` names no slot, no command moves one (R321, R337). -/
theorem exec_slots_of_noSlot {i : Instr} {s : State} (hcmd : formatOf i = .cmd)
    (hout : s.slots.length ≤ s.arg.a0.toNat) : AllNext (fun t => t.slots = s.slots) (exec i s) := by
  cases i with
  | ctxInit =>
    rw [show exec .ctxInit s = _ from execCtxInit_badArg (.inl hout)]
    rfl
  | ctxRead =>
    rw [show exec .ctxRead s = _ from execCtxRead_badArg (.inl hout)]
    rfl
  | ctxDiscard =>
    rw [show exec .ctxDiscard s = _ from execCtxDiscard_badArg hout]
    rfl
  | getType | getSize | uncompressAny | ctxFinished | ctxQuery | packGet | packSet | lzFind | lzCompress | hufBuild
  | hufLoad | cmdUnknown _ => exact (exec_command_writes hcmd nofun nofun nofun).mono fun _ h => h.slots
  | _ => cases hcmd

/-- A slot in `ERROR` stays as it is under every command but a successful `CTX_INIT` and `CTX_DISCARD`. -/
theorem exec_keeps_error_slot {i : Instr} {s t : State} {c : Ctx} {j : Nat} (hj : s.slots[j]? = some c)
    (herror : c.state = .error) (hcmd : formatOf i = .cmd) (h : exec i s = .next t)
    (hinit : ¬ (i = .ctxInit ∧ t.errcode = 0)) (hdiscard : i ≠ .ctxDiscard) : t.slots[j]? = some c := by
  by_cases hout : s.slots.length ≤ s.arg.a0.toNat
  · rw [(exec_slots_of_noSlot hcmd hout).of_eq h, hj]
  have hslot : s.SlotIs _ := List.getElem?_eq_getElem (Nat.not_le.mp hout)
  obtain ⟨c', hat, hframe, hbad, -, hraised, hread, -, hother⟩ := slotStateMachine s t _ i hslot h hcmd
  by_cases hne : j = s.arg.a0.toNat
  swap
  · rw [hframe j hne, hj]
  subst hne
  cases hslot.symm.trans hj
  rw [State.SlotIs, ((exec_keepsUnder i s).of_eq h).arg] at hat
  rw [hat, Option.some_inj]
  by_cases hi : i = .ctxInit
  · exact hraised hi fun h0 => hinit ⟨hi, h0⟩
  by_cases hr : i = .ctxRead
  · by_cases h13 : t.errcode = 13
    · exact hbad h13
    · obtain ⟨-, -, hagain, -⟩ := hread hr h13
      exact (hagain herror).1
  · exact hother hi hr hdiscard

/-- The error field of the packed status (R336). -/
theorem extractLsb'_of_packedStatus {w : Word} {c : Ctx} (h : w.toNat = stateCode c.state + 2 ^ 8 * c.err.toNat +
    2 ^ 16 * phaseCode c.phase + 2 ^ 24 * kindCode c.kind + 2 ^ 28 * c.mode.toNat) : w.extractLsb' 8 8 = c.err := by
  have hstate : stateCode c.state < 4 := by cases c.state <;> decide
  have herr := c.err.isLt
  refine BitVec.eq_of_toNat_eq ?_
  rw [BitVec.extractLsb'_toNat, Nat.shiftRight_eq_div_pow, h]
  omega

/-- Settles O32: the read that raises records its code (`execCtxRead_records`), and from then on the slot stays
(`exec_keeps_error_slot`) and answers by its state. -/
theorem contextErrorIsSticky : Obligations.ContextErrorIsSticky := by
  rintro s c j hj
  refine ⟨?raised, fun herror i t hcmd h hinit hdiscard =>
    ⟨exec_keeps_error_slot hj herror hcmd h hinit hdiscard, ?read, ?finished, ?query⟩⟩
  case raised =>
    rintro hactive rfl hfits t h hne
    exact execCtxRead_records hj hactive hfits h hne
  case read =>
    rintro rfl rfl hfits
    exact Host.Outcome.next.inj (h.symm.trans (execCtxRead_error hj hfits herror))
  case finished =>
    rintro rfl rfl
    obtain ⟨-, report⟩ := ctxFinishedAndQueryReport s
    obtain ⟨hfinished, -, -⟩ := report c hj
    rw [herror] at hfinished
    exact Host.Outcome.next.inj (h.symm.trans hfinished)
  case query =>
    rintro rfl rfl
    obtain ⟨-, report⟩ := ctxFinishedAndQueryReport s
    obtain ⟨-, -, answer⟩ := report c hj
    obtain ⟨w, hquery, hw⟩ := answer (by rw [herror]; exact nofun)
    rw [herror] at hquery
    cases h.symm.trans hquery
    exact ⟨rfl, extractLsb'_of_packedStatus hw⟩

/-! ### What a command that names no context depends on (R402) -/

/-- A state that has nothing of `s` but what such a command may depend on: its operands, memory, `D_FAST`, and the
model's counter of free values (log 23). -/
def State.inputs (s : State) : State :=
  { State.reset with arg := s.arg, mem := s.mem, dFast := s.dFast, freeCount := s.freeCount }

/-- The state `u` has what such a command reads in `s`. -/
structure State.SameReads (s u : State) : Prop where
  arg : u.arg = s.arg
  mem : u.mem = s.mem
  dFast : u.dFast = s.dFast

theorem State.inputs_reads (s : State) : s.SameReads s.inputs := ⟨rfl, rfl, rfl⟩

/-- The response, the memory and the counter of `t`; everything else as in `s`. -/
def State.answer (s t : State) : State :=
  { s with status := t.status, errcode := t.errcode, res := t.res, mem := t.mem, freeCount := t.freeCount }

/-- The second outcome is the first one carried over to `s`; neither is a fault. -/
inductive State.RunsAs (s : State) : Outcome → Outcome → Prop where
  | next (t : State) : s.RunsAs (.next t) (.next (s.answer t))
  | refused (r : Refusal) : s.RunsAs (.refused r) (.refused r)

namespace State.RunsAs

theorem of_eq {s t t' : State} (h : t' = s.answer t) : s.RunsAs (.next t) (.next t') := h ▸ .next t

/-- What runs in two states as in a third gives both the same answer, and leaves the slots of each. -/
theorem agree {s s' : State} {o os os' : Outcome} (h : s.RunsAs o os) (h' : s'.RunsAs o os') :
    (∀ t, os = .next t → t.slots = s.slots ∧ os' = .next (s'.answer t)) ∧
      (∀ r, os = .refused r → os' = .refused r) ∧ ∀ r, os ≠ .fault r := by
  cases h with
  | next t =>
    cases h'
    exact ⟨fun _ e => by cases e; exact ⟨rfl, rfl⟩, nofun, nofun⟩
  | refused r =>
    cases h'
    exact ⟨nofun, fun _ e => e, nofun⟩

end State.RunsAs

section Inputs

variable (s : State)

theorem getType_inputs (b : Byte) : getType b s = s.answer (getType b s.inputs) := by
  simp only [getType, s.inputs_reads.arg]
  split
  · rfl
  · split
    · rfl
    · split <;> rfl

theorem getSize_inputs (size : Word) : getSize size s = s.answer (getSize size s.inputs) := by
  simp only [getSize, s.inputs_reads.arg]
  split
  · rfl
  · split <;> rfl

theorem storeCopy_inputs (data : List Byte) : s.RunsAs (storeCopy data s.inputs) (storeCopy data s) := by
  simp only [storeCopy, s.inputs_reads.arg, s.inputs_reads.mem]
  split
  · exact .next _
  · split
    · exact .refused _
    · exact .next _

theorem uncompressResult_inputs (r : Run) (consumed : Nat) :
    uncompressResult r consumed s = s.answer (uncompressResult r consumed s.inputs) := by
  simp only [uncompressResult]
  split <;> rfl

theorem uncompressTokens_inputs (h : Header) : s.RunsAs (uncompressTokens h s.inputs) (uncompressTokens h s) := by
  simp only [uncompressTokens, s.inputs_reads.arg, s.inputs_reads.mem]
  split
  · exact .refused _
  · exact .of_eq (uncompressResult_inputs s _ _)

theorem uncompressAny_inputs (h : Header) : s.RunsAs (uncompressAny h s.inputs) (uncompressAny h s) := by
  simp only [uncompressAny, s.inputs_reads.arg, s.inputs_reads.mem]
  split
  · exact .next _
  · split
    · exact .next _
    · split
      · split
        · exact .next _
        · exact storeCopy_inputs s _
      · exact uncompressTokens_inputs s h

theorem packGet_inputs (bits index : Word) : s.RunsAs (packGet bits index s.inputs) (packGet bits index s) := by
  simp only [packGet, s.inputs_reads.arg, s.inputs_reads.mem]
  split <;> exact .next _

theorem packSet_inputs (bits index : Word) : s.RunsAs (packSet bits index s.inputs) (packSet bits index s) := by
  simp only [packSet, s.inputs_reads.arg, s.inputs_reads.mem]
  split <;> exact .next _

theorem execLzFind_inputs : s.RunsAs (execLzFind s.inputs) (execLzFind s) := by
  simp only [execLzFind, s.inputs_reads.arg, s.inputs_reads.mem, s.inputs_reads.dFast]
  split
  · exact .next _
  · split
    · exact .next _
    · split <;> exact .next _

theorem execLzCompress_inputs : s.RunsAs (execLzCompress s.inputs) (execLzCompress s) := by
  simp only [execLzCompress, s.inputs_reads.arg, s.inputs_reads.mem, s.inputs_reads.dFast]
  split
  · exact .next _
  · split
    · exact .refused _
    · split
      · exact .next _
      · split <;> exact .next _

theorem execHufBuild_inputs : s.RunsAs (execHufBuild s.inputs) (execHufBuild s) := by
  simp only [execHufBuild, s.inputs_reads.arg, s.inputs_reads.mem]
  split
  · exact .next _
  · split
    · exact .refused _
    · exact .next _

theorem execHufLoad_inputs : s.RunsAs (execHufLoad s.inputs) (execHufLoad s) := by
  simp only [execHufLoad, s.inputs_reads.arg, s.inputs_reads.mem]
  split
  · exact .next _
  · split
    · exact .next _
    · split
      · exact .refused _
      · exact .next _

/-- A command that names no context runs as it does where there is nothing but its inputs. -/
theorem exec_inputs {i : Instr} (h : i ∈ contextFree) : s.RunsAs (exec i s.inputs) (exec i s) := by
  cases i with
  | getType => exact .of_eq (getType_inputs s _)
  | getSize => exact .of_eq (getSize_inputs s _)
  | uncompressAny => exact uncompressAny_inputs s _
  | packGet => exact packGet_inputs s _ _
  | packSet => exact packSet_inputs s _ _
  | lzFind => exact execLzFind_inputs s
  | lzCompress => exact execLzCompress_inputs s
  | hufBuild => exact execHufBuild_inputs s
  | hufLoad => exact execHufLoad_inputs s
  | _ => simp [contextFree] at h

end Inputs

/-- Settles O10: both states run the command as their common inputs do (`exec_inputs`). -/
theorem contextFreeCommandsUseOperandsAndMemory : Obligations.ContextFreeCommandsUseOperandsAndMemory := by
  intro i s s' hi harg hmem hdFast hfree
  have hinputs : s'.inputs = s.inputs := by simp only [State.inputs, harg, hmem, hdFast, hfree]
  exact (exec_inputs s hi).agree (hinputs ▸ exec_inputs s' hi)

end Sys2Proof.Machine
